-- ==== Sys2Proof/Word.lean ====
section
/-! DEFINITION. The byte and word types of the engine, and the lane, block and profile numbers. -/

namespace Sys2Proof

/-- A character of the host link, a byte of a lane cycle, a tag, a report sequence number. -/
abbrev Byte := BitVec 8

/-- A two-byte field that wraps: the CRC register, the engine epoch, the episode count. -/
abbrev Word16 := BitVec 16

/-- Lanes are numbered 0 to 7 (00_scope, Conventions). -/
abbrev LaneId := Fin 8

/-- Blocks have handles 0 to 63 (R130). -/
abbrev Handle := Fin 64

/-- Profile entries are numbered 0 to 3 (R117). -/
abbrev ProfileId := Fin 4

/-- The byte of value `n` modulo 256. -/
def byte (n : Nat) : Byte := BitVec.ofNat 8 n

end Sys2Proof
end

