-- ==== Sys2Proof/Syntax.lean ====
section
/-! DEFINITION. The commands of the block: one constructor for each row of spec/opcode_table.json. -/

namespace Sys2Proof

/-- How a character arrived on RX: with its stop bit high, with its stop bit low, which is a framing error
(R158), or begun before the last release of RESET, so that it is not taken (R215; log 27); its stop bit
then still tells the level of RX. -/
inductive Framing where
  | good
  | stopLow
  | begunInReset (stopHigh : Bool)
  deriving DecidableEq, Repr

/-- The commands that reach the engine from outside. A request command stands for the arrival of one
valid frame with the request's kind, the given tag byte and the given payload bytes (R159, R165;
log 3). A timing command says that its moment has come (log 4). -/
inductive Instr where
  /-- SIGN-ON, kind 10h (R177). -/
  | signOn (tag : Byte) (payload : List Byte)
  /-- STATUS, kind 11h (R179). -/
  | status (tag : Byte) (payload : List Byte)
  /-- ENGINE-RESET, kind 1Fh (R180). -/
  | engineReset (tag : Byte) (payload : List Byte)
  /-- PROFILE-LOAD, kind 20h (R123). -/
  | profileLoad (tag : Byte) (payload : List Byte)
  /-- PROFILE-READ, kind 21h (R127). -/
  | profileRead (tag : Byte) (payload : List Byte)
  /-- BLOCK-OPEN, kind 30h (R133). -/
  | blockOpen (tag : Byte) (payload : List Byte)
  /-- BLOCK-WRITE, kind 31h (R134). -/
  | blockWrite (tag : Byte) (payload : List Byte)
  /-- BLOCK-SEAL, kind 32h (R136). -/
  | blockSeal (tag : Byte) (payload : List Byte)
  /-- BLOCK-RELEASE, kind 33h (R138). -/
  | blockRelease (tag : Byte) (payload : List Byte)
  /-- BLOCK-QUERY, kind 34h (R139). -/
  | blockQuery (tag : Byte) (payload : List Byte)
  /-- JOB-SUBMIT, kind 40h (R10). -/
  | jobSubmit (tag : Byte) (payload : List Byte)
  /-- JOB-QUERY, kind 41h (R28). -/
  | jobQuery (tag : Byte) (payload : List Byte)
  /-- JOB-CANCEL, kind 42h (R20). -/
  | jobCancel (tag : Byte) (payload : List Byte)
  /-- JOB-RETIRE, kind 43h (R27). -/
  | jobRetire (tag : Byte) (payload : List Byte)
  /-- FAULTS-READ, kind 44h (R152). -/
  | faultsRead (tag : Byte) (payload : List Byte)
  /-- LANE-RESTART, kind 45h (R29). -/
  | laneRestart (tag : Byte) (payload : List Byte)
  /-- SUPPLY-RESUME, kind 50h (R91). -/
  | supplyResume (tag : Byte) (payload : List Byte)
  /-- REPORT-ACK, kind 60h (R207). -/
  | reportAck (tag : Byte) (payload : List Byte)
  /-- A valid frame on a table tag whose kind byte names no request (R170). -/
  | badKindRequest (kind tag : Byte) (payload : List Byte)
  /-- A valid frame whose tag is above 0Fh (R168). -/
  | tagRangeRefusal (kind tag : Byte) (payload : List Byte)
  /-- A character on RX, received at the moment `moment` (microseconds, log 5), with its framing (R158,
  R161, R215). -/
  | rxCharacter (moment : Nat) (byte : Byte) (framing : Framing)
  /-- The 20 ms frame timer expires (R164). -/
  | frameTimerExpiry
  /-- RX has been low for two character times (R166). -/
  | rxBreak
  /-- The Transmitter's frame ends (R175). -/
  | transmitFrameEnd
  /-- The 250 ms acknowledgement timer expires (R203). -/
  | ackTimerExpiry
  /-- The lane gap of a lane has passed (R98). -/
  | laneGapEnd (lane : LaneId)
  /-- An answer byte completes in a slot of a lane's cycle (R102). -/
  | answerSlot (lane : LaneId) (byte : Byte)
  /-- The answer window of a lane's cycle closes with no final answer (R108). -/
  | answerWindowClose (lane : LaneId)
  /-- A lane's cycle reaches 20 ms from its sent moment (R109). -/
  | cycleCeiling (lane : LaneId)
  /-- A lane's pulse timer expires (R81). -/
  | pulseTimerExpiry (lane : LaneId)
  /-- The level of PSUP_OK falls (R86). -/
  | psupOkFall
  /-- The level of PSUP_OK rises (R89). -/
  | psupOkRise
  /-- Power-on (R214). -/
  | powerOn
  /-- RESET falls (R214). -/
  | resetAssert
  /-- RESET is released with the engine's own supply stable (R215). The operands are the levels it
  samples at that moment: the straps, PSUP_OK and RX (`true` is high; log 9). -/
  | resetRelease (baud1 baud0 psupOk rx : Bool)
  /-- The last bit of a cycle's fifth byte is clocked out at the moment `moment` (microseconds,
  log 5; R99). -/
  | sentMoment (lane : LaneId) (moment : Nat)
  deriving DecidableEq, Repr

end Sys2Proof
end

