-- ==== Sys2Proof/Config.lean ====
section
/-! DEFINITION. What the part fixes (sizes and times of the spec), and the one free value. -/

namespace Sys2Proof.Config

/-- The programming supply's budget, in units (R74). -/
abbrev budget : Nat := 8
/-- QUEUED jobs a lane queue holds (R6). -/
abbrev laneQueueSize : Nat := 4
/-- Entries of the job table (R2). -/
abbrev jobTableSize : Nat := 24
/-- Blocks of the pool (R130). -/
abbrev poolSize : Nat := 64
/-- Bytes of a block (R130). -/
abbrev blockSize : Nat := 256
/-- Records of the Fault List (R146). -/
abbrev faultListSize : Nat := 64
/-- Records returned by one FAULTS-READ (R152). -/
abbrev faultsPerRead : Nat := 8
/-- Records of the outbox (R194). -/
abbrev outboxSize : Nat := 16
/-- Records of the outbox other than SUPPLY (R194). -/
abbrev outboxGeneral : Nat := 15
/-- Transmitted and unacknowledged records (R194). -/
abbrev window : Nat := 4
/-- Free general entries that a new PROGRESS record needs (R199). -/
abbrev progressReserve : Nat := 4
/-- Retransmission rounds before the stall (R204, R205). -/
abbrev maxRounds : Nat := 4
/-- The acknowledgement timer, in milliseconds (R203). -/
abbrev ackTimerMs : Nat := 250
/-- Reply frames of the reply queue (R174). -/
abbrev replyQueueSize : Nat := 8
/-- Reply frames that the RESET_ABORTED replies of a reset may fill (R180 step 2). -/
abbrev abortedReplies : Nat := 7
/-- The largest payload of a frame (R159). -/
abbrev maxPayload : Nat := 260
/-- The frame timer, in microseconds (R164). -/
abbrev frameTimerUs : Nat := 20000
/-- One answer slot, in microseconds (R97, R102). -/
abbrev slotUs : Nat := 2
/-- The answer window, and what a WAIT-SHORT leaves open, in microseconds (R103, R105). -/
abbrev shortWindowUs : Nat := 50
/-- What a WAIT-LONG leaves open, in microseconds (R105). -/
abbrev longWindowUs : Nat := 2000
/-- The ceiling of a cycle, in microseconds from its sent moment (R109). -/
abbrev ceilingUs : Nat := 20000
/-- The longest range of a PROGRAM or VERIFY job (R11). -/
abbrev maxImage : Nat := 16384

/-- FREE VALUE (R175; log 11). An idle Transmitter to which a reply and a report become available
together may take either first: `true` is the report. The argument counts the choices taken. -/
opaque reportTakenFirst : Nat → Bool

end Sys2Proof.Config
end

