-- ==== Sys2Proof/Machine/State.lean ====
section
/-! DEFINITION. Every piece of state the spec gives the engine, as plain data, and its value right
after reset. INVENTORY.md lists the fields with their rules. -/

namespace Sys2Proof.Machine

/-! ### Jobs and lanes -/

/-- What a job does, with the range fields and block list of its kind (R1, R9). -/
inductive Work where
  | identify
  | program (start length : Nat) (blocks : List Handle)
  | verify (start length : Nat) (blocks : List Handle)
  | blankCheck (start length : Nat)
  | erase (first last : Nat)
  deriving DecidableEq, Repr

/-- The states of a job (R1, R5). -/
inductive JobState where
  | queued | active | held | done | failed | cancelled
  deriving DecidableEq, Repr

/-- Why a job is final (R1, R16). -/
inductive EndReason where
  | complete | faults | faultLimit | faultSpace | identMismatch
  | targetAbsent | laneTimeout | targetFault | badAnswer | cancelled
  deriving DecidableEq, Repr

/-- Where a job's JOB-END stands (R1). -/
inductive EndReport where
  | notDue | waiting | enqueued
  deriving DecidableEq, Repr

/-- The maker code and device code that a probe read (R35). -/
structure Identity where
  maker : Byte
  device : Byte
  deriving DecidableEq, Repr

/-- A job record (R1). -/
structure Job where
  id : Nat
  lane : LaneId
  work : Work
  profile : ProfileId
  state : JobState
  endReason : Option EndReason
  endReport : EndReport
  faultLimit : Nat
  progress : Option Nat
  bytesDone : Nat
  programPulses : Nat
  erasePulses : Nat
  faultsRecorded : Nat
  identity : Option Identity
  laneStopped : Bool
  deriving DecidableEq, Repr

/-- The states of a lane (R7). -/
inductive LaneState where
  | idle | running | pulseWait | pulsing | held | reportWait | stopped
  deriving DecidableEq, Repr

/-- Which part of the current sector an ERASE job is working on (R56). -/
inductive SectorPhase where
  | precondition | erase
  deriving DecidableEq, Repr

/-- The sequencer context (R15, R56). `phase` is absent outside the sectors of an ERASE job; `mark`
is the pending-cancel mark, the tags of the deferred cancels in the order they were taken (R24). -/
structure Context where
  address : Nat
  pulseCount : Nat
  watermark : Nat
  eraseCount : Nat
  phase : Option SectorPhase
  mark : Option (List Byte)
  deriving DecidableEq, Repr

/-- The eight cycle kinds (R100). -/
inductive CycleKind where
  | ident | read | marginP | marginE | load | pulseP | pulseE | pulseEnd
  deriving DecidableEq, Repr

/-- The record of the cycle a Lane Cycle Unit carries (R99). `slots` counts the answer slots judged
and `ready` is set once a READY has been judged; the sent moment and the window end are 0 until the
sent moment (log 21). -/
structure Cycle where
  kind : CycleKind
  address : Nat
  data : Byte
  probe : Bool
  sentMoment : Nat
  windowEnd : Nat
  heard : Bool
  dataBytes : List Byte
  slots : Nat
  ready : Bool
  deriving DecidableEq, Repr

/-- The states of a Lane Cycle Unit (R99). -/
inductive UnitState where
  | idle | sending | answering
  deriving DecidableEq, Repr

/-- A Lane Cycle Unit (R99). `gapPassed` says that LCK has been low for the lane gap (R98). -/
structure CycleUnit where
  state : UnitState
  cycle : Option Cycle
  gapPassed : Bool
  deriving DecidableEq, Repr

/-- How a cycle ended (R32, R110). -/
inductive CycleOutcome where
  | ready | fault | badAnswer | timeout | absent
  deriving DecidableEq, Repr

/-- The states of a pulse slot (R75). -/
inductive PulseSlot where
  | none | granted | timing | cut
  deriving DecidableEq, Repr

/-- All that belongs to one lane: the lane state and queue, the sequencer, the Lane Cycle Unit, and
the Supply Arbiter's pulse slot, switch, units, carried width and timer for it. -/
structure Lane where
  state : LaneState
  queue : List Nat
  current : Option Nat
  context : Context
  waitFor : Option Nat
  waitingEnds : List Nat
  unit : CycleUnit
  slot : PulseSlot
  lvpClosed : Bool
  unitsHeld : Nat
  width : Nat
  timer : Option Nat
  deriving DecidableEq, Repr

/-! ### Supply -/

/-- An entry of the grant queue (R76). The width is in microseconds. -/
structure GrantEntry where
  lane : LaneId
  cost : Nat
  width : Nat
  deriving DecidableEq, Repr

/-- The states of the Supply Monitor (R83). -/
inductive SupplyState where
  | up | down | restored
  deriving DecidableEq, Repr

/-- The Supply Monitor (R83) and the level of the PSUP_OK pin (R218). -/
structure Supply where
  state : SupplyState
  episodes : Word16
  psupOk : Bool
  deriving DecidableEq, Repr

/-! ### Profiles, blocks, faults -/

/-- A target profile entry (R117). Sizes are held as their exponents. -/
structure Profile where
  valid : Bool
  memExp : Nat
  sectorExp : Nat
  maker : Byte
  device : Byte
  checkIdentity : Bool
  baseWidth : Nat
  maxProgram : Nat
  stepped : Bool
  eraseWidth : Nat
  maxErase : Nat
  precondition : Bool
  programCost : Nat
  eraseCost : Nat
  deriving DecidableEq, Repr

/-- The content of a block: offsets and bytes in canonical form, an unlisted offset reading FFh. -/
abbrev Memory := List Host.Cell

/-- The states of a block (R130). -/
inductive BlockState where
  | free | filling | sealed
  deriving DecidableEq, Repr

/-- A block of the pool with its state record (R130). -/
structure Block where
  state : BlockState
  held : Bool
  fill : Nat
  refs : Nat
  crc : Option Word16
  content : Memory
  deriving DecidableEq, Repr

/-- The kinds of fault (R147). -/
inductive FaultKind where
  | notErased | programExhausted | preconditionFail | eraseExhausted | mismatch | blankFail
  | interrupted
  deriving DecidableEq, Repr

/-- Which sort of pulse a fault record counts (R147). -/
inductive PulseSort where
  | program | erase
  deriving DecidableEq, Repr

/-- A fault record (R147). -/
structure FaultRecord where
  job : Nat
  kind : FaultKind
  address : Nat
  expected : Option Byte
  readByte : Option Byte
  sort : PulseSort
  pulses : Nat
  deriving DecidableEq, Repr

/-! ### Reports -/

/-- A supply notice: the supply state and the episode count it carries (R85). -/
structure Notice where
  state : SupplyState
  episodes : Word16
  deriving DecidableEq, Repr

/-- The fields of a JOB-END (R18). -/
structure JobEnd where
  id : Nat
  lane : LaneId
  state : JobState
  reason : Option EndReason
  bytesDone : Nat
  programPulses : Nat
  erasePulses : Nat
  faultsRecorded : Nat
  laneStopped : Bool
  deriving DecidableEq, Repr

/-- The kind and fields of a report (R192). -/
inductive ReportBody where
  | engineReady (epoch : Word16)
  | jobEnd (e : JobEnd)
  | progress (id : Nat) (lane : LaneId) (bytesDone : Nat)
  | supply (n : Notice)
  deriving DecidableEq, Repr

/-- A report record (R192). -/
structure Report where
  body : ReportBody
  seq : Byte
  transmitted : Bool
  mark : Bool
  deriving DecidableEq, Repr

/-- The Report Outbox (10.2). -/
structure Outbox where
  records : List Report
  nextSeq : Byte
  round : Nat
  timer : Option Nat
  stalled : Bool
  owed : Option Notice
  waitingLanes : List LaneId
  deriving DecidableEq, Repr

/-! ### Host link -/

/-- A frame of the link, without the parts that follow from these: start byte, length, CRC (R159).
In a report the tag position carries the sequence number. -/
structure Frame where
  kind : Byte
  tag : Byte
  payload : List Byte
  deriving DecidableEq, Repr

/-- A digest: kind, payload length and frame CRC (9.4). -/
structure Digest where
  kind : Byte
  length : Nat
  crc : Word16
  deriving DecidableEq, Repr

/-- A tag table entry (R167). -/
inductive TagEntry where
  | free
  | inFlight (d : Digest)
  | replied (d : Digest) (reply : Frame)
  deriving DecidableEq, Repr

/-- The Transmitter: idle, or the frame it is sending (R175). -/
inductive Tx where
  | idle
  | reply (f : Frame)
  | report (f : Frame)
  deriving DecidableEq, Repr

/-- The states of the receiver (R161). -/
inductive RxPhase where
  | hunt | header | payload | check
  deriving DecidableEq, Repr

/-- A byte received and the moment it arrived (R162). -/
structure RxByte where
  byte : Byte
  moment : Nat
  deriving DecidableEq, Repr

/-- What the break detector knows of RX (R166): no low counted, a low that counts, a low already
recognised as a break. -/
inductive BreakDetector where
  | clear | counting | recognised
  deriving DecidableEq, Repr

/-- The Host Link Receiver (9.3). `timer` is the frame timer, with the moment it runs from; `rescan`
holds bytes still to be put through HUNT and is empty between commands (R162). -/
structure Receiver where
  phase : RxPhase
  kept : List RxByte
  timer : Option Nat
  rescan : List RxByte
  breakDetector : BreakDetector
  deriving DecidableEq, Repr

/-- The link rates (R157). -/
inductive LinkRate where
  | baud115200 | baud460800 | baud921600 | baud3000000
  deriving DecidableEq, Repr

/-- A deferred JOB-CANCEL: its tag and its job (R24). -/
structure DeferredCancel where
  tag : Byte
  job : Nat
  deriving DecidableEq, Repr

/-! ### The engine -/

/-- The state of the engine. `choices` counts the free choices of the Transmitter (log 11), `deferred`
lists the deferred cancels in the order they were taken (log 19), and `pending` is the queue of
commands, first in first out (log 1). -/
structure State where
  inReset : Bool
  linkRate : LinkRate
  epoch : Word16
  rx : Receiver
  tags : Vector TagEntry 16
  deferred : List DeferredCancel
  replyQueue : List Frame
  tx : Tx
  profiles : Vector Profile 4
  blocks : Vector Block 64
  jobs : List Job
  lastId : Nat
  lanes : Vector Lane 8
  freeUnits : Nat
  grantQueue : List GrantEntry
  supply : Supply
  faults : List FaultRecord
  outbox : Outbox
  choices : Nat
  pending : List Instr
  deriving DecidableEq, Repr

/-- The spec names no condition that stops the engine, so no command ends in a fault. -/
inductive Fault where
  deriving DecidableEq, Repr

/-- Why a command is given no meaning. -/
inductive Refusal where
  /-- Raised by an arm of `exec` that has no meaning yet; no arm is left without one. Safe. -/
  | notModelled (mnemonic : String)
  /-- Raised by a request command whose payload is longer than the 260 bytes that a frame can carry
  (R159): no such frame exists. Safe: no request the host can send is refused (log 14). -/
  | payloadOverFrame
  deriving DecidableEq, Repr

/-! ### The values after reset -/

/-- A cleared sequencer context (R15; a cleared number is held as 0, log 21). -/
def Context.cleared : Context where
  address := 0
  pulseCount := 0
  watermark := 0
  eraseCount := 0
  phase := none
  mark := none

/-- A Lane Cycle Unit after any reset: IDLE, no record, the lane gap counted from the reset (R116). -/
def CycleUnit.afterReset : CycleUnit where
  state := .idle
  cycle := none
  gapPassed := false

/-- A lane after any reset (R30, R95, R116). -/
def Lane.afterReset : Lane where
  state := .idle
  queue := []
  current := none
  context := .cleared
  waitFor := none
  waitingEnds := []
  unit := .afterReset
  slot := .none
  lvpClosed := false
  unitsHeld := 0
  width := 0
  timer := none

/-- A profile entry at power-on (R128). -/
def Profile.afterPowerOn : Profile where
  valid := false
  memExp := 0
  sectorExp := 0
  maker := 0
  device := 0
  checkIdentity := false
  baseWidth := 0
  maxProgram := 0
  stepped := false
  eraseWidth := 0
  maxErase := 0
  precondition := false
  programCost := 0
  eraseCost := 0

/-- A block at power-on (R144). The content is not defined and not visible (log 13). -/
def Block.afterPowerOn : Block where
  state := .free
  held := false
  fill := 0
  refs := 0
  crc := none
  content := []

/-- The receiver after a reset: HUNT, nothing kept, the timer stopped, no low counted (R161, R166). -/
def Receiver.afterReset : Receiver where
  phase := .hunt
  kept := []
  timer := none
  rescan := []
  breakDetector := .clear

/-- An emptied outbox (R212, before ENGINE-READY is enqueued). -/
def Outbox.emptied : Outbox where
  records := []
  nextSeq := 0
  round := 0
  timer := none
  stalled := false
  owed := none
  waitingLanes := []

/-- The outbox right after any reset: ENGINE-READY enqueued with sequence number 0 (R193, R212). -/
def Outbox.afterReset (epoch : Word16) : Outbox :=
  { Outbox.emptied with
    records := [{ body := .engineReady epoch, seq := 0, transmitted := false, mark := false }]
    nextSeq := 1 }

/-- The supply after any reset: UP if PSUP_OK is high, DOWN if it is low, no episode (R95). -/
def Supply.afterReset (psupOk : Bool) : Supply where
  state := if psupOk then .up else .down
  episodes := 0
  psupOk := psupOk

/-- The machine right after RESET is released (R215) with PSUP_OK high, both straps low and RX high
(log 9), and no command pending (log 1). -/
def State.reset : State where
  inReset := false
  linkRate := .baud115200
  epoch := 0
  rx := .afterReset
  tags := Vector.replicate 16 .free
  deferred := []
  replyQueue := []
  tx := .idle
  profiles := Vector.replicate 4 .afterPowerOn
  blocks := Vector.replicate 64 .afterPowerOn
  jobs := []
  lastId := 0
  lanes := Vector.replicate 8 .afterReset
  freeUnits := Config.budget
  grantQueue := []
  supply := .afterReset true
  faults := []
  outbox := .afterReset 0
  choices := 0
  pending := []

end Sys2Proof.Machine
end

