-- ==== Sys2Proof/Machine/Ops.lean ====
section
/-! DEFINITION. The named operations over the state: field updates, lanes, jobs and blocks by their
names, block content, byte order, the CRC, and frames. -/

namespace Sys2Proof.Machine

/-! ### Field updates -/

/-- Replaces `inReset`. -/
def State.setInReset (s : State) (v : Bool) : State := { s with inReset := v }
/-- Replaces `linkRate`. -/
def State.setLinkRate (s : State) (v : LinkRate) : State := { s with linkRate := v }
/-- Replaces `epoch`. -/
def State.setEpoch (s : State) (v : Word16) : State := { s with epoch := v }
/-- Replaces `rx`. -/
def State.setRx (s : State) (v : Receiver) : State := { s with rx := v }
/-- Replaces `tags`. -/
def State.setTags (s : State) (v : Vector TagEntry 16) : State := { s with tags := v }
/-- Replaces `deferred`. -/
def State.setDeferred (s : State) (v : List DeferredCancel) : State := { s with deferred := v }
/-- Replaces `replyQueue`. -/
def State.setReplyQueue (s : State) (v : List Frame) : State := { s with replyQueue := v }
/-- Replaces `tx`. -/
def State.setTx (s : State) (v : Tx) : State := { s with tx := v }
/-- Replaces `profiles`. -/
def State.setProfiles (s : State) (v : Vector Profile 4) : State := { s with profiles := v }
/-- Replaces `blocks`. -/
def State.setBlocks (s : State) (v : Vector Block 64) : State := { s with blocks := v }
/-- Replaces `jobs`. -/
def State.setJobs (s : State) (v : List Job) : State := { s with jobs := v }
/-- Replaces `lastId`. -/
def State.setLastId (s : State) (v : Nat) : State := { s with lastId := v }
/-- Replaces `lanes`. -/
def State.setLanes (s : State) (v : Vector Lane 8) : State := { s with lanes := v }
/-- Replaces `freeUnits`. -/
def State.setFreeUnits (s : State) (v : Nat) : State := { s with freeUnits := v }
/-- Replaces `grantQueue`. -/
def State.setGrantQueue (s : State) (v : List GrantEntry) : State := { s with grantQueue := v }
/-- Replaces `supply`. -/
def State.setSupply (s : State) (v : Supply) : State := { s with supply := v }
/-- Replaces `faults`. -/
def State.setFaults (s : State) (v : List FaultRecord) : State := { s with faults := v }
/-- Replaces `outbox`. -/
def State.setOutbox (s : State) (v : Outbox) : State := { s with outbox := v }
/-- Replaces `choices`. -/
def State.setChoices (s : State) (v : Nat) : State := { s with choices := v }
/-- Replaces `pending`. -/
def State.setPending (s : State) (v : List Instr) : State := { s with pending := v }

/-! ### Lanes -/

/-- The lane `l`. -/
def State.lane (s : State) (l : LaneId) : Lane := s.lanes[l]

/-- Applies `f` to the lane `l` and to nothing else. -/
def State.updLane (s : State) (l : LaneId) (f : Lane → Lane) : State :=
  s.setLanes (s.lanes.set l (f (s.lane l)))

/-- Applies `f` to the sequencer context of lane `l`. -/
def State.updContext (s : State) (l : LaneId) (f : Context → Context) : State :=
  s.updLane l fun x => { x with context := f x.context }

/-- Sets the lane state of lane `l`. -/
def State.setLaneState (s : State) (l : LaneId) (v : LaneState) : State :=
  s.updLane l fun x => { x with state := v }

/-! ### Jobs -/

/-- The kinds whose memory range is a run of bytes give its start (R1); 0 for the others (R184). -/
def Work.start : Work → Nat
  | .program a _ _ | .verify a _ _ | .blankCheck a _ => a
  | .identify | .erase _ _ => 0

/-- The length of a byte range (R1); 0 for the kinds without one (R184). -/
def Work.length : Work → Nat
  | .program _ n _ | .verify _ n _ | .blankCheck _ n => n
  | .identify | .erase _ _ => 0

/-- The block list (R1); empty for the kinds without one. -/
def Work.blocks : Work → List Handle
  | .program _ _ bs | .verify _ _ bs => bs
  | .identify | .blankCheck _ _ | .erase _ _ => []

/-- The first sector of an ERASE job; 0 for the others (R184). -/
def Work.firstSector : Work → Nat
  | .erase a _ => a
  | .identify | .program _ _ _ | .verify _ _ _ | .blankCheck _ _ => 0

/-- The last sector of an ERASE job; 0 for the others (R184). -/
def Work.lastSector : Work → Nat
  | .erase _ b => b
  | .identify | .program _ _ _ | .verify _ _ _ | .blankCheck _ _ => 0

/-- A job is final when it is DONE, FAILED or CANCELLED (R1). -/
def Job.isFinal (j : Job) : Bool :=
  match j.state with
  | .done | .failed | .cancelled => true
  | .queued | .active | .held => false

/-- A job is unfinished when it is QUEUED, ACTIVE or HELD (R1). -/
def Job.isUnfinished (j : Job) : Bool := !j.isFinal

/-- The job of identifier `id`, if an entry of the table holds it (R2). -/
def State.job? (s : State) (id : Nat) : Option Job := s.jobs.find? fun j => j.id == id

/-- Applies `f` to the job of identifier `id`. -/
def State.updJob (s : State) (id : Nat) (f : Job → Job) : State :=
  s.setJobs (s.jobs.map fun j => if j.id = id then f j else j)

/-- The lane's current job (1.2). -/
def State.currentJob? (s : State) (l : LaneId) : Option Job := (s.lane l).current.bind s.job?

/-- Applies `f` to the current job of lane `l`. -/
def State.updCurrentJob (s : State) (l : LaneId) (f : Job → Job) : State :=
  match (s.lane l).current with
  | some id => s.updJob id f
  | none => s

/-- The free entries of the job table (R2). -/
def State.freeEntries (s : State) : Nat := Config.jobTableSize - s.jobs.length

/-- The in-use count of a profile entry: the unfinished jobs that name it (R117, R124). -/
def State.inUse (s : State) (p : ProfileId) : Nat :=
  s.jobs.countP fun j => j.isUnfinished && j.profile == p

/-! ### Profiles and blocks -/

/-- The memory size in bytes (R118). -/
def Profile.memSize (p : Profile) : Nat := 2 ^ p.memExp

/-- The sector size in bytes (R118). -/
def Profile.sectorSize (p : Profile) : Nat := 2 ^ p.sectorExp

/-- The block of handle `h`. -/
def State.block (s : State) (h : Handle) : Block := s.blocks[h]

/-- Applies `f` to the block of handle `h`. -/
def State.updBlock (s : State) (h : Handle) (f : Block → Block) : State :=
  s.setBlocks (s.blocks.set h (f (s.block h)))

/-- The number of FREE blocks (R130). -/
def State.freeBlocks (s : State) : Nat := s.blocks.toList.countP fun b => b.state == .free

/-- The number of free fault records (R146). -/
def State.freeFaults (s : State) : Nat := Config.faultListSize - s.faults.length

/-! ### Block content -/

/-- What an offset that is not listed reads as: the value BLOCK-OPEN gives every byte (R133). -/
def Memory.unlisted : Byte := 0xFF

/-- The byte at offset `a`. -/
def Memory.read : Memory → Nat → Byte
  | [], _ => Memory.unlisted
  | (x, b) :: rest, a => if x = a then b else Memory.read rest a

/-- Stores `v` at offset `a` and keeps the canonical form. -/
def Memory.write : Memory → Nat → Byte → Memory
  | [], a, v => if v = Memory.unlisted then [] else [(a, v)]
  | (x, b) :: rest, a, v =>
    if a < x then
      if v = Memory.unlisted then (x, b) :: rest else (a, v) :: (x, b) :: rest
    else if a = x then
      if v = Memory.unlisted then rest else (a, v) :: rest
    else (x, b) :: Memory.write rest a v

/-- Stores the bytes `vs` at offset `a` and the offsets after it (R135). -/
def Memory.writeAll : Memory → Nat → List Byte → Memory
  | m, _, [] => m
  | m, a, v :: vs => Memory.writeAll (Memory.write m a v) (a + 1) vs

/-- The first `n` bytes, offset 0 first. -/
def Memory.bytes (m : Memory) (n : Nat) : List Byte := (List.range n).map m.read

/-- The canonical form: offsets strictly rising and below the size of a block, no cell that reads as
an unlisted offset does. -/
def Memory.wf : Memory → Bool
  | [] => true
  | [(x, b)] => decide (x < Config.blockSize) && b != Memory.unlisted
  | (x, b) :: (y, c) :: rest =>
    decide (x < y) && b != Memory.unlisted && Memory.wf ((y, c) :: rest)

/-! ### Byte order and the CRC -/

/-- A number in two bytes, most significant first (00_scope, Conventions). -/
def be16 (n : Nat) : List Byte := [byte (n / 256), byte n]

/-- A number in three bytes, most significant first. -/
def be24 (n : Nat) : List Byte := [byte (n / 65536), byte (n / 256), byte n]

/-- A number in four bytes, most significant first. -/
def be32 (n : Nat) : List Byte :=
  [byte (n / 16777216), byte (n / 65536), byte (n / 256), byte n]

/-- The number that bytes sent most significant first give. -/
def ofBe (bs : List Byte) : Nat := bs.foldl (fun n b => 256 * n + b.toNat) 0

/-- One bit into the CRC register: compare with its top bit, shift, combine with 1021h (R160). -/
def crcBit (r : Word16) (b : Bool) : Word16 :=
  let shifted := r <<< 1
  if r.msb != b then shifted ^^^ 0x1021#16 else shifted

/-- One byte into the CRC register, most significant bit first (R160). -/
def crcByte (r : Word16) (b : Byte) : Word16 :=
  [7, 6, 5, 4, 3, 2, 1, 0].foldl (fun r i => crcBit r (b.getLsbD i)) r

/-- The CRC-16 of frames and blocks, its register starting at FFFFh (R160). -/
def crc16 (bs : List Byte) : Word16 := bs.foldl crcByte 0xFFFF#16

/-! ### Frames -/

/-- The bytes a frame's CRC covers: length, kind, tag, payload (R159). -/
def Frame.covered (f : Frame) : List Byte :=
  be16 f.payload.length ++ f.kind :: f.tag :: f.payload

/-- The CRC of a frame (R159). -/
def Frame.crc (f : Frame) : Word16 := crc16 f.covered

/-- The bytes of a frame in the order they are sent (R159, R185). -/
def Frame.bytes (f : Frame) : List Byte := 0xA5 :: f.covered ++ be16 f.crc.toNat

/-- The digest of a request frame (9.4). -/
def Frame.digest (f : Frame) : Digest where
  kind := f.kind
  length := f.payload.length
  crc := f.crc

/-- The report or reply kind of a reply frame (R185). -/
def replyKind : Byte := 0x80

/-! ### Pins (R97, R99, R211) -/

/-- ATTN is high while the outbox holds any report (R211). -/
def State.attn (s : State) : Bool := !s.outbox.records.isEmpty

/-- LCK runs while the Lane Cycle Unit sends or answers (R99). -/
def Lane.lckRunning (x : Lane) : Bool := x.unit.state != .idle

/-- The engine drives LDA while the Lane Cycle Unit sends (R99). -/
def Lane.ldaDriven (x : Lane) : Bool := x.unit.state == .sending

end Sys2Proof.Machine
end

