-- ==== Sys2Proof/Machine/Flags.lean ====
section
/-! DEFINITION. The code values of R191, the request kinds of the catalogue (9.6), and the flags bytes
of the record layouts (R188, R189, R190). -/

namespace Sys2Proof.Machine

/-- The result codes that replies carry (R191). -/
inductive Result where
  | ok | badLength | badKind | badField | range | noBlock | blockState | crcMismatch | poolFull
  | tableFull | queueFull | profileInvalid | profileInUse | noJob | alreadyFinal | notFinal
  | notStopped | notHeld | supplyDown | tagBusy | stale | resetAborted
  deriving DecidableEq, Repr

/-- The value of a result code (R191). -/
def Result.code : Result → Byte
  | .ok => 0x00 | .badLength => 0x01 | .badKind => 0x02 | .badField => 0x03
  | .range => 0x04 | .noBlock => 0x05 | .blockState => 0x06 | .crcMismatch => 0x07
  | .poolFull => 0x08 | .tableFull => 0x09 | .queueFull => 0x0A | .profileInvalid => 0x0B
  | .profileInUse => 0x0C | .noJob => 0x0D | .alreadyFinal => 0x0E | .notFinal => 0x0F
  | .notStopped => 0x10 | .notHeld => 0x11 | .supplyDown => 0x12 | .tagBusy => 0x13
  | .stale => 0x14 | .resetAborted => 0x15

/-- The requests of the catalogue (9.6). -/
inductive Request where
  | signOn | status | engineReset | profileLoad | profileRead | blockOpen | blockWrite | blockSeal
  | blockRelease | blockQuery | jobSubmit | jobQuery | jobCancel | jobRetire | faultsRead
  | laneRestart | supplyResume | reportAck
  deriving DecidableEq, Repr

/-- The kind byte of a request (9.6). -/
def Request.kind : Request → Byte
  | .signOn => 0x10 | .status => 0x11 | .engineReset => 0x1F
  | .profileLoad => 0x20 | .profileRead => 0x21
  | .blockOpen => 0x30 | .blockWrite => 0x31 | .blockSeal => 0x32 | .blockRelease => 0x33
  | .blockQuery => 0x34
  | .jobSubmit => 0x40 | .jobQuery => 0x41 | .jobCancel => 0x42 | .jobRetire => 0x43
  | .faultsRead => 0x44 | .laneRestart => 0x45
  | .supplyResume => 0x50 | .reportAck => 0x60

/-- Every request of the catalogue. -/
def Request.all : List Request :=
  [.signOn, .status, .engineReset, .profileLoad, .profileRead, .blockOpen, .blockWrite, .blockSeal,
   .blockRelease, .blockQuery, .jobSubmit, .jobQuery, .jobCancel, .jobRetire, .faultsRead,
   .laneRestart, .supplyResume, .reportAck]

/-- The request a kind byte names, if any (R170 step 1). -/
def Request.ofKind (k : Byte) : Option Request := Request.all.find? fun r => r.kind == k

/-- Lane state codes (R191). -/
def LaneState.code : LaneState → Byte
  | .idle => 0x00 | .running => 0x01 | .pulseWait => 0x02 | .pulsing => 0x03 | .held => 0x04
  | .reportWait => 0x05 | .stopped => 0x06

/-- Supply state codes (R191). -/
def SupplyState.code : SupplyState → Byte
  | .up => 0x00 | .down => 0x01 | .restored => 0x02

/-- Block state codes (R191). -/
def BlockState.code : BlockState → Byte
  | .free => 0x00 | .filling => 0x01 | .sealed => 0x02

/-- Job state codes (R191). -/
def JobState.code : JobState → Byte
  | .queued => 0x01 | .active => 0x02 | .held => 0x03 | .done => 0x04 | .failed => 0x05
  | .cancelled => 0x06

/-- End reason codes (R191); 00h when absent (R188). -/
def EndReason.code : Option EndReason → Byte
  | none => 0x00
  | some .complete => 0x01 | some .faults => 0x02 | some .faultLimit => 0x03
  | some .faultSpace => 0x04 | some .identMismatch => 0x05 | some .targetAbsent => 0x06
  | some .laneTimeout => 0x07 | some .targetFault => 0x08 | some .badAnswer => 0x09
  | some .cancelled => 0x0A

/-- End report codes (R188). -/
def EndReport.code : EndReport → Byte
  | .notDue => 0x00 | .waiting => 0x01 | .enqueued => 0x02

/-- Job kind codes (R191). -/
def Work.code : Work → Byte
  | .identify => 0x01 | .program _ _ _ => 0x02 | .verify _ _ _ => 0x03 | .blankCheck _ _ => 0x04
  | .erase _ _ => 0x05

/-- Fault kind codes (R191). -/
def FaultKind.code : FaultKind → Byte
  | .notErased => 0x01 | .programExhausted => 0x02 | .preconditionFail => 0x03
  | .eraseExhausted => 0x04 | .mismatch => 0x05 | .blankFail => 0x06 | .interrupted => 0x07

/-- The lane cycle kind codes, the first byte of a cycle (R100). -/
def CycleKind.code : CycleKind → Byte
  | .ident => 0x1D | .read => 0x2E | .marginP => 0x3B | .marginE => 0x3C | .load => 0x4A
  | .pulseP => 0x59 | .pulseE => 0x5A | .pulseEnd => 0x6F

/-- Report kind codes (R190). -/
def ReportBody.kind : ReportBody → Byte
  | .engineReady _ => 0xE0 | .jobEnd _ => 0xE1 | .progress _ _ _ => 0xE2 | .supply _ => 0xE3

/-- A setting in one byte: 00h or 01h (R186, R187). -/
def boolByte (b : Bool) : Byte := if b then 0x01 else 0x00

/-- Bit `i` of a flags byte, set or clear (9.9). -/
def flagBit (b : Bool) (i : Nat) : Byte := if b then (1#8) <<< i else 0

/-- The flags byte of a job record: lane-stopped, identity read present, progress interval present
(R188). -/
def Job.flags (j : Job) : Byte :=
  flagBit j.laneStopped 0 ||| flagBit j.identity.isSome 1 ||| flagBit j.progress.isSome 2

/-- The flags byte of a fault record: expected byte present, read byte present, pulse sort (R189). -/
def FaultRecord.flags (r : FaultRecord) : Byte :=
  flagBit r.expected.isSome 0 ||| flagBit r.readByte.isSome 1 ||| flagBit (r.sort == .erase) 2

/-- The lane mask of a list of lanes: bit n stands for lane n (00_scope, Terms). -/
def laneMask (ls : List LaneId) : Byte := ls.foldl (fun m l => m ||| (1#8) <<< l.val) 0

/-- The lanes a lane mask selects, lane 0 first (00_scope, Conventions). -/
def lanesOf (mask : Byte) : List LaneId := (List.finRange 8).filter fun l => mask.getLsbD l.val

end Sys2Proof.Machine
end

