-- ==== Sys2Proof/Machine/Operands.lean ====
section
/-! DEFINITION. Request payloads as the engine reads them (R186), and the fields of its replies and
reports as it sends them (R184, R187 to R190). -/

namespace Sys2Proof.Machine

/-! ### Request payloads -/

/-- The byte at position `i` of a payload. -/
def at? (p : List Byte) (i : Nat) : Byte := p.getD i 0

/-- The number in `n` payload bytes from position `i` on. -/
def field (p : List Byte) (i n : Nat) : Nat := ofBe ((p.drop i).take n)

/-- Whether a payload length is one that the request's layout allows (R170 step 2, R186). -/
def Request.lengthOk : Request → List Byte → Bool
  | .signOn, p | .status, p | .engineReset, p | .blockOpen, p | .supplyResume, p => p.length == 0
  | .profileRead, p | .blockRelease, p | .blockQuery, p | .jobQuery, p | .jobCancel, p
  | .jobRetire, p | .laneRestart, p | .reportAck, p => p.length == 1
  | .faultsRead, p => p.length == 2
  | .blockSeal, p => p.length == 3
  | .profileLoad, p => p.length == 16
  | .blockWrite, p => decide (3 ≤ p.length ∧ p.length ≤ 258)
  | .jobSubmit, p => decide (18 ≤ p.length) && p.length == 18 + (at? p 17).toNat

/-- The fields of a JOB-SUBMIT (1.4, R186). Handles are as sent; a progress interval of 0 is absent. -/
structure Submit where
  mask : Byte
  kind : Byte
  profile : Nat
  start : Nat
  length : Nat
  first : Nat
  last : Nat
  faultLimit : Nat
  progress : Option Nat
  handles : List Byte
  deriving DecidableEq, Repr

/-- Reads a JOB-SUBMIT payload (R186). -/
def Submit.ofPayload (p : List Byte) : Submit where
  mask := at? p 0
  kind := at? p 1
  profile := (at? p 2).toNat
  start := field p 3 3
  length := field p 6 4
  first := field p 10 2
  last := field p 12 2
  faultLimit := (at? p 14).toNat
  progress := if field p 15 2 = 0 then none else some (field p 15 2)
  handles := p.drop 18

/-- The fields of a PROFILE-LOAD as sent, the three codes still bytes (R123, R186). -/
structure LoadFields where
  entry : Nat
  memExp : Nat
  sectorExp : Nat
  maker : Byte
  device : Byte
  checkIdentity : Byte
  baseWidth : Nat
  maxProgram : Nat
  escalation : Byte
  eraseWidth : Nat
  maxErase : Nat
  precondition : Byte
  programCost : Nat
  eraseCost : Nat
  deriving DecidableEq, Repr

/-- Reads a PROFILE-LOAD payload: the entry number, then the 15 profile bytes (R186). -/
def LoadFields.ofPayload (p : List Byte) : LoadFields where
  entry := (at? p 0).toNat
  memExp := (at? p 1).toNat
  sectorExp := (at? p 2).toNat
  maker := at? p 3
  device := at? p 4
  checkIdentity := at? p 5
  baseWidth := field p 6 2
  maxProgram := (at? p 8).toNat
  escalation := at? p 9
  eraseWidth := field p 10 2
  maxErase := (at? p 12).toNat
  precondition := at? p 13
  programCost := (at? p 14).toNat
  eraseCost := (at? p 15).toNat

/-! ### Reply and report fields -/

/-- The fields of a SIGN-ON reply: part code 4160h, revision 1, 8 lanes, 64 blocks, 24 entries and
the engine epoch (R177, R187). -/
def State.signOnFields (s : State) : List Byte :=
  [0x41, 0x60, 1, 8, 64, 24] ++ be16 s.epoch.toNat

/-- The fields of a STATUS reply (R179, R187). -/
def State.statusFields (s : State) : List Byte :=
  s.lanes.toList.flatMap (fun x => [x.state.code, byte x.queue.length]) ++
  s.supply.state.code :: be16 s.supply.episodes.toNat ++
  [byte s.freeUnits, byte s.freeBlocks, byte s.freeEntries, byte s.freeFaults,
   byte s.outbox.records.length, boolByte s.outbox.stalled]

/-- The 15 profile bytes (R186). -/
def Profile.bytes (p : Profile) : List Byte :=
  [byte p.memExp, byte p.sectorExp, p.maker, p.device, boolByte p.checkIdentity] ++
  be16 p.baseWidth ++ [byte p.maxProgram, boolByte p.stepped] ++ be16 p.eraseWidth ++
  [byte p.maxErase, boolByte p.precondition, byte p.programCost, byte p.eraseCost]

/-- The job record as JOB-QUERY returns it (R188). -/
def Job.bytes (j : Job) : List Byte :=
  [byte j.id, byte j.lane.val, j.work.code, byte j.profile.val, j.state.code,
   EndReason.code j.endReason, j.endReport.code, j.flags] ++
  be24 j.work.start ++ be32 j.work.length ++ be16 j.work.firstSector ++ be16 j.work.lastSector ++
  [byte j.faultLimit] ++ be16 (j.progress.getD 0) ++ be32 j.bytesDone ++ be32 j.programPulses ++
  be32 j.erasePulses ++ [byte j.faultsRecorded] ++
  (match j.identity with
   | some i => [i.maker, i.device]
   | none => [0, 0]) ++
  [byte j.work.blocks.length] ++ j.work.blocks.map fun h => byte h.val

/-- A fault record as FAULTS-READ returns it (R189). -/
def FaultRecord.bytes (r : FaultRecord) : List Byte :=
  [r.kind.code, r.flags] ++ be24 r.address ++ [r.expected.getD 0, r.readByte.getD 0, byte r.pulses]

/-- The payload of a report (R190). -/
def ReportBody.payload : ReportBody → List Byte
  | .engineReady e => be16 e.toNat
  | .jobEnd e =>
    [byte e.id, byte e.lane.val, e.state.code, EndReason.code e.reason] ++ be32 e.bytesDone ++
    be32 e.programPulses ++ be32 e.erasePulses ++
    [byte e.faultsRecorded, flagBit e.laneStopped 0]
  | .progress id lane done => [byte id, byte lane.val] ++ be32 done
  | .supply n => n.state.code :: be16 n.episodes.toNat

/-- The frame of a report record, its sequence number in the tag position (R175, R190). -/
def Report.frame (r : Report) : Frame where
  kind := r.body.kind
  tag := r.seq
  payload := r.body.payload

/-- The frame of a reply: the request's kind byte as received, the result code, the fields (R171,
R185). -/
def replyFrame (kind tag : Byte) (code : Result) (fields : List Byte) : Frame where
  kind := replyKind
  tag := tag
  payload := kind :: code.code :: fields

end Sys2Proof.Machine
end

