-- ==== Sys2Proof/Machine/Outbox.lean ====
section
/-! DEFINITION. The Report Outbox by itself: entries, offers, sending and resending, acknowledgement,
rewind and merge (10_reports). What an outbox event does to lanes stands in Jobs.lean. -/

namespace Sys2Proof.Machine

/-- Whether a record is a SUPPLY record; the others are general (R194). -/
def Report.isSupply (r : Report) : Bool :=
  match r.body with
  | .supply _ => true
  | .engineReady _ | .jobEnd _ | .progress _ _ _ => false

/-- Whether a record is a PROGRESS of job `id`. -/
def Report.isProgressOf (id : Nat) (r : Report) : Bool :=
  match r.body with
  | .progress j _ _ => j == id
  | .engineReady _ | .jobEnd _ | .supply _ => false

/-- The general records (R194). -/
def Outbox.general (o : Outbox) : Nat := o.records.countP fun r => !r.isSupply

/-- Whether the outbox has a free entry of any sort (R194). -/
def Outbox.hasFreeEntry (o : Outbox) : Bool := decide (o.records.length < Config.outboxSize)

/-- The number of free general entries (R194). -/
def Outbox.freeGeneral (o : Outbox) : Nat :=
  min (Config.outboxSize - o.records.length) (Config.outboxGeneral - o.general)

/-- The transmitted and unacknowledged records (R194). -/
def Outbox.transmittedCount (o : Outbox) : Nat := o.records.countP fun r => r.transmitted

/-- Whether any transmitted record stands. -/
def Outbox.anyTransmitted (o : Outbox) : Bool := o.records.any fun r => r.transmitted

/-- A record joins the tail with the next sequence number, untransmitted (R192, R195). -/
def Outbox.enqueue (o : Outbox) (b : ReportBody) : Outbox :=
  { o with
    records := o.records ++ [{ body := b, seq := o.nextSeq, transmitted := false, mark := false }]
    nextSeq := o.nextSeq + 1 }

/-- Applies `f` to the first element for which `p` holds. -/
def updateFirst {α : Type} (p : α → Bool) (f : α → α) : List α → List α
  | [] => []
  | x :: xs => if p x then f x :: xs else x :: updateFirst p f xs

/-- Applies `f` to the last element for which `p` holds. -/
def updateLast {α : Type} (p : α → Bool) (f : α → α) : List α → List α
  | [] => []
  | x :: xs =>
    if xs.any p then x :: updateLast p f xs
    else if p x then f x :: xs
    else x :: xs

/-! ### Offers (10.3) -/

/-- A PROGRESS offer: merged into the latest untransmitted PROGRESS of the job, enqueued if at least
4 general entries are free, or dropped (R199). -/
def Outbox.offerProgress (o : Outbox) (id : Nat) (lane : LaneId) (done : Nat) : Outbox :=
  let mine : Report → Bool := fun r => !r.transmitted && r.isProgressOf id
  if o.records.any mine then
    { o with
      records := updateLast mine (fun r => { r with body := .progress id lane done }) o.records }
  else if Config.progressReserve ≤ o.freeGeneral then
    o.enqueue (.progress id lane done)
  else o

/-- A SUPPLY notice: merged into the untransmitted SUPPLY record, merged into the owed notice,
enqueued, or made owed (R200). -/
def Outbox.offerSupply (o : Outbox) (n : Notice) : Outbox :=
  let unsent : Report → Bool := fun r => !r.transmitted && r.isSupply
  if o.records.any unsent then
    { o with records := updateFirst unsent (fun r => { r with body := .supply n }) o.records }
  else if o.owed.isSome then
    { o with owed := some n }
  else if o.hasFreeEntry then
    o.enqueue (.supply n)
  else
    { o with owed := some n }

/-- The owed notice takes a freed entry (R198 step 1). -/
def Outbox.serveOwed (o : Outbox) : Outbox :=
  match o.owed with
  | some n => if o.hasFreeEntry then { o.enqueue (.supply n) with owed := none } else o
  | none => o

/-! ### Sending and resending (10.4) -/

/-- The record ready for the Transmitter, and the outbox once it is taken: the oldest marked record,
or a new one within the window (R202). -/
def Outbox.take? (o : Outbox) : Option (Report × Outbox) :=
  let marked : Report → Bool := fun r => r.mark
  let fresh : Report → Bool := fun r => !r.transmitted
  if o.stalled then none
  else
    match o.records.find? marked with
    | some r =>
      some (r, { o with records := updateFirst marked (fun r => { r with mark := false }) o.records })
    | none =>
      if o.transmittedCount < Config.window then
        match o.records.find? fresh with
        | some r =>
          some (r, { o with
            records := updateFirst fresh (fun r => { r with transmitted := true }) o.records })
        | none => none
      else none

/-- A transmitted record receives a resend mark (R204). -/
def Report.markIfTransmitted (r : Report) : Report :=
  if r.transmitted then { r with mark := true } else r

/-- The timer is set at the end of a report frame if transmitted records remain (R203). -/
def Outbox.reportFrameEnded (o : Outbox) : Outbox :=
  if o.anyTransmitted then { o with timer := some Config.ackTimerMs } else o

/-- The acknowledgement timer expires: a retransmission round, or the stall (R204, R205). -/
def Outbox.ackExpired (o : Outbox) : Outbox :=
  if o.round < Config.maxRounds then
    { o with
      round := o.round + 1
      records := o.records.map Report.markIfTransmitted
      timer := none }
  else
    { o with stalled := true, timer := none }

/-- A valid request frame ends a stall (R206). -/
def Outbox.endStall (o : Outbox) : Outbox :=
  if o.stalled then
    { o with stalled := false, round := 0, records := o.records.map Report.markIfTransmitted }
  else o

/-! ### Acknowledgement (10.5) -/

/-- Whether `r` is the transmitted record that carries `n`. -/
def Report.acked (n : Byte) (r : Report) : Bool := r.transmitted && r.seq == n

/-- The records behind the transmitted record that carries `n`. -/
def recordsAfter (n : Byte) (rs : List Report) : List Report :=
  (rs.dropWhile fun r => !r.acked n).tail

/-- The effect of a REPORT-ACK on the records, the round count and the timer; `none` is STALE
(R207). The freed entries are given away afterwards (R198). -/
def Outbox.acknowledge (o : Outbox) (n : Byte) : Option Outbox :=
  if o.records.any (Report.acked n) then
    let rest := recordsAfter n o.records
    some { o with
      records := rest
      round := 0
      timer := if rest.any (fun r => r.transmitted) then some Config.ackTimerMs else none }
  else none

/-! ### Break (10.6) -/

/-- Every record becomes untransmitted, the stall and the round count end, the timer stops (R209). -/
def Outbox.rewind (o : Outbox) : Outbox :=
  { o with
    records := o.records.map fun r => { r with transmitted := false, mark := false }
    stalled := false
    round := 0
    timer := none }

/-- Numbers records consecutively from `n` (R210 step 3). -/
def renumber : Byte → List Report → List Report
  | _, [] => []
  | n, r :: rs => { r with seq := n } :: renumber (n + 1) rs

/-- Keeps the oldest SUPPLY record with the notice `n`, removes the other SUPPLY records and
renumbers what stands behind it (R210 steps 1 to 3). -/
def mergeSupply (n : Notice) : List Report → List Report
  | [] => []
  | r :: rs =>
    if r.isSupply then
      { r with body := .supply n } :: renumber (r.seq + 1) (rs.filter fun q => !q.isSupply)
    else r :: mergeSupply n rs

/-- The notice that the newest SUPPLY record carries. -/
def newestNotice (rs : List Report) : Option Notice :=
  (rs.filterMap fun r =>
    match r.body with
    | .supply n => some n
    | .engineReady _ | .jobEnd _ | .progress _ _ _ => none).getLast?

/-- The merge of the SUPPLY records and the owed notice after a rewind (R210 steps 1 to 3). -/
def Outbox.merge (o : Outbox) : Outbox :=
  match newestNotice o.records with
  | none => o
  | some newest =>
    if (o.records.countP fun r => r.isSupply) = 1 then
      match o.owed with
      | none => o
      | some n =>
        { o with
          records := updateFirst (fun r => r.isSupply) (fun r => { r with body := .supply n }) o.records
          owed := none }
    else
      let rs := mergeSupply (o.owed.getD newest) o.records
      { o with
        records := rs
        nextSeq := (rs.getLast?.map fun r => r.seq + 1).getD o.nextSeq
        owed := none }

/-- The report of a job's end, with the values of its record (R18). -/
def Job.endBody (j : Job) : ReportBody :=
  .jobEnd {
    id := j.id
    lane := j.lane
    state := j.state
    reason := j.endReason
    bytesDone := j.bytesDone
    programPulses := j.programPulses
    erasePulses := j.erasePulses
    faultsRecorded := j.faultsRecorded
    laneStopped := j.laneStopped }

end Sys2Proof.Machine
end

