-- ==== Sys2Proof/Machine/Link.lean ====
section
/-! DEFINITION. The reply cache, the reply queue and the Link Transmitter (9.4, 9.5). -/

namespace Sys2Proof.Machine

/-- The tag table entry of a tag below 10h (R167). -/
def State.tagEntry (s : State) (t : Fin 16) : TagEntry := s.tags[t]

/-- Writes a tag table entry. -/
def State.setTagEntry (s : State) (t : Fin 16) (e : TagEntry) : State :=
  s.setTags (s.tags.set t e)

/-- A reply frame joins the tail of the reply queue, or is not placed if 8 frames stand there
(R174). -/
def State.placeReply (s : State) (f : Frame) : State :=
  if s.replyQueue.length < Config.replyQueueSize then s.setReplyQueue (s.replyQueue ++ [f]) else s

/-- The table entry of a tag byte: tags 00h to 0Fh have one (R167, R168). -/
def tagIndex? (tag : Byte) : Option (Fin 16) :=
  if h : tag.toNat < 16 then some ⟨tag.toNat, h⟩ else none

/-- A produced reply is stored in its entry, which becomes REPLIED, and placed in the reply queue
(R171). -/
def State.completeTag (s : State) (t : Fin 16) (d : Digest) (reply : Frame) : State :=
  (s.setTagEntry t (.replied d reply)).placeReply reply

/-- The digest an entry holds. -/
def TagEntry.digest? : TagEntry → Option Digest
  | .free => none
  | .inFlight d | .replied d _ => some d

/-- The reply of a deferred JOB-CANCEL on tag `tag` is produced (R25, R172). -/
def State.completeDeferred (s : State) (tag : Byte) (id : Nat) : State :=
  match tagIndex? tag with
  | none => s
  | some t =>
    match (s.tagEntry t).digest? with
    | none => s
    | some d => s.completeTag t d (replyFrame Request.jobCancel.kind tag .ok [byte id])

/-! ### The Transmitter -/

/-- The Transmitter takes the reply at the head of the queue (R175). -/
def State.takeReply? (s : State) : Option State :=
  match s.replyQueue with
  | [] => none
  | f :: rest => some ((s.setReplyQueue rest).setTx (.reply f))

/-- The Transmitter takes the report that the outbox has ready, building its frame (R175, R202). -/
def State.takeReport? (s : State) : Option State :=
  match s.outbox.take? with
  | none => none
  | some (r, o) => some ((s.setOutbox o).setTx (.report r.frame))

/-- An idle Transmitter takes the next frame: a reply before a report (R175). -/
def State.transmit (s : State) : State :=
  match s.tx with
  | .reply _ | .report _ => s
  | .idle => s.takeReply?.getD (s.takeReport?.getD s)

/-- An idle Transmitter to which a reply and a report became available together takes either first,
by the free value of Config (R175; log 11). -/
def State.transmitEither (s : State) : State :=
  match s.tx with
  | .reply _ | .report _ => s
  | .idle =>
    match s.takeReply?, s.takeReport? with
    | some withReply, some withReport =>
      (if Config.reportTakenFirst s.choices then withReport else withReply).setChoices (s.choices + 1)
    | some withReply, none => withReply
    | none, some withReport => withReport
    | none, none => s

/-- The Transmitter finishes its frame and takes the next (R175); the end of a report frame sets the
acknowledgement timer (R203). -/
def State.frameEnded (s : State) : State :=
  match s.tx with
  | .idle => s
  | .reply _ => (s.setTx .idle).transmit
  | .report _ => ((s.setTx .idle).setOutbox s.outbox.reportFrameEnded).transmit

end Sys2Proof.Machine
end

