-- ==== Sys2Proof/Machine/Cycle.lean ====
section
/-! DEFINITION. The Lane Cycle Unit by itself: hand-over, gap, the five bytes sent, answer slots, window
and ceiling (05_target_lanes). -/

namespace Sys2Proof.Machine

/-- The data bytes that follow a READY to a cycle of this kind (R100, R106). -/
def CycleKind.dataSlots : CycleKind → Nat
  | .ident => 2
  | .read | .marginP | .marginE => 1
  | .load | .pulseP | .pulseE | .pulseEnd => 0

/-- Whether a cycle starts a pulse (R80). -/
def CycleKind.isPulse : CycleKind → Bool
  | .pulseP | .pulseE => true
  | .ident | .read | .marginP | .marginE | .load | .pulseEnd => false

/-- The record created at a hand-over (R99). The sent moment and the window end come with the sent
moment; they are 0 until then (log 21). -/
def Cycle.new (kind : CycleKind) (address : Nat) (data : Byte) (probe : Bool) : Cycle where
  kind := kind
  address := address
  data := data
  probe := probe
  sentMoment := 0
  windowEnd := 0
  heard := false
  dataBytes := []
  slots := 0
  ready := false

/-- The five bytes of a cycle in the order they are sent: the kind byte, the three address bytes, the data
byte, each as given (R100). -/
def Cycle.bytes (c : Cycle) : List Byte := c.kind.code :: be24 c.address ++ [c.data]

/-- The bytes that the engine drives on LDA: those of the cycle that the unit is sending, and none in
IDLE and ANSWERING, when LDA is released (R97, R99, R100). -/
def Lane.ldaBytes (x : Lane) : List Byte :=
  match x.unit.state, x.unit.cycle with
  | .sending, some c => c.bytes
  | .sending, none | .idle, _ | .answering, _ => []

/-- The sequencer hands over a cycle: sent at once if the lane gap has passed, held for it otherwise
(R98, R99). -/
def CycleUnit.handOver (u : CycleUnit) (c : Cycle) : CycleUnit :=
  if u.gapPassed then { state := .sending, cycle := some c, gapPassed := false }
  else { u with cycle := some c }

/-- The lane gap has passed: a held cycle begins to be sent; with none held, the gap is noted for the
next hand-over (R98; log 8). -/
def CycleUnit.gapEnded (u : CycleUnit) : CycleUnit :=
  match u.state, u.cycle with
  | .idle, some _ => { u with state := .sending, gapPassed := false }
  | .idle, none => { u with gapPassed := true }
  | .sending, _ | .answering, _ => u

/-- The fifth byte is out: the sent moment is recorded and the answer window opens (R99, R103). -/
def CycleUnit.sent (u : CycleUnit) (moment : Nat) : CycleUnit :=
  match u.state, u.cycle with
  | .sending, some c =>
    { u with
      state := .answering
      cycle := some { c with sentMoment := moment, windowEnd := moment + Config.shortWindowUs } }
  | .sending, none | .idle, _ | .answering, _ => u

/-- The cycle has ended or is abandoned: IDLE, no record, and the lane gap begins (R111, R115). -/
def CycleUnit.ended : CycleUnit := CycleUnit.afterReset

/-- The cycle whose answer the unit is reading. -/
def CycleUnit.answering? (u : CycleUnit) : Option Cycle :=
  match u.state with
  | .answering => u.cycle
  | .idle | .sending => none

/-- Whether a cycle is in flight: from its hand-over until it ends or is abandoned (R99). -/
def CycleUnit.inFlight (u : CycleUnit) : Bool := u.cycle.isSome

/-! ### Answer slots -/

/-- The end of the `n`-th answer slot (R102). -/
def Cycle.slotEnd (c : Cycle) (n : Nat) : Nat := c.sentMoment + Config.slotUs * n

/-- The end of the last slot the engine may begin: it and the data slots of a READY in it end within
the ceiling (R109). -/
def Cycle.lastSlotEnd (c : Cycle) : Nat :=
  c.sentMoment + (Config.ceilingUs - Config.slotUs * c.kind.dataSlots)

/-- What judging an answer slot leads to. -/
inductive SlotResult where
  /-- The engine reads the next slot. -/
  | goesOn (c : Cycle)
  /-- The cycle ends. -/
  | ends (o : CycleOutcome) (data : List Byte)
  /-- The engine does not begin such a slot (R109). -/
  | notRead
  deriving DecidableEq, Repr

/-- The outcome of a window that closes with no final answer (R108). -/
def Cycle.silentOutcome (c : Cycle) : CycleOutcome :=
  if c.probe && !c.heard then .absent else .timeout

/-- A wait moves the window end to `us` after the end of its slot, never earlier (R104, R105). -/
def Cycle.waited (c : Cycle) (slotEnd us : Nat) : Cycle :=
  { c with heard := true, windowEnd := max c.windowEnd (slotEnd + us) }

/-- The engine takes or judges the byte of the next slot (R102, R103, R105 to R107, R109). -/
def Cycle.slot (c : Cycle) (b : Byte) : SlotResult :=
  if c.ready then
    let data := c.dataBytes ++ [b]
    if data.length < c.kind.dataSlots then .goesOn { c with dataBytes := data }
    else .ends .ready data
  else
    let n := c.slots + 1
    let now := c.slotEnd n
    let c' := { c with slots := n }
    if c.lastSlotEnd < now then .notRead
    else if b = 0xFF then
      if now < c.windowEnd then .goesOn c' else .ends c.silentOutcome []
    else if b = 0x3C then
      if c.kind.dataSlots = 0 then .ends .ready []
      else .goesOn { c' with heard := true, ready := true }
    else if b = 0x71 then .goesOn (c'.waited now Config.shortWindowUs)
    else if b = 0x72 then .goesOn (c'.waited now Config.longWindowUs)
    else if b = 0xE7 then .ends .fault []
    else .ends .badAnswer []

/-- Whether the window can close with no further answer: the slot that would close it is one the
engine begins, and no READY has been judged (R103, R106, R109; log 7). -/
def Cycle.windowCanClose (c : Cycle) : Bool :=
  !c.ready && decide (c.windowEnd ≤ c.lastSlotEnd)

/-- Whether the ceiling can be reached with no further answer: the window stands open past the last
slot the engine begins, and no READY has been judged (R106, R109; log 7). -/
def Cycle.ceilingCanCome (c : Cycle) : Bool :=
  !c.ready && decide (c.lastSlotEnd < c.windowEnd)

end Sys2Proof.Machine
end

