-- ==== Sys2Proof/Machine/Lanes.lean ====
section
/-! DEFINITION. Handing cycles to a lane, and starting the job at the head of a lane's queue (R14,
R15, R34). -/

namespace Sys2Proof.Machine

/-- Applies `f` to the Lane Cycle Unit of lane `l`. -/
def State.updUnit (s : State) (l : LaneId) (f : CycleUnit → CycleUnit) : State :=
  s.updLane l fun x => { x with unit := f x.unit }

/-- The sequencer of lane `l` hands a cycle to its Lane Cycle Unit (R99, R100). -/
def State.sendCycle (s : State) (l : LaneId) (kind : CycleKind) (address : Nat) (data : Byte) :
    State :=
  s.updUnit l fun u => u.handOver (.new kind address data false)

/-- A cycle of kind `kind` at the current address, data field 0. -/
def State.sendAtAddress (s : State) (l : LaneId) (kind : CycleKind) : State :=
  s.sendCycle l kind (s.lane l).context.address 0

/-- The probe: an IDENT cycle, fields 0, the probe mark set (R34). -/
def State.sendProbe (s : State) (l : LaneId) : State :=
  s.updUnit l fun u => u.handOver (.new .ident 0 0 true)

/-- The context of a job at its start (R15). -/
def Context.starting (address : Nat) : Context where
  address := address
  pulseCount := 0
  watermark := address
  eraseCount := 0
  phase := none
  mark := none

/-- Where a job starts: its start address, the start of its first sector, 0 for IDENTIFY (R15). -/
def Work.firstAddress (w : Work) (p : Profile) : Nat :=
  match w with
  | .identify => 0
  | .program a _ _ | .verify a _ _ | .blankCheck a _ => a
  | .erase first _ => first * p.sectorSize

/-- The profile of a job. -/
def State.profileOf (s : State) (j : Job) : Profile := s.profiles[j.profile]

/-- An IDLE lane with a non-empty queue starts the head: the job leaves the queue and becomes ACTIVE,
the lane RUNNING, the context is set up and the probe is sent (R14, R15, R34). -/
def State.startHead (s : State) (l : LaneId) : State :=
  match (s.lane l).state, (s.lane l).queue with
  | .idle, id :: rest =>
    match s.job? id with
    | none => s
    | some j =>
      let ctx := Context.starting (j.work.firstAddress (s.profileOf j))
      ((s.updLane l fun x =>
          { x with state := .running, queue := rest, current := some id, context := ctx }).updJob
        id fun j => { j with state := .active }).sendProbe l
  | .idle, [] => s
  | .running, _ | .pulseWait, _ | .pulsing, _ | .held, _ | .reportWait, _ | .stopped, _ => s

end Sys2Proof.Machine
end

