-- ==== Sys2Proof/Machine/Supply.lean ====
section
/-! DEFINITION. The Supply Arbiter: budget, grant queue, switches and pulses; holding and resuming a
lane (04_the_programming_supply). -/

namespace Sys2Proof.Machine

/-! ### Switches and units -/

/-- Opens the switch of lane `l` and returns the units it holds in the same step; the timer stops and
the slot becomes `slot` (R74, R75, R82). -/
def State.openSwitch (s : State) (l : LaneId) (slot : PulseSlot) : State :=
  (s.setFreeUnits (s.freeUnits + (s.lane l).unitsHeld)).updLane l fun x =>
    { x with lvpClosed := false, unitsHeld := 0, timer := none, slot := slot }

/-- The sort of pulse that lane `l` works on: an erase pulse in the ERASE phase of a sector, else a
program or precondition pulse (R56, R148). -/
def Context.pulseSort (c : Context) : PulseSort :=
  match c.phase with
  | some .erase => .erase
  | some .precondition | none => .program

/-- Grants an entry: the switch closes, the cost moves from the free count to the lane, the slot is
GRANTED with its timer stopped, the lane PULSING, and the sequencer sends its PULSE-P or PULSE-E (R74,
R75, R77). -/
def State.grant (s : State) (e : GrantEntry) : State :=
  let s' := (s.setFreeUnits (s.freeUnits - e.cost)).updLane e.lane fun x =>
    { x with
      state := .pulsing
      lvpClosed := true
      unitsHeld := x.unitsHeld + e.cost
      slot := .granted
      timer := none
      width := e.width }
  s'.sendAtAddress e.lane
    (match (s.lane e.lane).context.pulseSort with
     | .program => .pulseP
     | .erase => .pulseE)

/-- Grants from the head of the queue `q` as long as the supply is UP and the head's cost is no more
than the free count; what remains is the grant queue (R77, R78). -/
def grantFrom : List GrantEntry → State → State
  | [], s => s.setGrantQueue []
  | e :: rest, s =>
    if s.supply.state = .up ∧ e.cost ≤ s.freeUnits then grantFrom rest (s.grant e)
    else s.setGrantQueue (e :: rest)

/-- The Arbiter's grant test (R77). -/
def State.grantTest (s : State) : State := grantFrom s.grantQueue s

/-! ### Grant requests -/

/-- The width of program pulse number `k`, in microseconds (R41). -/
def Profile.programWidth (p : Profile) (k : Nat) : Nat :=
  if p.stepped then
    if k ≤ 3 then p.baseWidth else if k ≤ 6 then 2 * p.baseWidth else 4 * p.baseWidth
  else p.baseWidth

/-- The entry a sequencer asks for: cost and width of its next pulse (R40, R41, R59, R62). -/
def grantEntry (l : LaneId) (p : Profile) (c : Context) : GrantEntry :=
  match c.pulseSort with
  | .program => { lane := l, cost := p.programCost, width := p.programWidth (c.pulseCount + 1) }
  | .erase => { lane := l, cost := p.eraseCost, width := p.eraseWidth * 1000 }

/-- The lane and its job become HELD, the context kept (R87). -/
def State.holdLane (s : State) (l : LaneId) : State :=
  (s.setLaneState l .held).updCurrentJob l fun j => { j with state := .held }

/-- A grant request before the grant test: with the supply UP the entry joins the tail and the lane is
PULSE_WAIT; otherwise the lane is HELD without joining (R40, R62, R76). -/
def State.joinGrantQueue (s : State) (l : LaneId) : State :=
  match s.currentJob? l with
  | none => s
  | some j =>
    if s.supply.state = .up then
      (s.setGrantQueue (s.grantQueue ++ [grantEntry l (s.profileOf j) (s.lane l).context])).setLaneState
        l .pulseWait
    else s.holdLane l

/-- A grant request and the grant test that follows it (R76, R77; log 20). -/
def State.requestGrant (s : State) (l : LaneId) : State := (s.joinGrantQueue l).grantTest

/-! ### Resuming -/

/-- A sweep from the watermark (R64, R65, R72). -/
def State.sweep (s : State) (l : LaneId) : State :=
  (s.updContext l fun c => { c with address := c.watermark }).sendAtAddress l .marginE

/-- A held lane becomes RUNNING, its job ACTIVE, and it carries on from its context: at the MARGIN-P
of its byte, at the first erase grant request (entered without a grant test), or with a sweep from
the watermark (R44, R72, R93). -/
def State.resumeLane (s : State) (l : LaneId) : State :=
  let s' := (s.setLaneState l .running).updCurrentJob l fun j => { j with state := .active }
  let c := (s.lane l).context
  match c.pulseSort with
  | .program => s'.sendAtAddress l .marginP
  | .erase => if c.eraseCount = 0 then s'.joinGrantQueue l else s'.sweep l

/-- Whether lane `l` is HELD. -/
def State.isHeld (s : State) (l : LaneId) : Bool := (s.lane l).state == .held

/-- The lanes HELD at this moment, lane 0 first (R91). -/
def State.heldLanes (s : State) : List LaneId := (List.finRange 8).filter s.isHeld

/-- Resumes the lanes of `ls` in order (R93). -/
def State.resumeLanes (s : State) (ls : List LaneId) : State := ls.foldl State.resumeLane s

/-! ### A fall of the supply (R86) -/

/-- What a fall does to one lane: a TIMING pulse is cut and the lane held, a GRANTED pulse is cut with
its slot CUT, a lane in PULSE_WAIT is held (R82, R86). -/
def State.fallOnLane (s : State) (l : LaneId) : State :=
  let s' :=
    match (s.lane l).slot with
    | .timing => (s.openSwitch l .none).holdLane l
    | .granted => s.openSwitch l .cut
    | .none | .cut => s
  match (s.lane l).state with
  | .pulseWait => s'.holdLane l
  | .idle | .running | .pulsing | .held | .reportWait | .stopped => s'

/-- What a fall does to every lane, and the emptied grant queue (R86 steps 2 and 3). -/
def State.fallOnLanes (s : State) : State :=
  ((List.finRange 8).foldl State.fallOnLane s).setGrantQueue []

end Sys2Proof.Machine
end

