-- ==== Sys2Proof/Machine/Jobs.lean ====
section
/-! DEFINITION. The Job Manager at the end of a job: references dropped, JOB-END offered, the lane
going on, waiting lanes served, cancelling (R16 to R26, R141, R197, R198); and the Fault List taking
an offer (R149). -/

namespace Sys2Proof.Machine

/-! ### Block references (R140, R141) -/

/-- A FREE block: what it becomes when neither the host nor a job holds it (R131, R138, R141). -/
def Block.freed (b : Block) : Block :=
  { b with state := .free, held := false, fill := 0, refs := 0, crc := none }

/-- Drops one reference; a released block whose count reaches 0 becomes FREE (R141). -/
def Block.dropRef (b : Block) : Block :=
  if b.refs - 1 = 0 ∧ b.held = false then b.freed else { b with refs := b.refs - 1 }

/-- Drops one reference for each listing (R141). -/
def State.dropRefs (s : State) (hs : List Handle) : State :=
  hs.foldl (fun s h => s.updBlock h Block.dropRef) s

/-- Adds one reference for each listing (R140). -/
def State.addRefs (s : State) (hs : List Handle) : State :=
  hs.foldl (fun s h => s.updBlock h fun b => { b with refs := b.refs + 1 }) s

/-! ### The end of a job -/

/-- The lane of a job whose JOB-END has been taken: STOPPED if the job stopped it, else IDLE, and then
it starts the head of its queue (R19). -/
def State.laneGoesOn (s : State) (l : LaneId) (stopped : Bool) : State :=
  if stopped then s.updLane l fun x => { x with state := .stopped, waitFor := none }
  else (s.updLane l fun x => { x with state := .idle, waitFor := none }).startHead l

/-- The lane joins the tail of the waiting-lane queue unless it already stands in it (R18, R197). -/
def Outbox.joinWaiting (o : Outbox) (l : LaneId) : Outbox :=
  if o.waitingLanes.contains l then o else { o with waitingLanes := o.waitingLanes ++ [l] }

/-- Offers the JOB-END of job `id` to the outbox: enqueued in a free general entry, or the job waits
and its lane joins the waiting-lane queue. `current` says that the job was the lane's current job,
whose lane then goes on or enters REPORT_WAIT (R18, R197). -/
def State.offerJobEnd (s : State) (id : Nat) (current : Bool) : State :=
  match s.job? id with
  | none => s
  | some j =>
    if 0 < s.outbox.freeGeneral then
      let s' := (s.setOutbox (s.outbox.enqueue j.endBody)).updJob id fun j =>
        { j with endReport := .enqueued }
      if current then s'.laneGoesOn j.lane j.laneStopped else s'
    else
      let s' := ((s.setOutbox (s.outbox.joinWaiting j.lane)).updJob id fun j =>
          { j with endReport := .waiting }).updLane j.lane fun x =>
        { x with waitingEnds := x.waitingEnds ++ [id] }
      if current then
        s'.updLane j.lane fun x => { x with state := .reportWait, waitFor := some id }
      else s'

/-- The end sequence of a job: the record is written, the context cleared if it was the lane's current
job, its references are dropped, its JOB-END is offered (R17). -/
def State.finishJob (s : State) (id : Nat) (st : JobState) (reason : EndReason) (stopped : Bool)
    (current : Bool) : State :=
  match s.job? id with
  | none => s
  | some j =>
    let s₁ := s.updJob id fun j =>
      { j with state := st, endReason := some reason, laneStopped := stopped }
    let s₂ :=
      if current then
        s₁.updLane j.lane fun x => { x with current := none, context := .cleared }
      else s₁
    (s₂.dropRefs j.work.blocks).offerJobEnd id current

/-- Ends the current job of lane `l` (R17). -/
def State.finishCurrent (s : State) (l : LaneId) (st : JobState) (reason : EndReason)
    (stopped : Bool) : State :=
  match (s.lane l).current with
  | some id => s.finishJob id st reason stopped true
  | none => s

/-- The end reason of a lane-level failure (R16, R111); READY ends no job this way. -/
def CycleOutcome.reason : CycleOutcome → Option EndReason
  | .ready => none
  | .fault => some .targetFault
  | .badAnswer => some .badAnswer
  | .timeout => some .laneTimeout
  | .absent => some .targetAbsent

/-- A lane-level failure ends the lane's current job and stops the lane (R32). -/
def State.laneFailure (s : State) (l : LaneId) (o : CycleOutcome) : State :=
  match o.reason with
  | none => s
  | some r => s.finishCurrent l .failed r true

/-! ### Serving the waiting lanes (R19, R198) -/

/-- Enqueues the JOB-END of the head lane's WAITING job that became final first, and moves the lane
as R19 gives. A lane with no WAITING job only leaves the queue. -/
def State.serveLane (s : State) (l : LaneId) (others : List LaneId) : State :=
  match (s.lane l).waitingEnds with
  | [] => s.setOutbox { s.outbox with waitingLanes := others }
  | id :: more =>
    let queue := if more.isEmpty then others else others ++ [l]
    let s₁ := s.updLane l fun x => { x with waitingEnds := more }
    match s.job? id with
    | none => s₁.setOutbox { s.outbox with waitingLanes := queue }
    | some j =>
      let s₂ := (s₁.setOutbox { s.outbox.enqueue j.endBody with waitingLanes := queue }).updJob id
        fun j => { j with endReport := .enqueued }
      if (s.lane l).state = .reportWait ∧ (s.lane l).waitFor = some id then
        s₂.laneGoesOn l j.laneStopped
      else s₂

/-- Serves the head of the waiting-lane queue while a general entry is free; `fuel` bounds the turns
(R198 step 2). -/
def serveWaiting : Nat → State → State
  | 0, s => s
  | fuel + 1, s =>
    match s.outbox.waitingLanes with
    | [] => s
    | l :: others =>
      if 0 < s.outbox.freeGeneral then serveWaiting fuel (s.serveLane l others) else s

/-- Turns that suffice: each takes a lane off the queue or one WAITING job off a lane. -/
def State.serveFuel (s : State) : Nat :=
  s.outbox.waitingLanes.length + (s.lanes.toList.map fun x => x.waitingEnds.length).sum

/-- Gives away the entries that an acknowledgement or a merge has freed: the owed notice first, then
the waiting lanes in queue order (R198). -/
def State.serveFreed (s : State) : State :=
  let s' := s.setOutbox s.outbox.serveOwed
  serveWaiting s'.serveFuel s'

/-! ### The Fault List -/

/-- Writes a record at the tail and counts it for its job, if a record is free (R149). -/
def State.recordFault (s : State) (r : FaultRecord) : State :=
  (s.setFaults (s.faults ++ [r])).updJob r.job fun j =>
    { j with faultsRecorded := j.faultsRecorded + 1 }

/-- Whether the Fault List has a free record (R149). -/
def State.faultRoom (s : State) : Bool := decide (s.faults.length < Config.faultListSize)

/-- A cancel that cuts a pulse records INTERRUPTED if the list has room, and goes on either way (R23,
R148, R149). -/
def State.recordInterrupted (s : State) (l : LaneId) (id : Nat) : State :=
  if s.faultRoom then
    let c := (s.lane l).context
    s.recordFault {
      job := id
      kind := .interrupted
      address := c.address
      expected := none
      readByte := none
      sort := c.pulseSort
      pulses := match c.pulseSort with
        | .program => c.pulseCount
        | .erase => c.eraseCount }
  else s

/-! ### JOB-CANCEL (R21 to R24) -/

/-- A QUEUED job leaves its lane's queue and becomes CANCELLED; the lane's state does not change
(R21). -/
def State.cancelQueued (s : State) (j : Job) : State :=
  (s.updLane j.lane fun x => { x with queue := x.queue.filter fun i => i != j.id }).finishJob j.id
    .cancelled .cancelled false false

/-- A current job with no switch and no cycle is cancelled at once; a lane in PULSE_WAIT first leaves
the grant queue, and the new head is tried (R22). -/
def State.cancelWaiting (s : State) (j : Job) : State :=
  let s' :=
    if (s.lane j.lane).state = .pulseWait then
      (s.setGrantQueue (s.grantQueue.filter fun e => e.lane != j.lane)).grantTest
    else s
  s'.finishJob j.id .cancelled .cancelled false true

/-- A current job whose pulse timer runs has its pulse cut: switch opened, units returned, the head
tried, INTERRUPTED recorded if there is room, then CANCELLED (R23, R82). -/
def State.cancelPulsing (s : State) (j : Job) : State :=
  (((s.openSwitch j.lane .none).grantTest).recordInterrupted j.lane j.id).finishJob j.id .cancelled
    .cancelled false true

/-- A cancel with a cycle in flight is deferred: its tag joins the pending-cancel mark, and a GRANTED
pulse is cut with its slot CUT and INTERRUPTED recorded (R24, R82). -/
def State.deferCancel (s : State) (j : Job) (tag : Byte) : State :=
  let s₁ :=
    if (s.lane j.lane).slot = .granted then
      ((s.openSwitch j.lane .cut).grantTest).recordInterrupted j.lane j.id
    else s
  (s₁.updContext j.lane fun c => { c with mark := some (c.mark.getD [] ++ [tag]) }).setDeferred
    (s₁.deferred ++ [{ tag := tag, job := j.id }])

/-- The end of a cycle under a pending-cancel mark: a closed switch opens, the job becomes CANCELLED
with the lane stopped unless the cycle ended READY, and a reply OK is produced for each tag of the
mark in order (R25, R88, R172). All of them are placed before an idle Transmitter takes the first, so that
a ninth finds no place, which is the model's choice (log 29). -/
def State.endDeferred (s : State) (l : LaneId) (tags : List Byte) (o : CycleOutcome) : State :=
  let s₁ := if (s.lane l).lvpClosed then (s.openSwitch l .none).grantTest else
    s.updLane l fun x => { x with slot := .none }
  match (s.lane l).current with
  | none => s₁
  | some id =>
    let s₂ := s₁.finishJob id .cancelled .cancelled (o != .ready) true
    let s₃ := s₂.setDeferred (s₂.deferred.filter fun d => d.job != id)
    tags.foldl (fun s t => s.completeDeferred t id) s₃

end Sys2Proof.Machine
end

