-- ==== Sys2Proof/Machine/Sequencer.lean ====
section
/-! DEFINITION. The lane sequencer: probe, PROGRAM, VERIFY, BLANK-CHECK, precondition, erase and sweep,
step by step after each READY; and the end of a cycle (02, 03, R80, R88, R111). -/

namespace Sys2Proof.Machine

/-! ### The data stream (R37, R142) -/

/-- The byte at offset `k` of the stream of a block list: the list is walked from its first entry, each
entry's fill length subtracted until `k` lies within an entry (R142). -/
def State.streamByte? (s : State) : List Handle → Nat → Option Byte
  | [], _ => none
  | h :: hs, k =>
    if k < (s.block h).fill then some ((s.block h).content.read k)
    else State.streamByte? s hs (k - (s.block h).fill)

/-- The expected byte for target address `a` (R37). Check 5 makes the stream as long as the range, so
the value past its end is never used (log 18). -/
def State.expectedByte (s : State) (w : Work) (a : Nat) : Byte :=
  (s.streamByte? w.blocks (a - w.start)).getD Memory.unlisted

/-! ### Faults and their end of a job (R49 to R51, R60, R67) -/

/-- Offers a cell-level fault of the current job `j` of lane `l`. Recorded at the limit it ends the job
FAULT_LIMIT; on a full list it is not recorded and ends the job FAULT_SPACE; otherwise `goOn`. -/
def State.offerFault (s : State) (l : LaneId) (j : Job) (r : FaultRecord) (goOn : State → State) :
    State :=
  if s.faultRoom then
    let s' := s.recordFault r
    if j.faultLimit ≤ j.faultsRecorded + 1 then s'.finishCurrent l .failed .faultLimit false
    else goOn s'
  else s.finishCurrent l .failed .faultSpace false

/-- The whole range is done: COMPLETE with no fault recorded, else FAULTS (R52, R70). -/
def State.rangeDone (s : State) (l : LaneId) : State :=
  match s.currentJob? l with
  | none => s
  | some j =>
    if j.faultsRecorded = 0 then s.finishCurrent l .done .complete false
    else s.finishCurrent l .failed .faults false

/-- Offers a PROGRESS of the current job `j` with its bytes done (R53, R68). -/
def State.offerProgress (s : State) (l : LaneId) (j : Job) (done : Nat) : State :=
  s.setOutbox (s.outbox.offerProgress j.id l done)

/-! ### Bytes (R45) -/

/-- A byte of a PROGRAM, VERIFY or BLANK-CHECK job is done (R45, R53). -/
def State.byteDone (s : State) (l : LaneId) : State :=
  match s.currentJob? l with
  | none => s
  | some j =>
    let done := j.bytesDone + 1
    let a := (s.lane l).context.address
    let s₁ := s.updJob j.id fun j => { j with bytesDone := done }
    if j.work.start + j.work.length ≤ a + 1 then s₁.rangeDone l
    else
      let s₂ :=
        match j.progress with
        | some i => if done % (256 * i) = 0 then s₁.offerProgress l j done else s₁
        | none => s₁
      (s₂.updContext l fun c => { c with address := a + 1, pulseCount := 0 }).sendAtAddress l .read

/-- The fault record of a byte at the current address of job `j` (R49, R60, R148). -/
def byteFault (j : Job) (c : Context) (k : FaultKind) (e : Option Byte) (v : Byte) (pulses : Nat) :
    FaultRecord where
  job := j.id
  kind := k
  address := c.address
  expected := e
  readByte := some v
  sort := .program
  pulses := pulses

/-- The READ of a PROGRAM byte: equal, not erased, or to be programmed (R38, R39). -/
def State.judgeProgramRead (s : State) (l : LaneId) (j : Job) (v : Byte) : State :=
  let c := (s.lane l).context
  let e := s.expectedByte j.work c.address
  if v = e then s.byteDone l
  else if e &&& ~~~v ≠ 0 then
    s.offerFault l j (byteFault j c .notErased (some e) v 0) fun s => s.byteDone l
  else s.sendCycle l .load c.address e

/-- The READ of a VERIFY byte (R46). -/
def State.judgeVerifyRead (s : State) (l : LaneId) (j : Job) (v : Byte) : State :=
  let c := (s.lane l).context
  let e := s.expectedByte j.work c.address
  if v = e then s.byteDone l
  else s.offerFault l j (byteFault j c .mismatch (some e) v 0) fun s => s.byteDone l

/-- The READ of a BLANK-CHECK byte (R47). -/
def State.judgeBlankRead (s : State) (l : LaneId) (j : Job) (v : Byte) : State :=
  let c := (s.lane l).context
  if v = 0xFF then s.byteDone l
  else s.offerFault l j (byteFault j c .blankFail none v 0) fun s => s.byteDone l

/-- The MARGIN-P of a PROGRAM byte: done, exhausted, or the next grant (R43). -/
def State.judgeProgramMargin (s : State) (l : LaneId) (j : Job) (v : Byte) : State :=
  let c := (s.lane l).context
  let e := s.expectedByte j.work c.address
  if v = e then s.byteDone l
  else if (s.profileOf j).maxProgram ≤ c.pulseCount then
    s.offerFault l j (byteFault j c .programExhausted (some e) v c.pulseCount) fun s => s.byteDone l
  else s.requestGrant l

/-! ### Sectors (03) -/

/-- The start of the sector an address lies in (R56). -/
def Profile.sectorStart (p : Profile) (a : Nat) : Nat := a / p.sectorSize * p.sectorSize

/-- The end of the sector an address lies in (R56). -/
def Profile.sectorEnd (p : Profile) (a : Nat) : Nat := p.sectorStart a + p.sectorSize - 1

/-- Enters the ERASE phase at the sector start and asks for the first erase pulse (R61, R62). -/
def State.enterErase (s : State) (l : LaneId) (sectorStart : Nat) : State :=
  (s.updContext l fun c => { c with phase := some .erase, address := sectorStart }).requestGrant l

/-- Begins the sector at `sectorStart`: the context is set up, then the first precondition byte or the
first erase grant request (R57). -/
def State.beginSector (s : State) (l : LaneId) (j : Job) (sectorStart : Nat) : State :=
  let fresh := s.updContext l fun c =>
    { c with address := sectorStart, watermark := sectorStart, eraseCount := 0, pulseCount := 0 }
  if (s.profileOf j).precondition then
    (fresh.updContext l fun c => { c with phase := some .precondition }).sendAtAddress l .read
  else fresh.enterErase l sectorStart

/-- A sector is done: bytes done, the end of the job, a PROGRESS, or the next sector (R68). -/
def State.sectorDone (s : State) (l : LaneId) : State :=
  match s.currentJob? l with
  | none => s
  | some j =>
    let p := s.profileOf j
    let begun := p.sectorStart (s.lane l).context.watermark
    let done := j.bytesDone + p.sectorSize
    let s₁ := s.updJob j.id fun j => { j with bytesDone := done }
    if j.work.lastSector ≤ begun / p.sectorSize then s₁.rangeDone l
    else
      let s₂ :=
        match j.progress with
        | some i =>
          if j.bytesDone / (256 * i) < done / (256 * i) then s₁.offerProgress l j done else s₁
        | none => s₁
      s₂.beginSector l j (begun + p.sectorSize)

/-- A precondition byte is finished: the next byte, or the ERASE phase after the sector end (R58,
R61). -/
def State.preconditionByteDone (s : State) (l : LaneId) : State :=
  match s.currentJob? l with
  | none => s
  | some j =>
    let p := s.profileOf j
    let a := (s.lane l).context.address
    if p.sectorEnd a ≤ a then s.enterErase l (p.sectorStart a)
    else (s.updContext l fun c => { c with address := a + 1 }).sendAtAddress l .read

/-- The READ of a precondition byte (R58, R59). -/
def State.judgePreconditionRead (s : State) (l : LaneId) (v : Byte) : State :=
  if v = 0 then s.preconditionByteDone l
  else s.sendCycle l .load (s.lane l).context.address 0

/-- The MARGIN-P of a precondition byte: finished, failed, or the next grant (R59, R60). -/
def State.judgePreconditionMargin (s : State) (l : LaneId) (j : Job) (v : Byte) : State :=
  let c := (s.lane l).context
  if v = 0 then s.preconditionByteDone l
  else if (s.profileOf j).maxProgram ≤ c.pulseCount then
    s.offerFault l j (byteFault j c .preconditionFail (some 0) v c.pulseCount) fun s =>
      s.preconditionByteDone l
  else s.requestGrant l

/-- The MARGIN-E of a sweep: the next byte, the sector done, a re-pulse, or ERASE_EXHAUSTED (R65 to
R67). -/
def State.judgeSweep (s : State) (l : LaneId) (j : Job) (v : Byte) : State :=
  let c := (s.lane l).context
  let p := s.profileOf j
  let a := c.address
  if v = 0xFF then
    if p.sectorEnd a ≤ a then s.sectorDone l
    else (s.updContext l fun c => { c with address := a + 1 }).sendAtAddress l .marginE
  else
    let s' := s.updContext l fun c => { c with watermark := a }
    if c.eraseCount < p.maxErase then
      (s'.updContext l fun c => { c with address := p.sectorStart a }).requestGrant l
    else
      s'.offerFault l j
        { job := j.id
          kind := .eraseExhausted
          address := a
          expected := none
          readByte := some v
          sort := .erase
          pulses := c.eraseCount }
        fun s => s.sectorDone l

/-! ### After a READY (R32) -/

/-- The first step of a job's algorithm once its probe has passed (R35, R36, R38, R46, R47, R57). -/
def State.probePassed (s : State) (l : LaneId) (j : Job) : State :=
  match j.work with
  | .identify => s.rangeDone l
  | .program _ _ _ | .verify _ _ _ | .blankCheck _ _ => s.sendAtAddress l .read
  | .erase first _ => s.beginSector l j (first * (s.profileOf j).sectorSize)

/-- The probe's READY: the identity is stored, then compared if the profile asks for it (R35). -/
def State.probeReady (s : State) (l : LaneId) (j : Job) (maker device : Byte) : State :=
  let p := s.profileOf j
  let s' := s.updJob j.id fun j => { j with identity := some { maker := maker, device := device } }
  if p.checkIdentity && (maker != p.maker || device != p.device) then
    s'.finishCurrent l .failed .identMismatch false
  else s'.probePassed l j

/-- The READY of a READ, by the kind of the job (R38, R46, R47, R58); an IDENTIFY job reads nothing. -/
def State.readReady (s : State) (l : LaneId) (j : Job) (v : Byte) : State :=
  match j.work with
  | .identify => s
  | .program _ _ _ => s.judgeProgramRead l j v
  | .verify _ _ _ => s.judgeVerifyRead l j v
  | .blankCheck _ _ => s.judgeBlankRead l j v
  | .erase _ _ => s.judgePreconditionRead l v

/-- The READY of a MARGIN-P: a PROGRAM byte or a precondition byte (R43, R59). -/
def State.marginReady (s : State) (l : LaneId) (j : Job) (v : Byte) : State :=
  match j.work with
  | .program _ _ _ => s.judgeProgramMargin l j v
  | .erase _ _ => s.judgePreconditionMargin l j v
  | .identify | .verify _ _ _ | .blankCheck _ _ => s

/-- The READY of a PULSE-END: the MARGIN-P of the byte, or the sweep (R43, R59, R64). -/
def State.pulseEndReady (s : State) (l : LaneId) : State :=
  match (s.lane l).context.pulseSort with
  | .program => s.sendAtAddress l .marginP
  | .erase => s.sweep l

/-- The READY of a LOAD: the pulse count is 0 and the first grant is asked for (R39, R59). -/
def State.loadReady (s : State) (l : LaneId) : State :=
  (s.updContext l fun c => { c with pulseCount := 0 }).requestGrant l

/-- The step of the algorithm that follows a READY to a cycle that starts no pulse (R32). -/
def State.cycleReady (s : State) (l : LaneId) (kind : CycleKind) (data : List Byte) : State :=
  match s.currentJob? l with
  | none => s
  | some j =>
    match kind with
    | .ident => s.probeReady l j (at? data 0) (at? data 1)
    | .read => s.readReady l j (at? data 0)
    | .marginP => s.marginReady l j (at? data 0)
    | .marginE => s.judgeSweep l j (at? data 0)
    | .load => s.loadReady l
    | .pulseEnd => s.pulseEndReady l
    | .pulseP | .pulseE => s

/-! ### Pulse cycles (R80, R88) -/

/-- A pulse starts: the timer runs for the carried width, the slot is TIMING, and the pulse is counted
(R42, R63, R80). -/
def State.pulseStarts (s : State) (l : LaneId) (kind : CycleKind) : State :=
  let s' := s.updLane l fun x => { x with slot := .timing, timer := some x.width }
  if kind = .pulseE then
    (s'.updContext l fun c => { c with eraseCount := c.eraseCount + 1 }).updCurrentJob l fun j =>
      { j with erasePulses := j.erasePulses + 1 }
  else
    (s'.updContext l fun c => { c with pulseCount := c.pulseCount + 1 }).updCurrentJob l fun j =>
      { j with programPulses := j.programPulses + 1 }

/-- The answer of a cut pulse: the slot becomes NONE; READY holds the lane, which resumes in the same
step if the supply is UP; any other outcome is a lane-level failure (R88). -/
def State.cutPulseEnds (s : State) (l : LaneId) (o : CycleOutcome) : State :=
  let s' := s.updLane l fun x => { x with slot := .none }
  match o with
  | .ready =>
    let held := s'.holdLane l
    if s.supply.state = .up then (held.resumeLane l).grantTest else held
  | .fault | .badAnswer | .timeout | .absent => (s'.setLaneState l .running).laneFailure l o

/-- The end of a PULSE-P or PULSE-E, by the lane's pulse slot (R80, R88). A pulse cycle is in flight
only on a GRANTED or CUT slot. -/
def State.pulseCycleEnds (s : State) (l : LaneId) (kind : CycleKind) (o : CycleOutcome) : State :=
  match (s.lane l).slot with
  | .granted =>
    match o with
    | .ready => s.pulseStarts l kind
    | .fault | .badAnswer | .timeout | .absent =>
      (((s.openSwitch l .none).setLaneState l .running).laneFailure l o).grantTest
  | .cut => s.cutPulseEnds l o
  | .none | .timing => s

/-- The end of a cycle on lane `l`: the unit becomes IDLE and its outcome goes to the sequencer, and to
the Arbiter for a pulse cycle; a pending-cancel mark takes precedence (R25, R32, R111). -/
def State.cycleEnds (s : State) (l : LaneId) (kind : CycleKind) (o : CycleOutcome)
    (data : List Byte) : State :=
  let s' := s.updUnit l fun _ => .ended
  match (s.lane l).context.mark with
  | some tags => s'.endDeferred l tags o
  | none =>
    if kind.isPulse then s'.pulseCycleEnds l kind o
    else
      match o with
      | .ready => s'.cycleReady l kind data
      | .fault | .badAnswer | .timeout | .absent => s'.laneFailure l o

/-- The pulse timer of lane `l` expires: switch open, units back, slot NONE, lane RUNNING, the grant
test, then PULSE-END (R81). PULSE-END has no address (R100). -/
def State.pulseExpires (s : State) (l : LaneId) : State :=
  (((s.openSwitch l .none).setLaneState l .running).grantTest).sendCycle l .pulseEnd 0 0

end Sys2Proof.Machine
end

