-- ==== Sys2Proof/Machine/Pool.lean ====
section
/-! DEFINITION. What taking a request leads to; the profile requests (06) and the block requests (07)
as their owning blocks carry them out. -/

namespace Sys2Proof.Machine

/-- What a request that passed both steps of R170 leads to: a reply with its result code and fields; a
reply deferred to the end of a cycle (R24); or a request that has completed its own entry
(ENGINE-RESET, R180). -/
inductive Taken where
  | replied (code : Result) (fields : List Byte) (s : State)
  | deferred (s : State)
  | selfReplied (s : State)

/-- A refusal: the code alone, nothing changed. -/
def State.refuse (s : State) (code : Result) : Taken := .replied code [] s

/-! ### Profiles (06) -/

/-- A profile entry number carried in a request (R117). -/
def profileId? (n : Nat) : Option ProfileId := if h : n < 4 then some ⟨n, h⟩ else none

/-- A code byte of a two-valued setting: 00h or 01h (R186). -/
def settingOk (b : Byte) : Bool := b == 0x00 || b == 0x01

/-- Check 2 of PROFILE-LOAD (R123). -/
def LoadFields.codesOk (f : LoadFields) : Bool :=
  settingOk f.checkIdentity && settingOk f.escalation && settingOk f.precondition

/-- Check 3 of PROFILE-LOAD (R123). -/
def LoadFields.inRange (f : LoadFields) : Bool :=
  decide (10 ≤ f.memExp ∧ f.memExp ≤ 24 ∧ 8 ≤ f.sectorExp ∧ f.sectorExp ≤ 16 ∧
    f.sectorExp ≤ f.memExp ∧ 1 ≤ f.baseWidth ∧ f.baseWidth ≤ 1000 ∧ 1 ≤ f.maxProgram ∧
    f.maxProgram ≤ 32 ∧ 1 ≤ f.eraseWidth ∧ f.eraseWidth ≤ 1000 ∧ 1 ≤ f.maxErase ∧
    f.maxErase ≤ 64 ∧ 1 ≤ f.programCost ∧ f.programCost ≤ 8 ∧ 1 ≤ f.eraseCost ∧ f.eraseCost ≤ 8)

/-- The entry that a load writes, valid (R125). -/
def LoadFields.profile (f : LoadFields) : Profile where
  valid := true
  memExp := f.memExp
  sectorExp := f.sectorExp
  maker := f.maker
  device := f.device
  checkIdentity := f.checkIdentity == 0x01
  baseWidth := f.baseWidth
  maxProgram := f.maxProgram
  stepped := f.escalation == 0x01
  eraseWidth := f.eraseWidth
  maxErase := f.maxErase
  precondition := f.precondition == 0x01
  programCost := f.programCost
  eraseCost := f.eraseCost

/-- PROFILE-LOAD: the four checks in order, then the whole entry (R123, R125). -/
def takeProfileLoad (s : State) (p : List Byte) : Taken :=
  let f := LoadFields.ofPayload p
  match profileId? f.entry with
  | none => s.refuse .badField
  | some i =>
    if f.codesOk = false then s.refuse .badField
    else if f.inRange = false then s.refuse .range
    else if 0 < s.inUse i then s.refuse .profileInUse
    else .replied .ok [byte i.val] (s.setProfiles (s.profiles.set i f.profile))

/-- PROFILE-READ (R127). -/
def takeProfileRead (s : State) (p : List Byte) : Taken :=
  match profileId? (at? p 0).toNat with
  | none => s.refuse .badField
  | some i =>
    let e := s.profiles[i]
    .replied .ok ([byte i.val, boolByte e.valid] ++ e.bytes ++ [byte (s.inUse i)]) s

/-! ### Blocks (07) -/

/-- A handle byte that names a block of the pool (R130). -/
def handle? (b : Byte) : Option Handle := if h : b.toNat < 64 then some ⟨b.toNat, h⟩ else none

/-- Whether the host holds a block: FILLING or SEALED, and not released (R131, R132). -/
def Block.hostHolds (b : Block) : Bool := b.held && b.state != .free

/-- The held block a handle byte names; `none` is NO_BLOCK (R132). -/
def State.heldBlock? (s : State) (b : Byte) : Option Handle :=
  (handle? b).filter fun h => (s.block h).hostHolds

/-- The FREE block with the lowest handle (R133). -/
def State.lowestFree? (s : State) : Option Handle :=
  (List.finRange 64).find? fun h => (s.block h).state == .free

/-- A block as BLOCK-OPEN leaves it: every byte FFh, FILLING, held, fill length and count 0, no CRC
(R133). -/
def Block.opened : Block where
  state := .filling
  held := true
  fill := 0
  refs := 0
  crc := none
  content := []

/-- BLOCK-OPEN (R133). -/
def takeBlockOpen (s : State) : Taken :=
  match s.lowestFree? with
  | none => s.refuse .poolFull
  | some h => .replied .ok [byte h.val] (s.updBlock h fun _ => Block.opened)

/-- BLOCK-WRITE: the three checks, then the bytes and the fill length (R134, R135). -/
def takeBlockWrite (s : State) (p : List Byte) : Taken :=
  let offset := (at? p 1).toNat
  let data := p.drop 2
  match s.heldBlock? (at? p 0) with
  | none => s.refuse .noBlock
  | some h =>
    if (s.block h).state ≠ .filling then s.refuse .blockState
    else if Config.blockSize < offset + data.length then s.refuse .range
    else
      let fill := max (s.block h).fill (offset + data.length)
      .replied .ok (byte h.val :: be16 fill)
        (s.updBlock h fun b => { b with content := b.content.writeAll offset data, fill := fill })

/-- The CRC over a block's first fill-length bytes (7.5). -/
def Block.computedCrc (b : Block) : Word16 := crc16 (b.content.bytes b.fill)

/-- BLOCK-SEAL: the four checks; a mismatch replies the fields with the computed CRC (R136, R137,
R185). -/
def takeBlockSeal (s : State) (p : List Byte) : Taken :=
  match s.heldBlock? (at? p 0) with
  | none => s.refuse .noBlock
  | some h =>
    let b := s.block h
    if b.state ≠ .filling then s.refuse .blockState
    else if b.fill = 0 then s.refuse .badField
    else
      let fields := byte h.val :: be16 b.fill ++ be16 b.computedCrc.toNat
      if b.computedCrc.toNat = field p 1 2 then
        .replied .ok fields
          (s.updBlock h fun b => { b with state := .sealed, crc := some b.computedCrc })
      else .replied .crcMismatch fields s

/-- A block as BLOCK-RELEASE leaves it: SEALED and released while references remain, else FREE
(R138). -/
def Block.released (b : Block) : Block :=
  if b.state = .sealed ∧ 0 < b.refs then { b with held := false } else b.freed

/-- BLOCK-RELEASE (R138). -/
def takeBlockRelease (s : State) (p : List Byte) : Taken :=
  match s.heldBlock? (at? p 0) with
  | none => s.refuse .noBlock
  | some h =>
    let b := (s.block h).released
    .replied .ok (byte h.val :: b.state.code :: be16 b.refs) (s.updBlock h fun _ => b)

/-- BLOCK-QUERY (R139, R187). -/
def takeBlockQuery (s : State) (p : List Byte) : Taken :=
  match s.heldBlock? (at? p 0) with
  | none => s.refuse .noBlock
  | some h =>
    let b := s.block h
    .replied .ok
      (byte h.val :: b.state.code :: be16 b.fill ++ be16 b.refs ++
        be16 (b.crc.map BitVec.toNat |>.getD 0)) s

end Sys2Proof.Machine
end

