-- ==== Sys2Proof/Machine/Submit.lean ====
section
/-! DEFINITION. JOB-SUBMIT: the seven checks and the creation of the jobs (R3, R4, R9 to R13). -/

namespace Sys2Proof.Machine

/-- The job kind codes that JOB-SUBMIT carries in byte 1 (R186). -/
inductive JobKind where
  | identify | program | verify | blankCheck | erase
  deriving DecidableEq, Repr

/-- The kind a code names; `none` fails check 1 (R10, R186). -/
def JobKind.ofCode? (b : Byte) : Option JobKind :=
  if b = 0x01 then some .identify
  else if b = 0x02 then some .program
  else if b = 0x03 then some .verify
  else if b = 0x04 then some .blankCheck
  else if b = 0x05 then some .erase
  else none

/-- Whether a block count is one that the kind requires (R9). -/
def JobKind.countOk : JobKind → Nat → Bool
  | .program, n | .verify, n => decide (1 ≤ n ∧ n ≤ 64)
  | .identify, n | .blankCheck, n | .erase, n => n == 0

/-- The ranges of check 2: the mask, the block count, the fault limit, the progress interval (R9,
R10). -/
def Submit.fieldsOk (f : Submit) (k : JobKind) : Bool :=
  f.mask != 0 && k.countOk f.handles.length &&
    decide (1 ≤ f.faultLimit ∧ f.faultLimit ≤ 32) &&
    (match f.progress with
     | none => true
     | some i => decide (1 ≤ i ∧ i ≤ 4096))

/-- Check 4: the range fields of the kind lie within the profile's memory (R11). -/
def Submit.rangeOk (f : Submit) (k : JobKind) (p : Profile) : Bool :=
  match k with
  | .identify => true
  | .program | .verify =>
    decide (1 ≤ f.length ∧ f.length ≤ Config.maxImage ∧ f.start + f.length ≤ p.memSize)
  | .blankCheck => decide (1 ≤ f.length ∧ f.length ≤ p.memSize ∧ f.start + f.length ≤ p.memSize)
  | .erase => decide (f.first ≤ f.last ∧ f.last < p.memSize / p.sectorSize)

/-- The handles of a block list, or the code of the first that is not usable: NO_BLOCK if the host does
not hold the block, BLOCK_STATE if it is still FILLING (R12). -/
def State.usableBlocks (s : State) : List Byte → Except Result (List Handle)
  | [] => .ok []
  | b :: bs =>
    match s.heldBlock? b with
    | none => .error .noBlock
    | some h =>
      if (s.block h).state = .filling then .error .blockState
      else
        match State.usableBlocks s bs with
        | .error e => .error e
        | .ok hs => .ok (h :: hs)

/-- The sum of the fill lengths, a block counted once for each listing (R12). -/
def State.fillSum (s : State) (hs : List Handle) : Nat := (hs.map fun h => (s.block h).fill).sum

/-- Check 5: every listed block is usable and together they fill the length; the kinds without a block
list pass it (R12). -/
def State.blockCheck (s : State) (f : Submit) : JobKind → Except Result (List Handle)
  | .identify | .blankCheck | .erase => .ok []
  | .program | .verify =>
    match s.usableBlocks f.handles with
    | .error e => .error e
    | .ok hs => if s.fillSum hs = f.length then .ok hs else .error .range

/-- The work of a submission: the fields its kind uses, and no others (R9). -/
def Submit.work (f : Submit) (hs : List Handle) : JobKind → Work
  | .identify => .identify
  | .program => .program f.start f.length hs
  | .verify => .verify f.start f.length hs
  | .blankCheck => .blankCheck f.start f.length
  | .erase => .erase f.first f.last

/-- The identifier after `c` in the counter's round: 255 is followed by 1 (R3). -/
def stepId (c : Nat) : Nat := if c = 255 then 1 else c + 1

/-- The next identifier that no job of the table holds, reached step by step (R3). The table holds at
most 24 jobs, so 25 steps suffice. -/
def nextFreeId (jobs : List Job) : Nat → Nat → Nat
  | 0, c => stepId c
  | fuel + 1, c =>
    if jobs.any (fun j => j.id == stepId c) then nextFreeId jobs fuel (stepId c) else stepId c

/-- A job as it is created (R4). -/
def Submit.job (f : Submit) (id : Nat) (l : LaneId) (p : ProfileId) (w : Work) : Job where
  id := id
  lane := l
  work := w
  profile := p
  state := .queued
  endReason := none
  endReport := .notDue
  faultLimit := f.faultLimit
  progress := f.progress
  bytesDone := 0
  programPulses := 0
  erasePulses := 0
  faultsRecorded := 0
  identity := none
  laneStopped := false

/-- Creates the job of one lane: table entry, identifier, record, references, tail of the queue
(R13). -/
def State.createJob (s : State) (f : Submit) (p : ProfileId) (w : Work) (l : LaneId) : State :=
  let id := nextFreeId s.jobs Config.jobTableSize s.lastId
  ((((s.setJobs (s.jobs ++ [f.job id l p w])).setLastId id).addRefs w.blocks).updLane l fun x =>
    { x with queue := x.queue ++ [id] })

/-- Creates the jobs of the lanes `ls` in order, with the identifiers given so far (R13). -/
def State.createJobs (s : State) (f : Submit) (p : ProfileId) (w : Work) :
    List LaneId → State × List Nat
  | [] => (s, [])
  | l :: ls =>
    let s₁ := s.createJob f p w l
    let (s₂, ids) := s₁.createJobs f p w ls
    (s₂, s₁.lastId :: ids)

/-- Each lane of `ls` that is IDLE starts the head of its queue (R13, R14). -/
def State.startLanes (s : State) (ls : List LaneId) : State := ls.foldl State.startHead s

/-- JOB-SUBMIT: the seven checks in order, then the jobs, all of them or none (R10, R13). -/
def takeJobSubmit (s : State) (p : List Byte) : Taken :=
  let f := Submit.ofPayload p
  let ls := lanesOf f.mask
  match JobKind.ofCode? f.kind with
  | none => s.refuse .badField
  | some k =>
    if f.fieldsOk k = false then s.refuse .badField
    else
      match (profileId? f.profile).filter fun i => s.profiles[i].valid with
      | none => s.refuse .profileInvalid
      | some i =>
        if f.rangeOk k s.profiles[i] = false then s.refuse .range
        else
          match s.blockCheck f k with
          | .error e => s.refuse e
          | .ok hs =>
            if s.freeEntries < ls.length then s.refuse .tableFull
            else if ls.any fun l => decide (Config.laneQueueSize ≤ (s.lane l).queue.length) then
              s.refuse .queueFull
            else
              let (s', ids) := s.createJobs f i (f.work hs k) ls
              .replied .ok (byte ids.length :: ids.map byte) (s'.startLanes ls)

end Sys2Proof.Machine
end

