-- ==== Sys2Proof/Machine/Reset.lean ====
section
/-! DEFINITION. The three resets: what they leave (R30, R31, R95, R96, R116, R144, R145, R155, R156,
R180, R181, R183, R212 to R215). -/

namespace Sys2Proof.Machine

/-- The state that every reset gives to the jobs, lanes, supply, pool, faults and the receiver; the
profiles, link rate, epoch, tag table, queues of the link and outbox are the caller's. The level of
PSUP_OK sets the supply state (R95, R96). Block content is left as it stands: it is not visible (R144;
log 13). -/
def State.clearWork (s : State) (psupOk : Bool) : State where
  inReset := s.inReset
  linkRate := s.linkRate
  epoch := s.epoch
  rx := { Receiver.afterReset with breakDetector := s.rx.breakDetector }
  tags := s.tags
  deferred := []
  replyQueue := s.replyQueue
  tx := s.tx
  profiles := s.profiles
  blocks := s.blocks.map Block.freed
  jobs := []
  lastId := 0
  lanes := Vector.replicate 8 .afterReset
  freeUnits := Config.budget
  grantQueue := []
  supply := .afterReset psupOk
  faults := []
  outbox := s.outbox
  choices := s.choices
  pending := s.pending

/-- The RESET_ABORTED reply of a deferred cancel (R180 step 2, R185). -/
def DeferredCancel.abortedReply (d : DeferredCancel) : Frame :=
  replyFrame Request.jobCancel.kind d.tag .resetAborted [byte d.job]

/-- ENGINE-RESET taken on tag `t`, the eight steps of R180; `d` is the reset request's digest. The
receiver and the break detector stand as R181 gives. That all its replies are placed before an idle
Transmitter takes the first, so that an eighth RESET_ABORTED finds no place, is the model's choice
(log 29). -/
def State.engineReset (s : State) (t : Fin 16) (tag : Byte) (d : Digest) : State :=
  let epoch := s.epoch + 1
  let aborted := (s.deferred.map DeferredCancel.abortedReply).take Config.abortedReplies
  let reply := replyFrame Request.engineReset.kind tag .ok (be16 epoch.toNat)
  (((((s.setReplyQueue aborted).clearWork s.supply.psupOk).setEpoch epoch).setTags
    (Vector.replicate 16 TagEntry.free)).completeTag t d reply).setOutbox (.afterReset epoch)

/-- The engine held in reset: every block as at power-on, the outbox empty and ATTN low, a frame on TX
cut (R183, R214). The link rate is held to the next release (R157), and the level of PSUP_OK is the
pin's (R218). The spec gives the supply state only at the release (R95): that it follows the level at the
fall, and stays while the engine is held, is the model's choice (log 28). -/
def State.heldInReset (s : State) : State where
  inReset := true
  linkRate := s.linkRate
  epoch := 0
  rx := .afterReset
  tags := Vector.replicate 16 .free
  deferred := []
  replyQueue := []
  tx := .idle
  profiles := Vector.replicate 4 .afterPowerOn
  blocks := Vector.replicate 64 .afterPowerOn
  jobs := []
  lastId := 0
  lanes := Vector.replicate 8 .afterReset
  freeUnits := Config.budget
  grantQueue := []
  supply := .afterReset s.supply.psupOk
  faults := []
  outbox := .emptied
  choices := s.choices
  pending := s.pending

/-- The link rate that the straps give (R157, R216). -/
def strapRate (baud1 baud0 : Bool) : LinkRate :=
  match baud1, baud0 with
  | false, false => .baud115200
  | false, true => .baud460800
  | true, false => .baud921600
  | true, true => .baud3000000

/-- The release of RESET: straps and PSUP_OK sampled, every block at its power-on state, ENGINE-READY
enqueued; an RX that is low counts from the release (R166, R183, R215). -/
def State.released (s : State) (baud1 baud0 psupOk rx : Bool) : State :=
  { State.reset with
    linkRate := strapRate baud1 baud0
    supply := .afterReset psupOk
    rx := { Receiver.afterReset with breakDetector := if rx then .clear else .counting }
    choices := s.choices
    pending := s.pending }

end Sys2Proof.Machine
end

