-- ==== Sys2Proof/Machine/Requests.lean ====
section
/-! DEFINITION. The remaining requests as their owning blocks carry them out, Dispatch, and the arrival
of a valid frame (9.3, 9.4, 9.7, 9.8, and 1.7, 1.8, 4.5, 8.3, 10.5). -/

namespace Sys2Proof.Machine

/-- SIGN-ON (R177). -/
def takeSignOn (s : State) : Taken := .replied .ok s.signOnFields s

/-- STATUS (R179). -/
def takeStatus (s : State) : Taken := .replied .ok s.statusFields s

/-- ENGINE-RESET (R180). -/
def takeEngineReset (s : State) (t : Fin 16) (tag : Byte) (d : Digest) : Taken :=
  .selfReplied (s.engineReset t tag d)

/-- The job that byte 0 of a request names; 0 and an identifier no entry holds name none (R2). -/
def State.namedJob? (s : State) (p : List Byte) : Option Job := s.job? (at? p 0).toNat

/-- JOB-QUERY (R28). -/
def takeJobQuery (s : State) (p : List Byte) : Taken :=
  match s.namedJob? p with
  | none => s.refuse .noJob
  | some j => .replied .ok j.bytes s

/-- A successful cancel at once: OK with the job identifier (R20). -/
def cancelled (j : Job) (s : State) : Taken := .replied .ok [byte j.id] s

/-- JOB-CANCEL, by the state of the job and of its lane (R20 to R24). -/
def takeJobCancel (s : State) (tag : Byte) (p : List Byte) : Taken :=
  match s.namedJob? p with
  | none => s.refuse .noJob
  | some j =>
    match j.state with
    | .done | .failed | .cancelled => s.refuse .alreadyFinal
    | .queued => cancelled j (s.cancelQueued j)
    | .held => cancelled j (s.cancelWaiting j)
    | .active =>
      if (s.lane j.lane).unit.inFlight then .deferred (s.deferCancel j tag)
      else if (s.lane j.lane).state = .pulsing then cancelled j (s.cancelPulsing j)
      else cancelled j (s.cancelWaiting j)

/-- JOB-RETIRE: a final job whose end report is ENQUEUED leaves the table with its fault records (R27,
R154). -/
def takeJobRetire (s : State) (p : List Byte) : Taken :=
  match s.namedJob? p with
  | none => s.refuse .noJob
  | some j =>
    if j.isFinal && j.endReport == .enqueued then
      .replied .ok [byte j.id]
        ((s.setFaults (s.faults.filter fun r => r.job != j.id)).setJobs
          (s.jobs.filter fun q => q.id != j.id))
    else s.refuse .notFinal

/-- The fault records of one job, in recording order (R146, R152). -/
def State.faultsOf (s : State) (id : Nat) : List FaultRecord := s.faults.filter fun r => r.job == id

/-- FAULTS-READ (R152). -/
def takeFaultsRead (s : State) (p : List Byte) : Taken :=
  match s.namedJob? p with
  | none => s.refuse .noJob
  | some j =>
    let start := (at? p 1).toNat
    if j.faultsRecorded < start then s.refuse .range
    else
      let rs := ((s.faultsOf j.id).drop start).take Config.faultsPerRead
      .replied .ok
        ([byte j.id, byte j.faultsRecorded, byte start, byte rs.length] ++
          rs.flatMap FaultRecord.bytes) s

/-- A lane number carried in a request (R29). -/
def laneId? (b : Byte) : Option LaneId := if h : b.toNat < 8 then some ⟨b.toNat, h⟩ else none

/-- LANE-RESTART: a STOPPED lane becomes IDLE and starts the head of its queue (R29). -/
def takeLaneRestart (s : State) (p : List Byte) : Taken :=
  match laneId? (at? p 0) with
  | none => s.refuse .badField
  | some l =>
    if (s.lane l).state = .stopped then
      .replied .ok [byte l.val] ((s.setLaneState l .idle).startHead l)
    else s.refuse .notStopped

/-- Sets the supply state. -/
def State.setSupplyState (s : State) (v : SupplyState) : State :=
  s.setSupply { s.supply with state := v }

/-- SUPPLY-RESUME: in RESTORED the supply is UP, every held lane resumes in lane order, and then the
Arbiter grants (R91, R93). -/
def takeSupplyResume (s : State) : Taken :=
  match s.supply.state with
  | .down => s.refuse .supplyDown
  | .up => s.refuse .notHeld
  | .restored =>
    .replied .ok [laneMask s.heldLanes]
      (((s.setSupplyState .up).resumeLanes s.heldLanes).grantTest)

/-- REPORT-ACK: the acknowledged records leave, and the freed entries are given away (R207). -/
def takeReportAck (s : State) (p : List Byte) : Taken :=
  match s.outbox.acknowledge (at? p 0) with
  | none => s.refuse .stale
  | some o => .replied .ok [at? p 0] ((s.setOutbox o).serveFreed)

/-- Hands a request that passed R170 to the block that owns it. -/
def carryOut (r : Request) (t : Fin 16) (tag : Byte) (d : Digest) (p : List Byte) (s : State) :
    Taken :=
  match r with
  | .signOn => takeSignOn s
  | .status => takeStatus s
  | .engineReset => takeEngineReset s t tag d
  | .profileLoad => takeProfileLoad s p
  | .profileRead => takeProfileRead s p
  | .blockOpen => takeBlockOpen s
  | .blockWrite => takeBlockWrite s p
  | .blockSeal => takeBlockSeal s p
  | .blockRelease => takeBlockRelease s p
  | .blockQuery => takeBlockQuery s p
  | .jobSubmit => takeJobSubmit s p
  | .jobQuery => takeJobQuery s p
  | .jobCancel => takeJobCancel s tag p
  | .jobRetire => takeJobRetire s p
  | .faultsRead => takeFaultsRead s p
  | .laneRestart => takeLaneRestart s p
  | .supplyResume => takeSupplyResume s
  | .reportAck => takeReportAck s p

/-- Checks a taken request's kind and payload length, then hands it on (R170). -/
def judgeRequest (t : Fin 16) (f : Frame) (s : State) : Taken :=
  match Request.ofKind f.kind with
  | none => s.refuse .badKind
  | some r =>
    if r.lengthOk f.payload then carryOut r t f.tag f.digest f.payload s
    else s.refuse .badLength

/-- Takes a request on its tag: the entry is IN_FLIGHT, and REPLIED once the reply is produced (R170,
R171, R172). -/
def State.takeRequest (s : State) (t : Fin 16) (f : Frame) : State :=
  match judgeRequest t f (s.setTagEntry t (.inFlight f.digest)) with
  | .replied code fields s' => s'.completeTag t f.digest (replyFrame f.kind f.tag code fields)
  | .deferred s' => s'
  | .selfReplied s' => s'

/-- Dispatch: a tag above 0Fh is refused; otherwise the entry decides between taking, repeating the
cached reply, dropping and TAG_BUSY (R168, R169). -/
def State.dispatch (s : State) (f : Frame) : State :=
  match tagIndex? f.tag with
  | none => s.placeReply (replyFrame f.kind f.tag .badField [])
  | some t =>
    match s.tagEntry t with
    | .free => s.takeRequest t f
    | .replied d reply => if d = f.digest then s.placeReply reply else s.takeRequest t f
    | .inFlight d =>
      if d = f.digest then s else s.placeReply (replyFrame f.kind f.tag .tagBusy [])

/-- A valid frame arrives: the outbox is told, which ends a stall (R165, R206); Dispatch judges it; and
an idle Transmitter takes what has become available. After a stall and after an ENGINE-RESET the reply
goes first (R180, R206; log 12); otherwise R175 leaves the order open (log 11). -/
def State.frameArrives (s : State) (f : Frame) : State :=
  let s' := (s.setOutbox s.outbox.endStall).dispatch f
  if s.outbox.stalled || f.kind == Request.engineReset.kind then s'.transmit
  else s'.transmitEither

end Sys2Proof.Machine
end

