-- ==== Sys2Proof/Machine/Receiver.lean ====
section
/-! DEFINITION. The Host Link Receiver: its state machine, discard and rescan, break (R161 to R166). -/

namespace Sys2Proof.Machine

/-- The bytes of a list of received bytes. -/
def rxBytes (bs : List RxByte) : List Byte := bs.map RxByte.byte

/-- The payload length that the kept bytes carry in bytes 1 and 2 (R159). -/
def keptLength (bs : List RxByte) : Nat := field (rxBytes bs) 1 2

/-- The frame that a whole run of kept bytes spells (R185). -/
def keptFrame (bs : List RxByte) : Frame where
  kind := at? (rxBytes bs) 3
  tag := at? (rxBytes bs) 4
  payload := ((rxBytes bs).drop 5).take (keptLength bs)

/-- The CRC that a whole run of kept bytes carries (R185). -/
def keptCrc (bs : List RxByte) : Nat := field (rxBytes bs) (5 + keptLength bs) 2

/-- Back in HUNT with no kept bytes and the timer stopped; the bytes still to be rescanned stay
(R161). -/
def Receiver.hunting (r : Receiver) : Receiver :=
  { r with phase := .hunt, kept := [], timer := none }

/-- A discarded frame: HUNT, and the kept bytes behind its start byte are put through HUNT again
(R162). -/
def Receiver.discard (r : Receiver) : Receiver :=
  { r.hunting with rescan := r.kept.tail ++ r.rescan }

/-- A received byte goes through the receiver (R161, R163, R165). A frame that completes with a good
CRC arrives at Dispatch after the receiver is back in HUNT. -/
def State.rxByte (s : State) (b : RxByte) : State :=
  let r := s.rx
  let kept := r.kept ++ [b]
  match r.phase with
  | .hunt =>
    if b.byte = 0xA5 then
      s.setRx { r with phase := .header, kept := [b], timer := some b.moment }
    else s
  | .header =>
    if kept.length = 3 ∧ Config.maxPayload < keptLength kept then
      s.setRx { r with kept := kept }.discard
    else if kept.length = 5 then
      s.setRx { r with kept := kept, phase := if keptLength kept = 0 then .check else .payload }
    else s.setRx { r with kept := kept }
  | .payload =>
    s.setRx { r with
      kept := kept
      phase := if kept.length = 5 + keptLength kept then .check else .payload }
  | .check =>
    if kept.length = 7 + keptLength kept then
      if (keptFrame kept).crc.toNat = keptCrc kept then
        (s.setRx r.hunting).frameArrives (keptFrame kept)
      else s.setRx { r with kept := kept }.discard
    else s.setRx { r with kept := kept }

/-- Puts the bytes to be rescanned through the receiver until none is left (R162); `fuel` bounds the
turns. -/
def rescanAll : Nat → State → State
  | 0, s => s
  | fuel + 1, s =>
    match s.rx.rescan with
    | [] => s
    | b :: rest => rescanAll fuel ((s.setRx { s.rx with rescan := rest }).rxByte b)

/-- Turns that suffice for any rescan of `n` kept bytes: each discard drops one of them, and no byte
is put through twice between two discards. -/
def rescanFuel (n : Nat) : Nat := (n + 1) * (n + 1)

/-- Rescans whatever the step so far has left to be rescanned. -/
def State.rescanned (s : State) : State := rescanAll (rescanFuel s.rx.rescan.length) s

/-- RX is high, so no low is counted (R166). -/
def State.lineHigh (s : State) : State := s.setRx { s.rx with breakDetector := .clear }

/-- A character with a good stop bit is delivered as one byte (R158, R161). RX is high at its end. -/
def State.characterReceived (s : State) (b : RxByte) : State := (s.lineHigh.rxByte b).rescanned

/-- A character with a framing error is not delivered; RX is low, which may become a break (R158). -/
def State.framingError (s : State) : State :=
  s.setRx { s.rx with breakDetector := .counting }

/-- A character that is not taken only shows the level of RX at its end (R166, R215; log 27). -/
def State.characterPassed (s : State) (stopHigh : Bool) : State :=
  if stopHigh then s.lineHigh else s.framingError

/-- The frame timer expires: the frame is discarded and rescanned (R162, R164); a stopped timer does not
expire (log 6). -/
def State.frameTimerExpires (s : State) : State :=
  if s.rx.timer.isSome then (s.setRx s.rx.discard).rescanned else s

/-- A break: the receiver drops its kept bytes without rescanning (R166); the outbox rewinds, merges
its SUPPLY records and serves the waiting lanes (R209, R210). -/
def State.breakTaken (s : State) : State :=
  let s₁ := (s.setRx { Receiver.afterReset with breakDetector := .recognised }).setOutbox
    s.outbox.rewind.merge
  serveWaiting s₁.serveFuel s₁

/-- A low that has lasted two character times is a break, but not the low that has already been
recognised as one: a further break needs RX to go high and fall again (R166, R217; log 24). -/
def State.breakRecognised (s : State) : State :=
  match s.rx.breakDetector with
  | .recognised => s
  | .clear | .counting => s.breakTaken

end Sys2Proof.Machine
end

