-- ==== Sys2Proof/Machine/HostCommands.lean ====
section
/-! DEFINITION. The meanings of the request commands: the arrival of one valid frame each (log 3). -/

namespace Sys2Proof.Machine

/-- The outcome type of every meaning. -/
abbrev Answer := Host.Outcome State Fault Refusal

/-- What a command does while RESET is high: an idle Transmitter first takes a frame that already
stands available (log 10), then the effect. While the engine is held in reset nothing is taken (R214;
log 15). -/
def whenRunning (s : State) (effect : State → State) : Answer :=
  if s.inReset then .next s else .next (effect s.transmit)

/-- A request frame arrives: RX is high at its last stop bit, so no low is counted any more (R157, R166;
log 24), and the frame goes to Dispatch. No frame carries a payload of more than 260 bytes (R159; log 14). -/
def frameCommand (kind tag : Byte) (payload : List Byte) (s : State) : Answer :=
  if payload.length ≤ Config.maxPayload then
    whenRunning s fun s =>
      s.lineHigh.frameArrives { kind := kind, tag := tag, payload := payload }
  else .refused .payloadOverFrame

/-- SIGN-ON arrives (R177). -/
def execSignOn (tag : Byte) (payload : List Byte) (s : State) : Answer :=
  frameCommand Request.signOn.kind tag payload s

/-- STATUS arrives (R179). -/
def execStatus (tag : Byte) (payload : List Byte) (s : State) : Answer :=
  frameCommand Request.status.kind tag payload s

/-- ENGINE-RESET arrives (R180). -/
def execEngineReset (tag : Byte) (payload : List Byte) (s : State) : Answer :=
  frameCommand Request.engineReset.kind tag payload s

/-- PROFILE-LOAD arrives (R123, R125). -/
def execProfileLoad (tag : Byte) (payload : List Byte) (s : State) : Answer :=
  frameCommand Request.profileLoad.kind tag payload s

/-- PROFILE-READ arrives (R127). -/
def execProfileRead (tag : Byte) (payload : List Byte) (s : State) : Answer :=
  frameCommand Request.profileRead.kind tag payload s

/-- BLOCK-OPEN arrives (R133). -/
def execBlockOpen (tag : Byte) (payload : List Byte) (s : State) : Answer :=
  frameCommand Request.blockOpen.kind tag payload s

/-- BLOCK-WRITE arrives (R134, R135). -/
def execBlockWrite (tag : Byte) (payload : List Byte) (s : State) : Answer :=
  frameCommand Request.blockWrite.kind tag payload s

/-- BLOCK-SEAL arrives (R136, R137). -/
def execBlockSeal (tag : Byte) (payload : List Byte) (s : State) : Answer :=
  frameCommand Request.blockSeal.kind tag payload s

/-- BLOCK-RELEASE arrives (R138). -/
def execBlockRelease (tag : Byte) (payload : List Byte) (s : State) : Answer :=
  frameCommand Request.blockRelease.kind tag payload s

/-- BLOCK-QUERY arrives (R139). -/
def execBlockQuery (tag : Byte) (payload : List Byte) (s : State) : Answer :=
  frameCommand Request.blockQuery.kind tag payload s

/-- JOB-SUBMIT arrives (R10, R13). -/
def execJobSubmit (tag : Byte) (payload : List Byte) (s : State) : Answer :=
  frameCommand Request.jobSubmit.kind tag payload s

/-- JOB-QUERY arrives (R28). -/
def execJobQuery (tag : Byte) (payload : List Byte) (s : State) : Answer :=
  frameCommand Request.jobQuery.kind tag payload s

/-- JOB-CANCEL arrives (R20). -/
def execJobCancel (tag : Byte) (payload : List Byte) (s : State) : Answer :=
  frameCommand Request.jobCancel.kind tag payload s

/-- JOB-RETIRE arrives (R27). -/
def execJobRetire (tag : Byte) (payload : List Byte) (s : State) : Answer :=
  frameCommand Request.jobRetire.kind tag payload s

/-- FAULTS-READ arrives (R152). -/
def execFaultsRead (tag : Byte) (payload : List Byte) (s : State) : Answer :=
  frameCommand Request.faultsRead.kind tag payload s

/-- LANE-RESTART arrives (R29). -/
def execLaneRestart (tag : Byte) (payload : List Byte) (s : State) : Answer :=
  frameCommand Request.laneRestart.kind tag payload s

/-- SUPPLY-RESUME arrives (R91). -/
def execSupplyResume (tag : Byte) (payload : List Byte) (s : State) : Answer :=
  frameCommand Request.supplyResume.kind tag payload s

/-- REPORT-ACK arrives (R207). -/
def execReportAck (tag : Byte) (payload : List Byte) (s : State) : Answer :=
  frameCommand Request.reportAck.kind tag payload s

/-- A valid frame whose kind names no request arrives (R170). -/
def execBadKindRequest (kind tag : Byte) (payload : List Byte) (s : State) : Answer :=
  frameCommand kind tag payload s

/-- A valid frame whose tag is above 0Fh arrives (R168). -/
def execTagRangeRefusal (kind tag : Byte) (payload : List Byte) (s : State) : Answer :=
  frameCommand kind tag payload s

end Sys2Proof.Machine
end

