-- ==== Sys2Proof/Machine/LaneCommands.lean ====
section
/-! DEFINITION. The meanings of the commands of the target lanes and of the pulse timers. -/

namespace Sys2Proof.Machine

/-- The lane gap has passed (R98). -/
def execLaneGapEnd (l : LaneId) (s : State) : Answer :=
  whenRunning s fun s => s.updUnit l CycleUnit.gapEnded

/-- The sent moment of a cycle (R99, R103). -/
def execSentMoment (l : LaneId) (moment : Nat) (s : State) : Answer :=
  whenRunning s fun s => s.updUnit l fun u => u.sent moment

/-- The cycle of lane `l` ends, and an idle Transmitter takes what has become available: a reply
before a report (R25, R175; log 12). -/
def State.cycleEndsAndTransmit (s : State) (l : LaneId) (kind : CycleKind) (o : CycleOutcome)
    (data : List Byte) : State :=
  (s.cycleEnds l kind o data).transmit

/-- An answer byte completes in a slot (R102, R103, R105 to R107, R111). -/
def execAnswerSlot (l : LaneId) (b : Byte) (s : State) : Answer :=
  whenRunning s fun s =>
    match (s.lane l).unit.answering? with
    | none => s
    | some c =>
      match c.slot b with
      | .notRead => s
      | .goesOn c' => s.updUnit l fun u => { u with cycle := some c' }
      | .ends o data => s.cycleEndsAndTransmit l c.kind o data

/-- The answer window closes with no final answer: ABSENT or TIMEOUT (R108; log 7). -/
def execAnswerWindowClose (l : LaneId) (s : State) : Answer :=
  whenRunning s fun s =>
    match (s.lane l).unit.answering? with
    | none => s
    | some c => if c.windowCanClose then s.cycleEndsAndTransmit l c.kind c.silentOutcome [] else s

/-- The cycle reaches its ceiling: TIMEOUT (R109; log 7). -/
def execCycleCeiling (l : LaneId) (s : State) : Answer :=
  whenRunning s fun s =>
    match (s.lane l).unit.answering? with
    | none => s
    | some c => if c.ceilingCanCome then s.cycleEndsAndTransmit l c.kind .timeout [] else s

/-- The pulse timer of a lane expires (R81); a stopped timer does not (log 6). -/
def execPulseTimerExpiry (l : LaneId) (s : State) : Answer :=
  whenRunning s fun s => if (s.lane l).slot = .timing then s.pulseExpires l else s

end Sys2Proof.Machine
end

