-- ==== Sys2Proof/Machine/LinkCommands.lean ====
section
/-! DEFINITION. The meanings of the commands of the serial line and of its timers. -/

namespace Sys2Proof.Machine

/-- A character on RX: delivered to the receiver, lost to a framing error (R158, R161), or not taken because
its start bit fell before the release of RESET (R215; log 27). -/
def execRxCharacter (moment : Nat) (b : Byte) (framing : Framing) (s : State) : Answer :=
  whenRunning s fun s =>
    match framing with
    | .good => s.characterReceived { byte := b, moment := moment }
    | .stopLow => s.framingError
    | .begunInReset stopHigh => s.characterPassed stopHigh

/-- The frame timer expires (R164). -/
def execFrameTimerExpiry (s : State) : Answer := whenRunning s State.frameTimerExpires

/-- A break is recognised (R166, R209, R210). -/
def execRxBreak (s : State) : Answer := whenRunning s fun s => s.breakRecognised.transmit

/-- The Transmitter's frame ends (R175, R203). -/
def execTransmitFrameEnd (s : State) : Answer := whenRunning s State.frameEnded

/-- Whether the acknowledgement timer runs down: it is set, and no report frame is being sent (R203). -/
def State.ackTimerRuns (s : State) : Bool :=
  s.outbox.timer.isSome &&
    (match s.tx with
     | .report _ => false
     | .idle | .reply _ => true)

/-- The acknowledgement timer expires: a retransmission round or the stall (R204, R205). -/
def execAckTimerExpiry (s : State) : Answer :=
  whenRunning s fun s =>
    if s.ackTimerRuns then (s.setOutbox s.outbox.ackExpired).transmit else s

end Sys2Proof.Machine
end

