-- ==== Sys2Proof/Machine/PinCommands.lean ====
section
/-! DEFINITION. The meanings of the commands of the PSUP_OK and RESET pins and of power-on. -/

namespace Sys2Proof.Machine

/-- Sets the level of PSUP_OK. -/
def State.setPsupOk (s : State) (v : Bool) : State := s.setSupply { s.supply with psupOk := v }

/-- Offers the outbox a SUPPLY notice with the present state and count (R85). -/
def State.offerSupplyNotice (s : State) : State :=
  s.setOutbox (s.outbox.offerSupply { state := s.supply.state, episodes := s.supply.episodes })

/-- Enters DOWN at a fall taken in UP or RESTORED: count, cuts and holds, notice (R86, R90). -/
def State.supplyFalls (s : State) : State :=
  (((s.setSupply { s.supply with state := .down, episodes := s.supply.episodes + 1 }).fallOnLanes)
    ).offerSupplyNotice

/-- A fall of PSUP_OK as an edge: taken in UP and RESTORED; it cannot occur in DOWN (R83; log 6). -/
def State.psupFallTaken (s : State) : State :=
  match s.supply.state with
  | .up | .restored => s.supplyFalls
  | .down => s

/-- A rise of PSUP_OK as an edge: DOWN becomes RESTORED and a notice is offered (R89); it cannot occur
in UP or RESTORED (R83; log 6). -/
def State.psupRiseTaken (s : State) : State :=
  match s.supply.state with
  | .down => (s.setSupplyState .restored).offerSupplyNotice
  | .up | .restored => s

/-- PSUP_OK falls. While the engine is held in reset only the level changes (R214, R218; log 15, log 28). -/
def execPsupOkFall (s : State) : Answer :=
  if s.inReset then .next (s.setPsupOk false)
  else whenRunning s fun s => ((s.setPsupOk false).psupFallTaken).transmit

/-- PSUP_OK rises. While the engine is held in reset only the level changes (R214, R218; log 15, log 28). -/
def execPsupOkRise (s : State) : Answer :=
  if s.inReset then .next (s.setPsupOk true)
  else whenRunning s fun s => ((s.setPsupOk true).psupRiseTaken).transmit

/-- Power-on: the engine holds itself in reset until its own supply is stable (R214). -/
def execPowerOn (s : State) : Answer := .next s.heldInReset

/-- RESET falls: the effect of power-on (R214). -/
def execResetAssert (s : State) : Answer := .next s.heldInReset

/-- RESET is released: the starting state (R215). A release of an engine that is not held in reset
cannot occur (log 6). -/
def execResetRelease (baud1 baud0 psupOk rx : Bool) (s : State) : Answer :=
  if s.inReset then .next (s.released baud1 baud0 psupOk rx) else .next s

end Sys2Proof.Machine
end

