-- ==== Sys2Proof/Machine/Dispatch.lean ====
section
/-! DEFINITION. One arm for each command. -/

namespace Sys2Proof.Machine

def exec (i : Instr) (s : State) : Host.Outcome State Fault Refusal :=
  match i with
  | .signOn tag payload => Sys2Proof.Machine.execSignOn tag payload s
  | .status tag payload => Sys2Proof.Machine.execStatus tag payload s
  | .engineReset tag payload => Sys2Proof.Machine.execEngineReset tag payload s
  | .profileLoad tag payload => Sys2Proof.Machine.execProfileLoad tag payload s
  | .profileRead tag payload => Sys2Proof.Machine.execProfileRead tag payload s
  | .blockOpen tag payload => Sys2Proof.Machine.execBlockOpen tag payload s
  | .blockWrite tag payload => Sys2Proof.Machine.execBlockWrite tag payload s
  | .blockSeal tag payload => Sys2Proof.Machine.execBlockSeal tag payload s
  | .blockRelease tag payload => Sys2Proof.Machine.execBlockRelease tag payload s
  | .blockQuery tag payload => Sys2Proof.Machine.execBlockQuery tag payload s
  | .jobSubmit tag payload => Sys2Proof.Machine.execJobSubmit tag payload s
  | .jobQuery tag payload => Sys2Proof.Machine.execJobQuery tag payload s
  | .jobCancel tag payload => Sys2Proof.Machine.execJobCancel tag payload s
  | .jobRetire tag payload => Sys2Proof.Machine.execJobRetire tag payload s
  | .faultsRead tag payload => Sys2Proof.Machine.execFaultsRead tag payload s
  | .laneRestart tag payload => Sys2Proof.Machine.execLaneRestart tag payload s
  | .supplyResume tag payload => Sys2Proof.Machine.execSupplyResume tag payload s
  | .reportAck tag payload => Sys2Proof.Machine.execReportAck tag payload s
  | .badKindRequest kind tag payload => Sys2Proof.Machine.execBadKindRequest kind tag payload s
  | .tagRangeRefusal kind tag payload => Sys2Proof.Machine.execTagRangeRefusal kind tag payload s
  | .rxCharacter moment b framing => Sys2Proof.Machine.execRxCharacter moment b framing s
  | .frameTimerExpiry => Sys2Proof.Machine.execFrameTimerExpiry s
  | .rxBreak => Sys2Proof.Machine.execRxBreak s
  | .transmitFrameEnd => Sys2Proof.Machine.execTransmitFrameEnd s
  | .ackTimerExpiry => Sys2Proof.Machine.execAckTimerExpiry s
  | .laneGapEnd l => Sys2Proof.Machine.execLaneGapEnd l s
  | .answerSlot l b => Sys2Proof.Machine.execAnswerSlot l b s
  | .answerWindowClose l => Sys2Proof.Machine.execAnswerWindowClose l s
  | .cycleCeiling l => Sys2Proof.Machine.execCycleCeiling l s
  | .pulseTimerExpiry l => Sys2Proof.Machine.execPulseTimerExpiry l s
  | .psupOkFall => Sys2Proof.Machine.execPsupOkFall s
  | .psupOkRise => Sys2Proof.Machine.execPsupOkRise s
  | .powerOn => Sys2Proof.Machine.execPowerOn s
  | .resetAssert => Sys2Proof.Machine.execResetAssert s
  | .resetRelease baud1 baud0 psupOk rx => Sys2Proof.Machine.execResetRelease baud1 baud0 psupOk rx s
  | .sentMoment l moment => Sys2Proof.Machine.execSentMoment l moment s

end Sys2Proof.Machine
end

