-- ==== Sys2Proof/Safety.lean ====
section
/-! DEFINITION. What claims call a safe state: the laws of the spec that hold between commands; and the
words in which claims say what a command does and what it leaves alone. -/

namespace Sys2Proof.Machine

/-- The units held by all lanes together (R74). -/
def State.unitsHeld (s : State) : Nat := (s.lanes.toList.map fun x => x.unitsHeld).sum

/-- R74: the free units and the units held by all lanes make up the budget. -/
def State.BudgetKept (s : State) : Prop := s.freeUnits + s.unitsHeld = Config.budget

/-- R75, R220: the switch of a lane is closed exactly while its slot is GRANTED or TIMING, an open
switch holds no units, and the pulse timer runs exactly in TIMING. -/
def Lane.SwitchFollowsSlot (x : Lane) : Prop :=
  (x.lvpClosed = true ↔ x.slot = .granted ∨ x.slot = .timing) ∧
  (x.lvpClosed = false → x.unitsHeld = 0) ∧
  (x.timer.isSome = true ↔ x.slot = .timing)

/-- R75 for every lane, and R84: every switch is open while the supply is not UP. -/
def State.SwitchesSafe (s : State) : Prop :=
  (∀ l, (s.lane l).SwitchFollowsSlot) ∧
  (s.supply.state ≠ .up → ∀ l, (s.lane l).lvpClosed = false)

/-- R195: consecutive sequence numbers (mod 256) in outbox order, the next number following the last. -/
def consecutive : List Report → Byte → Prop
  | [], _ => True
  | [r], next => r.seq + 1 = next
  | r :: q :: rs, next => r.seq + 1 = q.seq ∧ consecutive (q :: rs) next

/-- R196: of two records, a transmitted one never stands behind an untransmitted one, and among the
transmitted ones a marked one never stands ahead of an unmarked one. -/
def Report.mayPrecede (r q : Report) : Prop :=
  (q.transmitted = true → r.transmitted = true) ∧
  (q.transmitted = true → r.mark = true → q.mark = true)

/-- The untransmitted SUPPLY records (R194). -/
def Outbox.unsentSupply (o : Outbox) : Nat := o.records.countP fun r => !r.transmitted && r.isSupply

/-- R192, R194, R195, R196, R197, R204: the laws of the outbox. A notice is owed only while no untransmitted
SUPPLY record stands (R200), and lanes wait only while no general entry is free (R197). -/
structure Outbox.Lawful (o : Outbox) : Prop where
  size : o.records.length ≤ Config.outboxSize
  general : o.general ≤ Config.outboxGeneral
  window : o.transmittedCount ≤ Config.window
  oneUnsentSupply : o.unsentSupply ≤ 1
  owed : o.owed.isSome = true → o.unsentSupply = 0
  numbers : consecutive o.records o.nextSeq
  order : o.records.Pairwise Report.mayPrecede
  marks : ∀ r ∈ o.records, r.mark = true → r.transmitted = true
  rounds : o.round ≤ Config.maxRounds
  waiting : o.waitingLanes ≠ [] → o.freeGeneral = 0

/-- The tables of the engine. The size limits: 24 jobs (R2), 4 jobs in a lane queue (R6), 64 fault records
(R146), 8 reply frames (R174). The identifiers are distinct and lie in 1 to 255, and so does the last one
assigned, or it is 0 (R2, R3). Every fault record belongs to a job of the table, and a job's faults
recorded is the number of its records (R146, R150). -/
structure State.TablesLawful (s : State) : Prop where
  jobs : s.jobs.length ≤ Config.jobTableSize
  queues : ∀ l, (s.lane l).queue.length ≤ Config.laneQueueSize
  faults : s.faults.length ≤ Config.faultListSize
  replies : s.replyQueue.length ≤ Config.replyQueueSize
  ids : (s.jobs.map fun j => j.id).Nodup
  idRange : ∀ j ∈ s.jobs, 1 ≤ j.id ∧ j.id ≤ 255
  lastId : s.lastId ≤ 255
  owners : ∀ r ∈ s.faults, ∃ j ∈ s.jobs, j.id = r.job
  counted : ∀ j ∈ s.jobs, j.faultsRecorded = (s.faultsOf j.id).length

/-- R6, R8: a lane's queue lists QUEUED jobs of that lane, none twice, and its current job is an ACTIVE or
HELD job of that lane. R197, R198: a lane's WAITING jobs are final jobs of that lane in the table, none
listed twice, and the waiting-lane queue lists, once each, the lanes that have one. -/
structure State.QueuesLawful (s : State) : Prop where
  queued : ∀ l, ∀ id ∈ (s.lane l).queue, ∃ j, s.job? id = some j ∧ j.state = .queued ∧ j.lane = l
  once : ∀ l, (s.lane l).queue.Nodup
  current : ∀ l id, (s.lane l).current = some id →
    ∃ j, s.job? id = some j ∧ (j.state = .active ∨ j.state = .held) ∧ j.lane = l
  waiting : ∀ l, ∀ id ∈ (s.lane l).waitingEnds,
    ∃ j, s.job? id = some j ∧ j.isFinal = true ∧ j.endReport = .waiting ∧ j.lane = l
  waitingOnce : ∀ l, (s.lane l).waitingEnds.Nodup
  waitingLanesOnce : s.outbox.waitingLanes.Nodup
  waitingLanes : ∀ l, l ∈ s.outbox.waitingLanes ↔ (s.lane l).waitingEnds ≠ []

/-- R77, R78: while the supply is UP, the entry at the head of the grant queue costs more than the free
units, so it waits for units to return. -/
def State.HeadWaits (s : State) : Prop :=
  s.supply.state = .up → ∀ e ∈ s.grantQueue.head?, s.freeUnits < e.cost

/-- The listings of block `h` in the block lists of unfinished jobs (R140). -/
def State.listings (s : State) (h : Handle) : Nat :=
  (s.jobs.map fun j => if j.isUnfinished then j.work.blocks.count h else 0).sum

/-- R131: the four conditions of a block's record. -/
def Block.Lawful (b : Block) : Prop :=
  match b.state with
  | .free => b.held = false ∧ b.fill = 0 ∧ b.refs = 0 ∧ b.crc = none
  | .filling => b.held = true ∧ b.fill ≤ 256 ∧ b.refs = 0 ∧ b.crc = none
  | .sealed => 1 ≤ b.fill ∧ b.fill ≤ 256 ∧ b.crc.isSome = true ∧ (b.held = true ∨ 1 ≤ b.refs)

/-- R131, R140: every block is in one of its four conditions, its content is in canonical form, and its
reference count is its listings. -/
def State.PoolLawful (s : State) : Prop :=
  ∀ h, (s.block h).Lawful ∧ (s.block h).content.wf = true ∧ (s.block h).refs = s.listings h

/-! ### The words of claims -/

/-- The fields of `State`. -/
inductive StateField where
  | inReset | linkRate | epoch | rx | tags | deferred | replyQueue | tx | profiles | blocks | jobs
  | lastId | lanes | freeUnits | grantQueue | supply | faults | outbox | choices | pending
  deriving DecidableEq, Repr

/-- A field has one value in two states. -/
def StateField.Same (s t : State) : StateField → Prop
  | .inReset => t.inReset = s.inReset
  | .linkRate => t.linkRate = s.linkRate
  | .epoch => t.epoch = s.epoch
  | .rx => t.rx = s.rx
  | .tags => t.tags = s.tags
  | .deferred => t.deferred = s.deferred
  | .replyQueue => t.replyQueue = s.replyQueue
  | .tx => t.tx = s.tx
  | .profiles => t.profiles = s.profiles
  | .blocks => t.blocks = s.blocks
  | .jobs => t.jobs = s.jobs
  | .lastId => t.lastId = s.lastId
  | .lanes => t.lanes = s.lanes
  | .freeUnits => t.freeUnits = s.freeUnits
  | .grantQueue => t.grantQueue = s.grantQueue
  | .supply => t.supply = s.supply
  | .faults => t.faults = s.faults
  | .outbox => t.outbox = s.outbox
  | .choices => t.choices = s.choices
  | .pending => t.pending = s.pending

/-- From `s` to `t` only the fields `fs` may change. -/
def State.OnlyChanges (s t : State) (fs : List StateField) : Prop := ∀ f, f ∉ fs → f.Same s t

/-- The Transmitter is busy, or no frame is available to it (R175). Every command but the resets first
brings the engine here (log 10). -/
def State.Settled (s : State) : Prop :=
  s.tx ≠ .idle ∨ (s.replyQueue = [] ∧ s.outbox.take? = none)

/-- The engine runs and its Transmitter is settled. -/
def State.Ready (s : State) : Prop := s.inReset = false ∧ s.Settled

/-- The frame of request `r` on tag `t` with payload `p` (R185). -/
def requestFrame (r : Request) (t : Fin 16) (p : List Byte) : Frame where
  kind := r.kind
  tag := byte t.val
  payload := p

/-- The engine takes the frame `f` on tag `t`: the entry is FREE, or REPLIED with another digest (R169). -/
def State.Takes (s : State) (t : Fin 16) (f : Frame) : Prop :=
  s.Ready ∧
    match s.tagEntry t with
    | .free => True
    | .replied d _ => d ≠ f.digest
    | .inFlight _ => False

/-- The outbox has been told of a valid frame: a stall is over (R165, R206). -/
def State.told (s : State) : State := s.setOutbox s.outbox.endStall

/-- A valid frame has arrived: RX is high at its last stop bit, so that no low is counted (R157, R166;
log 24), and the outbox has been told. -/
def State.heard (s : State) : State := s.lineHigh.told

/-- A frame handed to a settled Transmitter's queue: an idle Transmitter sends it at once, else it joins
the queue unless 8 frames stand there (R174, R175). -/
def State.sends (s : State) (f : Frame) : State :=
  match s.tx with
  | .idle => s.setTx (.reply f)
  | .reply _ | .report _ => s.placeReply f

/-- The reply to `f` on tag `t` is stored and sent (R171). -/
def State.answered (s : State) (t : Fin 16) (f : Frame) (code : Result) (fields : List Byte) : State :=
  (s.setTagEntry t (.replied f.digest (replyFrame f.kind f.tag code fields))).sends
    (replyFrame f.kind f.tag code fields)

/-- As `answered`, where the command may also have made a report ready: an idle Transmitter then takes the
reply first if a stall has just ended (R206), and else either of the two (R175); `reportFirst` says
which. -/
def State.answeredBeside (s : State) (stallEnded reportFirst : Bool) (t : Fin 16) (f : Frame)
    (code : Result) (fields : List Byte) : State :=
  let reply := replyFrame f.kind f.tag code fields
  let s' := s.setTagEntry t (.replied f.digest reply)
  match s.tx, s.outbox.take? with
  | .idle, some (r, o) =>
    if stallEnded then s'.setTx (.reply reply)
    else if reportFirst then
      (((s'.setOutbox o).setTx (.report r.frame)).setReplyQueue [reply]).setChoices (s.choices + 1)
    else (s'.setTx (.reply reply)).setChoices (s.choices + 1)
  | .idle, none => s'.setTx (.reply reply)
  | .reply _, _ | .report _, _ => s'.placeReply reply

/-- Runs commands one after another, stopping at a fault or a refusal. -/
def runCommands : List Instr → State → Answer
  | [], s => .next s
  | c :: cs, s =>
    match exec c s with
    | .next t => runCommands cs t
    | .fault r => .fault r
    | .refused r => .refused r

/-- A submission that the layout of JOB-SUBMIT can carry in a frame (R159, R186). -/
def Submit.Fits (f : Submit) : Prop :=
  f.profile < 256 ∧ f.start < 2 ^ 24 ∧ f.length < 2 ^ 32 ∧ f.first < 65536 ∧ f.last < 65536 ∧
  f.faultLimit < 256 ∧ (∀ i ∈ f.progress, 1 ≤ i ∧ i < 65536) ∧ f.handles.length ≤ 242

/-- The payload of a JOB-SUBMIT (R186). -/
def Submit.payload (f : Submit) : List Byte :=
  [f.mask, f.kind, byte f.profile] ++ be24 f.start ++ be32 f.length ++ be16 f.first ++ be16 f.last ++
  [byte f.faultLimit] ++ be16 (f.progress.getD 0) ++ [byte f.handles.length] ++ f.handles

/-- Check 1 of JOB-SUBMIT (R10). -/
def Submit.Check1 (f : Submit) : Prop := 1 ≤ f.kind.toNat ∧ f.kind.toNat ≤ 5

/-- Check 2 of JOB-SUBMIT, with the block counts of R9. -/
def Submit.Check2 (f : Submit) : Prop :=
  f.mask ≠ 0 ∧ 1 ≤ f.faultLimit ∧ f.faultLimit ≤ 32 ∧ (∀ i ∈ f.progress, i ≤ 4096) ∧
  (if f.kind = 0x02 ∨ f.kind = 0x03 then 1 ≤ f.handles.length ∧ f.handles.length ≤ 64
   else f.handles = [])

/-- Check 4 of JOB-SUBMIT (R11). -/
def Submit.Check4 (f : Submit) (p : Profile) : Prop :=
  (f.kind = 0x02 ∨ f.kind = 0x03 →
    1 ≤ f.length ∧ f.length ≤ 16384 ∧ f.start + f.length ≤ p.memSize) ∧
  (f.kind = 0x04 → 1 ≤ f.length ∧ f.length ≤ p.memSize ∧ f.start + f.length ≤ p.memSize) ∧
  (f.kind = 0x05 → f.first ≤ f.last ∧ f.last < p.memSize / p.sectorSize)

/-- A listed handle names a held, SEALED block (R12). -/
def State.Usable (s : State) (b : Byte) : Prop :=
  ∃ h : Handle, b = byte h.val ∧ (s.block h).held = true ∧ (s.block h).state = .sealed

/-- A handle names no block that the host holds (R132). -/
def State.Unheld (s : State) (b : Byte) : Prop :=
  ∀ h : Handle, b = byte h.val → (s.block h).held = false ∨ (s.block h).state = .free

/-- The work that a submission describes: the fields its kind uses (R9). -/
def Submit.described (f : Submit) (hs : List Handle) : Work :=
  if f.kind = 0x01 then .identify
  else if f.kind = 0x02 then .program f.start f.length hs
  else if f.kind = 0x03 then .verify f.start f.length hs
  else if f.kind = 0x04 then .blankCheck f.start f.length
  else .erase f.first f.last

/-- The JOB-END of a job that ends with the given state, reason and flag (R18). -/
def Job.endsWith (j : Job) (st : JobState) (reason : EndReason) (stopped : Bool) : ReportBody :=
  .jobEnd {
    id := j.id
    lane := j.lane
    state := st
    reason := some reason
    bytesDone := j.bytesDone
    programPulses := j.programPulses
    erasePulses := j.erasePulses
    faultsRecorded := j.faultsRecorded
    laneStopped := stopped }

/-- From `s` to `t` the job `j` becomes final: its record is written, its references are dropped, and its
JOB-END is enqueued if a general entry is free, else the job waits and its lane joins the waiting-lane
queue (R17, R18, R141, R197). That a block freed here keeps its content is the model's choice (log 13). No
job, block or outbox entry changes otherwise. -/
def State.JobBecomesFinal (s t : State) (j : Job) (st : JobState) (reason : EndReason)
    (stopped : Bool) : Prop :=
  t.jobs = (s.jobs.map fun q =>
    if q.id = j.id then
      { q with
        state := st
        endReason := some reason
        laneStopped := stopped
        endReport := if 0 < s.outbox.freeGeneral then .enqueued else .waiting }
    else q) ∧
  t.blocks = (s.dropRefs j.work.blocks).blocks ∧
  t.outbox =
    (if 0 < s.outbox.freeGeneral then s.outbox.enqueue (j.endsWith st reason stopped)
     else s.outbox.joinWaiting j.lane)

/-- The lane record of a lane whose current job has just become final, before it starts another: STOPPED
or IDLE if the JOB-END was enqueued, else REPORT_WAIT for that job (R18, R19). -/
def Lane.afterJob (x : Lane) (id : Nat) (room stopped : Bool) : Lane :=
  let x' := { x with current := none, context := .cleared }
  if room then { x' with state := if stopped then .stopped else .idle, waitFor := none }
  else { x' with state := .reportWait, waitFor := some id, waitingEnds := x.waitingEnds ++ [id] }

/-- From `s` to `t` the current job `j` of lane `l` becomes final and the lane leaves its working state; no
other lane changes. -/
def State.CurrentJobEnds (s t : State) (l : LaneId) (j : Job) (st : JobState) (reason : EndReason)
    (stopped : Bool) : Prop :=
  s.JobBecomesFinal t j st reason stopped ∧
  t.lane l = (s.lane l).afterJob j.id (decide (0 < s.outbox.freeGeneral)) stopped ∧
  (∀ m, m ≠ l → t.lane m = s.lane m) ∧
  s.OnlyChanges t [.jobs, .blocks, .outbox, .lanes]

/-- Each lane of the waiting-lane queue stands in it once and has a WAITING job, and the table holds its
WAITING jobs (R197; part of `QueuesLawful`). -/
def State.WaitingKnown (s : State) : Prop :=
  s.outbox.waitingLanes.Nodup ∧
  ∀ l ∈ s.outbox.waitingLanes, (s.lane l).waitingEnds ≠ [] ∧
    ∀ id ∈ (s.lane l).waitingEnds, (s.job? id).isSome = true

/-- A job's record in the table is changed by `f` (R2: one record for each identifier). -/
def Job.changedIn (j : Job) (jobs : List Job) (f : Job → Job) : List Job :=
  jobs.map fun q => if q.id = j.id then f q else q

/-- The state `s` after the outbox has served lane `l`, which stood at the head of the waiting-lane queue
ahead of `others`: the JOB-END of `j`, its WAITING job that became final first, is enqueued; the lane goes to
the tail of the queue if it has `more` WAITING jobs, else it leaves the queue; and a lane in REPORT_WAIT for
that job is STOPPED if the job stopped it, else IDLE, when it starts the head of its own queue (R19, R198
step 2). -/
def State.served (s : State) (l : LaneId) (others : List LaneId) (j : Job) (more : List Nat) : State :=
  let sent := ((s.setOutbox { s.outbox with
      records := s.outbox.records ++
        [{ body := j.endBody, seq := s.outbox.nextSeq, transmitted := false, mark := false }]
      nextSeq := s.outbox.nextSeq + 1
      waitingLanes := if more = [] then others else others ++ [l] }).setJobs
    (j.changedIn s.jobs fun q => { q with endReport := .enqueued })).updLane l fun x =>
      { x with waitingEnds := more }
  if (s.lane l).state = .reportWait ∧ (s.lane l).waitFor = some j.id then
    (sent.updLane l fun x => { x with
      state := if j.laneStopped then .stopped else .idle
      waitFor := none }).startHead l
  else sent

/-- From `s` to `t` the outbox serves the waiting lanes in queue order, one JOB-END at a time, until no lane
waits or no general entry is free (R198 step 2). -/
inductive State.ServesWaiting : State → State → Prop where
  | ended (s : State) (done : s.outbox.waitingLanes = [] ∨ s.outbox.freeGeneral = 0) : ServesWaiting s s
  | turn (s t : State) (l : LaneId) (others : List LaneId) (id : Nat) (more : List Nat) (j : Job)
      (head : s.outbox.waitingLanes = l :: others) (free : 0 < s.outbox.freeGeneral)
      (first : (s.lane l).waitingEnds = id :: more) (named : s.job? id = some j)
      (rest : ServesWaiting (s.served l others j more) t) : ServesWaiting s t

/-- The lane record of a lane that is granted the entry `e` (R74, R75, R77). -/
def Lane.grantedBy (x : Lane) (e : GrantEntry) : Lane :=
  { x with
    state := .pulsing
    lvpClosed := true
    unitsHeld := x.unitsHeld + e.cost
    slot := .granted
    timer := none
    width := e.width
    unit := x.unit.handOver (.new (if x.context.phase = some .erase then .pulseE else .pulseP)
      x.context.address 0 false) }

/-- From `s` to `t` the Arbiter grants from the head of the grant queue, in order, as far as the free units
go and only while the supply is UP: each granted entry leaves the queue, its cost moves to its lane, and
its lane sends its PULSE-P or PULSE-E (R74, R77, R78). -/
def State.Grants (s t : State) : Prop :=
  ∃ granted : List GrantEntry,
    s.grantQueue = granted ++ t.grantQueue ∧ (s.supply.state ≠ .up → granted = []) ∧
    t.freeUnits + (granted.map fun e => e.cost).sum = s.freeUnits ∧ t.HeadWaits ∧
    (∀ l, t.lane l =
      (granted.filter fun e => decide (e.lane = l)).foldl Lane.grantedBy (s.lane l)) ∧
    s.OnlyChanges t [.lanes, .freeUnits, .grantQueue]

/-- From `s` to `t` lane `l` asks for a grant for its current job `j`: with the supply not UP lane and job
are HELD; else its entry joins the tail of the grant queue, and the Arbiter grants (R40, R62, R76, R77). -/
def State.AsksForGrant (s t : State) (l : LaneId) (j : Job) (cost width : Nat) : Prop :=
  (s.supply.state ≠ .up →
    t = (s.updLane l fun x => { x with state := .held }).setJobs
      (j.changedIn s.jobs fun q => { q with state := .held })) ∧
  (s.supply.state = .up →
    ((s.setGrantQueue (s.grantQueue ++ [{ lane := l, cost := cost, width := width }])).updLane l
      fun x => { x with state := .pulseWait }).Grants t)

/-- The Lane Cycle Unit after the end of one cycle and the hand-over of the next, which it holds for the
lane gap (R98, R99, R111). -/
def CycleUnit.holding (kind : CycleKind) (address : Nat) (data : Byte) : CycleUnit where
  state := .idle
  cycle := some (.new kind address data false)
  gapPassed := false

/-- The width in microseconds of program pulse number `k` under the profile's escalation (R41). -/
def Profile.widthOfPulse (p : Profile) (k : Nat) : Nat :=
  if p.stepped = true ∧ 7 ≤ k then 4 * p.baseWidth
  else if p.stepped = true ∧ 4 ≤ k then 2 * p.baseWidth
  else p.baseWidth

/-- From `s` to `t` lane `l` asks for the next program pulse of the byte at its current address (R40). -/
def State.AsksForProgramPulse (s t : State) (l : LaneId) (j : Job) : Prop :=
  s.AsksForGrant t l j s.profiles[j.profile].programCost
    (s.profiles[j.profile].widthOfPulse ((s.lane l).context.pulseCount + 1))

/-- From `s` to `t` lane `l` asks for the next erase pulse of its sector (R62). -/
def State.AsksForErasePulse (s t : State) (l : LaneId) (j : Job) : Prop :=
  s.AsksForGrant t l j s.profiles[j.profile].eraseCost (s.profiles[j.profile].eraseWidth * 1000)

/-- From `s` to `t` the current job `j` of lane `l` has finished its whole range: DONE with COMPLETE if it
recorded no fault, else FAILED with FAULTS; the lane goes on (R36, R52, R70). -/
def State.RangeEnds (s t : State) (l : LaneId) (j : Job) : Prop :=
  ∃ w : State,
    s.CurrentJobEnds w l j (if j.faultsRecorded = 0 then .done else .failed)
      (if j.faultsRecorded = 0 then .complete else .faults) false ∧
    t = w.startHead l

/-- From `s` to `t` a byte of the current job `j` of lane `l` is done: bytes done advances; the last byte of
the range ends the job; else a PROGRESS is offered on a mark, and the READ of the next byte is handed
over (R45, R52, R53). -/
def State.ByteIsDone (s t : State) (l : LaneId) (j : Job) : Prop :=
  let a := (s.lane l).context.address
  let done := j.bytesDone + 1
  let counted := s.setJobs (j.changedIn s.jobs fun q => { q with bytesDone := done })
  (j.work.start + j.work.length ≤ a + 1 → counted.RangeEnds t l { j with bytesDone := done }) ∧
  (a + 1 < j.work.start + j.work.length →
    t = (counted.setOutbox
      (match j.progress with
       | some i => if done % (256 * i) = 0 then s.outbox.offerProgress j.id l done else s.outbox
       | none => s.outbox)).updLane l fun x => { x with
        context := { x.context with address := a + 1, pulseCount := 0 }
        unit := .holding .read (a + 1) 0 })

/-- From `s` to `t` the fault `r` of the current job `j` of lane `l` is offered: a full list ends the job
FAULT_SPACE with no record; a record that reaches the fault limit ends it FAULT_LIMIT; else it is
recorded, and `goesOn` says what follows (R49 to R51, R69, R149). -/
def State.FaultIsJudged (s t : State) (l : LaneId) (j : Job) (r : FaultRecord)
    (goesOn : State → Job → Prop) : Prop :=
  let noted := (s.setFaults (s.faults ++ [r])).setJobs
    (j.changedIn s.jobs fun q => { q with faultsRecorded := q.faultsRecorded + 1 })
  let j' := { j with faultsRecorded := j.faultsRecorded + 1 }
  (64 ≤ s.faults.length →
    ∃ w : State, s.CurrentJobEnds w l j .failed .faultSpace false ∧ t = w.startHead l) ∧
  (s.faults.length < 64 → j.faultLimit ≤ j.faultsRecorded + 1 →
    ∃ w : State, noted.CurrentJobEnds w l j' .failed .faultLimit false ∧ t = w.startHead l) ∧
  (s.faults.length < 64 → j.faultsRecorded + 1 < j.faultLimit → goesOn noted j')

/-- From `s` to `t` lane `l` begins the sector that starts at `start` (R57, R58, R61, R62). -/
def State.SectorBegins (s t : State) (l : LaneId) (j : Job) (start : Nat) : Prop :=
  let begun := fun phase => s.updLane l fun x => { x with
    context := { x.context with
      address := start, watermark := start, eraseCount := 0, pulseCount := 0, phase := some phase } }
  (s.profiles[j.profile].precondition = true →
    t = (begun .precondition).updLane l fun x => { x with unit := .holding .read start 0 }) ∧
  (s.profiles[j.profile].precondition = false → (begun .erase).AsksForErasePulse t l j)

/-- From `s` to `t` the sector of the current ERASE job `j` of lane `l`, the one its watermark lies in, is
done: bytes done advances by the sector size; the last sector ends the job; else a PROGRESS is offered
if a mark was reached or passed, and the next sector begins (R68, R70). -/
def State.SectorIsDone (s t : State) (l : LaneId) (j : Job) : Prop :=
  let size := s.profiles[j.profile].sectorSize
  let sector := (s.lane l).context.watermark / size
  let done := j.bytesDone + size
  let counted := s.setJobs (j.changedIn s.jobs fun q => { q with bytesDone := done })
  (j.work.lastSector ≤ sector → counted.RangeEnds t l { j with bytesDone := done }) ∧
  (sector < j.work.lastSector →
    (counted.setOutbox
      (match j.progress with
       | some i =>
         if j.bytesDone / (256 * i) < done / (256 * i) then s.outbox.offerProgress j.id l done
         else s.outbox
       | none => s.outbox)).SectorBegins t l j ((sector + 1) * size))

/-- From `s` to `t` a precondition byte of lane `l` is finished: the READ of the next byte of the sector, or
after the sector end the phase ERASE and its first grant request (R58, R61). -/
def State.PreconditionByteIsDone (s t : State) (l : LaneId) (j : Job) : Prop :=
  let size := s.profiles[j.profile].sectorSize
  let a := (s.lane l).context.address
  let start := a / size * size
  (a < start + size - 1 →
    t = s.updLane l fun x => { x with
      context := { x.context with address := a + 1 }
      unit := .holding .read (a + 1) 0 }) ∧
  (start + size - 1 ≤ a →
    (s.updLane l fun x => { x with
      context := { x.context with phase := some .erase, address := start } }).AsksForErasePulse t l j)

/-- The state `s` with the switch of lane `l` opened: its units return to the free count and its timer
stops (R74, R82). -/
def State.opened (s : State) (l : LaneId) (slot : PulseSlot) : State :=
  (s.updLane l fun x => { x with
    lvpClosed := false, unitsHeld := 0, timer := none, slot := slot }).setFreeUnits
      (s.freeUnits + (s.lane l).unitsHeld)

/-- The state `s` with the INTERRUPTED record of a pulse of job `j` on lane `l` that a cancel cuts, if the
list has room (R23, R148). -/
def State.interrupted (s : State) (l : LaneId) (j : Job) : State :=
  let c := (s.lane l).context
  if s.faults.length < 64 then
    (s.setFaults (s.faults ++ [{
      job := j.id
      kind := .interrupted
      address := c.address
      expected := none
      readByte := none
      sort := if c.phase = some .erase then .erase else .program
      pulses := if c.phase = some .erase then c.eraseCount else c.pulseCount }])).setJobs
        (j.changedIn s.jobs fun q => { q with faultsRecorded := q.faultsRecorded + 1 })
  else s

/-- From `s` to `t` a cycle of the given kind fails on lane `l` and ends its current job `j` with the lane
stopped (R32). A pulse cycle on a GRANTED slot is a failed pulse start: the switch is opened first, and
the Arbiter grants afterwards (R80); on a CUT slot the slot becomes NONE (R88). -/
def State.CycleFails (s t : State) (l : LaneId) (kind : CycleKind) (j : Job) (reason : EndReason) :
    Prop :=
  let quiet := s.updLane l fun x => { x with unit := .afterReset }
  (kind ≠ .pulseP → kind ≠ .pulseE → quiet.CurrentJobEnds t l j .failed reason true) ∧
  (kind = .pulseP ∨ kind = .pulseE →
    ((s.lane l).slot = .cut →
      (quiet.updLane l fun x => { x with slot := .none }).CurrentJobEnds t l j .failed reason true) ∧
    ((s.lane l).slot = .granted →
      ∃ w : State, (quiet.opened l .none).CurrentJobEnds w l j .failed reason true ∧ w.Grants t))

/-- Lane `l` reads the answer of the cycle `c`. -/
def State.Answering (s : State) (l : LaneId) (c : Cycle) : Prop :=
  (s.lane l).unit.state = .answering ∧ (s.lane l).unit.cycle = some c

/-- The next slot of `c` is an answer slot that the engine begins (R106, R109). -/
def Cycle.SlotOpen (c : Cycle) : Prop :=
  c.ready = false ∧ c.slotEnd (c.slots + 1) ≤ c.lastSlotEnd

end Sys2Proof.Machine
end

