-- ==== Sys2Proof/WellFormed.lean ====
section
/-! DEFINITION. Which commands are well formed: those that the row they are of can be. -/

namespace Sys2Proof

open Machine

/-- The frame that a command stands for the arrival of; `none` for the commands that are no frame. -/
def Instr.frame? : Instr → Option Frame
  | .signOn t p => some ⟨Request.signOn.kind, t, p⟩
  | .status t p => some ⟨Request.status.kind, t, p⟩
  | .engineReset t p => some ⟨Request.engineReset.kind, t, p⟩
  | .profileLoad t p => some ⟨Request.profileLoad.kind, t, p⟩
  | .profileRead t p => some ⟨Request.profileRead.kind, t, p⟩
  | .blockOpen t p => some ⟨Request.blockOpen.kind, t, p⟩
  | .blockWrite t p => some ⟨Request.blockWrite.kind, t, p⟩
  | .blockSeal t p => some ⟨Request.blockSeal.kind, t, p⟩
  | .blockRelease t p => some ⟨Request.blockRelease.kind, t, p⟩
  | .blockQuery t p => some ⟨Request.blockQuery.kind, t, p⟩
  | .jobSubmit t p => some ⟨Request.jobSubmit.kind, t, p⟩
  | .jobQuery t p => some ⟨Request.jobQuery.kind, t, p⟩
  | .jobCancel t p => some ⟨Request.jobCancel.kind, t, p⟩
  | .jobRetire t p => some ⟨Request.jobRetire.kind, t, p⟩
  | .faultsRead t p => some ⟨Request.faultsRead.kind, t, p⟩
  | .laneRestart t p => some ⟨Request.laneRestart.kind, t, p⟩
  | .supplyResume t p => some ⟨Request.supplyResume.kind, t, p⟩
  | .reportAck t p => some ⟨Request.reportAck.kind, t, p⟩
  | .badKindRequest k t p => some ⟨k, t, p⟩
  | .tagRangeRefusal k t p => some ⟨k, t, p⟩
  | .rxCharacter _ _ _ | .frameTimerExpiry | .rxBreak | .transmitFrameEnd | .ackTimerExpiry
  | .laneGapEnd _ | .answerSlot _ _ | .answerWindowClose _ | .cycleCeiling _
  | .pulseTimerExpiry _ | .psupOkFall | .psupOkRise | .powerOn | .resetAssert
  | .resetRelease _ _ _ _ | .sentMoment _ _ => none

/-- Whether a tag has an entry in the tag table: 00h to 0Fh (R167). -/
def tagInTable (tag : Byte) : Bool := decide (tag.toNat < 16)

/-- Check 1: a frame carries at most 260 payload bytes (R159). -/
def Instr.payloadFits (i : Instr) : Bool :=
  match i.frame? with
  | some f => decide (f.payload.length ≤ Config.maxPayload)
  | none => true

/-- Check 2: a request and BAD_KIND_REQUEST are on a tag of the table, TAG_RANGE_REFUSAL on none (R168,
R169). -/
def Instr.tagFits : Instr → Bool
  | .tagRangeRefusal _ t _ => !tagInTable t
  | .badKindRequest _ t _ => tagInTable t
  | .signOn t _ | .status t _ | .engineReset t _ | .profileLoad t _ | .profileRead t _
  | .blockOpen t _ | .blockWrite t _ | .blockSeal t _ | .blockRelease t _ | .blockQuery t _
  | .jobSubmit t _ | .jobQuery t _ | .jobCancel t _ | .jobRetire t _ | .faultsRead t _
  | .laneRestart t _ | .supplyResume t _ | .reportAck t _ => tagInTable t
  | .rxCharacter _ _ _ | .frameTimerExpiry | .rxBreak | .transmitFrameEnd | .ackTimerExpiry
  | .laneGapEnd _ | .answerSlot _ _ | .answerWindowClose _ | .cycleCeiling _
  | .pulseTimerExpiry _ | .psupOkFall | .psupOkRise | .powerOn | .resetAssert
  | .resetRelease _ _ _ _ | .sentMoment _ _ => true

/-- Check 3: the kind of a BAD_KIND_REQUEST names no request (R170). -/
def Instr.kindFits : Instr → Bool
  | .badKindRequest k _ _ => (Request.ofKind k).isNone
  | .signOn _ _ | .status _ _ | .engineReset _ _ | .profileLoad _ _ | .profileRead _ _
  | .blockOpen _ _ | .blockWrite _ _ | .blockSeal _ _ | .blockRelease _ _ | .blockQuery _ _
  | .jobSubmit _ _ | .jobQuery _ _ | .jobCancel _ _ | .jobRetire _ _ | .faultsRead _ _
  | .laneRestart _ _ | .supplyResume _ _ | .reportAck _ _ | .tagRangeRefusal _ _ _
  | .rxCharacter _ _ _ | .frameTimerExpiry | .rxBreak | .transmitFrameEnd | .ackTimerExpiry
  | .laneGapEnd _ | .answerSlot _ _ | .answerWindowClose _ | .cycleCeiling _
  | .pulseTimerExpiry _ | .psupOkFall | .psupOkRise | .powerOn | .resetAssert
  | .resetRelease _ _ _ _ | .sentMoment _ _ => true

/-- A well-formed command. -/
def Instr.wellFormed (i : Instr) : Bool := i.payloadFits && i.tagFits && i.kindFits

end Sys2Proof
end

