-- ==== Sys2Proof/Certificates/Slice0/Obligations.lean ====
section
/-! DEFINITION. The statements for the provers. OBLIGATIONS.json lists them with the rules they rest on. -/

open Sys2Proof Sys2Proof.Machine

/-! ### The queue, the resets and the laws that every step keeps -/

/-- A step takes the command at the front of the queue and runs it with the queue's rest; with none
waiting the block idles; and no command's effect touches the queue (log 1). -/
def Obligations.StepRunsTheFrontCommand : Prop :=
  (∀ (s : State) (c : Instr) (rest : List Instr),
    s.pending = c :: rest → step s = exec c (s.setPending rest)) ∧
  (∀ s : State, s.pending = [] → step s = .next s) ∧
  ∀ (c : Instr) (s t : State), exec c s = .next t → t.pending = s.pending

/-- An idle Transmitter takes an available frame before the next command (R175; log 10): every command but
the release of RESET does what it does from the state in which the Transmitter is settled. -/
def Obligations.IdleTransmitterTakesFirst : Prop :=
  ∀ s : State, s.inReset = false →
    s.transmit.Settled ∧
    ∀ c : Instr, (∀ a b p r, c ≠ .resetRelease a b p r) → exec c s = exec c s.transmit

/-- While RESET is low no command is taken but the resets; the PSUP_OK commands only set the pin's level
(R214, R218; log 15). That the supply state stays meanwhile is the model's choice (log 28). -/
def Obligations.HeldEngineTakesNoCommand : Prop :=
  ∀ s : State, s.inReset = true →
    (∀ c : Instr, c ≠ .powerOn → c ≠ .resetAssert → (∀ a b p r, c ≠ .resetRelease a b p r) →
      c ≠ .psupOkFall → c ≠ .psupOkRise →
      (∀ f, c.frame? = some f → f.payload.length ≤ 260) → exec c s = .next s) ∧
    exec .psupOkFall s = .next (s.setSupply { s.supply with psupOk := false }) ∧
    exec .psupOkRise s = .next (s.setSupply { s.supply with psupOk := true })

/-- Power-on and a fall of RESET leave every block at its power-on state, ATTN low, TX idle and every lane
quiet with its switch open (R214). That the link rate and the level of PSUP_OK are held is the model's
reading (log 15). -/
def Obligations.PowerOnAndResetHoldTheEngine : Prop :=
  ∀ s : State, ∃ t : State,
    exec .powerOn s = .next t ∧ exec .resetAssert s = .next t ∧
    t.inReset = true ∧ t.attn = false ∧ t.tx = .idle ∧ t.replyQueue = [] ∧
    t.outbox = .emptied ∧ t.deferred = [] ∧ (∀ k, t.tagEntry k = .free) ∧ t.epoch = 0 ∧
    t.rx = .afterReset ∧ t.jobs = [] ∧ t.lastId = 0 ∧ t.faults = [] ∧
    (∀ l, t.lane l = .afterReset ∧ (t.lane l).lckRunning = false ∧ (t.lane l).ldaDriven = false ∧
      (t.lane l).lvpClosed = false) ∧
    t.freeUnits = 8 ∧ t.grantQueue = [] ∧ t.supply.episodes = 0 ∧
    (∀ i : ProfileId, t.profiles[i] = .afterPowerOn) ∧
    (∀ h, (t.block h).state = .free ∧ (t.block h).Lawful) ∧
    t.linkRate = s.linkRate ∧ t.supply.psupOk = s.supply.psupOk ∧ t.pending = s.pending

/-- The release of RESET samples the straps and PSUP_OK and gives every block its power-on state (R215,
R95, R128, R144, R155, R212), ENGINE-READY being the first frame sent; the operands are the levels (log 9). -/
def Obligations.ReleaseStartsTheEngine : Prop :=
  ∀ (s : State) (baud1 baud0 psupOk rx : Bool), s.inReset = true → ∃ t : State,
    exec (.resetRelease baud1 baud0 psupOk rx) s = .next t ∧
    t.inReset = false ∧
    t.linkRate = (if baud1 then (if baud0 then .baud3000000 else .baud921600)
      else if baud0 then .baud460800 else .baud115200) ∧
    t.supply = { state := if psupOk then .up else .down, episodes := 0, psupOk := psupOk } ∧
    t.epoch = 0 ∧ t.tx = .idle ∧ t.replyQueue = [] ∧ t.deferred = [] ∧ (∀ k, t.tagEntry k = .free) ∧
    t.rx.phase = .hunt ∧ t.rx.kept = [] ∧ t.rx.timer = none ∧
    t.rx.breakDetector = (if rx then .clear else .counting) ∧
    t.outbox.records = [{ body := .engineReady 0, seq := 0, transmitted := false, mark := false }] ∧
    t.outbox.nextSeq = 1 ∧ t.outbox.round = 0 ∧ t.outbox.timer = none ∧ t.outbox.stalled = false ∧
    t.outbox.owed = none ∧ t.outbox.waitingLanes = [] ∧ t.attn = true ∧
    t.transmit.tx = .report { kind := 0xE0, tag := 0x00, payload := [0x00, 0x00] } ∧
    t.jobs = [] ∧ t.lastId = 0 ∧ t.faults = [] ∧ (∀ l, t.lane l = .afterReset) ∧
    t.freeUnits = 8 ∧ t.grantQueue = [] ∧
    (∀ i : ProfileId, t.profiles[i] = .afterPowerOn) ∧
    (∀ h, (t.block h).state = .free ∧ (t.block h).Lawful) ∧ t.pending = s.pending

/-- R74: every step keeps the free units and the units held by the lanes at 8 together. -/
def Obligations.StepsKeepTheBudget : Prop :=
  ∀ s t : State, s.BudgetKept → step s = .next t → t.BudgetKept

/-- R75, R84, R220: every step keeps each switch closed exactly in GRANTED and TIMING, and all switches open
while the supply is not UP. -/
def Obligations.StepsKeepSwitchesSafe : Prop :=
  ∀ s t : State, s.SwitchesSafe → step s = .next t → t.SwitchesSafe

/-- R77, R78: no step leaves a fitting entry at the head of the grant queue. -/
def Obligations.StepsLeaveNoFittingHead : Prop :=
  ∀ s t : State, s.HeadWaits → step s = .next t → t.HeadWaits

/-- R194 to R197, R204: every step keeps the laws of the outbox. -/
def Obligations.StepsKeepTheOutboxLawful : Prop :=
  ∀ s t : State, s.outbox.Lawful → step s = .next t → t.outbox.Lawful

/-- R2, R3, R6, R146, R150, R174: every step keeps the laws of the tables. -/
def Obligations.StepsKeepTheTablesLawful : Prop :=
  ∀ s t : State, s.TablesLawful → step s = .next t → t.TablesLawful

/-- R6, R8, R131, R140: every step keeps the lane queues, the current jobs and the pool lawful: a block's
reference count is its listings by unfinished jobs. -/
def Obligations.StepsKeepThePoolLawful : Prop :=
  ∀ s t : State, s.TablesLawful → s.QueuesLawful → s.PoolLawful → step s = .next t →
    t.QueuesLawful ∧ t.PoolLawful

/-- The state right after reset meets every law that the steps keep. -/
def Obligations.ResetMeetsTheLaws : Prop :=
  State.reset.BudgetKept ∧ State.reset.SwitchesSafe ∧ State.reset.HeadWaits ∧
  State.reset.outbox.Lawful ∧ State.reset.TablesLawful ∧ State.reset.QueuesLawful ∧
  State.reset.PoolLawful

/-- R129, R157, R178, R83: the link rate changes only at a release of RESET; the epoch only at the resets and
ENGINE-RESET; a profile only at those of power-on and RESET and at PROFILE-LOAD; the supply only at the
edges of PSUP_OK, SUPPLY-RESUME and the resets. A character or a frame timer can complete a request. -/
def Obligations.OwnersAloneChangeTheirState : Prop :=
  ∀ (c : Instr) (s t : State), exec c s = .next t →
    ((∀ a b p r, c ≠ .resetRelease a b p r) → t.linkRate = s.linkRate) ∧
    (c ≠ .powerOn → c ≠ .resetAssert → (∀ a b p r, c ≠ .resetRelease a b p r) →
      (∀ m b h, c ≠ .rxCharacter m b h) → c ≠ .frameTimerExpiry →
      ((∀ f, c.frame? = some f → f.kind ≠ 0x1F) → t.epoch = s.epoch) ∧
      ((∀ f, c.frame? = some f → f.kind ≠ 0x20) → t.profiles = s.profiles) ∧
      ((∀ f, c.frame? = some f → f.kind ≠ 0x1F ∧ f.kind ≠ 0x50) →
        c ≠ .psupOkFall → c ≠ .psupOkRise → t.supply = s.supply))

/-! ### The link -/

/-- R177: the reply of SIGN-ON, and that it changes nothing else. -/
def Obligations.SignOnReplies : Prop :=
  ∀ (s : State) (t : Fin 16), s.Takes t (requestFrame .signOn t []) →
    exec (.signOn (byte t.val) []) s =
      .next (s.heard.answered t (requestFrame .signOn t []) .ok
        ([0x41, 0x60, 1, 8, 64, 24] ++ be16 s.epoch.toNat))

/-- R179: the reply of STATUS, and that it changes nothing else. -/
def Obligations.StatusReplies : Prop :=
  ∀ (s : State) (t : Fin 16), s.Takes t (requestFrame .status t []) →
    exec (.status (byte t.val) []) s =
      .next (s.heard.answered t (requestFrame .status t []) .ok
        ((List.finRange 8).flatMap (fun l => [(s.lane l).state.code, byte (s.lane l).queue.length]) ++
          s.supply.state.code :: be16 s.supply.episodes.toNat ++
          [byte s.freeUnits, byte ((List.finRange 64).countP fun h => (s.block h).state == .free),
           byte (24 - s.jobs.length), byte (64 - s.faults.length), byte s.outbox.records.length,
           0x00]))

/-- R180, R181: what ENGINE-RESET leaves, and in which order its replies go out. RX is high at the end of the
frame that asks for it, so that the break detector has no low counted (log 24). That all replies of the step
are placed before an idle Transmitter takes the first is the model's choice (log 29). -/
def Obligations.EngineResetResets : Prop :=
  ∀ (s : State) (t : Fin 16), s.Takes t (requestFrame .engineReset t []) →
    let f := requestFrame .engineReset t []
    let reply := replyFrame 0x1F (byte t.val) .ok (be16 (s.epoch + 1).toNat)
    let replies :=
      (s.deferred.take 7).map (fun d => replyFrame 0x42 d.tag .resetAborted [byte d.job]) ++ [reply]
    ∃ u : State, exec (.engineReset (byte t.val) []) s = .next u ∧
      (s.tx = .idle → ∃ first rest, replies = first :: rest ∧ u.tx = .reply first ∧
        u.replyQueue = rest) ∧
      (s.tx ≠ .idle → u.tx = s.tx ∧ u.replyQueue = replies) ∧
      u.tags = (Vector.replicate 16 TagEntry.free).set t (.replied f.digest reply) ∧
      u.epoch = s.epoch + 1 ∧ u.deferred = [] ∧
      u.outbox = .afterReset (s.epoch + 1) ∧
      u.rx = .afterReset ∧
      u.jobs = [] ∧ u.lastId = 0 ∧ u.faults = [] ∧ (∀ l, u.lane l = .afterReset) ∧
      u.freeUnits = 8 ∧ u.grantQueue = [] ∧ u.supply = .afterReset s.supply.psupOk ∧
      (∀ h, (u.block h).state = .free ∧ (u.block h).Lawful) ∧
      s.OnlyChanges u [.tx, .replyQueue, .tags, .epoch, .deferred, .outbox, .rx, .jobs, .lastId,
        .faults, .lanes, .freeUnits, .grantQueue, .supply, .blocks]

/-- R169: a repeat on a REPLIED tag has the cached reply sent again; on an IN_FLIGHT tag a repeat is dropped
and another request is refused TAG_BUSY; nothing is taken in any of these. -/
def Obligations.TagTableAnswersRepeats : Prop :=
  ∀ (s : State) (c : Instr) (f : Frame) (t : Fin 16),
    c.frame? = some f → f.payload.length ≤ 260 → f.tag = byte t.val → s.Ready →
    (∀ reply, s.tagEntry t = .replied f.digest reply → exec c s = .next (s.heard.sends reply)) ∧
    (s.tagEntry t = .inFlight f.digest → exec c s = .next s.heard.transmit) ∧
    (∀ d, s.tagEntry t = .inFlight d → d ≠ f.digest →
      exec c s = .next (s.heard.sends (replyFrame f.kind f.tag .tagBusy [])))

/-- R168: a frame with a tag above 0Fh is refused BAD_FIELD; no entry changes, nothing is taken, and the
outbox has been told of the frame. -/
def Obligations.TagAboveTheTableIsRefused : Prop :=
  ∀ (s : State) (kind tag : Byte) (p : List Byte), 16 ≤ tag.toNat → p.length ≤ 260 → s.Ready →
    exec (.tagRangeRefusal kind tag p) s =
      .next (s.heard.sends (replyFrame kind tag .badField []))

/-- R170, R186: BAD_KIND for a kind of no request, and BAD_LENGTH for a payload whose length the layout of its
request does not allow; both change nothing outside the tag table. A request command whose payload no frame
can carry is refused by name (R159; log 14). -/
def Obligations.DispatchRefusesKindAndLength : Prop :=
  (∀ (s : State) (t : Fin 16) (kind : Byte) (p : List Byte),
    kind ∉ [0x10, 0x11, 0x1F, 0x20, 0x21, 0x30, 0x31, 0x32, 0x33, 0x34, 0x40, 0x41, 0x42, 0x43, 0x44,
      0x45, 0x50, 0x60] → p.length ≤ 260 →
    s.Takes t { kind := kind, tag := byte t.val, payload := p } →
    exec (.badKindRequest kind (byte t.val) p) s =
      .next (s.heard.answered t { kind := kind, tag := byte t.val, payload := p } .badKind [])) ∧
  (∀ (s : State) (c : Instr) (r : Request) (t : Fin 16) (p : List Byte),
    let fits := match r with
      | .signOn | .status | .engineReset | .blockOpen | .supplyResume => p.length = 0
      | .profileRead | .blockRelease | .blockQuery | .jobQuery | .jobCancel | .jobRetire
      | .laneRestart | .reportAck => p.length = 1
      | .faultsRead => p.length = 2
      | .blockSeal => p.length = 3
      | .profileLoad => p.length = 16
      | .blockWrite => 3 ≤ p.length ∧ p.length ≤ 258
      | .jobSubmit => ∃ n, p[17]? = some n ∧ p.length = 18 + n.toNat
    c.frame? = some (requestFrame r t p) → ¬fits → p.length ≤ 260 →
    s.Takes t (requestFrame r t p) →
    exec c s = .next (s.heard.answered t (requestFrame r t p) .badLength [])) ∧
  ∀ (s : State) (c : Instr) (f : Frame), c.frame? = some f → 260 < f.payload.length →
    exec c s = .refused .payloadOverFrame

/-- R159 to R165, R185: the bytes of a frame, received one by one in HUNT, do exactly what the request command
does, which stands for the arrival of that frame (log 3); both show that RX has gone high, whatever the break
detector knew before (R166; log 24). -/
def Obligations.FrameBytesActAsTheRequest : Prop :=
  ∀ (s : State) (c : Instr) (f : Frame) (moments : List Nat),
    c.frame? = some f → f.payload.length ≤ 260 → s.inReset = false →
    s.rx = { Receiver.afterReset with breakDetector := s.rx.breakDetector } →
    moments.length = f.bytes.length →
    runCommands ((moments.zip f.bytes).map fun x => .rxCharacter x.1 x.2 .good) s = exec c s

/-- R158, R161, R215: in HUNT a byte other than A5h is dropped and A5h starts a frame; a framing error
delivers nothing, and neither does a character whose start bit fell before the release of RESET (log 27).
What the break detector then knows is the model's reading (log 24). -/
def Obligations.CharactersInHunt : Prop :=
  ∀ (s : State) (moment : Nat) (b : Byte), s.Ready → s.rx.rescan = [] →
    (s.rx.phase = .hunt → b ≠ 0xA5 →
      exec (.rxCharacter moment b .good) s = .next (s.setRx { s.rx with breakDetector := .clear })) ∧
    (s.rx.phase = .hunt → b = 0xA5 →
      exec (.rxCharacter moment b .good) s = .next (s.setRx {
        phase := .header
        kept := [{ byte := 0xA5, moment := moment }]
        timer := some moment
        rescan := []
        breakDetector := .clear })) ∧
    exec (.rxCharacter moment b .stopLow) s = .next (s.setRx { s.rx with breakDetector := .counting }) ∧
    ∀ high, exec (.rxCharacter moment b (.begunInReset high)) s =
      .next (s.setRx { s.rx with breakDetector := if high then .clear else .counting })

/-- R162, R163, R164, R165: a length over 260 discards the frame at once, a bad CRC discards it at its last
byte, and the expiry of the frame timer discards it whatever its state. The bytes behind the start byte go
through HUNT again: the first A5h among them begins a new frame with the timer running from that byte's own
moment, and all of them act as though received anew at their own moments (said for a rescan that takes no
ENGINE-RESET, so that the epoch never changes: log 16). A stopped timer does not expire (log 6). -/
def Obligations.DiscardedFramesAreRescanned : Prop :=
  (∀ (s : State) (start high : RxByte) (low : Byte) (moment : Nat), s.Ready → s.rx.rescan = [] →
    s.rx.phase = .header → s.rx.kept = [start, high] → 260 < 256 * high.byte.toNat + low.toNat →
    let last : RxByte := { byte := low, moment := moment }
    let hunting : Receiver :=
      { phase := .hunt, kept := [], timer := none, rescan := [], breakDetector := .clear }
    exec (.rxCharacter moment low .good) s = .next (s.setRx
      (if high.byte = 0xA5 then
        { hunting with phase := .header, kept := [high, last], timer := some high.moment }
       else if low = 0xA5 then
        { hunting with phase := .header, kept := [last], timer := some moment }
       else hunting))) ∧
  (∀ (s : State) (start : RxByte) (skipped rest : List RxByte), s.Ready → s.rx.rescan = [] →
    (s.rx.timer = none → exec .frameTimerExpiry s = .next s) ∧
    (s.rx.timer.isSome = true → (∀ b ∈ skipped, b.byte ≠ 0xA5) →
      (s.rx.kept = start :: skipped →
        exec .frameTimerExpiry s = .next (s.setRx { s.rx with
          phase := .hunt, kept := [], timer := none })) ∧
      (∀ next : RxByte, next.byte = 0xA5 → rest.length < 2 →
        s.rx.kept = start :: skipped ++ next :: rest →
        exec .frameTimerExpiry s = .next (s.setRx { s.rx with
          phase := .header, kept := next :: rest, timer := some next.moment })))) ∧
  (∀ (s : State) (start : RxByte) (behind : List RxByte), s.Ready → s.rx.rescan = [] →
    s.rx.timer.isSome = true → s.rx.kept = start :: behind → s.rx.breakDetector = .clear →
    let anew := behind.map fun b => Instr.rxCharacter b.moment b.byte .good
    ∃ u : State, runCommands anew (s.setRx .afterReset) = .next u ∧
      ((∀ n v, runCommands (anew.take n) (s.setRx .afterReset) = .next v → v.epoch = s.epoch) →
        exec .frameTimerExpiry s = .next u)) ∧
  ∀ (s : State) (start : RxByte) (behind : List RxByte) (f : Frame) (high low : Byte) (moment : Nat),
    s.Ready → s.rx.rescan = [] → s.rx.phase = .check → s.rx.kept = start :: behind →
    f.payload.length ≤ 260 →
    (start :: behind).map (fun b => b.byte) = 0xA5 :: f.covered ++ [high] → f.crc ≠ high ++ low →
    let last : RxByte := { byte := low, moment := moment }
    let anew := (behind ++ [last]).map fun b => Instr.rxCharacter b.moment b.byte .good
    ∃ u : State, runCommands anew (s.setRx .afterReset) = .next u ∧
      ((∀ n v, runCommands (anew.take n) (s.setRx .afterReset) = .next v → v.epoch = s.epoch) →
        exec (.rxCharacter moment low .good) s = .next u)

/-- R166, R209, R210, R198, R217: a break drops the kept bytes, rewinds the outbox, merges its SUPPLY records
and an owed notice into the place of the oldest of them, with the numbers running on, and gives the entries
so freed to the waiting lanes in queue order. A low already recognised as a break is not recognised again;
a frame that arrives between shows that RX has gone high, so the next break is taken (the break detector:
log 24). -/
def Obligations.BreakRewindsAndMerges : Prop :=
  (∀ s : State, s.Ready → s.rx.breakDetector = .recognised → exec .rxBreak s = .next s) ∧
  (∀ (s t : State) (c : Instr) (f : Frame), s.inReset = false → c.frame? = some f →
    exec c s = .next t → t.rx.breakDetector = .clear) ∧
  ∀ s : State, s.Ready → s.rx.breakDetector ≠ .recognised →
    consecutive s.outbox.records s.outbox.nextSeq → s.WaitingKnown →
    let ahead := s.outbox.records.takeWhile fun r => !r.isSupply
    let behind := (s.outbox.records.drop ahead.length).filter fun r => !r.isSupply
    let notices := (newestNotice s.outbox.records).toList.map fun n => s.outbox.owed.getD n
    ∃ t u : State, exec .rxBreak s = .next u.transmit ∧ t.ServesWaiting u ∧
      t.rx = { Receiver.afterReset with breakDetector := .recognised } ∧
      t.outbox.records.map (fun r => r.body) =
        ahead.map (fun r => r.body) ++ notices.map ReportBody.supply ++ behind.map (fun r => r.body) ∧
      (∀ r ∈ t.outbox.records, r.transmitted = false ∧ r.mark = false) ∧
      consecutive t.outbox.records t.outbox.nextSeq ∧
      t.outbox.records.head?.map (fun r => r.seq) = s.outbox.records.head?.map (fun r => r.seq) ∧
      (s.outbox.records = [] → t.outbox.nextSeq = s.outbox.nextSeq) ∧
      t.outbox.owed = (if notices = [] then s.outbox.owed else none) ∧
      t.outbox.stalled = false ∧ t.outbox.round = 0 ∧ t.outbox.timer = none ∧
      t.outbox.waitingLanes = s.outbox.waitingLanes ∧ s.OnlyChanges t [.rx, .outbox]

/-- R175, R202, R203: at the end of a frame the Transmitter takes the reply at the head of the queue, else the
oldest marked record, else within the window the oldest untransmitted one, else it idles. -/
def Obligations.TransmitterTakesTheNextFrame : Prop :=
  ∀ (s : State) (g : Frame) (o : Outbox), s.inReset = false →
    ((s.tx = .reply g ∧ o = s.outbox) ∨
      (s.tx = .report g ∧ o = { s.outbox with
        timer := if s.outbox.records.any (fun r => r.transmitted) then some 250
          else s.outbox.timer })) →
    (∀ reply rest, s.replyQueue = reply :: rest →
      exec .transmitFrameEnd s = .next (((s.setReplyQueue rest).setOutbox o).setTx (.reply reply))) ∧
    (s.replyQueue = [] →
      (s.outbox.stalled = false → ∀ ahead r behind, s.outbox.records = ahead ++ r :: behind →
        ((∀ q ∈ ahead, q.mark = false) → r.mark = true →
          exec .transmitFrameEnd s = .next ((s.setOutbox { o with
            records := ahead ++ { r with mark := false } :: behind }).setTx (.report r.frame))) ∧
        ((∀ q ∈ s.outbox.records, q.mark = false) → s.outbox.transmittedCount < 4 →
          (∀ q ∈ ahead, q.transmitted = true) → r.transmitted = false →
          exec .transmitFrameEnd s = .next ((s.setOutbox { o with
            records := ahead ++ { r with transmitted := true } :: behind }).setTx
              (.report r.frame)))) ∧
      ((s.outbox.stalled = true ∨ ((∀ q ∈ s.outbox.records, q.mark = false) ∧
          (4 ≤ s.outbox.transmittedCount ∨ ∀ q ∈ s.outbox.records, q.transmitted = true))) →
        exec .transmitFrameEnd s = .next ((s.setOutbox o).setTx .idle)))

/-- R204, R205: the acknowledgement timer begins a round, marking every transmitted record, or at round 4 the
stall. While it is stopped or a report is being sent it does not expire (log 6). -/
def Obligations.AckTimerBeginsARoundOrTheStall : Prop :=
  ∀ s : State, s.Ready →
    (s.outbox.timer.isSome = true → (∀ f, s.tx ≠ .report f) →
      (s.outbox.round < 4 →
        exec .ackTimerExpiry s = .next (s.setOutbox { s.outbox with
          round := s.outbox.round + 1
          records := s.outbox.records.map fun r => { r with mark := r.mark || r.transmitted }
          timer := none }).transmit) ∧
      (4 ≤ s.outbox.round →
        exec .ackTimerExpiry s = .next (s.setOutbox { s.outbox with
          stalled := true
          timer := none }))) ∧
    (s.outbox.timer = none ∨ (∃ f, s.tx = .report f) → exec .ackTimerExpiry s = .next s)

/-- R160: the CRC of frames and of sealed blocks, with the spec's check value. -/
def Obligations.CrcIsTheSpecs : Prop :=
  crc16 [0x31, 0x32, 0x33, 0x34, 0x35, 0x36, 0x37, 0x38, 0x39] = 0x29B1 ∧ crc16 [] = 0xFFFF ∧
  (∀ (bs : List Byte) (b : Byte), crc16 (bs ++ [b]) =
    [7, 6, 5, 4, 3, 2, 1, 0].foldl
      (fun (r : Word16) (i : Nat) =>
        if r.getLsbD 15 = b.getLsbD i then r <<< 1 else (r <<< 1) ^^^ 0x1021#16)
      (crc16 bs)) ∧
  (∀ f : Frame, f.bytes = 0xA5 :: f.covered ++
    [byte ((crc16 f.covered).toNat / 256), byte (crc16 f.covered).toNat]) ∧
  (∀ f : Frame, f.payload.length ≤ 260 → ofBe (f.bytes.drop (5 + f.payload.length)) =
    (crc16 ((f.bytes.drop 1).take (4 + f.payload.length))).toNat) ∧
  ∀ b : Block, b.computedCrc = crc16 ((List.range b.fill).map b.content.read)

/-! ### Profiles and blocks -/

/-- R123, R125: PROFILE-LOAD makes its checks in order, and then writes the whole entry. -/
def Obligations.ProfileLoadChecksAndWrites : Prop :=
  ∀ (s : State) (t : Fin 16)
    (entry memExp sectorExp maker device check bw1 bw0 maxP esc ew1 ew0 maxE pre costP costE : Byte),
    let f := requestFrame .profileLoad t [entry, memExp, sectorExp, maker, device, check, bw1, bw0,
      maxP, esc, ew1, ew0, maxE, pre, costP, costE]
    let go := exec (.profileLoad (byte t.val) f.payload) s
    let refused := fun code => Host.Outcome.next (s.heard.answered t f code [])
    let base := 256 * bw1.toNat + bw0.toNat
    let erase := 256 * ew1.toNat + ew0.toNat
    s.Takes t f →
    (4 ≤ entry.toNat → go = refused .badField) ∧
    ∀ i : ProfileId, entry = byte i.val →
      (¬(check.toNat ≤ 1 ∧ esc.toNat ≤ 1 ∧ pre.toNat ≤ 1) → go = refused .badField) ∧
      (check.toNat ≤ 1 ∧ esc.toNat ≤ 1 ∧ pre.toNat ≤ 1 →
        let inRange :=
          (10 ≤ memExp.toNat ∧ memExp.toNat ≤ 24) ∧
          (8 ≤ sectorExp.toNat ∧ sectorExp.toNat ≤ 16 ∧ sectorExp.toNat ≤ memExp.toNat) ∧
          (1 ≤ base ∧ base ≤ 1000) ∧ (1 ≤ maxP.toNat ∧ maxP.toNat ≤ 32) ∧
          (1 ≤ erase ∧ erase ≤ 1000) ∧ (1 ≤ maxE.toNat ∧ maxE.toNat ≤ 64) ∧
          (1 ≤ costP.toNat ∧ costP.toNat ≤ 8) ∧ (1 ≤ costE.toNat ∧ costE.toNat ≤ 8)
        (¬inRange → go = refused .range) ∧
        (inRange → (∃ j ∈ s.jobs, j.isUnfinished = true ∧ j.profile = i) →
          go = refused .profileInUse) ∧
        (inRange → (∀ j ∈ s.jobs, j.isUnfinished = true → j.profile ≠ i) →
          go = .next ((s.heard.setProfiles (s.profiles.set i {
            valid := true
            memExp := memExp.toNat
            sectorExp := sectorExp.toNat
            maker := maker
            device := device
            checkIdentity := check.toNat == 1
            baseWidth := base
            maxProgram := maxP.toNat
            stepped := esc.toNat == 1
            eraseWidth := erase
            maxErase := maxE.toNat
            precondition := pre.toNat == 1
            programCost := costP.toNat
            eraseCost := costE.toNat })).answered t f .ok [entry])))

/-- R133: BLOCK-OPEN takes the FREE block with the lowest handle, or replies POOL_FULL. -/
def Obligations.BlockOpenTakesTheLowest : Prop :=
  ∀ (s : State) (t : Fin 16), s.Takes t (requestFrame .blockOpen t []) →
    ((∀ h, (s.block h).state ≠ .free) → exec (.blockOpen (byte t.val) []) s =
      .next (s.heard.answered t (requestFrame .blockOpen t []) .poolFull [])) ∧
    ∀ h : Handle, (s.block h).state = .free → (∀ g, g < h → (s.block g).state ≠ .free) →
      ∃ content : Memory, content.wf = true ∧ (∀ a, content.read a = 0xFF) ∧
        exec (.blockOpen (byte t.val) []) s =
          .next ((s.heard.updBlock h fun _ => {
            state := .filling
            held := true
            fill := 0
            refs := 0
            crc := none
            content := content }).answered t (requestFrame .blockOpen t []) .ok [byte h.val])

/-- R134, R135: BLOCK-WRITE on a held block: its checks, and then exactly the addressed bytes and the fill
length. -/
def Obligations.BlockWriteWritesItsBytes : Prop :=
  ∀ (s : State) (t : Fin 16) (h : Handle) (offset : Byte) (data : List Byte),
    1 ≤ data.length → data.length ≤ 256 →
    let f := requestFrame .blockWrite t (byte h.val :: offset :: data)
    s.Takes t f → (s.block h).held = true → (s.block h).state ≠ .free →
    let go := exec (.blockWrite (byte t.val) f.payload) s
    ((s.block h).state = .sealed → go = .next (s.heard.answered t f .blockState [])) ∧
    ((s.block h).state = .filling → 256 < offset.toNat + data.length →
      go = .next (s.heard.answered t f .range [])) ∧
    ((s.block h).state = .filling → offset.toNat + data.length ≤ 256 →
      (s.block h).content.wf = true →
      let fill := max (s.block h).fill (offset.toNat + data.length)
      ∃ content : Memory, content.wf = true ∧
        (∀ i (hi : i < data.length), content.read (offset.toNat + i) = data[i]) ∧
        (∀ a, a < offset.toNat ∨ offset.toNat + data.length ≤ a →
          content.read a = (s.block h).content.read a) ∧
        go = .next ((s.heard.updBlock h fun b => { b with content := content, fill := fill }).answered
          t f .ok (byte h.val :: be16 fill)))

/-- R136, R137: BLOCK-SEAL on a held block: its checks in order, the seal, and the fields of a mismatch. -/
def Obligations.BlockSealChecksAndSeals : Prop :=
  ∀ (s : State) (t : Fin 16) (h : Handle) (crc1 crc0 : Byte),
    let f := requestFrame .blockSeal t [byte h.val, crc1, crc0]
    s.Takes t f → (s.block h).held = true →
    let go := exec (.blockSeal (byte t.val) f.payload) s
    let b := s.block h
    let crc := crc16 ((List.range b.fill).map b.content.read)
    let fields := byte h.val :: be16 b.fill ++ be16 crc.toNat
    (b.state = .sealed → go = .next (s.heard.answered t f .blockState [])) ∧
    (b.state = .filling → b.fill = 0 → go = .next (s.heard.answered t f .badField [])) ∧
    (b.state = .filling → b.fill ≠ 0 → crc ≠ crc1 ++ crc0 →
      go = .next (s.heard.answered t f .crcMismatch fields)) ∧
    (b.state = .filling → b.fill ≠ 0 → crc = crc1 ++ crc0 →
      go = .next ((s.heard.updBlock h fun b => { b with state := .sealed, crc := some crc }).answered
        t f .ok fields))

/-- R138: BLOCK-RELEASE on a held block. The spec leaves the content of a FREE block open (R133, R144): that a
block which becomes FREE keeps its content is the model's choice (log 13). -/
def Obligations.BlockReleaseGivesUpTheHold : Prop :=
  ∀ (s : State) (t : Fin 16) (h : Handle),
    let f := requestFrame .blockRelease t [byte h.val]
    s.Takes t f → (s.block h).held = true → (s.block h).state ≠ .free →
    let go := exec (.blockRelease (byte t.val) f.payload) s
    ((s.block h).state = .filling ∨ (s.block h).refs = 0 →
      go = .next ((s.heard.updBlock h fun b => { b with
        state := .free, held := false, fill := 0, refs := 0, crc := none }).answered t f .ok
          [byte h.val, 0x00, 0x00, 0x00])) ∧
    ((s.block h).state = .sealed → 1 ≤ (s.block h).refs →
      go = .next ((s.heard.updBlock h fun b => { b with held := false }).answered t f .ok
        ([byte h.val, 0x02] ++ be16 (s.block h).refs)))

/-- R132: the four block requests on a handle that names no held block reply NO_BLOCK and change nothing. -/
def Obligations.UnheldHandlesAreRefused : Prop :=
  ∀ (s : State) (t : Fin 16) (b : Byte) (more : List Byte), s.Unheld b →
    (1 ≤ more.length - 1 ∧ more.length ≤ 257 → s.Takes t (requestFrame .blockWrite t (b :: more)) →
      exec (.blockWrite (byte t.val) (b :: more)) s =
        .next (s.heard.answered t (requestFrame .blockWrite t (b :: more)) .noBlock [])) ∧
    (more.length = 2 → s.Takes t (requestFrame .blockSeal t (b :: more)) →
      exec (.blockSeal (byte t.val) (b :: more)) s =
        .next (s.heard.answered t (requestFrame .blockSeal t (b :: more)) .noBlock [])) ∧
    (s.Takes t (requestFrame .blockRelease t [b]) →
      exec (.blockRelease (byte t.val) [b]) s =
        .next (s.heard.answered t (requestFrame .blockRelease t [b]) .noBlock [])) ∧
    (s.Takes t (requestFrame .blockQuery t [b]) →
      exec (.blockQuery (byte t.val) [b]) s =
        .next (s.heard.answered t (requestFrame .blockQuery t [b]) .noBlock []))

/-! ### Jobs -/

/-- R10 to R12: the checks of JOB-SUBMIT in order; the first that fails decides the code, and nothing is
created. -/
def Obligations.SubmitChecksInOrder : Prop :=
  ∀ (s : State) (t : Fin 16) (f : Submit), f.Fits →
    let frame := requestFrame .jobSubmit t f.payload
    let refused := fun code => exec (.jobSubmit (byte t.val) f.payload) s =
      .next (s.heard.answered t frame code [])
    s.Takes t frame →
    (¬(f.Check1 ∧ f.Check2) → refused .badField) ∧
    (f.Check1 ∧ f.Check2 →
      ((∀ i : ProfileId, f.profile = i.val → s.profiles[i].valid = false) →
        refused .profileInvalid) ∧
      ∀ i : ProfileId, f.profile = i.val → s.profiles[i].valid = true →
        (¬f.Check4 s.profiles[i] → refused .range) ∧
        (f.Check4 s.profiles[i] →
          (∀ ahead b behind, f.handles = ahead ++ b :: behind → (∀ g ∈ ahead, s.Usable g) →
            (s.Unheld b → refused .noBlock) ∧
            (∀ h : Handle, b = byte h.val → (s.block h).held = true →
              (s.block h).state = .filling → refused .blockState)) ∧
          ∀ hs : List Handle, f.handles = hs.map (fun h => byte h.val) →
            (∀ b ∈ f.handles, s.Usable b) →
            let fills := (f.kind = 0x02 ∨ f.kind = 0x03 →
              (hs.map fun h => (s.block h).fill).sum = f.length)
            (¬fills → refused .range) ∧
            (fills → 24 < s.jobs.length + (lanesOf f.mask).length → refused .tableFull) ∧
            (fills → s.jobs.length + (lanesOf f.mask).length ≤ 24 →
              (∃ l ∈ lanesOf f.mask, 4 ≤ (s.lane l).queue.length) → refused .queueFull)))

/-- R3, R4, R13 to R15, R34, R140: a JOB-SUBMIT that passes its checks creates one job on each selected lane,
in lane order, with the next free identifiers; adds the references; and starts the jobs of idle lanes. -/
def Obligations.SubmitCreatesTheJobs : Prop :=
  ∀ (s : State) (t : Fin 16) (f : Submit) (i : ProfileId) (hs : List Handle), f.Fits →
    let frame := requestFrame .jobSubmit t f.payload
    let ls := lanesOf f.mask
    let w := f.described hs
    s.Takes t frame → s.TablesLawful → f.Check1 → f.Check2 → f.profile = i.val →
    s.profiles[i].valid = true → f.Check4 s.profiles[i] →
    f.handles = hs.map (fun h => byte h.val) → (∀ b ∈ f.handles, s.Usable b) →
    (f.kind = 0x02 ∨ f.kind = 0x03 → (hs.map fun h => (s.block h).fill).sum = f.length) →
    s.jobs.length + ls.length ≤ 24 → (∀ l ∈ ls, (s.lane l).queue.length < 4) →
    (∀ l ∈ ls, (s.lane l).state = .idle → (s.lane l).queue = []) →
    ∃ ids : List Nat, ids.length = ls.length ∧
      (∀ n (hn : n < ids.length),
        let taken := s.jobs.map (fun j => j.id) ++ ids.take n
        let last := (ids.take n).getLast?.getD s.lastId
        ∃ k, ids[n] = (last + k) % 255 + 1 ∧ ids[n] ∉ taken ∧
          ∀ m < k, (last + m) % 255 + 1 ∈ taken) ∧
      exec (.jobSubmit (byte t.val) f.payload) s = .next
        (((((s.heard.setJobs (s.jobs ++ List.zipWith (fun l id => ({
              id := id
              lane := l
              work := w
              profile := i
              state := if (s.lane l).state = .idle then .active else .queued
              endReason := none
              endReport := .notDue
              faultLimit := f.faultLimit
              progress := f.progress
              bytesDone := 0
              programPulses := 0
              erasePulses := 0
              faultsRecorded := 0
              identity := none
              laneStopped := false } : Job)) ls ids)).setLastId (ids.getLast?.getD s.lastId)).setBlocks
            (Vector.ofFn fun h => { s.block h with
              refs := (s.block h).refs + ls.length * w.blocks.count h })).setLanes
            (Vector.ofFn fun l =>
              match (ls.zip ids).lookup l with
              | none => s.lane l
              | some id =>
                if (s.lane l).state = .idle then
                  { s.lane l with
                    state := .running
                    current := some id
                    context := .starting (w.firstAddress s.profiles[i])
                    unit := (s.lane l).unit.handOver (.new .ident 0 0 true) }
                else { s.lane l with queue := (s.lane l).queue ++ [id] })).answered t frame .ok
              (byte ids.length :: ids.map byte))

/-- R2, R20, R27, R28, R152: a request that names no job of the table is replied NO_JOB and changes nothing.
-/
def Obligations.UnknownJobsAreRefused : Prop :=
  ∀ (s : State) (t : Fin 16) (b start : Byte), (∀ j ∈ s.jobs, j.id ≠ b.toNat) →
    (s.Takes t (requestFrame .jobQuery t [b]) → exec (.jobQuery (byte t.val) [b]) s =
      .next (s.heard.answered t (requestFrame .jobQuery t [b]) .noJob [])) ∧
    (s.Takes t (requestFrame .jobCancel t [b]) → exec (.jobCancel (byte t.val) [b]) s =
      .next (s.heard.answered t (requestFrame .jobCancel t [b]) .noJob [])) ∧
    (s.Takes t (requestFrame .jobRetire t [b]) → exec (.jobRetire (byte t.val) [b]) s =
      .next (s.heard.answered t (requestFrame .jobRetire t [b]) .noJob [])) ∧
    (s.Takes t (requestFrame .faultsRead t [b, start]) →
      exec (.faultsRead (byte t.val) [b, start]) s =
        .next (s.heard.answered t (requestFrame .faultsRead t [b, start]) .noJob []))

/-- R127, R139, R28, R186 to R188: the replies of PROFILE-READ, of BLOCK-QUERY on a held block and of
JOB-QUERY carry the record as laid out, and these requests change nothing else. -/
def Obligations.QueriesReplyTheRecords : Prop :=
  (∀ (s : State) (t : Fin 16) (entry : Byte), s.Takes t (requestFrame .profileRead t [entry]) →
    (4 ≤ entry.toNat → exec (.profileRead (byte t.val) [entry]) s =
      .next (s.heard.answered t (requestFrame .profileRead t [entry]) .badField [])) ∧
    ∀ i : ProfileId, entry = byte i.val →
      let e := s.profiles[i]
      exec (.profileRead (byte t.val) [entry]) s =
        .next (s.heard.answered t (requestFrame .profileRead t [entry]) .ok
          ([entry, boolByte e.valid, byte e.memExp, byte e.sectorExp, e.maker, e.device,
            boolByte e.checkIdentity] ++ be16 e.baseWidth ++ [byte e.maxProgram, boolByte e.stepped] ++
            be16 e.eraseWidth ++ [byte e.maxErase, boolByte e.precondition, byte e.programCost,
            byte e.eraseCost,
            byte (s.jobs.countP fun j => j.isUnfinished && decide (j.profile = i))]))) ∧
  (∀ (s : State) (t : Fin 16) (h : Handle),
    let f := requestFrame .blockQuery t [byte h.val]
    s.Takes t f → (s.block h).held = true → (s.block h).state ≠ .free →
    exec (.blockQuery (byte t.val) f.payload) s = .next (s.heard.answered t f .ok
      ([byte h.val, (s.block h).state.code] ++ be16 (s.block h).fill ++ be16 (s.block h).refs ++
        match (s.block h).crc with
        | some crc => be16 crc.toNat
        | none => [0x00, 0x00]))) ∧
  ∀ (s : State) (t : Fin 16) (b : Byte) (j : Job), s.Takes t (requestFrame .jobQuery t [b]) →
    s.job? b.toNat = some j →
    exec (.jobQuery (byte t.val) [b]) s = .next (s.heard.answered t (requestFrame .jobQuery t [b]) .ok
      ([b, byte j.lane.val, j.work.code, byte j.profile.val, j.state.code,
        EndReason.code j.endReason, j.endReport.code,
        byte ((if j.laneStopped then 1 else 0) + (if j.identity.isSome then 2 else 0) +
          (if j.progress.isSome then 4 else 0))] ++
        be24 j.work.start ++ be32 j.work.length ++ be16 j.work.firstSector ++ be16 j.work.lastSector ++
        [byte j.faultLimit] ++ be16 (j.progress.getD 0) ++ be32 j.bytesDone ++ be32 j.programPulses ++
        be32 j.erasePulses ++
        [byte j.faultsRecorded, (j.identity.map fun i => i.maker).getD 0,
          (j.identity.map fun i => i.device).getD 0, byte j.work.blocks.length] ++
        j.work.blocks.map fun h => byte h.val))

/-- R20, R21: JOB-CANCEL of a final job is refused; a QUEUED job leaves its queue and becomes CANCELLED, and
its lane's state does not change. -/
def Obligations.CancelOfAQueuedJob : Prop :=
  ∀ (s : State) (t : Fin 16) (b : Byte) (j : Job),
    let f := requestFrame .jobCancel t [b]
    s.Takes t f → s.job? b.toNat = some j →
    (j.isFinal = true →
      exec (.jobCancel (byte t.val) [b]) s = .next (s.heard.answered t f .alreadyFinal [])) ∧
    (j.state = .queued → ∃ (w : State) (reportFirst : Bool),
      s.heard.JobBecomesFinal w j .cancelled .cancelled false ∧
      w.lane j.lane = { s.lane j.lane with
        queue := (s.lane j.lane).queue.filter fun id => decide (id ≠ j.id)
        waitingEnds := if 0 < s.outbox.freeGeneral then (s.lane j.lane).waitingEnds
          else (s.lane j.lane).waitingEnds ++ [j.id] } ∧
      (∀ m, m ≠ j.lane → w.lane m = s.lane m) ∧
      s.heard.OnlyChanges w [.jobs, .blocks, .outbox, .lanes] ∧
      exec (.jobCancel (byte t.val) [b]) s =
        .next (w.answeredBeside s.outbox.stalled reportFirst t f .ok [b]))

/-- R22, R23, R82: JOB-CANCEL of a HELD job, or of an ACTIVE one on a RUNNING lane with no cycle in flight,
ends it at once, and its lane goes on. A lane in PULSE_WAIT first leaves the grant queue, and the Arbiter
grants from its new head. If the pulse timer runs, the switch is opened, the units return, the Arbiter
grants, and INTERRUPTED is recorded if the list has room. -/
def Obligations.CancelEndsTheCurrentJob : Prop :=
  (∀ (s : State) (t : Fin 16) (b : Byte) (j : Job),
    let f := requestFrame .jobCancel t [b]
    s.Takes t f → s.job? b.toNat = some j →
    ((j.state = .held ∧ (s.lane j.lane).state = .held) ∨
      (j.state = .active ∧ (s.lane j.lane).state = .running ∧ (s.lane j.lane).unit.cycle = none)) →
    ∃ (w : State) (reportFirst : Bool),
      s.heard.CurrentJobEnds w j.lane j .cancelled .cancelled false ∧
      exec (.jobCancel (byte t.val) [b]) s =
        .next ((w.startHead j.lane).answeredBeside s.outbox.stalled reportFirst t f .ok [b])) ∧
  (∀ (s : State) (t : Fin 16) (b : Byte) (j : Job),
    let f := requestFrame .jobCancel t [b]
    s.Takes t f → s.job? b.toNat = some j → j.state = .active →
    (s.lane j.lane).state = .pulseWait → (s.lane j.lane).unit.cycle = none →
    ∃ (v w : State) (reportFirst : Bool),
      (s.heard.setGrantQueue (s.grantQueue.filter fun e => decide (e.lane ≠ j.lane))).Grants v ∧
      v.CurrentJobEnds w j.lane j .cancelled .cancelled false ∧
      exec (.jobCancel (byte t.val) [b]) s =
        .next ((w.startHead j.lane).answeredBeside s.outbox.stalled reportFirst t f .ok [b])) ∧
  ∀ (s : State) (t : Fin 16) (b : Byte) (j : Job),
    let f := requestFrame .jobCancel t [b]
    s.Takes t f → s.job? b.toNat = some j → j.state = .active →
    (s.lane j.lane).state = .pulsing → (s.lane j.lane).slot = .timing →
    (s.lane j.lane).unit.cycle = none →
    ∃ (v w : State) (reportFirst : Bool),
      (s.heard.opened j.lane .none).Grants v ∧
      (v.interrupted j.lane j).CurrentJobEnds w j.lane
        { j with faultsRecorded :=
            if s.faults.length < 64 then j.faultsRecorded + 1 else j.faultsRecorded }
        .cancelled .cancelled false ∧
      exec (.jobCancel (byte t.val) [b]) s =
        .next ((w.startHead j.lane).answeredBeside s.outbox.stalled reportFirst t f .ok [b])

/-- R24, R82, R172: JOB-CANCEL with a cycle in flight is deferred: the tag joins the mark and stays
IN_FLIGHT, and nothing is replied. On a GRANTED slot the pulse is cut first: the switch is opened, the units
return, the slot is CUT, the Arbiter grants, and INTERRUPTED is recorded if the list has room. -/
def Obligations.CancelWithACycleInFlightIsDeferred : Prop :=
  ∀ (s : State) (t : Fin 16) (b : Byte) (j : Job),
    let f := requestFrame .jobCancel t [b]
    let marked := fun v : State => (((v.setTagEntry t (.inFlight f.digest)).updLane j.lane fun x =>
      { x with context := { x.context with
          mark := some (x.context.mark.getD [] ++ [byte t.val]) } }).setDeferred
        (s.deferred ++ [{ tag := byte t.val, job := j.id }])).transmit
    s.Takes t f → s.job? b.toNat = some j → j.state = .active →
    (s.lane j.lane).unit.cycle.isSome = true →
    ((s.lane j.lane).slot ≠ .granted →
      exec (.jobCancel (byte t.val) [b]) s = .next (marked s.heard)) ∧
    ((s.lane j.lane).slot = .granted →
      ∃ v : State, (s.heard.opened j.lane .cut).Grants v ∧
        exec (.jobCancel (byte t.val) [b]) s = .next (marked (v.interrupted j.lane j)))

/-- R27, R154: JOB-RETIRE of a final job with its JOB-END enqueued removes it with its fault records; of any
other job it is refused NOT_FINAL. -/
def Obligations.RetireRemovesTheJob : Prop :=
  ∀ (s : State) (t : Fin 16) (b : Byte) (j : Job),
    let f := requestFrame .jobRetire t [b]
    s.Takes t f → s.job? b.toNat = some j →
    (j.isFinal = true ∧ j.endReport = .enqueued →
      exec (.jobRetire (byte t.val) [b]) s = .next
        (((s.heard.setFaults (s.faults.filter fun r => decide (r.job ≠ j.id))).setJobs
          (s.jobs.filter fun q => decide (q.id ≠ j.id))).answered t f .ok [b])) ∧
    (j.isFinal = false ∨ j.endReport ≠ .enqueued →
      exec (.jobRetire (byte t.val) [b]) s = .next (s.heard.answered t f .notFinal []))

/-- R152, R189: FAULTS-READ returns up to 8 records of the job from the start index on, and changes nothing.
-/
def Obligations.FaultsReadReplies : Prop :=
  ∀ (s : State) (t : Fin 16) (b start : Byte) (j : Job),
    let f := requestFrame .faultsRead t [b, start]
    let go := exec (.faultsRead (byte t.val) [b, start]) s
    let mine := s.faults.filter fun r => decide (r.job = j.id)
    s.Takes t f → s.job? b.toNat = some j → j.faultsRecorded = mine.length →
    (j.faultsRecorded < start.toNat → go = .next (s.heard.answered t f .range [])) ∧
    (start.toNat ≤ j.faultsRecorded →
      go = .next (s.heard.answered t f .ok
        ([b, byte j.faultsRecorded, start, byte (min 8 (j.faultsRecorded - start.toNat))] ++
          ((mine.drop start.toNat).take 8).flatMap fun r =>
            [r.kind.code,
             byte ((if r.expected.isSome then 1 else 0) + (if r.readByte.isSome then 2 else 0) +
              (if r.sort = .erase then 4 else 0))] ++ be24 r.address ++
            [r.expected.getD 0, r.readByte.getD 0, byte r.pulses])))

/-- R29, R14, R15, R34: LANE-RESTART: BAD_FIELD, NOT_STOPPED, or the STOPPED lane becomes IDLE and starts
the head of its queue. -/
def Obligations.LaneRestartStartsTheHead : Prop :=
  ∀ (s : State) (t : Fin 16) (b : Byte),
    let f := requestFrame .laneRestart t [b]
    let go := exec (.laneRestart (byte t.val) [b]) s
    s.Takes t f →
    (8 ≤ b.toNat → go = .next (s.heard.answered t f .badField [])) ∧
    ∀ l : LaneId, b = byte l.val →
      ((s.lane l).state ≠ .stopped → go = .next (s.heard.answered t f .notStopped [])) ∧
      ((s.lane l).state = .stopped → (s.lane l).queue = [] →
        go = .next ((s.heard.updLane l fun x => { x with state := .idle }).answered t f .ok [b])) ∧
      ∀ id rest j, (s.lane l).state = .stopped → (s.lane l).queue = id :: rest →
        s.job? id = some j →
        go = .next (((s.heard.updLane l fun x => { x with
          state := .running
          queue := rest
          current := some id
          context := .starting (j.work.firstAddress s.profiles[j.profile])
          unit := x.unit.handOver (.new .ident 0 0 true) }).setJobs
            (s.jobs.map fun q => if q.id = id then { q with state := .active } else q)).answered
              t f .ok [b])

/-! ### The supply -/

/-- R91, R93, R44, R72: SUPPLY-RESUME in DOWN and UP is refused. In RESTORED the supply is UP, the reply
names the HELD lanes, and each of them is RUNNING with its job ACTIVE: outside the ERASE phase at the
MARGIN-P of its byte; in the ERASE phase with a counted pulse at a sweep from the watermark; with none, it
asks for its erase pulse, behind the lanes below it; then the Arbiter grants. A HELD lane has a job (R8). -/
def Obligations.SupplyResumeResumesHeldLanes : Prop :=
  ∀ (s : State) (t : Fin 16),
    let f := requestFrame .supplyResume t []
    let go := exec (.supplyResume (byte t.val) []) s
    s.Takes t f →
    (s.supply.state = .down → go = .next (s.heard.answered t f .supplyDown [])) ∧
    (s.supply.state = .up → go = .next (s.heard.answered t f .notHeld [])) ∧
    (s.supply.state = .restored →
      (∀ l, (s.lane l).state = .held → (s.currentJob? l).isSome = true) →
      let asking := (List.finRange 8).filter fun l => decide ((s.lane l).state = .held ∧
        (s.lane l).context.phase = some .erase ∧ (s.lane l).context.eraseCount = 0)
      ∃ (resumed v : State) (mask : Byte),
        go = .next (v.answered t f .ok [mask]) ∧
        (∀ l : LaneId, mask.getLsbD l.val = decide ((s.lane l).state = .held)) ∧
        resumed.supply = { s.supply with state := .up } ∧
        resumed.jobs = s.jobs.map (fun j =>
          if ∃ l, (s.lane l).state = .held ∧ (s.lane l).current = some j.id then
            { j with state := .active }
          else j) ∧
        resumed.grantQueue = s.grantQueue ++ (asking.filterMap fun l => (s.currentJob? l).map fun j => {
          lane := l
          cost := s.profiles[j.profile].eraseCost
          width := s.profiles[j.profile].eraseWidth * 1000 }) ∧
        (∀ l, (s.lane l).state ≠ .held → resumed.lane l = s.lane l) ∧
        (∀ l, (s.lane l).state = .held →
          let x := s.lane l
          resumed.lane l =
            if x.context.phase ≠ some .erase then
              { x with
                state := .running
                unit := x.unit.handOver (.new .marginP x.context.address 0 false) }
            else if x.context.eraseCount = 0 then { x with state := .pulseWait }
            else { x with
              state := .running
              context := { x.context with address := x.context.watermark }
              unit := x.unit.handOver (.new .marginE x.context.watermark 0 false) }) ∧
        s.heard.OnlyChanges resumed [.supply, .lanes, .jobs, .grantQueue] ∧
        resumed.Grants v)

/-- R86: a fall of PSUP_OK opens every closed switch, holds the lanes that need the supply, empties the grant
queue and offers a DOWN notice. -/
def Obligations.FallHoldsTheLanes : Prop :=
  ∀ s : State, s.Ready → s.supply.state ≠ .down → (∀ l, (s.lane l).SwitchFollowsSlot) →
    ∃ v : State, exec .psupOkFall s = .next v.transmit ∧
      v.supply = { state := .down, episodes := s.supply.episodes + 1, psupOk := false } ∧
      v.grantQueue = [] ∧ v.freeUnits = s.freeUnits + s.unitsHeld ∧
      (∀ l, v.lane l =
        let x := s.lane l
        let cut := { x with
          lvpClosed := false
          unitsHeld := 0
          timer := none
          slot := if x.slot = .granted then .cut else if x.slot = .timing then .none else x.slot }
        if x.slot = .timing ∨ x.state = .pulseWait then { cut with state := .held } else cut) ∧
      v.jobs = s.jobs.map (fun j =>
        if ∃ l, (s.lane l).current = some j.id ∧
            ((s.lane l).slot = .timing ∨ (s.lane l).state = .pulseWait) then
          { j with state := .held }
        else j) ∧
      v.outbox = s.outbox.offerSupply { state := .down, episodes := s.supply.episodes + 1 } ∧
      s.OnlyChanges v [.supply, .grantQueue, .freeUnits, .lanes, .jobs, .outbox]

/-- R89: a rise of PSUP_OK in DOWN enters RESTORED with the episode count unchanged, offers a RESTORED
notice, and changes nothing else. -/
def Obligations.RiseRestoresTheSupply : Prop :=
  ∀ s : State, s.Ready → s.supply.state = .down →
    exec .psupOkRise s = .next ((s.setSupply { s.supply with
      state := .restored
      psupOk := true }).setOutbox
        (s.outbox.offerSupply { state := .restored, episodes := s.supply.episodes })).transmit

/-- R81, R77, R78: the expiry of a pulse timer opens the switch, returns the units, sets the slot NONE and
the lane RUNNING, and the Arbiter grants from the head of the queue in order; the lane then sends PULSE-END.
A stopped timer does not expire (log 6). -/
def Obligations.PulseTimerEnds : Prop :=
  ∀ (s : State) (l : LaneId), s.Ready →
    ((s.lane l).slot ≠ .timing → exec (.pulseTimerExpiry l) s = .next s) ∧
    ((s.lane l).slot = .timing →
      ∃ u : State, ((s.opened l .none).updLane l fun x => { x with state := .running }).Grants u ∧
        exec (.pulseTimerExpiry l) s = .next (u.updLane l fun x => { x with
          unit := x.unit.handOver (.new .pulseEnd 0 0 false) }))

/-! ### The lanes -/

/-- R98, R99, R100, R103: a cycle handed over after the lane gap has passed is SENDING at once, and before it
is held for the gap, as the probe of a restarted lane shows; the lane gap starts a held cycle or is noted for
the next hand-over (log 8); while a cycle is sent, its five bytes go out, kind, address and data, and no byte
else; the sent moment opens the answer window for 50 µs. In other unit states neither occurs (log 6). -/
def Obligations.CyclesGoOut : Prop :=
  (∀ (u : CycleUnit) (c : Cycle),
    u.handOver c =
      if u.gapPassed then { state := .sending, cycle := some c, gapPassed := false }
      else { state := u.state, cycle := some c, gapPassed := false }) ∧
  (∀ (s : State) (t : Fin 16) (l : LaneId) (id : Nat) (rest : List Nat) (j : Job),
    s.Takes t (requestFrame .laneRestart t [byte l.val]) → (s.lane l).state = .stopped →
    (s.lane l).queue = id :: rest → s.job? id = some j →
    let probe : Cycle := {
      kind := .ident
      address := 0
      data := 0x00
      probe := true
      sentMoment := 0
      windowEnd := 0
      heard := false
      dataBytes := []
      slots := 0
      ready := false }
    ∃ u : State, exec (.laneRestart (byte t.val) [byte l.val]) s = .next u ∧
      (u.lane l).unit =
        if (s.lane l).unit.gapPassed then { state := .sending, cycle := some probe, gapPassed := false }
        else { state := (s.lane l).unit.state, cycle := some probe, gapPassed := false }) ∧
  ∀ (s : State) (l : LaneId) (moment : Nat), s.Ready →
    ((s.lane l).unit.state = .idle →
      exec (.laneGapEnd l) s = .next (s.updLane l fun x => { x with
        unit :=
          if x.unit.cycle.isSome then { x.unit with state := .sending, gapPassed := false }
          else { x.unit with gapPassed := true } })) ∧
    ((s.lane l).unit.state ≠ .idle → exec (.laneGapEnd l) s = .next s) ∧
    (∀ c, (s.lane l).unit.state = .sending → (s.lane l).unit.cycle = some c →
      exec (.sentMoment l moment) s = .next (s.updLane l fun x => { x with
        unit := { x.unit with
          state := .answering
          cycle := some { c with sentMoment := moment, windowEnd := moment + 50 } } })) ∧
    ((s.lane l).unit.state ≠ .sending →
      exec (.sentMoment l moment) s = .next s ∧ (s.lane l).ldaBytes = []) ∧
    ∀ c, (s.lane l).unit.state = .sending → (s.lane l).unit.cycle = some c →
      (s.lane l).ldaBytes = [
        (match c.kind with
          | .ident => 0x1D | .read => 0x2E | .marginP => 0x3B | .marginE => 0x3C | .load => 0x4A
          | .pulseP => 0x59 | .pulseE => 0x5A | .pulseEnd => 0x6F),
        byte (c.address / 65536), byte (c.address / 256), byte c.address, c.data]

/-- R102 to R106: a wait sets heard and moves the window end, never earlier, to 50 µs or 2 ms after its
slot; an idle slot inside the window only passes; a READY of a kind that returns data sets heard, and the
cycle goes on to its data slots; there the first identity byte is kept, whatever its value, and the cycle
goes on to the second. -/
def Obligations.WaitsExtendTheWindow : Prop :=
  (∀ (s : State) (l : LaneId) (c : Cycle) (b : Byte), s.Ready → s.Answering l c → c.kind = .ident →
    c.ready = true → c.dataBytes = [] →
    exec (.answerSlot l b) s = .next (s.updLane l fun x => { x with
      unit := { x.unit with cycle := some { c with dataBytes := [b] } } })) ∧
  ∀ (s : State) (l : LaneId) (c : Cycle), s.Ready → s.Answering l c → c.SlotOpen →
    let now := c.sentMoment + 2 * (c.slots + 1)
    let goesOn := fun c' : Cycle => s.updLane l fun x => { x with
      unit := { x.unit with cycle := some c' } }
    exec (.answerSlot l 0x71) s = .next (goesOn { c with
      slots := c.slots + 1, heard := true, windowEnd := max c.windowEnd (now + 50) }) ∧
    exec (.answerSlot l 0x72) s = .next (goesOn { c with
      slots := c.slots + 1, heard := true, windowEnd := max c.windowEnd (now + 2000) }) ∧
    (now < c.windowEnd →
      exec (.answerSlot l 0xFF) s = .next (goesOn { c with slots := c.slots + 1 })) ∧
    (c.kind ∈ [.ident, .read, .marginP, .marginE] →
      exec (.answerSlot l 0x3C) s = .next (goesOn { c with
        slots := c.slots + 1, heard := true, ready := true }))

/-- R107, R111, R32, R16, R80, R88: a FAULT byte, and a byte that is no answer, end the cycle and the job
and stop the lane with their reasons; for a cycle that starts a pulse also as a failed start on a GRANTED
slot, and on a CUT slot. -/
def Obligations.FaultAndBadAnswersStopTheLane : Prop :=
  ∀ (s : State) (l : LaneId) (c : Cycle) (j : Job) (b : Byte), s.Ready → s.Answering l c →
    c.SlotOpen → (s.lane l).context.mark = none →
    (c.kind = .pulseP ∨ c.kind = .pulseE → (s.lane l).slot = .granted ∨ (s.lane l).slot = .cut) →
    s.currentJob? l = some j → j.lane = l → b ∉ [0xFF, 0x3C, 0x71, 0x72] →
    ∃ w : State, s.CycleFails w l c.kind j (if b = 0xE7 then .targetFault else .badAnswer) ∧
      exec (.answerSlot l b) s = .next w.transmit

/-- R103, R108, R109, R32, R16, R80, R88: a window that closes in silence, in an idle slot that ends at the
window end or past it, and the ceiling, end the cycle and the job and stop the lane: ABSENT for a probe that
heard nothing at the window's close, else TIMEOUT. That one command stands for the run of idle slots up to
the close is the model's choice (log 7). -/
def Obligations.SilenceStopsTheLane : Prop :=
  ∀ (s : State) (l : LaneId) (c : Cycle) (j : Job), s.Ready → s.Answering l c →
    c.ready = false → (s.lane l).context.mark = none →
    (c.kind = .pulseP ∨ c.kind = .pulseE → (s.lane l).slot = .granted ∨ (s.lane l).slot = .cut) →
    s.currentJob? l = some j → j.lane = l →
    let lastSlotEnd := c.sentMoment + (match c.kind with
      | .ident => 19996
      | .read | .marginP | .marginE => 19998
      | .load | .pulseP | .pulseE | .pulseEnd => 20000)
    let silent := if c.probe = true ∧ c.heard = false then .targetAbsent else .laneTimeout
    (c.SlotOpen → c.windowEnd ≤ c.sentMoment + 2 * (c.slots + 1) → ∃ w : State,
      s.CycleFails w l c.kind j silent ∧ exec (.answerSlot l 0xFF) s = .next w.transmit) ∧
    (c.windowEnd ≤ lastSlotEnd → ∃ w : State,
      s.CycleFails w l c.kind j silent ∧
      exec (.answerWindowClose l) s = .next w.transmit ∧ exec (.cycleCeiling l) s = .next s) ∧
    (lastSlotEnd < c.windowEnd → ∃ w : State,
      s.CycleFails w l c.kind j .laneTimeout ∧
      exec (.cycleCeiling l) s = .next w.transmit ∧ exec (.answerWindowClose l) s = .next s)

/-- R38, R45, R46, R49 to R53, R106: the READ of a PROGRAM or VERIFY byte that equals its expected byte
finishes the byte, the last byte of the range included; a VERIFY byte that differs is offered as MISMATCH.
R35, R36, R57: the probe's READY stores the identity; if the profile asks for the check and a code differs
the job ends IDENT_MISMATCH; else IDENTIFY is done, an ERASE job begins its first sector, and the others
read their first byte. -/
def Obligations.EqualByteIsDone : Prop :=
  (∀ (s : State) (l : LaneId) (c : Cycle) (j : Job) (b e : Byte), s.Ready → s.Answering l c →
    c.kind = .read → c.ready = true → c.dataBytes = [] → (s.lane l).context.mark = none →
    s.currentJob? l = some j → j.lane = l → j.work.blocks ≠ [] →
    let a := (s.lane l).context.address
    let quiet := s.updLane l fun x => { x with unit := .afterReset }
    s.streamByte? j.work.blocks (a - j.work.start) = some e →
    (b = e → ∃ u : State, quiet.ByteIsDone u l j ∧ exec (.answerSlot l b) s = .next u.transmit) ∧
    (∀ start length hs, b ≠ e → j.work = .verify start length hs → ∃ u : State,
      quiet.FaultIsJudged u l j {
        job := j.id
        kind := .mismatch
        address := a
        expected := some e
        readByte := some b
        sort := .program
        pulses := 0 } (fun noted j' => noted.ByteIsDone u l j') ∧
      exec (.answerSlot l b) s = .next u.transmit)) ∧
  ∀ (s : State) (l : LaneId) (c : Cycle) (j : Job) (maker device : Byte), s.Ready →
    s.Answering l c → c.kind = .ident → c.ready = true → c.dataBytes = [maker] →
    (s.lane l).context.mark = none → s.currentJob? l = some j → j.lane = l →
    let p := s.profiles[j.profile]
    let j' := { j with identity := some { maker := maker, device := device } }
    let known := (s.updLane l fun x => { x with unit := .afterReset }).setJobs
      (j.changedIn s.jobs fun q => { q with identity := some { maker := maker, device := device } })
    let differs := p.checkIdentity = true ∧ (maker ≠ p.maker ∨ device ≠ p.device)
    ∃ u : State, exec (.answerSlot l device) s = .next u.transmit ∧
      (differs → ∃ w : State, known.CurrentJobEnds w l j' .failed .identMismatch false ∧
        u = w.startHead l) ∧
      (¬differs → match j.work with
        | .identify => known.RangeEnds u l j'
        | .program _ _ _ | .verify _ _ _ | .blankCheck _ _ =>
          u = known.updLane l fun x => { x with unit := .holding .read x.context.address 0 }
        | .erase first _ => known.SectorBegins u l j' (first * p.sectorSize))

/-- R38, R39: a PROGRAM byte whose differing bits can all be cleared is loaded: LOAD is handed over with the
expected byte, and nothing else changes; a byte with a 0 bit that should be 1 is offered as NOT_ERASED. R39
to R41, R43, R59: the READY of the LOAD clears the pulse count and asks for the first program pulse; that of
a PULSE-END leads to the MARGIN-P; the value at margin finishes the byte, asks for the next pulse, or at the
maximum is offered as PROGRAM_EXHAUSTED. R58 to R61: a precondition byte goes through the same loop with 00h
expected. -/
def Obligations.ProgrammableByteIsLoaded : Prop :=
  (∀ (s : State) (l : LaneId) (c : Cycle) (j : Job) (b e : Byte) (start length : Nat)
    (hs : List Handle), s.Ready → s.Answering l c → c.ready = true → c.dataBytes = [] →
    (s.lane l).context.mark = none → s.currentJob? l = some j → j.lane = l →
    j.work = .program start length hs →
    s.streamByte? hs ((s.lane l).context.address - start) = some e →
    let a := (s.lane l).context.address
    let count := (s.lane l).context.pulseCount
    let max := s.profiles[j.profile].maxProgram
    let quiet := s.updLane l fun x => { x with unit := .afterReset }
    let fault := fun kind pulses => ({
      job := j.id
      kind := kind
      address := a
      expected := some e
      readByte := some b
      sort := .program
      pulses := pulses } : FaultRecord)
    let go := exec (.answerSlot l b) s
    (c.kind = .read → b ≠ e →
      ((∀ i, i < 8 → b.getLsbD i = false → e.getLsbD i = false) →
        go = .next (s.updLane l fun x => { x with unit := .holding .load a e })) ∧
      ((∃ i, i < 8 ∧ b.getLsbD i = false ∧ e.getLsbD i = true) → ∃ u : State,
        quiet.FaultIsJudged u l j (fault .notErased 0) (fun noted j' => noted.ByteIsDone u l j') ∧
        go = .next u.transmit)) ∧
    (c.kind = .marginP →
      (b = e → ∃ u : State, quiet.ByteIsDone u l j ∧ go = .next u.transmit) ∧
      (b ≠ e → count < max → (s.lane l).context.phase ≠ some .erase → ∃ u : State,
        quiet.AsksForProgramPulse u l j ∧ go = .next u) ∧
      (b ≠ e → max ≤ count → ∃ u : State,
        quiet.FaultIsJudged u l j (fault .programExhausted count)
          (fun noted j' => noted.ByteIsDone u l j') ∧
        go = .next u.transmit))) ∧
  (∀ (s : State) (l : LaneId) (c : Cycle) (j : Job), s.Ready → s.Answering l c → c.SlotOpen →
    (s.lane l).context.mark = none → s.currentJob? l = some j →
    (s.lane l).context.phase ≠ some .erase →
    (c.kind = .load → ∃ u : State,
      (s.updLane l fun x => { x with
        unit := .afterReset
        context := { x.context with pulseCount := 0 } }).AsksForProgramPulse u l j ∧
      exec (.answerSlot l 0x3C) s = .next u) ∧
    (c.kind = .pulseEnd → exec (.answerSlot l 0x3C) s =
      .next (s.updLane l fun x => { x with unit := .holding .marginP x.context.address 0 }))) ∧
  ∀ (s : State) (l : LaneId) (c : Cycle) (j : Job) (b : Byte) (first last : Nat), s.Ready →
    s.Answering l c → c.ready = true → c.dataBytes = [] → (s.lane l).context.mark = none →
    s.currentJob? l = some j → j.lane = l → j.work = .erase first last →
    (s.lane l).context.phase = some .precondition →
    let count := (s.lane l).context.pulseCount
    let max := s.profiles[j.profile].maxProgram
    let quiet := s.updLane l fun x => { x with unit := .afterReset }
    let go := exec (.answerSlot l b) s
    (c.kind = .read ∨ c.kind = .marginP → b = 0 → ∃ u : State,
      quiet.PreconditionByteIsDone u l j ∧ go = .next u) ∧
    (c.kind = .read → b ≠ 0 →
      go = .next (s.updLane l fun x => { x with unit := .holding .load x.context.address 0 })) ∧
    (c.kind = .marginP → b ≠ 0 → count < max → ∃ u : State,
      quiet.AsksForProgramPulse u l j ∧ go = .next u) ∧
    (c.kind = .marginP → b ≠ 0 → max ≤ count → ∃ u : State,
      quiet.FaultIsJudged u l j {
        job := j.id
        kind := .preconditionFail
        address := (s.lane l).context.address
        expected := some 0
        readByte := some b
        sort := .program
        pulses := count } (fun noted j' => noted.PreconditionByteIsDone u l j') ∧
      go = .next u.transmit)

/-- R42, R63, R80: a READY to PULSE-P or PULSE-E on a GRANTED slot starts the timer with the carried width
and counts the pulse. -/
def Obligations.ReadyStartsThePulse : Prop :=
  ∀ (s : State) (l : LaneId) (c : Cycle) (j : Job), s.Ready → s.Answering l c → c.SlotOpen →
    (s.lane l).slot = .granted → (s.lane l).context.mark = none → s.currentJob? l = some j →
    (c.kind = .pulseP →
      exec (.answerSlot l 0x3C) s = .next ((s.updLane l fun x => { x with
        slot := .timing
        timer := some x.width
        unit := .afterReset
        context := { x.context with pulseCount := x.context.pulseCount + 1 } }).setJobs
          (s.jobs.map fun q =>
            if q.id = j.id then { q with programPulses := q.programPulses + 1 } else q))) ∧
    (c.kind = .pulseE →
      exec (.answerSlot l 0x3C) s = .next ((s.updLane l fun x => { x with
        slot := .timing
        timer := some x.width
        unit := .afterReset
        context := { x.context with eraseCount := x.context.eraseCount + 1 } }).setJobs
          (s.jobs.map fun q =>
            if q.id = j.id then { q with erasePulses := q.erasePulses + 1 } else q)))

/-- R88, R44, R72, R93: a READY on a CUT slot counts nothing: the lane is HELD while the supply is not UP.
If it is UP the lane goes on: at the MARGIN-P of its byte, with a sweep from the watermark, or with the
grant request for the sector's first erase pulse. -/
def Obligations.CutPulseIsHeldOrResumed : Prop :=
  ∀ (s : State) (l : LaneId) (c : Cycle) (j : Job), s.Ready → s.Answering l c → c.SlotOpen →
    c.kind = .pulseP ∨ c.kind = .pulseE → (s.lane l).slot = .cut → (s.lane l).context.mark = none →
    s.currentJob? l = some j → s.HeadWaits →
    let go := exec (.answerSlot l 0x3C) s
    (s.supply.state ≠ .up →
      go = .next ((s.updLane l fun x => { x with
        state := .held, slot := .none, unit := .afterReset }).setJobs
          (s.jobs.map fun q => if q.id = j.id then { q with state := .held } else q))) ∧
    (s.supply.state = .up → (s.lane l).context.phase ≠ some .erase →
      go = .next ((s.updLane l fun x => { x with
        state := .running
        slot := .none
        unit := .holding .marginP x.context.address 0 }).setJobs
          (s.jobs.map fun q => if q.id = j.id then { q with state := .active } else q))) ∧
    (s.supply.state = .up → (s.lane l).context.phase = some .erase →
      ((s.lane l).context.eraseCount ≠ 0 →
        go = .next ((s.updLane l fun x => { x with
          state := .running
          slot := .none
          context := { x.context with address := x.context.watermark }
          unit := .holding .marginE x.context.watermark 0 }).setJobs
            (s.jobs.map fun q => if q.id = j.id then { q with state := .active } else q))) ∧
      ((s.lane l).context.eraseCount = 0 → ∃ u : State,
        ((s.updLane l fun x => { x with
          state := .running
          slot := .none
          unit := .afterReset }).setJobs
            (s.jobs.map fun q =>
              if q.id = j.id then { q with state := .active } else q)).AsksForErasePulse u l j ∧
        go = .next u))

/-- R66, R62, R76, R77: a sweep that stops below the maximum moves the watermark and asks for a re-pulse at
the sector start: HELD if the supply is not UP, waiting behind the queue, or granted at once (log 20). R64,
R65, R67, R68, R70: the READY of a PULSE-END begins the sweep at the watermark; a byte that reads FFh leads
to the next one, or at the sector end the sector is done; a stop at the maximum is offered as
ERASE_EXHAUSTED, and the sector is done if the job goes on. -/
def Obligations.SweepStopAsksForARepulse : Prop :=
  (∀ (s : State) (l : LaneId) (c : Cycle) (j : Job), s.Ready → s.Answering l c → c.SlotOpen →
    c.kind = .pulseEnd → (s.lane l).context.mark = none → s.currentJob? l = some j →
    (s.lane l).context.phase = some .erase →
    exec (.answerSlot l 0x3C) s = .next (s.updLane l fun x => { x with
      context := { x.context with address := x.context.watermark }
      unit := .holding .marginE x.context.watermark 0 })) ∧
  (∀ (s : State) (l : LaneId) (c : Cycle) (j : Job) (b : Byte), s.Ready → s.Answering l c →
    c.kind = .marginE → c.ready = true → c.dataBytes = [] → (s.lane l).context.mark = none →
    s.currentJob? l = some j → j.lane = l →
    let p := s.profiles[j.profile]
    let a := (s.lane l).context.address
    let sectorEnd := a / p.sectorSize * p.sectorSize + p.sectorSize - 1
    let quiet := s.updLane l fun x => { x with unit := .afterReset }
    (b = 0xFF → a < sectorEnd →
      exec (.answerSlot l b) s = .next (s.updLane l fun x => { x with
        context := { x.context with address := a + 1 }
        unit := .holding .marginE (a + 1) 0 })) ∧
    (b = 0xFF → sectorEnd ≤ a → ∃ u : State,
      quiet.SectorIsDone u l j ∧ exec (.answerSlot l b) s = .next u.transmit) ∧
    (b ≠ 0xFF → p.maxErase ≤ (s.lane l).context.eraseCount → ∃ u : State,
      (quiet.updLane l fun x => { x with
        context := { x.context with watermark := a } }).FaultIsJudged u l j {
          job := j.id
          kind := .eraseExhausted
          address := a
          expected := none
          readByte := some b
          sort := .erase
          pulses := (s.lane l).context.eraseCount } (fun noted j' => noted.SectorIsDone u l j') ∧
      exec (.answerSlot l b) s = .next u.transmit)) ∧
  ∀ (s : State) (l : LaneId) (c : Cycle) (j : Job) (b : Byte), s.Ready → s.Answering l c →
    c.kind = .marginE → c.ready = true → c.dataBytes = [] → (s.lane l).context.mark = none →
    s.currentJob? l = some j → (s.lane l).context.phase = some .erase → b ≠ 0xFF →
    let p := s.profiles[j.profile]
    let a := (s.lane l).context.address
    let start := a / p.sectorSize * p.sectorSize
    let entry : GrantEntry := { lane := l, cost := p.eraseCost, width := p.eraseWidth * 1000 }
    let asked := s.updLane l fun x => { x with
      unit := .afterReset
      context := { x.context with watermark := a, address := start } }
    (s.lane l).context.eraseCount < p.maxErase →
    (s.supply.state ≠ .up → s.grantQueue = [] →
      exec (.answerSlot l b) s = .next ((asked.updLane l fun x => { x with state := .held }).setJobs
        (s.jobs.map fun q => if q.id = j.id then { q with state := .held } else q))) ∧
    (s.supply.state = .up → s.HeadWaits → (s.grantQueue ≠ [] ∨ s.freeUnits < p.eraseCost) →
      exec (.answerSlot l b) s =
        .next ((asked.updLane l fun x => { x with state := .pulseWait }).setGrantQueue
          (s.grantQueue ++ [entry]))) ∧
    (s.supply.state = .up → s.grantQueue = [] → p.eraseCost ≤ s.freeUnits →
      exec (.answerSlot l b) s =
        .next ((asked.updLane l fun x => { x with
          state := .pulsing
          lvpClosed := true
          unitsHeld := x.unitsHeld + p.eraseCost
          slot := .granted
          timer := none
          width := p.eraseWidth * 1000
          unit := .holding .pulseE start 0 }).setFreeUnits (s.freeUnits - p.eraseCost)))

/-- R47, R45, R49 to R53, R148: a BLANK-CHECK byte that reads FFh is done; any other is offered as
BLANK_FAIL: on a full list the job ends FAULT_SPACE with no record; a record that reaches the fault limit
ends it FAULT_LIMIT; otherwise it is recorded and the byte is done, the last byte of the range included. -/
def Obligations.BlankFaultIsRecordedOrEndsTheJob : Prop :=
  ∀ (s : State) (l : LaneId) (c : Cycle) (j : Job) (b : Byte) (start length : Nat), s.Ready →
    s.Answering l c → c.kind = .read → c.ready = true → c.dataBytes = [] →
    (s.lane l).context.mark = none → s.currentJob? l = some j → j.lane = l →
    j.work = .blankCheck start length →
    let quiet := s.updLane l fun x => { x with unit := .afterReset }
    (b = 0xFF → ∃ u : State,
      quiet.ByteIsDone u l j ∧ exec (.answerSlot l b) s = .next u.transmit) ∧
    (b ≠ 0xFF → ∃ u : State,
      quiet.FaultIsJudged u l j {
        job := j.id
        kind := .blankFail
        address := (s.lane l).context.address
        expected := none
        readByte := some b
        sort := .program
        pulses := 0 } (fun noted j' => noted.ByteIsDone u l j') ∧
      exec (.answerSlot l b) s = .next u.transmit)

/-- R25, R32, R172: the end of a cycle under a pending-cancel mark judges nothing: a switch still closed is
opened and the Arbiter grants, the job becomes CANCELLED, and the lane stops unless the cycle ended READY;
each tag of the mark is replied OK, in the order of the mark, as far as the reply queue has room (R174). That
all are placed before an idle Transmitter takes the first is the model's choice (log 29). -/
def Obligations.DeferredCancelEnds : Prop :=
  ∀ (s : State) (l : LaneId) (c : Cycle) (j : Job) (b : Byte) (marked : List Byte) (failed : Bool)
    (command : Instr),
    s.Ready → s.Answering l c → (s.lane l).context.mark = some marked → s.currentJob? l = some j →
    j.lane = l →
    (failed = false ∧ command = .answerSlot l b ∧
        ((c.ready = true ∧ ((c.kind ∈ [.read, .marginP, .marginE] ∧ c.dataBytes = []) ∨
            (c.kind = .ident ∧ c.dataBytes.length = 1))) ∨
          (c.SlotOpen ∧ c.kind ∈ [.load, .pulseP, .pulseE, .pulseEnd] ∧ b = 0x3C)) ∨
      failed = true ∧ command = .answerSlot l b ∧ c.SlotOpen ∧
        (b ∉ [0xFF, 0x3C, 0x71, 0x72] ∨
          (b = 0xFF ∧ c.windowEnd ≤ c.sentMoment + 2 * (c.slots + 1))) ∨
      failed = true ∧ c.ready = false ∧
        command = (if c.windowEnd ≤ c.lastSlotEnd then .answerWindowClose l else .cycleCeiling l)) →
    let quiet := s.updLane l fun x => { x with unit := .afterReset }
    let reply := fun tag => replyFrame 0x42 tag .ok [byte j.id]
    ∃ v w u : State,
      ((s.lane l).lvpClosed = false → v = quiet.updLane l fun x => { x with slot := .none }) ∧
      ((s.lane l).lvpClosed = true → (quiet.opened l .none).Grants v) ∧
      v.CurrentJobEnds w l j .cancelled .cancelled failed ∧
      (w.startHead l).OnlyChanges u [.tags, .replyQueue, .deferred] ∧
      u.deferred = s.deferred.filter (fun d => decide (d.job ≠ j.id)) ∧
      (∀ (t : Fin 16) (d : Digest), byte t.val ∈ marked → s.tagEntry t = .inFlight d →
        u.tagEntry t = .replied d (reply (byte t.val))) ∧
      (∀ t : Fin 16, byte t.val ∉ marked → u.tagEntry t = s.tagEntry t) ∧
      ((∀ tag ∈ marked, ∃ (t : Fin 16) (d : Digest), tag = byte t.val ∧ s.tagEntry t = .inFlight d) →
        u.replyQueue = s.replyQueue ++ (marked.map reply).take (8 - s.replyQueue.length)) ∧
      exec command s = .next u.transmit

/-! ### Reports -/

/-- R207: REPORT-ACK of a number that no transmitted record carries is STALE; else that record and every
record ahead of it leave, the round count is 0 and the timer is set or stopped. R198: an owed supply notice
then takes a free entry as a new SUPPLY record, and is no longer owed; with no entry free it stays owed. -/
def Obligations.AckRemovesReports : Prop :=
  ∀ (s : State) (t : Fin 16) (n : Byte),
    let f := requestFrame .reportAck t [n]
    let o := s.heard.outbox
    s.Takes t f →
    ((∀ r ∈ o.records, r.transmitted = true → r.seq ≠ n) →
      exec (.reportAck (byte t.val) [n]) s = .next (s.heard.answered t f .stale [])) ∧
    (∀ ahead r behind, o.records = ahead ++ r :: behind →
      (∀ q ∈ ahead, q.transmitted = true → q.seq ≠ n) → r.transmitted = true → r.seq = n →
      o.waitingLanes = [] →
      let left := { o with
        records := behind
        round := 0
        timer := if behind.any (fun q => q.transmitted) then some 250 else none }
      let given := match o.owed with
        | none => left
        | some notice =>
          if behind.length < 16 then { left with
            records := behind ++
              [{ body := .supply notice, seq := o.nextSeq, transmitted := false, mark := false }]
            nextSeq := o.nextSeq + 1
            owed := none }
          else left
      ∃ reportFirst : Bool, exec (.reportAck (byte t.val) [n]) s = .next
        ((s.heard.setOutbox given).answeredBeside s.outbox.stalled reportFirst t f .ok [n]))

/-- R198, R19: an acknowledgement that frees a general entry enqueues the waiting JOB-END of the lane at the
head of the waiting-lane queue, and a lane that waited for it leaves REPORT_WAIT. Whatever lanes wait, an
owed notice takes its entry first, and then the lanes take theirs in queue order, one JOB-END in each turn. -/
def Obligations.AckServesTheWaitingLane : Prop :=
  (∀ (s : State) (t : Fin 16) (n : Byte) (ahead behind : List Report) (r : Report),
    let f := requestFrame .reportAck t [n]
    let o := s.heard.outbox
    s.Takes t f → s.WaitingKnown → o.records = ahead ++ r :: behind →
    (∀ q ∈ ahead, q.transmitted = true → q.seq ≠ n) → r.transmitted = true → r.seq = n →
    let left := { o with
      records := behind
      round := 0
      timer := if behind.any (fun q => q.transmitted) then some 250 else none }
    let given := match o.owed with
      | none => left
      | some notice =>
        if behind.length < 16 then { left with
          records := behind ++
            [{ body := .supply notice, seq := o.nextSeq, transmitted := false, mark := false }]
          nextSeq := o.nextSeq + 1
          owed := none }
        else left
    ∃ (w : State) (reportFirst : Bool),
      (s.heard.setOutbox given).ServesWaiting w ∧
      exec (.reportAck (byte t.val) [n]) s =
        .next (w.answeredBeside s.outbox.stalled reportFirst t f .ok [n])) ∧
  ∀ (s : State) (t : Fin 16) (n : Byte) (l : LaneId) (id : Nat) (j : Job) (ahead behind : List Report)
    (r : Report),
    let f := requestFrame .reportAck t [n]
    s.Takes t f → s.outbox.stalled = false → s.outbox.Lawful →
    s.outbox.records = ahead ++ r :: behind → r.transmitted = true → r.seq = n →
    (∀ q ∈ ahead, q.seq ≠ n) →
    s.outbox.owed = none → s.outbox.waitingLanes = [l] → (s.lane l).waitingEnds = [id] →
    s.job? id = some j → (s.lane l).state = .reportWait → (s.lane l).waitFor = some id → j.lane = l →
    (∃ q ∈ ahead ++ [r], q.isSupply = false) →
    ∃ (w : State) (reportFirst : Bool),
      w.outbox = { s.outbox with
        records := behind ++
          [{ body := j.endBody, seq := s.outbox.nextSeq, transmitted := false, mark := false }]
        nextSeq := s.outbox.nextSeq + 1
        round := 0
        timer := if behind.any (fun q => q.transmitted) then some 250 else none
        waitingLanes := [] } ∧
      w.jobs = s.jobs.map (fun q => if q.id = id then { q with endReport := .enqueued } else q) ∧
      w.lane l = { s.lane l with
        state := if j.laneStopped then .stopped else .idle
        waitFor := none
        waitingEnds := [] } ∧
      (∀ m, m ≠ l → w.lane m = s.lane m) ∧ s.heard.OnlyChanges w [.outbox, .jobs, .lanes] ∧
      exec (.reportAck (byte t.val) [n]) s =
        .next ((w.startHead l).answeredBeside false reportFirst t f .ok [n])

/-- R199, R200: what the outbox does with a SUPPLY notice and with a PROGRESS offer. -/
def Obligations.OffersMergeOrJoinTheOutbox : Prop :=
  (∀ (o : Outbox) (n : Notice),
    (∀ ahead r behind, o.records = ahead ++ r :: behind →
      (∀ q ∈ ahead, q.isSupply = true → q.transmitted = true) → r.isSupply = true →
      r.transmitted = false →
      o.offerSupply n = { o with
        records := ahead ++ { r with body := .supply n } :: behind }) ∧
    ((∀ q ∈ o.records, q.isSupply = true → q.transmitted = true) →
      (o.owed.isSome = true ∨ 16 ≤ o.records.length → o.offerSupply n = { o with owed := some n }) ∧
      (o.owed = none → o.records.length < 16 →
        o.offerSupply n = { o with
          records := o.records ++
            [{ body := .supply n, seq := o.nextSeq, transmitted := false, mark := false }]
          nextSeq := o.nextSeq + 1 }))) ∧
  ∀ (o : Outbox) (id : Nat) (l : LaneId) (done : Nat),
    let mine := fun r : Report => !r.transmitted && r.isProgressOf id
    (∀ ahead r behind, o.records = ahead ++ r :: behind → mine r = true →
      (∀ q ∈ behind, mine q = false) →
      o.offerProgress id l done = { o with
        records := ahead ++ { r with body := .progress id l done } :: behind }) ∧
    ((∀ q ∈ o.records, mine q = false) →
      (4 ≤ min (16 - o.records.length) (15 - o.general) →
        o.offerProgress id l done = { o with
          records := o.records ++ [{
            body := .progress id l done, seq := o.nextSeq, transmitted := false, mark := false }]
          nextSeq := o.nextSeq + 1 }) ∧
      (min (16 - o.records.length) (15 - o.general) < 4 → o.offerProgress id l done = o))
end

