-- ==== Sys2Proof/Laws/State.lean ====
section
/-! SUPPORT. One lemma for each field and each update of the state, and the plain laws of lanes, blocks
and jobs under the updates, so that no proof unfolds an update of the record. -/

namespace Sys2Proof.Machine

@[simp] theorem State.setInReset_inReset (s : State) (v : Bool) :
    (s.setInReset v).inReset = v := rfl
@[simp] theorem State.setInReset_linkRate (s : State) (v : Bool) :
    (s.setInReset v).linkRate = s.linkRate := rfl
@[simp] theorem State.setInReset_epoch (s : State) (v : Bool) :
    (s.setInReset v).epoch = s.epoch := rfl
@[simp] theorem State.setInReset_rx (s : State) (v : Bool) : (s.setInReset v).rx = s.rx := rfl
@[simp] theorem State.setInReset_tags (s : State) (v : Bool) : (s.setInReset v).tags = s.tags := rfl
@[simp] theorem State.setInReset_deferred (s : State) (v : Bool) :
    (s.setInReset v).deferred = s.deferred := rfl
@[simp] theorem State.setInReset_replyQueue (s : State) (v : Bool) :
    (s.setInReset v).replyQueue = s.replyQueue := rfl
@[simp] theorem State.setInReset_tx (s : State) (v : Bool) : (s.setInReset v).tx = s.tx := rfl
@[simp] theorem State.setInReset_profiles (s : State) (v : Bool) :
    (s.setInReset v).profiles = s.profiles := rfl
@[simp] theorem State.setInReset_blocks (s : State) (v : Bool) :
    (s.setInReset v).blocks = s.blocks := rfl
@[simp] theorem State.setInReset_jobs (s : State) (v : Bool) : (s.setInReset v).jobs = s.jobs := rfl
@[simp] theorem State.setInReset_lastId (s : State) (v : Bool) :
    (s.setInReset v).lastId = s.lastId := rfl
@[simp] theorem State.setInReset_lanes (s : State) (v : Bool) :
    (s.setInReset v).lanes = s.lanes := rfl
@[simp] theorem State.setInReset_freeUnits (s : State) (v : Bool) :
    (s.setInReset v).freeUnits = s.freeUnits := rfl
@[simp] theorem State.setInReset_grantQueue (s : State) (v : Bool) :
    (s.setInReset v).grantQueue = s.grantQueue := rfl
@[simp] theorem State.setInReset_supply (s : State) (v : Bool) :
    (s.setInReset v).supply = s.supply := rfl
@[simp] theorem State.setInReset_faults (s : State) (v : Bool) :
    (s.setInReset v).faults = s.faults := rfl
@[simp] theorem State.setInReset_outbox (s : State) (v : Bool) :
    (s.setInReset v).outbox = s.outbox := rfl
@[simp] theorem State.setInReset_choices (s : State) (v : Bool) :
    (s.setInReset v).choices = s.choices := rfl
@[simp] theorem State.setInReset_pending (s : State) (v : Bool) :
    (s.setInReset v).pending = s.pending := rfl
@[simp] theorem State.setLinkRate_inReset (s : State) (v : LinkRate) :
    (s.setLinkRate v).inReset = s.inReset := rfl
@[simp] theorem State.setLinkRate_linkRate (s : State) (v : LinkRate) :
    (s.setLinkRate v).linkRate = v := rfl
@[simp] theorem State.setLinkRate_epoch (s : State) (v : LinkRate) :
    (s.setLinkRate v).epoch = s.epoch := rfl
@[simp] theorem State.setLinkRate_rx (s : State) (v : LinkRate) : (s.setLinkRate v).rx = s.rx := rfl
@[simp] theorem State.setLinkRate_tags (s : State) (v : LinkRate) :
    (s.setLinkRate v).tags = s.tags := rfl
@[simp] theorem State.setLinkRate_deferred (s : State) (v : LinkRate) :
    (s.setLinkRate v).deferred = s.deferred := rfl
@[simp] theorem State.setLinkRate_replyQueue (s : State) (v : LinkRate) :
    (s.setLinkRate v).replyQueue = s.replyQueue := rfl
@[simp] theorem State.setLinkRate_tx (s : State) (v : LinkRate) : (s.setLinkRate v).tx = s.tx := rfl
@[simp] theorem State.setLinkRate_profiles (s : State) (v : LinkRate) :
    (s.setLinkRate v).profiles = s.profiles := rfl
@[simp] theorem State.setLinkRate_blocks (s : State) (v : LinkRate) :
    (s.setLinkRate v).blocks = s.blocks := rfl
@[simp] theorem State.setLinkRate_jobs (s : State) (v : LinkRate) :
    (s.setLinkRate v).jobs = s.jobs := rfl
@[simp] theorem State.setLinkRate_lastId (s : State) (v : LinkRate) :
    (s.setLinkRate v).lastId = s.lastId := rfl
@[simp] theorem State.setLinkRate_lanes (s : State) (v : LinkRate) :
    (s.setLinkRate v).lanes = s.lanes := rfl
@[simp] theorem State.setLinkRate_freeUnits (s : State) (v : LinkRate) :
    (s.setLinkRate v).freeUnits = s.freeUnits := rfl
@[simp] theorem State.setLinkRate_grantQueue (s : State) (v : LinkRate) :
    (s.setLinkRate v).grantQueue = s.grantQueue := rfl
@[simp] theorem State.setLinkRate_supply (s : State) (v : LinkRate) :
    (s.setLinkRate v).supply = s.supply := rfl
@[simp] theorem State.setLinkRate_faults (s : State) (v : LinkRate) :
    (s.setLinkRate v).faults = s.faults := rfl
@[simp] theorem State.setLinkRate_outbox (s : State) (v : LinkRate) :
    (s.setLinkRate v).outbox = s.outbox := rfl
@[simp] theorem State.setLinkRate_choices (s : State) (v : LinkRate) :
    (s.setLinkRate v).choices = s.choices := rfl
@[simp] theorem State.setLinkRate_pending (s : State) (v : LinkRate) :
    (s.setLinkRate v).pending = s.pending := rfl
@[simp] theorem State.setEpoch_inReset (s : State) (v : Word16) :
    (s.setEpoch v).inReset = s.inReset := rfl
@[simp] theorem State.setEpoch_linkRate (s : State) (v : Word16) :
    (s.setEpoch v).linkRate = s.linkRate := rfl
@[simp] theorem State.setEpoch_epoch (s : State) (v : Word16) : (s.setEpoch v).epoch = v := rfl
@[simp] theorem State.setEpoch_rx (s : State) (v : Word16) : (s.setEpoch v).rx = s.rx := rfl
@[simp] theorem State.setEpoch_tags (s : State) (v : Word16) : (s.setEpoch v).tags = s.tags := rfl
@[simp] theorem State.setEpoch_deferred (s : State) (v : Word16) :
    (s.setEpoch v).deferred = s.deferred := rfl
@[simp] theorem State.setEpoch_replyQueue (s : State) (v : Word16) :
    (s.setEpoch v).replyQueue = s.replyQueue := rfl
@[simp] theorem State.setEpoch_tx (s : State) (v : Word16) : (s.setEpoch v).tx = s.tx := rfl
@[simp] theorem State.setEpoch_profiles (s : State) (v : Word16) :
    (s.setEpoch v).profiles = s.profiles := rfl
@[simp] theorem State.setEpoch_blocks (s : State) (v : Word16) :
    (s.setEpoch v).blocks = s.blocks := rfl
@[simp] theorem State.setEpoch_jobs (s : State) (v : Word16) : (s.setEpoch v).jobs = s.jobs := rfl
@[simp] theorem State.setEpoch_lastId (s : State) (v : Word16) :
    (s.setEpoch v).lastId = s.lastId := rfl
@[simp] theorem State.setEpoch_lanes (s : State) (v : Word16) :
    (s.setEpoch v).lanes = s.lanes := rfl
@[simp] theorem State.setEpoch_freeUnits (s : State) (v : Word16) :
    (s.setEpoch v).freeUnits = s.freeUnits := rfl
@[simp] theorem State.setEpoch_grantQueue (s : State) (v : Word16) :
    (s.setEpoch v).grantQueue = s.grantQueue := rfl
@[simp] theorem State.setEpoch_supply (s : State) (v : Word16) :
    (s.setEpoch v).supply = s.supply := rfl
@[simp] theorem State.setEpoch_faults (s : State) (v : Word16) :
    (s.setEpoch v).faults = s.faults := rfl
@[simp] theorem State.setEpoch_outbox (s : State) (v : Word16) :
    (s.setEpoch v).outbox = s.outbox := rfl
@[simp] theorem State.setEpoch_choices (s : State) (v : Word16) :
    (s.setEpoch v).choices = s.choices := rfl
@[simp] theorem State.setEpoch_pending (s : State) (v : Word16) :
    (s.setEpoch v).pending = s.pending := rfl
@[simp] theorem State.setRx_inReset (s : State) (v : Receiver) :
    (s.setRx v).inReset = s.inReset := rfl
@[simp] theorem State.setRx_linkRate (s : State) (v : Receiver) :
    (s.setRx v).linkRate = s.linkRate := rfl
@[simp] theorem State.setRx_epoch (s : State) (v : Receiver) : (s.setRx v).epoch = s.epoch := rfl
@[simp] theorem State.setRx_rx (s : State) (v : Receiver) : (s.setRx v).rx = v := rfl
@[simp] theorem State.setRx_tags (s : State) (v : Receiver) : (s.setRx v).tags = s.tags := rfl
@[simp] theorem State.setRx_deferred (s : State) (v : Receiver) :
    (s.setRx v).deferred = s.deferred := rfl
@[simp] theorem State.setRx_replyQueue (s : State) (v : Receiver) :
    (s.setRx v).replyQueue = s.replyQueue := rfl
@[simp] theorem State.setRx_tx (s : State) (v : Receiver) : (s.setRx v).tx = s.tx := rfl
@[simp] theorem State.setRx_profiles (s : State) (v : Receiver) :
    (s.setRx v).profiles = s.profiles := rfl
@[simp] theorem State.setRx_blocks (s : State) (v : Receiver) : (s.setRx v).blocks = s.blocks := rfl
@[simp] theorem State.setRx_jobs (s : State) (v : Receiver) : (s.setRx v).jobs = s.jobs := rfl
@[simp] theorem State.setRx_lastId (s : State) (v : Receiver) : (s.setRx v).lastId = s.lastId := rfl
@[simp] theorem State.setRx_lanes (s : State) (v : Receiver) : (s.setRx v).lanes = s.lanes := rfl
@[simp] theorem State.setRx_freeUnits (s : State) (v : Receiver) :
    (s.setRx v).freeUnits = s.freeUnits := rfl
@[simp] theorem State.setRx_grantQueue (s : State) (v : Receiver) :
    (s.setRx v).grantQueue = s.grantQueue := rfl
@[simp] theorem State.setRx_supply (s : State) (v : Receiver) : (s.setRx v).supply = s.supply := rfl
@[simp] theorem State.setRx_faults (s : State) (v : Receiver) : (s.setRx v).faults = s.faults := rfl
@[simp] theorem State.setRx_outbox (s : State) (v : Receiver) : (s.setRx v).outbox = s.outbox := rfl
@[simp] theorem State.setRx_choices (s : State) (v : Receiver) :
    (s.setRx v).choices = s.choices := rfl
@[simp] theorem State.setRx_pending (s : State) (v : Receiver) :
    (s.setRx v).pending = s.pending := rfl
@[simp] theorem State.setTags_inReset (s : State) (v : Vector TagEntry 16) :
    (s.setTags v).inReset = s.inReset := rfl
@[simp] theorem State.setTags_linkRate (s : State) (v : Vector TagEntry 16) :
    (s.setTags v).linkRate = s.linkRate := rfl
@[simp] theorem State.setTags_epoch (s : State) (v : Vector TagEntry 16) :
    (s.setTags v).epoch = s.epoch := rfl
@[simp] theorem State.setTags_rx (s : State) (v : Vector TagEntry 16) :
    (s.setTags v).rx = s.rx := rfl
@[simp] theorem State.setTags_tags (s : State) (v : Vector TagEntry 16) :
    (s.setTags v).tags = v := rfl
@[simp] theorem State.setTags_deferred (s : State) (v : Vector TagEntry 16) :
    (s.setTags v).deferred = s.deferred := rfl
@[simp] theorem State.setTags_replyQueue (s : State) (v : Vector TagEntry 16) :
    (s.setTags v).replyQueue = s.replyQueue := rfl
@[simp] theorem State.setTags_tx (s : State) (v : Vector TagEntry 16) :
    (s.setTags v).tx = s.tx := rfl
@[simp] theorem State.setTags_profiles (s : State) (v : Vector TagEntry 16) :
    (s.setTags v).profiles = s.profiles := rfl
@[simp] theorem State.setTags_blocks (s : State) (v : Vector TagEntry 16) :
    (s.setTags v).blocks = s.blocks := rfl
@[simp] theorem State.setTags_jobs (s : State) (v : Vector TagEntry 16) :
    (s.setTags v).jobs = s.jobs := rfl
@[simp] theorem State.setTags_lastId (s : State) (v : Vector TagEntry 16) :
    (s.setTags v).lastId = s.lastId := rfl
@[simp] theorem State.setTags_lanes (s : State) (v : Vector TagEntry 16) :
    (s.setTags v).lanes = s.lanes := rfl
@[simp] theorem State.setTags_freeUnits (s : State) (v : Vector TagEntry 16) :
    (s.setTags v).freeUnits = s.freeUnits := rfl
@[simp] theorem State.setTags_grantQueue (s : State) (v : Vector TagEntry 16) :
    (s.setTags v).grantQueue = s.grantQueue := rfl
@[simp] theorem State.setTags_supply (s : State) (v : Vector TagEntry 16) :
    (s.setTags v).supply = s.supply := rfl
@[simp] theorem State.setTags_faults (s : State) (v : Vector TagEntry 16) :
    (s.setTags v).faults = s.faults := rfl
@[simp] theorem State.setTags_outbox (s : State) (v : Vector TagEntry 16) :
    (s.setTags v).outbox = s.outbox := rfl
@[simp] theorem State.setTags_choices (s : State) (v : Vector TagEntry 16) :
    (s.setTags v).choices = s.choices := rfl
@[simp] theorem State.setTags_pending (s : State) (v : Vector TagEntry 16) :
    (s.setTags v).pending = s.pending := rfl
@[simp] theorem State.setDeferred_inReset (s : State) (v : List DeferredCancel) :
    (s.setDeferred v).inReset = s.inReset := rfl
@[simp] theorem State.setDeferred_linkRate (s : State) (v : List DeferredCancel) :
    (s.setDeferred v).linkRate = s.linkRate := rfl
@[simp] theorem State.setDeferred_epoch (s : State) (v : List DeferredCancel) :
    (s.setDeferred v).epoch = s.epoch := rfl
@[simp] theorem State.setDeferred_rx (s : State) (v : List DeferredCancel) :
    (s.setDeferred v).rx = s.rx := rfl
@[simp] theorem State.setDeferred_tags (s : State) (v : List DeferredCancel) :
    (s.setDeferred v).tags = s.tags := rfl
@[simp] theorem State.setDeferred_deferred (s : State) (v : List DeferredCancel) :
    (s.setDeferred v).deferred = v := rfl
@[simp] theorem State.setDeferred_replyQueue (s : State) (v : List DeferredCancel) :
    (s.setDeferred v).replyQueue = s.replyQueue := rfl
@[simp] theorem State.setDeferred_tx (s : State) (v : List DeferredCancel) :
    (s.setDeferred v).tx = s.tx := rfl
@[simp] theorem State.setDeferred_profiles (s : State) (v : List DeferredCancel) :
    (s.setDeferred v).profiles = s.profiles := rfl
@[simp] theorem State.setDeferred_blocks (s : State) (v : List DeferredCancel) :
    (s.setDeferred v).blocks = s.blocks := rfl
@[simp] theorem State.setDeferred_jobs (s : State) (v : List DeferredCancel) :
    (s.setDeferred v).jobs = s.jobs := rfl
@[simp] theorem State.setDeferred_lastId (s : State) (v : List DeferredCancel) :
    (s.setDeferred v).lastId = s.lastId := rfl
@[simp] theorem State.setDeferred_lanes (s : State) (v : List DeferredCancel) :
    (s.setDeferred v).lanes = s.lanes := rfl
@[simp] theorem State.setDeferred_freeUnits (s : State) (v : List DeferredCancel) :
    (s.setDeferred v).freeUnits = s.freeUnits := rfl
@[simp] theorem State.setDeferred_grantQueue (s : State) (v : List DeferredCancel) :
    (s.setDeferred v).grantQueue = s.grantQueue := rfl
@[simp] theorem State.setDeferred_supply (s : State) (v : List DeferredCancel) :
    (s.setDeferred v).supply = s.supply := rfl
@[simp] theorem State.setDeferred_faults (s : State) (v : List DeferredCancel) :
    (s.setDeferred v).faults = s.faults := rfl
@[simp] theorem State.setDeferred_outbox (s : State) (v : List DeferredCancel) :
    (s.setDeferred v).outbox = s.outbox := rfl
@[simp] theorem State.setDeferred_choices (s : State) (v : List DeferredCancel) :
    (s.setDeferred v).choices = s.choices := rfl
@[simp] theorem State.setDeferred_pending (s : State) (v : List DeferredCancel) :
    (s.setDeferred v).pending = s.pending := rfl
@[simp] theorem State.setReplyQueue_inReset (s : State) (v : List Frame) :
    (s.setReplyQueue v).inReset = s.inReset := rfl
@[simp] theorem State.setReplyQueue_linkRate (s : State) (v : List Frame) :
    (s.setReplyQueue v).linkRate = s.linkRate := rfl
@[simp] theorem State.setReplyQueue_epoch (s : State) (v : List Frame) :
    (s.setReplyQueue v).epoch = s.epoch := rfl
@[simp] theorem State.setReplyQueue_rx (s : State) (v : List Frame) :
    (s.setReplyQueue v).rx = s.rx := rfl
@[simp] theorem State.setReplyQueue_tags (s : State) (v : List Frame) :
    (s.setReplyQueue v).tags = s.tags := rfl
@[simp] theorem State.setReplyQueue_deferred (s : State) (v : List Frame) :
    (s.setReplyQueue v).deferred = s.deferred := rfl
@[simp] theorem State.setReplyQueue_replyQueue (s : State) (v : List Frame) :
    (s.setReplyQueue v).replyQueue = v := rfl
@[simp] theorem State.setReplyQueue_tx (s : State) (v : List Frame) :
    (s.setReplyQueue v).tx = s.tx := rfl
@[simp] theorem State.setReplyQueue_profiles (s : State) (v : List Frame) :
    (s.setReplyQueue v).profiles = s.profiles := rfl
@[simp] theorem State.setReplyQueue_blocks (s : State) (v : List Frame) :
    (s.setReplyQueue v).blocks = s.blocks := rfl
@[simp] theorem State.setReplyQueue_jobs (s : State) (v : List Frame) :
    (s.setReplyQueue v).jobs = s.jobs := rfl
@[simp] theorem State.setReplyQueue_lastId (s : State) (v : List Frame) :
    (s.setReplyQueue v).lastId = s.lastId := rfl
@[simp] theorem State.setReplyQueue_lanes (s : State) (v : List Frame) :
    (s.setReplyQueue v).lanes = s.lanes := rfl
@[simp] theorem State.setReplyQueue_freeUnits (s : State) (v : List Frame) :
    (s.setReplyQueue v).freeUnits = s.freeUnits := rfl
@[simp] theorem State.setReplyQueue_grantQueue (s : State) (v : List Frame) :
    (s.setReplyQueue v).grantQueue = s.grantQueue := rfl
@[simp] theorem State.setReplyQueue_supply (s : State) (v : List Frame) :
    (s.setReplyQueue v).supply = s.supply := rfl
@[simp] theorem State.setReplyQueue_faults (s : State) (v : List Frame) :
    (s.setReplyQueue v).faults = s.faults := rfl
@[simp] theorem State.setReplyQueue_outbox (s : State) (v : List Frame) :
    (s.setReplyQueue v).outbox = s.outbox := rfl
@[simp] theorem State.setReplyQueue_choices (s : State) (v : List Frame) :
    (s.setReplyQueue v).choices = s.choices := rfl
@[simp] theorem State.setReplyQueue_pending (s : State) (v : List Frame) :
    (s.setReplyQueue v).pending = s.pending := rfl
@[simp] theorem State.setTx_inReset (s : State) (v : Tx) : (s.setTx v).inReset = s.inReset := rfl
@[simp] theorem State.setTx_linkRate (s : State) (v : Tx) : (s.setTx v).linkRate = s.linkRate := rfl
@[simp] theorem State.setTx_epoch (s : State) (v : Tx) : (s.setTx v).epoch = s.epoch := rfl
@[simp] theorem State.setTx_rx (s : State) (v : Tx) : (s.setTx v).rx = s.rx := rfl
@[simp] theorem State.setTx_tags (s : State) (v : Tx) : (s.setTx v).tags = s.tags := rfl
@[simp] theorem State.setTx_deferred (s : State) (v : Tx) : (s.setTx v).deferred = s.deferred := rfl
@[simp] theorem State.setTx_replyQueue (s : State) (v : Tx) :
    (s.setTx v).replyQueue = s.replyQueue := rfl
@[simp] theorem State.setTx_tx (s : State) (v : Tx) : (s.setTx v).tx = v := rfl
@[simp] theorem State.setTx_profiles (s : State) (v : Tx) : (s.setTx v).profiles = s.profiles := rfl
@[simp] theorem State.setTx_blocks (s : State) (v : Tx) : (s.setTx v).blocks = s.blocks := rfl
@[simp] theorem State.setTx_jobs (s : State) (v : Tx) : (s.setTx v).jobs = s.jobs := rfl
@[simp] theorem State.setTx_lastId (s : State) (v : Tx) : (s.setTx v).lastId = s.lastId := rfl
@[simp] theorem State.setTx_lanes (s : State) (v : Tx) : (s.setTx v).lanes = s.lanes := rfl
@[simp] theorem State.setTx_freeUnits (s : State) (v : Tx) :
    (s.setTx v).freeUnits = s.freeUnits := rfl
@[simp] theorem State.setTx_grantQueue (s : State) (v : Tx) :
    (s.setTx v).grantQueue = s.grantQueue := rfl
@[simp] theorem State.setTx_supply (s : State) (v : Tx) : (s.setTx v).supply = s.supply := rfl
@[simp] theorem State.setTx_faults (s : State) (v : Tx) : (s.setTx v).faults = s.faults := rfl
@[simp] theorem State.setTx_outbox (s : State) (v : Tx) : (s.setTx v).outbox = s.outbox := rfl
@[simp] theorem State.setTx_choices (s : State) (v : Tx) : (s.setTx v).choices = s.choices := rfl
@[simp] theorem State.setTx_pending (s : State) (v : Tx) : (s.setTx v).pending = s.pending := rfl
@[simp] theorem State.setProfiles_inReset (s : State) (v : Vector Profile 4) :
    (s.setProfiles v).inReset = s.inReset := rfl
@[simp] theorem State.setProfiles_linkRate (s : State) (v : Vector Profile 4) :
    (s.setProfiles v).linkRate = s.linkRate := rfl
@[simp] theorem State.setProfiles_epoch (s : State) (v : Vector Profile 4) :
    (s.setProfiles v).epoch = s.epoch := rfl
@[simp] theorem State.setProfiles_rx (s : State) (v : Vector Profile 4) :
    (s.setProfiles v).rx = s.rx := rfl
@[simp] theorem State.setProfiles_tags (s : State) (v : Vector Profile 4) :
    (s.setProfiles v).tags = s.tags := rfl
@[simp] theorem State.setProfiles_deferred (s : State) (v : Vector Profile 4) :
    (s.setProfiles v).deferred = s.deferred := rfl
@[simp] theorem State.setProfiles_replyQueue (s : State) (v : Vector Profile 4) :
    (s.setProfiles v).replyQueue = s.replyQueue := rfl
@[simp] theorem State.setProfiles_tx (s : State) (v : Vector Profile 4) :
    (s.setProfiles v).tx = s.tx := rfl
@[simp] theorem State.setProfiles_profiles (s : State) (v : Vector Profile 4) :
    (s.setProfiles v).profiles = v := rfl
@[simp] theorem State.setProfiles_blocks (s : State) (v : Vector Profile 4) :
    (s.setProfiles v).blocks = s.blocks := rfl
@[simp] theorem State.setProfiles_jobs (s : State) (v : Vector Profile 4) :
    (s.setProfiles v).jobs = s.jobs := rfl
@[simp] theorem State.setProfiles_lastId (s : State) (v : Vector Profile 4) :
    (s.setProfiles v).lastId = s.lastId := rfl
@[simp] theorem State.setProfiles_lanes (s : State) (v : Vector Profile 4) :
    (s.setProfiles v).lanes = s.lanes := rfl
@[simp] theorem State.setProfiles_freeUnits (s : State) (v : Vector Profile 4) :
    (s.setProfiles v).freeUnits = s.freeUnits := rfl
@[simp] theorem State.setProfiles_grantQueue (s : State) (v : Vector Profile 4) :
    (s.setProfiles v).grantQueue = s.grantQueue := rfl
@[simp] theorem State.setProfiles_supply (s : State) (v : Vector Profile 4) :
    (s.setProfiles v).supply = s.supply := rfl
@[simp] theorem State.setProfiles_faults (s : State) (v : Vector Profile 4) :
    (s.setProfiles v).faults = s.faults := rfl
@[simp] theorem State.setProfiles_outbox (s : State) (v : Vector Profile 4) :
    (s.setProfiles v).outbox = s.outbox := rfl
@[simp] theorem State.setProfiles_choices (s : State) (v : Vector Profile 4) :
    (s.setProfiles v).choices = s.choices := rfl
@[simp] theorem State.setProfiles_pending (s : State) (v : Vector Profile 4) :
    (s.setProfiles v).pending = s.pending := rfl
@[simp] theorem State.setBlocks_inReset (s : State) (v : Vector Block 64) :
    (s.setBlocks v).inReset = s.inReset := rfl
@[simp] theorem State.setBlocks_linkRate (s : State) (v : Vector Block 64) :
    (s.setBlocks v).linkRate = s.linkRate := rfl
@[simp] theorem State.setBlocks_epoch (s : State) (v : Vector Block 64) :
    (s.setBlocks v).epoch = s.epoch := rfl
@[simp] theorem State.setBlocks_rx (s : State) (v : Vector Block 64) :
    (s.setBlocks v).rx = s.rx := rfl
@[simp] theorem State.setBlocks_tags (s : State) (v : Vector Block 64) :
    (s.setBlocks v).tags = s.tags := rfl
@[simp] theorem State.setBlocks_deferred (s : State) (v : Vector Block 64) :
    (s.setBlocks v).deferred = s.deferred := rfl
@[simp] theorem State.setBlocks_replyQueue (s : State) (v : Vector Block 64) :
    (s.setBlocks v).replyQueue = s.replyQueue := rfl
@[simp] theorem State.setBlocks_tx (s : State) (v : Vector Block 64) :
    (s.setBlocks v).tx = s.tx := rfl
@[simp] theorem State.setBlocks_profiles (s : State) (v : Vector Block 64) :
    (s.setBlocks v).profiles = s.profiles := rfl
@[simp] theorem State.setBlocks_blocks (s : State) (v : Vector Block 64) :
    (s.setBlocks v).blocks = v := rfl
@[simp] theorem State.setBlocks_jobs (s : State) (v : Vector Block 64) :
    (s.setBlocks v).jobs = s.jobs := rfl
@[simp] theorem State.setBlocks_lastId (s : State) (v : Vector Block 64) :
    (s.setBlocks v).lastId = s.lastId := rfl
@[simp] theorem State.setBlocks_lanes (s : State) (v : Vector Block 64) :
    (s.setBlocks v).lanes = s.lanes := rfl
@[simp] theorem State.setBlocks_freeUnits (s : State) (v : Vector Block 64) :
    (s.setBlocks v).freeUnits = s.freeUnits := rfl
@[simp] theorem State.setBlocks_grantQueue (s : State) (v : Vector Block 64) :
    (s.setBlocks v).grantQueue = s.grantQueue := rfl
@[simp] theorem State.setBlocks_supply (s : State) (v : Vector Block 64) :
    (s.setBlocks v).supply = s.supply := rfl
@[simp] theorem State.setBlocks_faults (s : State) (v : Vector Block 64) :
    (s.setBlocks v).faults = s.faults := rfl
@[simp] theorem State.setBlocks_outbox (s : State) (v : Vector Block 64) :
    (s.setBlocks v).outbox = s.outbox := rfl
@[simp] theorem State.setBlocks_choices (s : State) (v : Vector Block 64) :
    (s.setBlocks v).choices = s.choices := rfl
@[simp] theorem State.setBlocks_pending (s : State) (v : Vector Block 64) :
    (s.setBlocks v).pending = s.pending := rfl
@[simp] theorem State.setJobs_inReset (s : State) (v : List Job) :
    (s.setJobs v).inReset = s.inReset := rfl
@[simp] theorem State.setJobs_linkRate (s : State) (v : List Job) :
    (s.setJobs v).linkRate = s.linkRate := rfl
@[simp] theorem State.setJobs_epoch (s : State) (v : List Job) :
    (s.setJobs v).epoch = s.epoch := rfl
@[simp] theorem State.setJobs_rx (s : State) (v : List Job) : (s.setJobs v).rx = s.rx := rfl
@[simp] theorem State.setJobs_tags (s : State) (v : List Job) : (s.setJobs v).tags = s.tags := rfl
@[simp] theorem State.setJobs_deferred (s : State) (v : List Job) :
    (s.setJobs v).deferred = s.deferred := rfl
@[simp] theorem State.setJobs_replyQueue (s : State) (v : List Job) :
    (s.setJobs v).replyQueue = s.replyQueue := rfl
@[simp] theorem State.setJobs_tx (s : State) (v : List Job) : (s.setJobs v).tx = s.tx := rfl
@[simp] theorem State.setJobs_profiles (s : State) (v : List Job) :
    (s.setJobs v).profiles = s.profiles := rfl
@[simp] theorem State.setJobs_blocks (s : State) (v : List Job) :
    (s.setJobs v).blocks = s.blocks := rfl
@[simp] theorem State.setJobs_jobs (s : State) (v : List Job) : (s.setJobs v).jobs = v := rfl
@[simp] theorem State.setJobs_lastId (s : State) (v : List Job) :
    (s.setJobs v).lastId = s.lastId := rfl
@[simp] theorem State.setJobs_lanes (s : State) (v : List Job) :
    (s.setJobs v).lanes = s.lanes := rfl
@[simp] theorem State.setJobs_freeUnits (s : State) (v : List Job) :
    (s.setJobs v).freeUnits = s.freeUnits := rfl
@[simp] theorem State.setJobs_grantQueue (s : State) (v : List Job) :
    (s.setJobs v).grantQueue = s.grantQueue := rfl
@[simp] theorem State.setJobs_supply (s : State) (v : List Job) :
    (s.setJobs v).supply = s.supply := rfl
@[simp] theorem State.setJobs_faults (s : State) (v : List Job) :
    (s.setJobs v).faults = s.faults := rfl
@[simp] theorem State.setJobs_outbox (s : State) (v : List Job) :
    (s.setJobs v).outbox = s.outbox := rfl
@[simp] theorem State.setJobs_choices (s : State) (v : List Job) :
    (s.setJobs v).choices = s.choices := rfl
@[simp] theorem State.setJobs_pending (s : State) (v : List Job) :
    (s.setJobs v).pending = s.pending := rfl
@[simp] theorem State.setLastId_inReset (s : State) (v : Nat) :
    (s.setLastId v).inReset = s.inReset := rfl
@[simp] theorem State.setLastId_linkRate (s : State) (v : Nat) :
    (s.setLastId v).linkRate = s.linkRate := rfl
@[simp] theorem State.setLastId_epoch (s : State) (v : Nat) : (s.setLastId v).epoch = s.epoch := rfl
@[simp] theorem State.setLastId_rx (s : State) (v : Nat) : (s.setLastId v).rx = s.rx := rfl
@[simp] theorem State.setLastId_tags (s : State) (v : Nat) : (s.setLastId v).tags = s.tags := rfl
@[simp] theorem State.setLastId_deferred (s : State) (v : Nat) :
    (s.setLastId v).deferred = s.deferred := rfl
@[simp] theorem State.setLastId_replyQueue (s : State) (v : Nat) :
    (s.setLastId v).replyQueue = s.replyQueue := rfl
@[simp] theorem State.setLastId_tx (s : State) (v : Nat) : (s.setLastId v).tx = s.tx := rfl
@[simp] theorem State.setLastId_profiles (s : State) (v : Nat) :
    (s.setLastId v).profiles = s.profiles := rfl
@[simp] theorem State.setLastId_blocks (s : State) (v : Nat) :
    (s.setLastId v).blocks = s.blocks := rfl
@[simp] theorem State.setLastId_jobs (s : State) (v : Nat) : (s.setLastId v).jobs = s.jobs := rfl
@[simp] theorem State.setLastId_lastId (s : State) (v : Nat) : (s.setLastId v).lastId = v := rfl
@[simp] theorem State.setLastId_lanes (s : State) (v : Nat) : (s.setLastId v).lanes = s.lanes := rfl
@[simp] theorem State.setLastId_freeUnits (s : State) (v : Nat) :
    (s.setLastId v).freeUnits = s.freeUnits := rfl
@[simp] theorem State.setLastId_grantQueue (s : State) (v : Nat) :
    (s.setLastId v).grantQueue = s.grantQueue := rfl
@[simp] theorem State.setLastId_supply (s : State) (v : Nat) :
    (s.setLastId v).supply = s.supply := rfl
@[simp] theorem State.setLastId_faults (s : State) (v : Nat) :
    (s.setLastId v).faults = s.faults := rfl
@[simp] theorem State.setLastId_outbox (s : State) (v : Nat) :
    (s.setLastId v).outbox = s.outbox := rfl
@[simp] theorem State.setLastId_choices (s : State) (v : Nat) :
    (s.setLastId v).choices = s.choices := rfl
@[simp] theorem State.setLastId_pending (s : State) (v : Nat) :
    (s.setLastId v).pending = s.pending := rfl
@[simp] theorem State.setLanes_inReset (s : State) (v : Vector Lane 8) :
    (s.setLanes v).inReset = s.inReset := rfl
@[simp] theorem State.setLanes_linkRate (s : State) (v : Vector Lane 8) :
    (s.setLanes v).linkRate = s.linkRate := rfl
@[simp] theorem State.setLanes_epoch (s : State) (v : Vector Lane 8) :
    (s.setLanes v).epoch = s.epoch := rfl
@[simp] theorem State.setLanes_rx (s : State) (v : Vector Lane 8) : (s.setLanes v).rx = s.rx := rfl
@[simp] theorem State.setLanes_tags (s : State) (v : Vector Lane 8) :
    (s.setLanes v).tags = s.tags := rfl
@[simp] theorem State.setLanes_deferred (s : State) (v : Vector Lane 8) :
    (s.setLanes v).deferred = s.deferred := rfl
@[simp] theorem State.setLanes_replyQueue (s : State) (v : Vector Lane 8) :
    (s.setLanes v).replyQueue = s.replyQueue := rfl
@[simp] theorem State.setLanes_tx (s : State) (v : Vector Lane 8) : (s.setLanes v).tx = s.tx := rfl
@[simp] theorem State.setLanes_profiles (s : State) (v : Vector Lane 8) :
    (s.setLanes v).profiles = s.profiles := rfl
@[simp] theorem State.setLanes_blocks (s : State) (v : Vector Lane 8) :
    (s.setLanes v).blocks = s.blocks := rfl
@[simp] theorem State.setLanes_jobs (s : State) (v : Vector Lane 8) :
    (s.setLanes v).jobs = s.jobs := rfl
@[simp] theorem State.setLanes_lastId (s : State) (v : Vector Lane 8) :
    (s.setLanes v).lastId = s.lastId := rfl
@[simp] theorem State.setLanes_lanes (s : State) (v : Vector Lane 8) :
    (s.setLanes v).lanes = v := rfl
@[simp] theorem State.setLanes_freeUnits (s : State) (v : Vector Lane 8) :
    (s.setLanes v).freeUnits = s.freeUnits := rfl
@[simp] theorem State.setLanes_grantQueue (s : State) (v : Vector Lane 8) :
    (s.setLanes v).grantQueue = s.grantQueue := rfl
@[simp] theorem State.setLanes_supply (s : State) (v : Vector Lane 8) :
    (s.setLanes v).supply = s.supply := rfl
@[simp] theorem State.setLanes_faults (s : State) (v : Vector Lane 8) :
    (s.setLanes v).faults = s.faults := rfl
@[simp] theorem State.setLanes_outbox (s : State) (v : Vector Lane 8) :
    (s.setLanes v).outbox = s.outbox := rfl
@[simp] theorem State.setLanes_choices (s : State) (v : Vector Lane 8) :
    (s.setLanes v).choices = s.choices := rfl
@[simp] theorem State.setLanes_pending (s : State) (v : Vector Lane 8) :
    (s.setLanes v).pending = s.pending := rfl
@[simp] theorem State.setFreeUnits_inReset (s : State) (v : Nat) :
    (s.setFreeUnits v).inReset = s.inReset := rfl
@[simp] theorem State.setFreeUnits_linkRate (s : State) (v : Nat) :
    (s.setFreeUnits v).linkRate = s.linkRate := rfl
@[simp] theorem State.setFreeUnits_epoch (s : State) (v : Nat) :
    (s.setFreeUnits v).epoch = s.epoch := rfl
@[simp] theorem State.setFreeUnits_rx (s : State) (v : Nat) : (s.setFreeUnits v).rx = s.rx := rfl
@[simp] theorem State.setFreeUnits_tags (s : State) (v : Nat) :
    (s.setFreeUnits v).tags = s.tags := rfl
@[simp] theorem State.setFreeUnits_deferred (s : State) (v : Nat) :
    (s.setFreeUnits v).deferred = s.deferred := rfl
@[simp] theorem State.setFreeUnits_replyQueue (s : State) (v : Nat) :
    (s.setFreeUnits v).replyQueue = s.replyQueue := rfl
@[simp] theorem State.setFreeUnits_tx (s : State) (v : Nat) : (s.setFreeUnits v).tx = s.tx := rfl
@[simp] theorem State.setFreeUnits_profiles (s : State) (v : Nat) :
    (s.setFreeUnits v).profiles = s.profiles := rfl
@[simp] theorem State.setFreeUnits_blocks (s : State) (v : Nat) :
    (s.setFreeUnits v).blocks = s.blocks := rfl
@[simp] theorem State.setFreeUnits_jobs (s : State) (v : Nat) :
    (s.setFreeUnits v).jobs = s.jobs := rfl
@[simp] theorem State.setFreeUnits_lastId (s : State) (v : Nat) :
    (s.setFreeUnits v).lastId = s.lastId := rfl
@[simp] theorem State.setFreeUnits_lanes (s : State) (v : Nat) :
    (s.setFreeUnits v).lanes = s.lanes := rfl
@[simp] theorem State.setFreeUnits_freeUnits (s : State) (v : Nat) :
    (s.setFreeUnits v).freeUnits = v := rfl
@[simp] theorem State.setFreeUnits_grantQueue (s : State) (v : Nat) :
    (s.setFreeUnits v).grantQueue = s.grantQueue := rfl
@[simp] theorem State.setFreeUnits_supply (s : State) (v : Nat) :
    (s.setFreeUnits v).supply = s.supply := rfl
@[simp] theorem State.setFreeUnits_faults (s : State) (v : Nat) :
    (s.setFreeUnits v).faults = s.faults := rfl
@[simp] theorem State.setFreeUnits_outbox (s : State) (v : Nat) :
    (s.setFreeUnits v).outbox = s.outbox := rfl
@[simp] theorem State.setFreeUnits_choices (s : State) (v : Nat) :
    (s.setFreeUnits v).choices = s.choices := rfl
@[simp] theorem State.setFreeUnits_pending (s : State) (v : Nat) :
    (s.setFreeUnits v).pending = s.pending := rfl
@[simp] theorem State.setGrantQueue_inReset (s : State) (v : List GrantEntry) :
    (s.setGrantQueue v).inReset = s.inReset := rfl
@[simp] theorem State.setGrantQueue_linkRate (s : State) (v : List GrantEntry) :
    (s.setGrantQueue v).linkRate = s.linkRate := rfl
@[simp] theorem State.setGrantQueue_epoch (s : State) (v : List GrantEntry) :
    (s.setGrantQueue v).epoch = s.epoch := rfl
@[simp] theorem State.setGrantQueue_rx (s : State) (v : List GrantEntry) :
    (s.setGrantQueue v).rx = s.rx := rfl
@[simp] theorem State.setGrantQueue_tags (s : State) (v : List GrantEntry) :
    (s.setGrantQueue v).tags = s.tags := rfl
@[simp] theorem State.setGrantQueue_deferred (s : State) (v : List GrantEntry) :
    (s.setGrantQueue v).deferred = s.deferred := rfl
@[simp] theorem State.setGrantQueue_replyQueue (s : State) (v : List GrantEntry) :
    (s.setGrantQueue v).replyQueue = s.replyQueue := rfl
@[simp] theorem State.setGrantQueue_tx (s : State) (v : List GrantEntry) :
    (s.setGrantQueue v).tx = s.tx := rfl
@[simp] theorem State.setGrantQueue_profiles (s : State) (v : List GrantEntry) :
    (s.setGrantQueue v).profiles = s.profiles := rfl
@[simp] theorem State.setGrantQueue_blocks (s : State) (v : List GrantEntry) :
    (s.setGrantQueue v).blocks = s.blocks := rfl
@[simp] theorem State.setGrantQueue_jobs (s : State) (v : List GrantEntry) :
    (s.setGrantQueue v).jobs = s.jobs := rfl
@[simp] theorem State.setGrantQueue_lastId (s : State) (v : List GrantEntry) :
    (s.setGrantQueue v).lastId = s.lastId := rfl
@[simp] theorem State.setGrantQueue_lanes (s : State) (v : List GrantEntry) :
    (s.setGrantQueue v).lanes = s.lanes := rfl
@[simp] theorem State.setGrantQueue_freeUnits (s : State) (v : List GrantEntry) :
    (s.setGrantQueue v).freeUnits = s.freeUnits := rfl
@[simp] theorem State.setGrantQueue_grantQueue (s : State) (v : List GrantEntry) :
    (s.setGrantQueue v).grantQueue = v := rfl
@[simp] theorem State.setGrantQueue_supply (s : State) (v : List GrantEntry) :
    (s.setGrantQueue v).supply = s.supply := rfl
@[simp] theorem State.setGrantQueue_faults (s : State) (v : List GrantEntry) :
    (s.setGrantQueue v).faults = s.faults := rfl
@[simp] theorem State.setGrantQueue_outbox (s : State) (v : List GrantEntry) :
    (s.setGrantQueue v).outbox = s.outbox := rfl
@[simp] theorem State.setGrantQueue_choices (s : State) (v : List GrantEntry) :
    (s.setGrantQueue v).choices = s.choices := rfl
@[simp] theorem State.setGrantQueue_pending (s : State) (v : List GrantEntry) :
    (s.setGrantQueue v).pending = s.pending := rfl
@[simp] theorem State.setSupply_inReset (s : State) (v : Supply) :
    (s.setSupply v).inReset = s.inReset := rfl
@[simp] theorem State.setSupply_linkRate (s : State) (v : Supply) :
    (s.setSupply v).linkRate = s.linkRate := rfl
@[simp] theorem State.setSupply_epoch (s : State) (v : Supply) :
    (s.setSupply v).epoch = s.epoch := rfl
@[simp] theorem State.setSupply_rx (s : State) (v : Supply) : (s.setSupply v).rx = s.rx := rfl
@[simp] theorem State.setSupply_tags (s : State) (v : Supply) : (s.setSupply v).tags = s.tags := rfl
@[simp] theorem State.setSupply_deferred (s : State) (v : Supply) :
    (s.setSupply v).deferred = s.deferred := rfl
@[simp] theorem State.setSupply_replyQueue (s : State) (v : Supply) :
    (s.setSupply v).replyQueue = s.replyQueue := rfl
@[simp] theorem State.setSupply_tx (s : State) (v : Supply) : (s.setSupply v).tx = s.tx := rfl
@[simp] theorem State.setSupply_profiles (s : State) (v : Supply) :
    (s.setSupply v).profiles = s.profiles := rfl
@[simp] theorem State.setSupply_blocks (s : State) (v : Supply) :
    (s.setSupply v).blocks = s.blocks := rfl
@[simp] theorem State.setSupply_jobs (s : State) (v : Supply) : (s.setSupply v).jobs = s.jobs := rfl
@[simp] theorem State.setSupply_lastId (s : State) (v : Supply) :
    (s.setSupply v).lastId = s.lastId := rfl
@[simp] theorem State.setSupply_lanes (s : State) (v : Supply) :
    (s.setSupply v).lanes = s.lanes := rfl
@[simp] theorem State.setSupply_freeUnits (s : State) (v : Supply) :
    (s.setSupply v).freeUnits = s.freeUnits := rfl
@[simp] theorem State.setSupply_grantQueue (s : State) (v : Supply) :
    (s.setSupply v).grantQueue = s.grantQueue := rfl
@[simp] theorem State.setSupply_supply (s : State) (v : Supply) : (s.setSupply v).supply = v := rfl
@[simp] theorem State.setSupply_faults (s : State) (v : Supply) :
    (s.setSupply v).faults = s.faults := rfl
@[simp] theorem State.setSupply_outbox (s : State) (v : Supply) :
    (s.setSupply v).outbox = s.outbox := rfl
@[simp] theorem State.setSupply_choices (s : State) (v : Supply) :
    (s.setSupply v).choices = s.choices := rfl
@[simp] theorem State.setSupply_pending (s : State) (v : Supply) :
    (s.setSupply v).pending = s.pending := rfl
@[simp] theorem State.setFaults_inReset (s : State) (v : List FaultRecord) :
    (s.setFaults v).inReset = s.inReset := rfl
@[simp] theorem State.setFaults_linkRate (s : State) (v : List FaultRecord) :
    (s.setFaults v).linkRate = s.linkRate := rfl
@[simp] theorem State.setFaults_epoch (s : State) (v : List FaultRecord) :
    (s.setFaults v).epoch = s.epoch := rfl
@[simp] theorem State.setFaults_rx (s : State) (v : List FaultRecord) :
    (s.setFaults v).rx = s.rx := rfl
@[simp] theorem State.setFaults_tags (s : State) (v : List FaultRecord) :
    (s.setFaults v).tags = s.tags := rfl
@[simp] theorem State.setFaults_deferred (s : State) (v : List FaultRecord) :
    (s.setFaults v).deferred = s.deferred := rfl
@[simp] theorem State.setFaults_replyQueue (s : State) (v : List FaultRecord) :
    (s.setFaults v).replyQueue = s.replyQueue := rfl
@[simp] theorem State.setFaults_tx (s : State) (v : List FaultRecord) :
    (s.setFaults v).tx = s.tx := rfl
@[simp] theorem State.setFaults_profiles (s : State) (v : List FaultRecord) :
    (s.setFaults v).profiles = s.profiles := rfl
@[simp] theorem State.setFaults_blocks (s : State) (v : List FaultRecord) :
    (s.setFaults v).blocks = s.blocks := rfl
@[simp] theorem State.setFaults_jobs (s : State) (v : List FaultRecord) :
    (s.setFaults v).jobs = s.jobs := rfl
@[simp] theorem State.setFaults_lastId (s : State) (v : List FaultRecord) :
    (s.setFaults v).lastId = s.lastId := rfl
@[simp] theorem State.setFaults_lanes (s : State) (v : List FaultRecord) :
    (s.setFaults v).lanes = s.lanes := rfl
@[simp] theorem State.setFaults_freeUnits (s : State) (v : List FaultRecord) :
    (s.setFaults v).freeUnits = s.freeUnits := rfl
@[simp] theorem State.setFaults_grantQueue (s : State) (v : List FaultRecord) :
    (s.setFaults v).grantQueue = s.grantQueue := rfl
@[simp] theorem State.setFaults_supply (s : State) (v : List FaultRecord) :
    (s.setFaults v).supply = s.supply := rfl
@[simp] theorem State.setFaults_faults (s : State) (v : List FaultRecord) :
    (s.setFaults v).faults = v := rfl
@[simp] theorem State.setFaults_outbox (s : State) (v : List FaultRecord) :
    (s.setFaults v).outbox = s.outbox := rfl
@[simp] theorem State.setFaults_choices (s : State) (v : List FaultRecord) :
    (s.setFaults v).choices = s.choices := rfl
@[simp] theorem State.setFaults_pending (s : State) (v : List FaultRecord) :
    (s.setFaults v).pending = s.pending := rfl
@[simp] theorem State.setOutbox_inReset (s : State) (v : Outbox) :
    (s.setOutbox v).inReset = s.inReset := rfl
@[simp] theorem State.setOutbox_linkRate (s : State) (v : Outbox) :
    (s.setOutbox v).linkRate = s.linkRate := rfl
@[simp] theorem State.setOutbox_epoch (s : State) (v : Outbox) :
    (s.setOutbox v).epoch = s.epoch := rfl
@[simp] theorem State.setOutbox_rx (s : State) (v : Outbox) : (s.setOutbox v).rx = s.rx := rfl
@[simp] theorem State.setOutbox_tags (s : State) (v : Outbox) : (s.setOutbox v).tags = s.tags := rfl
@[simp] theorem State.setOutbox_deferred (s : State) (v : Outbox) :
    (s.setOutbox v).deferred = s.deferred := rfl
@[simp] theorem State.setOutbox_replyQueue (s : State) (v : Outbox) :
    (s.setOutbox v).replyQueue = s.replyQueue := rfl
@[simp] theorem State.setOutbox_tx (s : State) (v : Outbox) : (s.setOutbox v).tx = s.tx := rfl
@[simp] theorem State.setOutbox_profiles (s : State) (v : Outbox) :
    (s.setOutbox v).profiles = s.profiles := rfl
@[simp] theorem State.setOutbox_blocks (s : State) (v : Outbox) :
    (s.setOutbox v).blocks = s.blocks := rfl
@[simp] theorem State.setOutbox_jobs (s : State) (v : Outbox) : (s.setOutbox v).jobs = s.jobs := rfl
@[simp] theorem State.setOutbox_lastId (s : State) (v : Outbox) :
    (s.setOutbox v).lastId = s.lastId := rfl
@[simp] theorem State.setOutbox_lanes (s : State) (v : Outbox) :
    (s.setOutbox v).lanes = s.lanes := rfl
@[simp] theorem State.setOutbox_freeUnits (s : State) (v : Outbox) :
    (s.setOutbox v).freeUnits = s.freeUnits := rfl
@[simp] theorem State.setOutbox_grantQueue (s : State) (v : Outbox) :
    (s.setOutbox v).grantQueue = s.grantQueue := rfl
@[simp] theorem State.setOutbox_supply (s : State) (v : Outbox) :
    (s.setOutbox v).supply = s.supply := rfl
@[simp] theorem State.setOutbox_faults (s : State) (v : Outbox) :
    (s.setOutbox v).faults = s.faults := rfl
@[simp] theorem State.setOutbox_outbox (s : State) (v : Outbox) : (s.setOutbox v).outbox = v := rfl
@[simp] theorem State.setOutbox_choices (s : State) (v : Outbox) :
    (s.setOutbox v).choices = s.choices := rfl
@[simp] theorem State.setOutbox_pending (s : State) (v : Outbox) :
    (s.setOutbox v).pending = s.pending := rfl
@[simp] theorem State.setChoices_inReset (s : State) (v : Nat) :
    (s.setChoices v).inReset = s.inReset := rfl
@[simp] theorem State.setChoices_linkRate (s : State) (v : Nat) :
    (s.setChoices v).linkRate = s.linkRate := rfl
@[simp] theorem State.setChoices_epoch (s : State) (v : Nat) :
    (s.setChoices v).epoch = s.epoch := rfl
@[simp] theorem State.setChoices_rx (s : State) (v : Nat) : (s.setChoices v).rx = s.rx := rfl
@[simp] theorem State.setChoices_tags (s : State) (v : Nat) : (s.setChoices v).tags = s.tags := rfl
@[simp] theorem State.setChoices_deferred (s : State) (v : Nat) :
    (s.setChoices v).deferred = s.deferred := rfl
@[simp] theorem State.setChoices_replyQueue (s : State) (v : Nat) :
    (s.setChoices v).replyQueue = s.replyQueue := rfl
@[simp] theorem State.setChoices_tx (s : State) (v : Nat) : (s.setChoices v).tx = s.tx := rfl
@[simp] theorem State.setChoices_profiles (s : State) (v : Nat) :
    (s.setChoices v).profiles = s.profiles := rfl
@[simp] theorem State.setChoices_blocks (s : State) (v : Nat) :
    (s.setChoices v).blocks = s.blocks := rfl
@[simp] theorem State.setChoices_jobs (s : State) (v : Nat) : (s.setChoices v).jobs = s.jobs := rfl
@[simp] theorem State.setChoices_lastId (s : State) (v : Nat) :
    (s.setChoices v).lastId = s.lastId := rfl
@[simp] theorem State.setChoices_lanes (s : State) (v : Nat) :
    (s.setChoices v).lanes = s.lanes := rfl
@[simp] theorem State.setChoices_freeUnits (s : State) (v : Nat) :
    (s.setChoices v).freeUnits = s.freeUnits := rfl
@[simp] theorem State.setChoices_grantQueue (s : State) (v : Nat) :
    (s.setChoices v).grantQueue = s.grantQueue := rfl
@[simp] theorem State.setChoices_supply (s : State) (v : Nat) :
    (s.setChoices v).supply = s.supply := rfl
@[simp] theorem State.setChoices_faults (s : State) (v : Nat) :
    (s.setChoices v).faults = s.faults := rfl
@[simp] theorem State.setChoices_outbox (s : State) (v : Nat) :
    (s.setChoices v).outbox = s.outbox := rfl
@[simp] theorem State.setChoices_choices (s : State) (v : Nat) : (s.setChoices v).choices = v := rfl
@[simp] theorem State.setChoices_pending (s : State) (v : Nat) :
    (s.setChoices v).pending = s.pending := rfl
@[simp] theorem State.setPending_inReset (s : State) (v : List Instr) :
    (s.setPending v).inReset = s.inReset := rfl
@[simp] theorem State.setPending_linkRate (s : State) (v : List Instr) :
    (s.setPending v).linkRate = s.linkRate := rfl
@[simp] theorem State.setPending_epoch (s : State) (v : List Instr) :
    (s.setPending v).epoch = s.epoch := rfl
@[simp] theorem State.setPending_rx (s : State) (v : List Instr) : (s.setPending v).rx = s.rx := rfl
@[simp] theorem State.setPending_tags (s : State) (v : List Instr) :
    (s.setPending v).tags = s.tags := rfl
@[simp] theorem State.setPending_deferred (s : State) (v : List Instr) :
    (s.setPending v).deferred = s.deferred := rfl
@[simp] theorem State.setPending_replyQueue (s : State) (v : List Instr) :
    (s.setPending v).replyQueue = s.replyQueue := rfl
@[simp] theorem State.setPending_tx (s : State) (v : List Instr) : (s.setPending v).tx = s.tx := rfl
@[simp] theorem State.setPending_profiles (s : State) (v : List Instr) :
    (s.setPending v).profiles = s.profiles := rfl
@[simp] theorem State.setPending_blocks (s : State) (v : List Instr) :
    (s.setPending v).blocks = s.blocks := rfl
@[simp] theorem State.setPending_jobs (s : State) (v : List Instr) :
    (s.setPending v).jobs = s.jobs := rfl
@[simp] theorem State.setPending_lastId (s : State) (v : List Instr) :
    (s.setPending v).lastId = s.lastId := rfl
@[simp] theorem State.setPending_lanes (s : State) (v : List Instr) :
    (s.setPending v).lanes = s.lanes := rfl
@[simp] theorem State.setPending_freeUnits (s : State) (v : List Instr) :
    (s.setPending v).freeUnits = s.freeUnits := rfl
@[simp] theorem State.setPending_grantQueue (s : State) (v : List Instr) :
    (s.setPending v).grantQueue = s.grantQueue := rfl
@[simp] theorem State.setPending_supply (s : State) (v : List Instr) :
    (s.setPending v).supply = s.supply := rfl
@[simp] theorem State.setPending_faults (s : State) (v : List Instr) :
    (s.setPending v).faults = s.faults := rfl
@[simp] theorem State.setPending_outbox (s : State) (v : List Instr) :
    (s.setPending v).outbox = s.outbox := rfl
@[simp] theorem State.setPending_choices (s : State) (v : List Instr) :
    (s.setPending v).choices = s.choices := rfl
@[simp] theorem State.setPending_pending (s : State) (v : List Instr) :
    (s.setPending v).pending = v := rfl

/-! ### Equality of states, field by field -/

theorem State.eq_of_fields {s t : State} (h : ∀ f, StateField.Same s t f) : t = s := by
  have h' := fun f => h f
  cases s; cases t
  simp only [State.mk.injEq]
  exact ⟨h' .inReset, h' .linkRate, h' .epoch, h' .rx, h' .tags, h' .deferred, h' .replyQueue, h' .tx,
    h' .profiles, h' .blocks, h' .jobs, h' .lastId, h' .lanes, h' .freeUnits, h' .grantQueue,
    h' .supply, h' .faults, h' .outbox, h' .choices, h' .pending⟩

theorem State.setInReset_self (s : State) : s.setInReset s.inReset = s := rfl
theorem State.setLinkRate_self (s : State) : s.setLinkRate s.linkRate = s := rfl
theorem State.setEpoch_self (s : State) : s.setEpoch s.epoch = s := rfl
theorem State.setRx_self (s : State) : s.setRx s.rx = s := rfl
theorem State.setTags_self (s : State) : s.setTags s.tags = s := rfl
theorem State.setDeferred_self (s : State) : s.setDeferred s.deferred = s := rfl
theorem State.setReplyQueue_self (s : State) : s.setReplyQueue s.replyQueue = s := rfl
theorem State.setTx_self (s : State) : s.setTx s.tx = s := rfl
theorem State.setProfiles_self (s : State) : s.setProfiles s.profiles = s := rfl
theorem State.setBlocks_self (s : State) : s.setBlocks s.blocks = s := rfl
theorem State.setJobs_self (s : State) : s.setJobs s.jobs = s := rfl
theorem State.setLastId_self (s : State) : s.setLastId s.lastId = s := rfl
theorem State.setLanes_self (s : State) : s.setLanes s.lanes = s := rfl
theorem State.setFreeUnits_self (s : State) : s.setFreeUnits s.freeUnits = s := rfl
theorem State.setGrantQueue_self (s : State) : s.setGrantQueue s.grantQueue = s := rfl
theorem State.setSupply_self (s : State) : s.setSupply s.supply = s := rfl
theorem State.setFaults_self (s : State) : s.setFaults s.faults = s := rfl
theorem State.setOutbox_self (s : State) : s.setOutbox s.outbox = s := rfl
theorem State.setChoices_self (s : State) : s.setChoices s.choices = s := rfl
theorem State.setPending_self (s : State) : s.setPending s.pending = s := rfl

/-! ### Lanes -/

@[simp] theorem State.lane_setInReset (s : State) (v) (l : LaneId) :
    (s.setInReset v).lane l = s.lane l := rfl
@[simp] theorem State.lane_setLinkRate (s : State) (v) (l : LaneId) :
    (s.setLinkRate v).lane l = s.lane l := rfl
@[simp] theorem State.lane_setEpoch (s : State) (v) (l : LaneId) :
    (s.setEpoch v).lane l = s.lane l := rfl
@[simp] theorem State.lane_setRx (s : State) (v) (l : LaneId) : (s.setRx v).lane l = s.lane l := rfl
@[simp] theorem State.lane_setTags (s : State) (v) (l : LaneId) :
    (s.setTags v).lane l = s.lane l := rfl
@[simp] theorem State.lane_setDeferred (s : State) (v) (l : LaneId) :
    (s.setDeferred v).lane l = s.lane l := rfl
@[simp] theorem State.lane_setReplyQueue (s : State) (v) (l : LaneId) :
    (s.setReplyQueue v).lane l = s.lane l := rfl
@[simp] theorem State.lane_setTx (s : State) (v) (l : LaneId) : (s.setTx v).lane l = s.lane l := rfl
@[simp] theorem State.lane_setProfiles (s : State) (v) (l : LaneId) :
    (s.setProfiles v).lane l = s.lane l := rfl
@[simp] theorem State.lane_setBlocks (s : State) (v) (l : LaneId) :
    (s.setBlocks v).lane l = s.lane l := rfl
@[simp] theorem State.lane_setJobs (s : State) (v) (l : LaneId) :
    (s.setJobs v).lane l = s.lane l := rfl
@[simp] theorem State.lane_setLastId (s : State) (v) (l : LaneId) :
    (s.setLastId v).lane l = s.lane l := rfl
@[simp] theorem State.lane_setFreeUnits (s : State) (v) (l : LaneId) :
    (s.setFreeUnits v).lane l = s.lane l := rfl
@[simp] theorem State.lane_setGrantQueue (s : State) (v) (l : LaneId) :
    (s.setGrantQueue v).lane l = s.lane l := rfl
@[simp] theorem State.lane_setSupply (s : State) (v) (l : LaneId) :
    (s.setSupply v).lane l = s.lane l := rfl
@[simp] theorem State.lane_setFaults (s : State) (v) (l : LaneId) :
    (s.setFaults v).lane l = s.lane l := rfl
@[simp] theorem State.lane_setOutbox (s : State) (v) (l : LaneId) :
    (s.setOutbox v).lane l = s.lane l := rfl
@[simp] theorem State.lane_setChoices (s : State) (v) (l : LaneId) :
    (s.setChoices v).lane l = s.lane l := rfl
@[simp] theorem State.lane_setPending (s : State) (v) (l : LaneId) :
    (s.setPending v).lane l = s.lane l := rfl
@[simp] theorem State.lane_setLanes (s : State) (v : Vector Lane 8) (l : LaneId) :
    (s.setLanes v).lane l = v[l] := rfl

theorem State.lane_updLane (s : State) (l m : LaneId) (f : Lane → Lane) :
    (s.updLane l f).lane m = if l = m then f (s.lane l) else s.lane m := by
  simp only [State.updLane, State.lane]
  by_cases h : l = m
  · subst h; simp
  · have : l.val ≠ m.val := fun e => h (Fin.ext e)
    simp [h, Vector.getElem_set_ne, this]

@[simp] theorem State.lane_updLane_self (s : State) (l : LaneId) (f : Lane → Lane) :
    (s.updLane l f).lane l = f (s.lane l) := by simp [State.lane_updLane]

theorem State.lane_updLane_ne (s : State) {l m : LaneId} (f : Lane → Lane) (h : l ≠ m) :
    (s.updLane l f).lane m = s.lane m := by simp [State.lane_updLane, h]

/-- Two updates of one lane are one. -/
theorem State.updLane_updLane (s : State) (l : LaneId) (f g : Lane → Lane) :
    (s.updLane l f).updLane l g = s.updLane l (g ∘ f) := by
  show (s.updLane l f).setLanes _ = s.setLanes _
  simp [State.updLane, State.setLanes, State.lane]

/-- The lanes of two states agree if each lane does. -/
theorem lanes_ext {v w : Vector Lane 8} (h : ∀ l : LaneId, v[l] = w[l]) : v = w := by
  apply Vector.ext
  intro i hi
  exact h ⟨i, hi⟩

@[simp] theorem State.updLane_inReset (s : State) (l : LaneId) (g : Lane → Lane) :
    (s.updLane l g).inReset = s.inReset := rfl
@[simp] theorem State.updLane_linkRate (s : State) (l : LaneId) (g : Lane → Lane) :
    (s.updLane l g).linkRate = s.linkRate := rfl
@[simp] theorem State.updLane_epoch (s : State) (l : LaneId) (g : Lane → Lane) :
    (s.updLane l g).epoch = s.epoch := rfl
@[simp] theorem State.updLane_rx (s : State) (l : LaneId) (g : Lane → Lane) :
    (s.updLane l g).rx = s.rx := rfl
@[simp] theorem State.updLane_tags (s : State) (l : LaneId) (g : Lane → Lane) :
    (s.updLane l g).tags = s.tags := rfl
@[simp] theorem State.updLane_deferred (s : State) (l : LaneId) (g : Lane → Lane) :
    (s.updLane l g).deferred = s.deferred := rfl
@[simp] theorem State.updLane_replyQueue (s : State) (l : LaneId) (g : Lane → Lane) :
    (s.updLane l g).replyQueue = s.replyQueue := rfl
@[simp] theorem State.updLane_tx (s : State) (l : LaneId) (g : Lane → Lane) :
    (s.updLane l g).tx = s.tx := rfl
@[simp] theorem State.updLane_profiles (s : State) (l : LaneId) (g : Lane → Lane) :
    (s.updLane l g).profiles = s.profiles := rfl
@[simp] theorem State.updLane_blocks (s : State) (l : LaneId) (g : Lane → Lane) :
    (s.updLane l g).blocks = s.blocks := rfl
@[simp] theorem State.updLane_jobs (s : State) (l : LaneId) (g : Lane → Lane) :
    (s.updLane l g).jobs = s.jobs := rfl
@[simp] theorem State.updLane_lastId (s : State) (l : LaneId) (g : Lane → Lane) :
    (s.updLane l g).lastId = s.lastId := rfl
@[simp] theorem State.updLane_freeUnits (s : State) (l : LaneId) (g : Lane → Lane) :
    (s.updLane l g).freeUnits = s.freeUnits := rfl
@[simp] theorem State.updLane_grantQueue (s : State) (l : LaneId) (g : Lane → Lane) :
    (s.updLane l g).grantQueue = s.grantQueue := rfl
@[simp] theorem State.updLane_supply (s : State) (l : LaneId) (g : Lane → Lane) :
    (s.updLane l g).supply = s.supply := rfl
@[simp] theorem State.updLane_faults (s : State) (l : LaneId) (g : Lane → Lane) :
    (s.updLane l g).faults = s.faults := rfl
@[simp] theorem State.updLane_outbox (s : State) (l : LaneId) (g : Lane → Lane) :
    (s.updLane l g).outbox = s.outbox := rfl
@[simp] theorem State.updLane_choices (s : State) (l : LaneId) (g : Lane → Lane) :
    (s.updLane l g).choices = s.choices := rfl
@[simp] theorem State.updLane_pending (s : State) (l : LaneId) (g : Lane → Lane) :
    (s.updLane l g).pending = s.pending := rfl

/-! ### Jobs -/

@[simp] theorem State.job?_setInReset (s : State) (v) (id : Nat) :
    (s.setInReset v).job? id = s.job? id := rfl
@[simp] theorem State.job?_setLinkRate (s : State) (v) (id : Nat) :
    (s.setLinkRate v).job? id = s.job? id := rfl
@[simp] theorem State.job?_setEpoch (s : State) (v) (id : Nat) :
    (s.setEpoch v).job? id = s.job? id := rfl
@[simp] theorem State.job?_setRx (s : State) (v) (id : Nat) : (s.setRx v).job? id = s.job? id := rfl
@[simp] theorem State.job?_setTags (s : State) (v) (id : Nat) :
    (s.setTags v).job? id = s.job? id := rfl
@[simp] theorem State.job?_setDeferred (s : State) (v) (id : Nat) :
    (s.setDeferred v).job? id = s.job? id := rfl
@[simp] theorem State.job?_setReplyQueue (s : State) (v) (id : Nat) :
    (s.setReplyQueue v).job? id = s.job? id := rfl
@[simp] theorem State.job?_setTx (s : State) (v) (id : Nat) : (s.setTx v).job? id = s.job? id := rfl
@[simp] theorem State.job?_setProfiles (s : State) (v) (id : Nat) :
    (s.setProfiles v).job? id = s.job? id := rfl
@[simp] theorem State.job?_setBlocks (s : State) (v) (id : Nat) :
    (s.setBlocks v).job? id = s.job? id := rfl
@[simp] theorem State.job?_setLastId (s : State) (v) (id : Nat) :
    (s.setLastId v).job? id = s.job? id := rfl
@[simp] theorem State.job?_setLanes (s : State) (v) (id : Nat) :
    (s.setLanes v).job? id = s.job? id := rfl
@[simp] theorem State.job?_setFreeUnits (s : State) (v) (id : Nat) :
    (s.setFreeUnits v).job? id = s.job? id := rfl
@[simp] theorem State.job?_setGrantQueue (s : State) (v) (id : Nat) :
    (s.setGrantQueue v).job? id = s.job? id := rfl
@[simp] theorem State.job?_setSupply (s : State) (v) (id : Nat) :
    (s.setSupply v).job? id = s.job? id := rfl
@[simp] theorem State.job?_setFaults (s : State) (v) (id : Nat) :
    (s.setFaults v).job? id = s.job? id := rfl
@[simp] theorem State.job?_setOutbox (s : State) (v) (id : Nat) :
    (s.setOutbox v).job? id = s.job? id := rfl
@[simp] theorem State.job?_setChoices (s : State) (v) (id : Nat) :
    (s.setChoices v).job? id = s.job? id := rfl
@[simp] theorem State.job?_setPending (s : State) (v) (id : Nat) :
    (s.setPending v).job? id = s.job? id := rfl
@[simp] theorem State.job?_updLane (s : State) (l : LaneId) (f : Lane → Lane) (id : Nat) :
    (s.updLane l f).job? id = s.job? id := rfl

@[simp] theorem State.updJob_jobs (s : State) (id : Nat) (f : Job → Job) :
    (s.updJob id f).jobs = s.jobs.map fun j => if j.id = id then f j else j := rfl

@[simp] theorem State.lane_updJob (s : State) (id : Nat) (f : Job → Job) (l : LaneId) :
    (s.updJob id f).lane l = s.lane l := rfl

@[simp] theorem State.updJob_inReset (s : State) (id : Nat) (g : Job → Job) :
    (s.updJob id g).inReset = s.inReset := rfl
@[simp] theorem State.updJob_linkRate (s : State) (id : Nat) (g : Job → Job) :
    (s.updJob id g).linkRate = s.linkRate := rfl
@[simp] theorem State.updJob_epoch (s : State) (id : Nat) (g : Job → Job) :
    (s.updJob id g).epoch = s.epoch := rfl
@[simp] theorem State.updJob_rx (s : State) (id : Nat) (g : Job → Job) :
    (s.updJob id g).rx = s.rx := rfl
@[simp] theorem State.updJob_tags (s : State) (id : Nat) (g : Job → Job) :
    (s.updJob id g).tags = s.tags := rfl
@[simp] theorem State.updJob_deferred (s : State) (id : Nat) (g : Job → Job) :
    (s.updJob id g).deferred = s.deferred := rfl
@[simp] theorem State.updJob_replyQueue (s : State) (id : Nat) (g : Job → Job) :
    (s.updJob id g).replyQueue = s.replyQueue := rfl
@[simp] theorem State.updJob_tx (s : State) (id : Nat) (g : Job → Job) :
    (s.updJob id g).tx = s.tx := rfl
@[simp] theorem State.updJob_profiles (s : State) (id : Nat) (g : Job → Job) :
    (s.updJob id g).profiles = s.profiles := rfl
@[simp] theorem State.updJob_blocks (s : State) (id : Nat) (g : Job → Job) :
    (s.updJob id g).blocks = s.blocks := rfl
@[simp] theorem State.updJob_lastId (s : State) (id : Nat) (g : Job → Job) :
    (s.updJob id g).lastId = s.lastId := rfl
@[simp] theorem State.updJob_lanes (s : State) (id : Nat) (g : Job → Job) :
    (s.updJob id g).lanes = s.lanes := rfl
@[simp] theorem State.updJob_freeUnits (s : State) (id : Nat) (g : Job → Job) :
    (s.updJob id g).freeUnits = s.freeUnits := rfl
@[simp] theorem State.updJob_grantQueue (s : State) (id : Nat) (g : Job → Job) :
    (s.updJob id g).grantQueue = s.grantQueue := rfl
@[simp] theorem State.updJob_supply (s : State) (id : Nat) (g : Job → Job) :
    (s.updJob id g).supply = s.supply := rfl
@[simp] theorem State.updJob_faults (s : State) (id : Nat) (g : Job → Job) :
    (s.updJob id g).faults = s.faults := rfl
@[simp] theorem State.updJob_outbox (s : State) (id : Nat) (g : Job → Job) :
    (s.updJob id g).outbox = s.outbox := rfl
@[simp] theorem State.updJob_choices (s : State) (id : Nat) (g : Job → Job) :
    (s.updJob id g).choices = s.choices := rfl
@[simp] theorem State.updJob_pending (s : State) (id : Nat) (g : Job → Job) :
    (s.updJob id g).pending = s.pending := rfl

/-- The job that an identifier names has that identifier and stands in the table. -/
theorem State.job?_some {s : State} {id : Nat} {j : Job} (h : s.job? id = some j) :
    j.id = id ∧ j ∈ s.jobs := by
  have := List.find?_some h
  exact ⟨by simpa using this, List.mem_of_find?_eq_some h⟩

/-- An update that keeps identifiers changes the record that an identifier names, and no other. -/
theorem State.job?_updJob (s : State) (id k : Nat) (f : Job → Job) (hf : ∀ j, (f j).id = j.id) :
    (s.updJob id f).job? k = (s.job? k).map fun j => if j.id = id then f j else j := by
  have hid : ∀ x : Job, ((if x.id = id then f x else x).id == k) = (x.id == k) := by
    intro x; split <;> simp [hf]
  simp only [State.job?, State.updJob_jobs, List.find?_map]
  congr 1
  exact congrArg (fun p => List.find? p s.jobs) (funext hid)

/-! ### Blocks -/

@[simp] theorem State.block_setInReset (s : State) (v) (h : Handle) :
    (s.setInReset v).block h = s.block h := rfl
@[simp] theorem State.block_setLinkRate (s : State) (v) (h : Handle) :
    (s.setLinkRate v).block h = s.block h := rfl
@[simp] theorem State.block_setEpoch (s : State) (v) (h : Handle) :
    (s.setEpoch v).block h = s.block h := rfl
@[simp] theorem State.block_setRx (s : State) (v) (h : Handle) :
    (s.setRx v).block h = s.block h := rfl
@[simp] theorem State.block_setTags (s : State) (v) (h : Handle) :
    (s.setTags v).block h = s.block h := rfl
@[simp] theorem State.block_setDeferred (s : State) (v) (h : Handle) :
    (s.setDeferred v).block h = s.block h := rfl
@[simp] theorem State.block_setReplyQueue (s : State) (v) (h : Handle) :
    (s.setReplyQueue v).block h = s.block h := rfl
@[simp] theorem State.block_setTx (s : State) (v) (h : Handle) :
    (s.setTx v).block h = s.block h := rfl
@[simp] theorem State.block_setProfiles (s : State) (v) (h : Handle) :
    (s.setProfiles v).block h = s.block h := rfl
@[simp] theorem State.block_setJobs (s : State) (v) (h : Handle) :
    (s.setJobs v).block h = s.block h := rfl
@[simp] theorem State.block_setLastId (s : State) (v) (h : Handle) :
    (s.setLastId v).block h = s.block h := rfl
@[simp] theorem State.block_setLanes (s : State) (v) (h : Handle) :
    (s.setLanes v).block h = s.block h := rfl
@[simp] theorem State.block_setFreeUnits (s : State) (v) (h : Handle) :
    (s.setFreeUnits v).block h = s.block h := rfl
@[simp] theorem State.block_setGrantQueue (s : State) (v) (h : Handle) :
    (s.setGrantQueue v).block h = s.block h := rfl
@[simp] theorem State.block_setSupply (s : State) (v) (h : Handle) :
    (s.setSupply v).block h = s.block h := rfl
@[simp] theorem State.block_setFaults (s : State) (v) (h : Handle) :
    (s.setFaults v).block h = s.block h := rfl
@[simp] theorem State.block_setOutbox (s : State) (v) (h : Handle) :
    (s.setOutbox v).block h = s.block h := rfl
@[simp] theorem State.block_setChoices (s : State) (v) (h : Handle) :
    (s.setChoices v).block h = s.block h := rfl
@[simp] theorem State.block_setPending (s : State) (v) (h : Handle) :
    (s.setPending v).block h = s.block h := rfl
@[simp] theorem State.block_updLane (s : State) (l : LaneId) (f : Lane → Lane) (h : Handle) :
    (s.updLane l f).block h = s.block h := rfl

@[simp] theorem State.block_updJob (s : State) (id : Nat) (f : Job → Job) (h : Handle) :
    (s.updJob id f).block h = s.block h := rfl

theorem State.block_updBlock (s : State) (h g : Handle) (f : Block → Block) :
    (s.updBlock h f).block g = if h = g then f (s.block h) else s.block g := by
  show ((s.blocks.set h (f (s.block h))) : Vector Block 64)[g] = _
  by_cases e : h = g
  · subst e; simp
  · have : h.val ≠ g.val := fun e' => e (Fin.ext e')
    simp [e, Vector.getElem_set_ne, this, State.block]

@[simp] theorem State.updBlock_inReset (s : State) (h : Handle) (g : Block → Block) :
    (s.updBlock h g).inReset = s.inReset := rfl
@[simp] theorem State.updBlock_linkRate (s : State) (h : Handle) (g : Block → Block) :
    (s.updBlock h g).linkRate = s.linkRate := rfl
@[simp] theorem State.updBlock_epoch (s : State) (h : Handle) (g : Block → Block) :
    (s.updBlock h g).epoch = s.epoch := rfl
@[simp] theorem State.updBlock_rx (s : State) (h : Handle) (g : Block → Block) :
    (s.updBlock h g).rx = s.rx := rfl
@[simp] theorem State.updBlock_tags (s : State) (h : Handle) (g : Block → Block) :
    (s.updBlock h g).tags = s.tags := rfl
@[simp] theorem State.updBlock_deferred (s : State) (h : Handle) (g : Block → Block) :
    (s.updBlock h g).deferred = s.deferred := rfl
@[simp] theorem State.updBlock_replyQueue (s : State) (h : Handle) (g : Block → Block) :
    (s.updBlock h g).replyQueue = s.replyQueue := rfl
@[simp] theorem State.updBlock_tx (s : State) (h : Handle) (g : Block → Block) :
    (s.updBlock h g).tx = s.tx := rfl
@[simp] theorem State.updBlock_profiles (s : State) (h : Handle) (g : Block → Block) :
    (s.updBlock h g).profiles = s.profiles := rfl
@[simp] theorem State.updBlock_jobs (s : State) (h : Handle) (g : Block → Block) :
    (s.updBlock h g).jobs = s.jobs := rfl
@[simp] theorem State.updBlock_lastId (s : State) (h : Handle) (g : Block → Block) :
    (s.updBlock h g).lastId = s.lastId := rfl
@[simp] theorem State.updBlock_lanes (s : State) (h : Handle) (g : Block → Block) :
    (s.updBlock h g).lanes = s.lanes := rfl
@[simp] theorem State.updBlock_freeUnits (s : State) (h : Handle) (g : Block → Block) :
    (s.updBlock h g).freeUnits = s.freeUnits := rfl
@[simp] theorem State.updBlock_grantQueue (s : State) (h : Handle) (g : Block → Block) :
    (s.updBlock h g).grantQueue = s.grantQueue := rfl
@[simp] theorem State.updBlock_supply (s : State) (h : Handle) (g : Block → Block) :
    (s.updBlock h g).supply = s.supply := rfl
@[simp] theorem State.updBlock_faults (s : State) (h : Handle) (g : Block → Block) :
    (s.updBlock h g).faults = s.faults := rfl
@[simp] theorem State.updBlock_outbox (s : State) (h : Handle) (g : Block → Block) :
    (s.updBlock h g).outbox = s.outbox := rfl
@[simp] theorem State.updBlock_choices (s : State) (h : Handle) (g : Block → Block) :
    (s.updBlock h g).choices = s.choices := rfl
@[simp] theorem State.updBlock_pending (s : State) (h : Handle) (g : Block → Block) :
    (s.updBlock h g).pending = s.pending := rfl

/-! ### Tag entries -/

theorem State.tagEntry_setTagEntry (s : State) (t u : Fin 16) (e : TagEntry) :
    (s.setTagEntry t e).tagEntry u = if t = u then e else s.tagEntry u := by
  show (s.tags.set t e)[u] = _
  by_cases h : t = u
  · subst h; simp
  · have : t.val ≠ u.val := fun e' => h (Fin.ext e')
    simp [h, Vector.getElem_set_ne, this, State.tagEntry]

/-- The later of two values written to one entry stands. -/
theorem State.setTagEntry_setTagEntry (s : State) (t : Fin 16) (d e : TagEntry) :
    (s.setTagEntry t d).setTagEntry t e = s.setTagEntry t e := by
  show s.setTags _ = s.setTags _
  simp [State.setTagEntry, State.setTags]

@[simp] theorem State.setTagEntry_inReset (s : State) (t : Fin 16) (e : TagEntry) :
    (s.setTagEntry t e).inReset = s.inReset := rfl
@[simp] theorem State.setTagEntry_linkRate (s : State) (t : Fin 16) (e : TagEntry) :
    (s.setTagEntry t e).linkRate = s.linkRate := rfl
@[simp] theorem State.setTagEntry_epoch (s : State) (t : Fin 16) (e : TagEntry) :
    (s.setTagEntry t e).epoch = s.epoch := rfl
@[simp] theorem State.setTagEntry_rx (s : State) (t : Fin 16) (e : TagEntry) :
    (s.setTagEntry t e).rx = s.rx := rfl
@[simp] theorem State.setTagEntry_deferred (s : State) (t : Fin 16) (e : TagEntry) :
    (s.setTagEntry t e).deferred = s.deferred := rfl
@[simp] theorem State.setTagEntry_replyQueue (s : State) (t : Fin 16) (e : TagEntry) :
    (s.setTagEntry t e).replyQueue = s.replyQueue := rfl
@[simp] theorem State.setTagEntry_tx (s : State) (t : Fin 16) (e : TagEntry) :
    (s.setTagEntry t e).tx = s.tx := rfl
@[simp] theorem State.setTagEntry_profiles (s : State) (t : Fin 16) (e : TagEntry) :
    (s.setTagEntry t e).profiles = s.profiles := rfl
@[simp] theorem State.setTagEntry_blocks (s : State) (t : Fin 16) (e : TagEntry) :
    (s.setTagEntry t e).blocks = s.blocks := rfl
@[simp] theorem State.setTagEntry_jobs (s : State) (t : Fin 16) (e : TagEntry) :
    (s.setTagEntry t e).jobs = s.jobs := rfl
@[simp] theorem State.setTagEntry_lastId (s : State) (t : Fin 16) (e : TagEntry) :
    (s.setTagEntry t e).lastId = s.lastId := rfl
@[simp] theorem State.setTagEntry_lanes (s : State) (t : Fin 16) (e : TagEntry) :
    (s.setTagEntry t e).lanes = s.lanes := rfl
@[simp] theorem State.setTagEntry_freeUnits (s : State) (t : Fin 16) (e : TagEntry) :
    (s.setTagEntry t e).freeUnits = s.freeUnits := rfl
@[simp] theorem State.setTagEntry_grantQueue (s : State) (t : Fin 16) (e : TagEntry) :
    (s.setTagEntry t e).grantQueue = s.grantQueue := rfl
@[simp] theorem State.setTagEntry_supply (s : State) (t : Fin 16) (e : TagEntry) :
    (s.setTagEntry t e).supply = s.supply := rfl
@[simp] theorem State.setTagEntry_faults (s : State) (t : Fin 16) (e : TagEntry) :
    (s.setTagEntry t e).faults = s.faults := rfl
@[simp] theorem State.setTagEntry_outbox (s : State) (t : Fin 16) (e : TagEntry) :
    (s.setTagEntry t e).outbox = s.outbox := rfl
@[simp] theorem State.setTagEntry_choices (s : State) (t : Fin 16) (e : TagEntry) :
    (s.setTagEntry t e).choices = s.choices := rfl
@[simp] theorem State.setTagEntry_pending (s : State) (t : Fin 16) (e : TagEntry) :
    (s.setTagEntry t e).pending = s.pending := rfl

end Sys2Proof.Machine
end

