-- ==== Sys2Proof/Laws/Lanes.lean ====
section
/-! SUPPORT. Which fields an operation may change, and what starting a job on a lane does, said once. -/

namespace Sys2Proof.Machine

/-! ### `OnlyChanges` -/

theorem State.OnlyChanges.refl (s : State) (fs : List StateField) : s.OnlyChanges s fs := by
  intro f _; cases f <;> rfl

theorem StateField.Same.trans {s t u : State} {f : StateField} (h : f.Same s t) (g : f.Same t u) :
    f.Same s u := by
  cases f <;> exact Eq.trans g h

theorem State.OnlyChanges.mono {s t : State} {fs gs : List StateField} (h : s.OnlyChanges t fs)
    (hs : ∀ f ∈ fs, f ∈ gs) : s.OnlyChanges t gs :=
  fun f hf => h f fun hm => hf (hs f hm)

theorem State.OnlyChanges.trans {s t u : State} {fs : List StateField} (h : s.OnlyChanges t fs)
    (g : t.OnlyChanges u fs) : s.OnlyChanges u fs :=
  fun f hf => (h f hf).trans (g f hf)

theorem State.updLane_onlyChanges (s : State) (l : LaneId) (f : Lane → Lane) :
    s.OnlyChanges (s.updLane l f) [.lanes] := by
  intro g hg; cases g <;> first | exact absurd (by decide) hg | rfl

theorem State.updJob_onlyChanges (s : State) (id : Nat) (f : Job → Job) :
    s.OnlyChanges (s.updJob id f) [.jobs] := by
  intro g hg; cases g <;> first | exact absurd (by decide) hg | rfl

theorem State.updBlock_onlyChanges (s : State) (h : Handle) (f : Block → Block) :
    s.OnlyChanges (s.updBlock h f) [.blocks] := by
  intro g hg; cases g <;> first | exact absurd (by decide) hg | rfl

theorem State.updCurrentJob_onlyChanges (s : State) (l : LaneId) (f : Job → Job) :
    s.OnlyChanges (s.updCurrentJob l f) [.jobs] := by
  unfold State.updCurrentJob
  split
  · exact s.updJob_onlyChanges _ f
  · exact .refl s _

/-! ### Updates of different parts commute -/

theorem State.updLane_updJob (s : State) (l : LaneId) (id : Nat) (f : Job → Job) (g : Lane → Lane) :
    (s.updJob id f).updLane l g = (s.updLane l g).updJob id f := rfl
theorem State.updLane_setJobs (s : State) (l : LaneId) (v : List Job) (g : Lane → Lane) :
    (s.setJobs v).updLane l g = (s.updLane l g).setJobs v := rfl
theorem State.updLane_setOutbox (s : State) (l : LaneId) (v : Outbox) (g : Lane → Lane) :
    (s.setOutbox v).updLane l g = (s.updLane l g).setOutbox v := rfl
theorem State.updLane_setFreeUnits (s : State) (l : LaneId) (v : Nat) (g : Lane → Lane) :
    (s.setFreeUnits v).updLane l g = (s.updLane l g).setFreeUnits v := rfl

/-! ### Starting the head of a queue -/

theorem State.startHead_of_ne {s : State} {l : LaneId} (h : (s.lane l).state ≠ .idle) :
    s.startHead l = s := by
  unfold State.startHead
  split <;> simp_all

theorem State.startHead_of_nil {s : State} {l : LaneId} (h : (s.lane l).queue = []) :
    s.startHead l = s := by
  unfold State.startHead
  split <;> simp_all

/-- An IDLE lane starts the job at the head of its queue (R14, R15, R34). -/
theorem State.startHead_eq {s : State} {l : LaneId} {id : Nat} {rest : List Nat} {j : Job}
    (h : (s.lane l).state = .idle) (hq : (s.lane l).queue = id :: rest) (hj : s.job? id = some j) :
    s.startHead l =
      (s.updLane l fun x => { x with
        state := .running
        queue := rest
        current := some id
        context := .starting (j.work.firstAddress s.profiles[j.profile])
        unit := x.unit.handOver (.new .ident 0 0 true) }).setJobs
        (s.jobs.map fun q => if q.id = id then { q with state := .active } else q) := by
  unfold State.startHead
  simp only [h, hq, hj]
  rw [State.sendProbe, State.updUnit, State.updLane_updJob, State.updLane_updLane]; rfl

theorem State.startHead_onlyChanges (s : State) (l : LaneId) :
    s.OnlyChanges (s.startHead l) [.lanes, .jobs] := by
  unfold State.startHead
  split
  · split
    · exact .refl s _
    · intro g hg; cases g <;> first | exact absurd (by decide) hg | rfl
  all_goals exact .refl s _

/-- The other lanes do not notice. -/
theorem State.lane_startHead_ne (s : State) {l m : LaneId} (h : l ≠ m) :
    (s.startHead l).lane m = s.lane m := by
  unfold State.startHead
  split
  · split
    · rfl
    · rw [State.sendProbe, State.updUnit, State.lane_updLane_ne _ _ h, State.lane_updJob,
        State.lane_updLane_ne _ _ h]
  all_goals rfl

/-! ### Handing a cycle over -/

@[simp] theorem State.sendCycle_eq (s : State) (l : LaneId) (k : CycleKind) (a : Nat) (d : Byte) :
    s.sendCycle l k a d = s.updLane l fun x => { x with unit := x.unit.handOver (.new k a d false) } :=
  rfl

end Sys2Proof.Machine
end

