-- ==== Sys2Proof/Laws/Link.lean ====
section
/-! SUPPORT. What the reply queue, the Transmitter, Dispatch and the arrival of a frame do, said once
each. -/

namespace Sys2Proof.Machine

/-! ### The Transmitter -/

theorem State.transmit_of_busy {s : State} (h : s.tx ≠ .idle) : s.transmit = s := by
  unfold State.transmit
  split <;> simp_all

theorem State.takeReply?_nil {s : State} (h : s.replyQueue = []) : s.takeReply? = none := by
  simp [State.takeReply?, h]

theorem State.takeReport?_none {s : State} (h : s.outbox.take? = none) : s.takeReport? = none := by
  simp [State.takeReport?, h]

/-- A settled Transmitter takes nothing. -/
theorem State.transmit_settled {s : State} (h : s.Settled) : s.transmit = s := by
  rcases h with h | ⟨hq, ho⟩
  · exact State.transmit_of_busy h
  · unfold State.transmit
    split <;> simp [State.takeReply?_nil hq, State.takeReport?_none ho]

/-- After taking what is available the Transmitter is settled. -/
theorem State.settled_transmit (s : State) : s.transmit.Settled := by
  unfold State.transmit State.Settled
  split
  · simp_all
  · simp_all
  · cases hr : s.takeReply? with
    | some t =>
      left
      unfold State.takeReply? at hr
      split at hr <;> simp at hr
      subst hr; simp
    | none =>
      cases hp : s.takeReport? with
      | some t =>
        left
        unfold State.takeReport? at hp
        split at hp <;> simp at hp
        subst hp; simp
      | none =>
        right
        unfold State.takeReply? at hr
        unfold State.takeReport? at hp
        constructor
        · split at hr <;> simp_all
        · simp only [Option.getD_none]
          split at hp <;> simp_all

theorem State.transmit_transmit (s : State) : s.transmit.transmit = s.transmit :=
  State.transmit_settled s.settled_transmit

/-- The fields that a free Transmitter touches. -/
theorem State.transmit_onlyChanges (s : State) :
    s.OnlyChanges s.transmit [.tx, .replyQueue, .outbox] := by
  intro f hf
  unfold State.transmit
  split
  · cases f <;> rfl
  · cases f <;> rfl
  · unfold State.takeReply? State.takeReport?
    split
    · split <;> cases f <;> first | exact absurd (by decide) hf | rfl
    · cases f <;> first | exact absurd (by decide) hf | rfl

theorem State.takeReply?_onlyChanges {s u : State} (h : s.takeReply? = some u) :
    s.OnlyChanges u [.tx, .replyQueue] := by
  intro f hf
  unfold State.takeReply? at h
  split at h
  · cases h
  · cases h; cases f <;> first | exact absurd (by decide) hf | rfl

theorem State.takeReport?_onlyChanges {s u : State} (h : s.takeReport? = some u) :
    s.OnlyChanges u [.tx, .outbox] := by
  intro f hf
  unfold State.takeReport? at h
  split at h
  · cases h
  · cases h; cases f <;> first | exact absurd (by decide) hf | rfl

theorem State.transmitEither_onlyChanges (s : State) :
    s.OnlyChanges s.transmitEither [.tx, .replyQueue, .outbox, .choices] := by
  unfold State.transmitEither
  split
  · exact .refl s _
  · exact .refl s _
  · split
    · next withReply withReport h1 h2 =>
      have hc : ∀ u : State, u.OnlyChanges (u.setChoices (s.choices + 1)) [.choices] := by
        intro u g hg; cases g <;> first | exact absurd (by decide) hg | rfl
      cases Config.reportTakenFirst s.choices
      · exact ((State.takeReply?_onlyChanges h1).mono (by decide)).trans ((hc _).mono (by decide))
      · exact ((State.takeReport?_onlyChanges h2).mono (by decide)).trans ((hc _).mono (by decide))
    · next h _ => exact (State.takeReply?_onlyChanges h).mono (by decide)
    · next h => exact (State.takeReport?_onlyChanges h).mono (by decide)
    · exact .refl s _

/-! ### Replies -/

theorem State.placeReply_onlyChanges (s : State) (f : Frame) :
    s.OnlyChanges (s.placeReply f) [.replyQueue] := by
  intro g hg
  unfold State.placeReply
  split <;> cases g <;> first | exact absurd (by decide) hg | rfl

theorem tagIndex?_byte (t : Fin 16) : tagIndex? (byte t.val) = some t := by
  revert t; decide

theorem tagIndex?_none {b : Byte} (h : 16 ≤ b.toNat) : tagIndex? b = none := by
  simp [tagIndex?, Nat.not_lt.mpr h]

/-- A reply placed beside a settled Transmitter, with nothing else made available: what `sends` says. -/
theorem State.transmit_placeReply {w : State} (f : Frame)
    (h : w.tx = .idle → w.replyQueue = []) : (w.placeReply f).transmit = w.sends f := by
  by_cases hb : w.tx = .idle
  · have hp : w.placeReply f = w.setReplyQueue [f] := by
      simp [State.placeReply, h hb, Config.replyQueueSize]
    have : (w.setReplyQueue [f]).transmit = ((w.setReplyQueue [f]).setReplyQueue []).setTx (.reply f) := by
      unfold State.transmit State.takeReply?; simp [hb]
    rw [hp, this]
    simp only [State.sends, hb]
    show (w.setReplyQueue []).setTx _ = _
    rw [← h hb]; rfl
  · rw [State.transmit_of_busy]
    · unfold State.sends; split <;> simp_all
    · unfold State.placeReply; split <;> exact hb

/-- As before for the Transmitter that may take either, while the outbox has nothing ready. -/
theorem State.transmitEither_placeReply {w : State} (f : Frame)
    (h : w.tx = .idle → w.replyQueue = [] ∧ w.outbox.take? = none) :
    (w.placeReply f).transmitEither = w.sends f := by
  by_cases hb : w.tx = .idle
  · obtain ⟨hq, ho⟩ := h hb
    have hp : w.placeReply f = w.setReplyQueue [f] := by
      simp [State.placeReply, hq, Config.replyQueueSize]
    have : (w.setReplyQueue [f]).transmitEither =
        ((w.setReplyQueue [f]).setReplyQueue []).setTx (.reply f) := by
      unfold State.transmitEither State.takeReply? State.takeReport?; simp [hb, ho]
    rw [hp, this]
    simp only [State.sends, hb]
    show (w.setReplyQueue []).setTx _ = _
    rw [← hq]; rfl
  · have h1 : (w.placeReply f).tx = w.tx := by unfold State.placeReply; split <;> rfl
    have h2 : (w.placeReply f).transmitEither = w.placeReply f := by
      unfold State.transmitEither
      split
      · rfl
      · rfl
      · simp_all
    rw [h2]; unfold State.sends; split <;> simp_all

/-! ### A frame arrives -/

@[simp] theorem State.told_tx (s : State) : s.told.tx = s.tx := rfl
@[simp] theorem State.told_replyQueue (s : State) : s.told.replyQueue = s.replyQueue := rfl
@[simp] theorem State.told_outbox (s : State) : s.told.outbox = s.outbox.endStall := rfl
@[simp] theorem State.told_tagEntry (s : State) (t : Fin 16) :
    s.told.tagEntry t = s.tagEntry t := rfl

@[simp] theorem State.heard_tx (s : State) : s.heard.tx = s.tx := rfl
@[simp] theorem State.heard_replyQueue (s : State) : s.heard.replyQueue = s.replyQueue := rfl
@[simp] theorem State.heard_outbox (s : State) : s.heard.outbox = s.outbox.endStall := rfl
@[simp] theorem State.heard_tagEntry (s : State) (t : Fin 16) :
    s.heard.tagEntry t = s.tagEntry t := rfl

theorem Outbox.endStall_of_not {o : Outbox} (h : o.stalled = false) : o.endStall = o := by
  simp [Outbox.endStall, h]

/-- A frame that leads to one reply, the outbox not being touched: the reply is sent. -/
theorem State.frameArrives_placeReply {s w : State} {f reply : Frame} (hs : s.Settled)
    (hd : s.told.dispatch f = w.placeReply reply) (htx : w.tx = s.tx)
    (hq : w.replyQueue = s.replyQueue) (ho : w.outbox = s.told.outbox) :
    s.frameArrives f = w.sends reply := by
  have hidle : w.tx = .idle → w.replyQueue = [] := by
    intro h
    rcases hs with h' | ⟨h', -⟩
    · exact absurd (htx ▸ h) h'
    · rw [hq, h']
  unfold State.frameArrives
  show (if _ then (s.told.dispatch f).transmit else (s.told.dispatch f).transmitEither) = _
  rw [hd]
  split
  · exact State.transmit_placeReply reply hidle
  · next hst =>
    refine State.transmitEither_placeReply reply fun h => ⟨hidle h, ?_⟩
    rcases hs with h' | ⟨-, h'⟩
    · exact absurd (htx ▸ h) h'
    · rw [ho]; simp only [State.told_outbox]
      rw [Outbox.endStall_of_not (by simp at hst; exact hst.1)]; exact h'

/-- A request taken on its tag is judged on the state in which its entry is IN_FLIGHT. -/
theorem State.Takes.dispatch {s : State} {t : Fin 16} {f : Frame} (h : s.Takes t f)
    (ht : f.tag = byte t.val) : s.told.dispatch f = s.told.takeRequest t f := by
  unfold State.dispatch
  rw [ht, tagIndex?_byte]
  have := h.2
  simp only [State.told_tagEntry]
  split at this <;> simp_all

/-- A request taken and judged with a reply, on a state whose link and outbox are as the frame found
them: the reply is stored and sent. -/
theorem State.Takes.frameArrives {s w : State} {t : Fin 16} {f : Frame} {code : Result}
    {fields : List Byte} (h : s.Takes t f) (ht : f.tag = byte t.val)
    (hj : judgeRequest t f (s.told.setTagEntry t (.inFlight f.digest)) = .replied code fields w)
    (htx : w.tx = s.tx) (hq : w.replyQueue = s.replyQueue) (ho : w.outbox = s.told.outbox) :
    s.frameArrives f = w.answered t f code fields := by
  refine State.frameArrives_placeReply (w := w.setTagEntry t _) h.1.2 ?_ htx hq ho
  rw [h.dispatch ht, State.takeRequest, hj]; rfl

/-- The tag entry on which a request was judged does not show in the answer. -/
theorem State.answered_setTagEntry (s : State) (t : Fin 16) (e : TagEntry) (f : Frame)
    (code : Result) (fields : List Byte) :
    (s.setTagEntry t e).answered t f code fields = s.answered t f code fields := by
  unfold State.answered; rw [State.setTagEntry_setTagEntry]

/-- A request that changes nothing but its own tag entry. -/
theorem State.Takes.frameArrives_same {s : State} {t : Fin 16} {f : Frame} {code : Result}
    {fields : List Byte} (h : s.Takes t f) (ht : f.tag = byte t.val)
    (hj : judgeRequest t f (s.told.setTagEntry t (.inFlight f.digest)) =
      .replied code fields (s.told.setTagEntry t (.inFlight f.digest))) :
    s.frameArrives f = s.told.answered t f code fields := by
  rw [h.frameArrives ht hj rfl rfl rfl, State.answered_setTagEntry]

/-- A request taken and answered by a block that may also have made a report ready (but not ENGINE-RESET):
the reply is stored, and an idle Transmitter takes one of the two (R175, R206; log 11, log 12). -/
theorem State.Takes.frameArrives_beside {s w : State} {t : Fin 16} {f : Frame} {code : Result}
    {fields : List Byte} (h : s.Takes t f) (ht : f.tag = byte t.val) (hk : f.kind ≠ 0x1F)
    (hj : judgeRequest t f (s.told.setTagEntry t (.inFlight f.digest)) = .replied code fields w)
    (htx : w.tx = s.tx) (hq : w.replyQueue = s.replyQueue) :
    s.frameArrives f = w.answeredBeside s.outbox.stalled (Config.reportTakenFirst w.choices) t f code
      fields := by
  let reply := replyFrame f.kind f.tag code fields
  let w' := w.setTagEntry t (.replied f.digest reply)
  have hd : s.told.dispatch f = w'.placeReply reply := by
    rw [h.dispatch ht, State.takeRequest, hj]; rfl
  have hkind : (f.kind == Request.engineReset.kind) = false :=
    beq_eq_false_iff_ne.mpr hk
  unfold State.frameArrives
  show (if _ then (s.told.dispatch f).transmit else (s.told.dispatch f).transmitEither) = _
  rw [hd, hkind, Bool.or_false]
  unfold State.answeredBeside
  by_cases hb : w.tx = .idle
  · have hq' : w'.replyQueue = [] := by
      rcases h.1.2 with h' | ⟨h', -⟩
      · exact absurd (htx ▸ hb) h'
      · exact hq.trans h'
    have hp : w'.placeReply reply = w'.setReplyQueue [reply] := by
      simp [State.placeReply, hq', Config.replyQueueSize]
    have hb' : w'.tx = .idle := hb
    have hself : ∀ x : Tx, ((w'.setReplyQueue []).setTx x) = w'.setTx x := fun x => by
      rw [← hq']; rfl
    have hto : w'.outbox.take? = w.outbox.take? := rfl
    rw [hp]
    cases ho : w.outbox.take? with
    | none =>
      simp only [hb]
      split
      · unfold State.transmit State.takeReply?; simp [hb']; exact hself _
      · unfold State.transmitEither State.takeReply? State.takeReport?
        simp [hb', hto, ho]; exact hself _
    | some ro =>
      simp only [hb]
      split
      · unfold State.transmit State.takeReply?; simp [hb']; exact hself _
      · unfold State.transmitEither State.takeReply? State.takeReport?
        simp only [State.setReplyQueue_tx, hb', State.setReplyQueue_replyQueue,
          State.setReplyQueue_outbox, hto, ho]
        cases hc : Config.reportTakenFirst w.choices
        · have hc' : Config.reportTakenFirst (w'.setReplyQueue [reply]).choices = false := hc
          simp only [hc', Bool.false_eq_true, if_false]
          show ((w'.setReplyQueue []).setTx (.reply reply)).setChoices _ = _
          rw [hself]; rfl
        · have hc' : Config.reportTakenFirst (w'.setReplyQueue [reply]).choices = true := hc
          simp only [hc', if_true]; rfl
  · have hb' : w'.tx ≠ .idle := hb
    have h1 : (w'.placeReply reply).tx ≠ .idle := by unfold State.placeReply; split <;> exact hb
    have h2 : (w'.placeReply reply).transmitEither = w'.placeReply reply := by
      unfold State.transmitEither
      split <;> first | rfl | simp_all
    rw [State.transmit_of_busy h1, h2]
    split <;> (split <;> first | rfl | simp_all)

theorem State.answeredBeside_setTagEntry (s : State) (e : TagEntry) (a b : Bool) (t : Fin 16) (f : Frame)
    (code : Result) (fields : List Byte) :
    (s.setTagEntry t e).answeredBeside a b t f code fields = s.answeredBeside a b t f code fields := by
  simp only [State.answeredBeside, State.setTagEntry_setTagEntry]; rfl

/-- A frame command on a running engine with a settled Transmitter is the arrival of its frame. -/
theorem frameCommand_of_ready {s : State} {kind tag : Byte} {p : List Byte} (h : s.Ready)
    (hp : p.length ≤ Config.maxPayload) :
    frameCommand kind tag p s =
      .next (s.lineHigh.frameArrives { kind := kind, tag := tag, payload := p }) := by
  simp [frameCommand, hp, whenRunning, h.1, State.transmit_settled h.2]

/-- Every command that is a frame runs `frameCommand` on it. -/
theorem exec_frame {c : Instr} {f : Frame} (h : c.frame? = some f) (s : State) :
    exec c s = frameCommand f.kind f.tag f.payload s := by
  cases c <;> simp [Instr.frame?] at h <;> subst h <;> rfl

/-- Every command that is no frame and moves no pin of the engine's own has one effect, which acts while
RESET is high on the state that a free Transmitter leaves. -/
theorem exec_effect {c : Instr} (hf : c.frame? = none) (h1 : c ≠ .powerOn) (h2 : c ≠ .resetAssert)
    (h3 : ∀ a b p r, c ≠ .resetRelease a b p r) (h4 : c ≠ .psupOkFall) (h5 : c ≠ .psupOkRise) :
    ∃ effect : State → State, ∀ s, exec c s = whenRunning s effect := by
  cases c <;> simp only [Instr.frame?, reduceCtorEq, ne_eq, not_true_eq_false] at * <;>
    simp only [exec, execRxCharacter, execFrameTimerExpiry, execRxBreak, execTransmitFrameEnd,
      execAckTimerExpiry, execLaneGapEnd, execAnswerSlot, execAnswerWindowClose, execCycleCeiling,
      execPulseTimerExpiry, execSentMoment]
  all_goals first | exact ⟨_, fun _ => rfl⟩ | exact absurd rfl (h3 _ _ _ _)

theorem whenRunning_of_ready {s : State} (h : s.Ready) (e : State → State) :
    whenRunning s e = .next (e s) := by
  simp [whenRunning, h.1, State.transmit_settled h.2]

theorem whenRunning_transmit {s : State} (h : s.inReset = false) (e : State → State) :
    whenRunning s e = whenRunning s.transmit e := by
  have hr : s.transmit.inReset = false := Eq.trans (s.transmit_onlyChanges .inReset (by simp)) h
  simp [whenRunning, h, hr, State.transmit_transmit]

theorem exec_frame_of_ready {c : Instr} {f : Frame} {s : State} (h : c.frame? = some f) (hs : s.Ready)
    (hp : f.payload.length ≤ Config.maxPayload) : exec c s = .next (s.lineHigh.frameArrives f) := by
  rw [exec_frame h, frameCommand_of_ready hs hp]

theorem judgeRequest_requestFrame (r : Request) (t : Fin 16) (p : List Byte) (s : State) :
    judgeRequest t (requestFrame r t p) s =
      if r.lengthOk p then carryOut r t (byte t.val) (requestFrame r t p).digest p s
      else s.refuse .badLength := by
  cases r <;> rfl

/-- Taking a request does not depend on what the break detector knows. -/
theorem State.Takes.lineHigh {s : State} {t : Fin 16} {f : Frame} (h : s.Takes t f) :
    s.lineHigh.Takes t f := h

/-- A request command that is taken and that its owning block answers: the answer is stored and sent. The
link and the outbox are to be as the frame found them. -/
theorem State.Takes.exec_eq {s w : State} {t : Fin 16} {r : Request} {p : List Byte} {c : Instr}
    {code : Result} {fields : List Byte} (h : s.Takes t (requestFrame r t p))
    (hc : c.frame? = some (requestFrame r t p)) (hp : p.length ≤ 260) (hl : r.lengthOk p = true)
    (hj : carryOut r t (byte t.val) (requestFrame r t p).digest p
      (s.heard.setTagEntry t (.inFlight (requestFrame r t p).digest)) =
        .replied code fields (w.setTagEntry t (.inFlight (requestFrame r t p).digest)))
    (htx : w.tx = s.tx) (hq : w.replyQueue = s.replyQueue) (ho : w.outbox = s.heard.outbox) :
    exec c s = .next (w.answered t (requestFrame r t p) code fields) := by
  rw [exec_frame_of_ready hc h.1 hp, h.lineHigh.frameArrives (by rfl)
    (w := w.setTagEntry t (.inFlight (requestFrame r t p).digest))
    (by rw [judgeRequest_requestFrame, if_pos hl]; exact hj) htx hq ho, State.answered_setTagEntry]

/-- As `exec_eq`, for a block that may have made a report ready. -/
theorem State.Takes.exec_beside {s w : State} {t : Fin 16} {r : Request} {p : List Byte} {c : Instr}
    {code : Result} {fields : List Byte} (h : s.Takes t (requestFrame r t p))
    (hc : c.frame? = some (requestFrame r t p)) (hp : p.length ≤ 260) (hl : r.lengthOk p = true)
    (hr : r ≠ .engineReset)
    (hj : carryOut r t (byte t.val) (requestFrame r t p).digest p
      (s.heard.setTagEntry t (.inFlight (requestFrame r t p).digest)) =
        .replied code fields (w.setTagEntry t (.inFlight (requestFrame r t p).digest)))
    (htx : w.tx = s.tx) (hq : w.replyQueue = s.replyQueue) :
    exec c s = .next (w.answeredBeside s.outbox.stalled (Config.reportTakenFirst w.choices) t
      (requestFrame r t p) code fields) := by
  have hk : (requestFrame r t p).kind ≠ 0x1F := by
    cases r <;> simp [requestFrame, Request.kind] at hr ⊢
  rw [exec_frame_of_ready hc h.1 hp, h.lineHigh.frameArrives_beside (by rfl) hk
    (w := w.setTagEntry t (.inFlight (requestFrame r t p).digest))
    (by rw [judgeRequest_requestFrame, if_pos hl]; exact hj) htx hq,
    State.answeredBeside_setTagEntry]
  rfl

/-! ### What each command that is no frame does on a running engine with a settled Transmitter -/

theorem exec_rxCharacter_of_ready {s : State} (h : s.Ready) (moment : Nat) (b : Byte)
    (framing : Framing) :
    exec (.rxCharacter moment b framing) s =
      .next (match framing with
        | .good => s.characterReceived { byte := b, moment := moment }
        | .stopLow => s.framingError
        | .begunInReset stopHigh => s.characterPassed stopHigh) := by
  rw [exec, execRxCharacter]
  exact (whenRunning_of_ready h _).trans (by cases framing <;> rfl)

theorem exec_frameTimerExpiry_of_ready {s : State} (h : s.Ready) :
    exec .frameTimerExpiry s = .next s.frameTimerExpires := by
  rw [exec, execFrameTimerExpiry, whenRunning_of_ready h]

theorem exec_rxBreak_of_ready {s : State} (h : s.Ready) :
    exec .rxBreak s = .next s.breakRecognised.transmit := by
  rw [exec, execRxBreak, whenRunning_of_ready h]

theorem exec_transmitFrameEnd_of_ready {s : State} (h : s.Ready) :
    exec .transmitFrameEnd s = .next s.frameEnded := by
  rw [exec, execTransmitFrameEnd, whenRunning_of_ready h]

theorem exec_ackTimerExpiry_of_ready {s : State} (h : s.Ready) :
    exec .ackTimerExpiry s =
      .next (if s.ackTimerRuns then (s.setOutbox s.outbox.ackExpired).transmit else s) := by
  rw [exec, execAckTimerExpiry, whenRunning_of_ready h]

theorem exec_laneGapEnd_of_ready {s : State} (h : s.Ready) (l : LaneId) :
    exec (.laneGapEnd l) s = .next (s.updLane l fun x => { x with unit := x.unit.gapEnded }) := by
  rw [exec, execLaneGapEnd, whenRunning_of_ready h]; rfl

theorem exec_sentMoment_of_ready {s : State} (h : s.Ready) (l : LaneId) (moment : Nat) :
    exec (.sentMoment l moment) s =
      .next (s.updLane l fun x => { x with unit := x.unit.sent moment }) := by
  rw [exec, execSentMoment, whenRunning_of_ready h]; rfl

theorem exec_answerSlot_of_ready {s : State} (h : s.Ready) {l : LaneId} {c : Cycle}
    (ha : s.Answering l c) (b : Byte) :
    exec (.answerSlot l b) s = .next (match c.slot b with
      | .notRead => s
      | .goesOn c' => s.updLane l fun x => { x with unit := { x.unit with cycle := some c' } }
      | .ends o data => s.cycleEndsAndTransmit l c.kind o data) := by
  have : (s.lane l).unit.answering? = some c := by simp [CycleUnit.answering?, ha.1, ha.2]
  rw [exec, execAnswerSlot, whenRunning_of_ready h]
  simp only [this]; rfl

theorem exec_answerWindowClose_of_ready {s : State} (h : s.Ready) {l : LaneId} {c : Cycle}
    (ha : s.Answering l c) :
    exec (.answerWindowClose l) s =
      .next (if c.windowCanClose then s.cycleEndsAndTransmit l c.kind c.silentOutcome [] else s) := by
  have : (s.lane l).unit.answering? = some c := by simp [CycleUnit.answering?, ha.1, ha.2]
  rw [exec, execAnswerWindowClose, whenRunning_of_ready h]
  simp only [this]

theorem exec_cycleCeiling_of_ready {s : State} (h : s.Ready) {l : LaneId} {c : Cycle}
    (ha : s.Answering l c) :
    exec (.cycleCeiling l) s =
      .next (if c.ceilingCanCome then s.cycleEndsAndTransmit l c.kind .timeout [] else s) := by
  have : (s.lane l).unit.answering? = some c := by simp [CycleUnit.answering?, ha.1, ha.2]
  rw [exec, execCycleCeiling, whenRunning_of_ready h]
  simp only [this]

theorem exec_pulseTimerExpiry_of_ready {s : State} (h : s.Ready) (l : LaneId) :
    exec (.pulseTimerExpiry l) s =
      .next (if (s.lane l).slot = .timing then s.pulseExpires l else s) := by
  rw [exec, execPulseTimerExpiry, whenRunning_of_ready h]

theorem exec_psupOkFall_of_ready {s : State} (h : s.Ready) :
    exec .psupOkFall s = .next ((s.setPsupOk false).psupFallTaken).transmit := by
  rw [exec, execPsupOkFall, if_neg (by simp [h.1]), whenRunning_of_ready h]

theorem exec_psupOkRise_of_ready {s : State} (h : s.Ready) :
    exec .psupOkRise s = .next ((s.setPsupOk true).psupRiseTaken).transmit := by
  rw [exec, execPsupOkRise, if_neg (by simp [h.1]), whenRunning_of_ready h]

end Sys2Proof.Machine
end

