-- ==== Sys2Proof/Laws/Frames.lean ====
section
/-! SUPPORT. The frame of every shared operation: the fields it may change, said once each, so that no proof
unfolds the operation for a field it does not touch. -/

namespace Sys2Proof.Machine

/-! ### Setters -/

theorem State.setDeferred_onlyChanges (s : State) (v : List DeferredCancel) :
    s.OnlyChanges (s.setDeferred v) [.deferred] := by
  intro f hf; cases f <;> first | exact absurd (by decide) hf | rfl

theorem State.setGrantQueue_onlyChanges (s : State) (v : List GrantEntry) :
    s.OnlyChanges (s.setGrantQueue v) [.grantQueue] := by
  intro f hf; cases f <;> first | exact absurd (by decide) hf | rfl

theorem State.setOutbox_onlyChanges (s : State) (v : Outbox) :
    s.OnlyChanges (s.setOutbox v) [.outbox] := by
  intro f hf; cases f <;> first | exact absurd (by decide) hf | rfl

theorem State.setSupply_onlyChanges (s : State) (v : Supply) :
    s.OnlyChanges (s.setSupply v) [.supply] := by
  intro f hf; cases f <;> first | exact absurd (by decide) hf | rfl

/-! ### Switches, grants, holds -/

theorem State.openSwitch_onlyChanges (s : State) (l : LaneId) (v : PulseSlot) :
    s.OnlyChanges (s.openSwitch l v) [.lanes, .freeUnits] := by
  intro f hf; cases f <;> first | exact absurd (by decide) hf | rfl

theorem State.sendCycle_onlyChanges (s : State) (l : LaneId) (k : CycleKind) (a : Nat) (d : Byte) :
    s.OnlyChanges (s.sendCycle l k a d) [.lanes] := s.updLane_onlyChanges l _

theorem State.sendAtAddress_onlyChanges (s : State) (l : LaneId) (k : CycleKind) :
    s.OnlyChanges (s.sendAtAddress l k) [.lanes] := s.updLane_onlyChanges l _

theorem State.updContext_onlyChanges (s : State) (l : LaneId) (f : Context → Context) :
    s.OnlyChanges (s.updContext l f) [.lanes] := s.updLane_onlyChanges l _

theorem State.setLaneState_onlyChanges (s : State) (l : LaneId) (v : LaneState) :
    s.OnlyChanges (s.setLaneState l v) [.lanes] := s.updLane_onlyChanges l _

theorem State.grant_onlyChanges (s : State) (e : GrantEntry) :
    s.OnlyChanges (s.grant e) [.lanes, .freeUnits] := by
  intro f hf; cases f <;> first | exact absurd (by decide) hf | rfl

theorem grantFrom_onlyChanges (q : List GrantEntry) (s : State) :
    s.OnlyChanges (grantFrom q s) [.lanes, .freeUnits, .grantQueue] := by
  induction q generalizing s with
  | nil => intro f hf; cases f <;> first | exact absurd (by decide) hf | rfl
  | cons e rest ih =>
    unfold grantFrom
    split
    · exact ((s.grant_onlyChanges e).mono (by decide)).trans (ih _)
    · intro f hf; cases f <;> first | exact absurd (by decide) hf | rfl

theorem State.grantTest_onlyChanges (s : State) :
    s.OnlyChanges s.grantTest [.lanes, .freeUnits, .grantQueue] := grantFrom_onlyChanges _ s

theorem State.holdLane_onlyChanges (s : State) (l : LaneId) :
    s.OnlyChanges (s.holdLane l) [.lanes, .jobs] :=
  ((s.setLaneState_onlyChanges l _).mono (by decide)).trans
    ((State.updCurrentJob_onlyChanges _ l _).mono (by decide))

theorem State.joinGrantQueue_onlyChanges (s : State) (l : LaneId) :
    s.OnlyChanges (s.joinGrantQueue l) [.lanes, .jobs, .grantQueue] := by
  unfold State.joinGrantQueue
  split
  · exact .refl s _
  · split
    · intro f hf; cases f <;> first | exact absurd (by decide) hf | rfl
    · exact (s.holdLane_onlyChanges l).mono (by decide)

theorem State.requestGrant_onlyChanges (s : State) (l : LaneId) :
    s.OnlyChanges (s.requestGrant l) [.lanes, .jobs, .grantQueue, .freeUnits] :=
  ((s.joinGrantQueue_onlyChanges l).mono (by decide)).trans
    ((State.grantTest_onlyChanges _).mono (by decide))

theorem State.sweep_onlyChanges (s : State) (l : LaneId) : s.OnlyChanges (s.sweep l) [.lanes] :=
  (s.updContext_onlyChanges l _).trans (State.sendAtAddress_onlyChanges _ l _)

theorem State.resumeLane_onlyChanges (s : State) (l : LaneId) :
    s.OnlyChanges (s.resumeLane l) [.lanes, .jobs, .grantQueue] := by
  have h : s.OnlyChanges ((s.setLaneState l .running).updCurrentJob l fun j =>
      { j with state := .active }) [.lanes, .jobs, .grantQueue] :=
    ((s.setLaneState_onlyChanges l _).mono (by decide)).trans
      ((State.updCurrentJob_onlyChanges _ l _).mono (by decide))
  unfold State.resumeLane
  simp only
  split
  · exact h.trans ((State.sendAtAddress_onlyChanges _ l _).mono (by decide))
  · split
    · exact h.trans (State.joinGrantQueue_onlyChanges _ l)
    · exact h.trans ((State.sweep_onlyChanges _ l).mono (by decide))

/-- A fold of operations that share a frame has that frame. -/
theorem State.OnlyChanges.foldl {α : Type} {fs : List StateField} {op : State → α → State}
    (h : ∀ (s : State) (a : α), s.OnlyChanges (op s a) fs) (xs : List α) (s : State) :
    s.OnlyChanges (xs.foldl op s) fs := by
  induction xs generalizing s with
  | nil => exact .refl s _
  | cons x xs ih => exact (h s x).trans (ih _)

theorem State.resumeLanes_onlyChanges (s : State) (ls : List LaneId) :
    s.OnlyChanges (s.resumeLanes ls) [.lanes, .jobs, .grantQueue] :=
  .foldl State.resumeLane_onlyChanges ls s

theorem State.fallOnLane_onlyChanges (s : State) (l : LaneId) :
    s.OnlyChanges (s.fallOnLane l) [.lanes, .jobs, .freeUnits] := by
  unfold State.fallOnLane
  have h : s.OnlyChanges (match (s.lane l).slot with
      | .timing => (s.openSwitch l .none).holdLane l
      | .granted => s.openSwitch l .cut
      | .none | .cut => s) [.lanes, .jobs, .freeUnits] := by
    split
    · exact ((s.openSwitch_onlyChanges l _).mono (by decide)).trans
        ((State.holdLane_onlyChanges _ l).mono (by decide))
    · exact (s.openSwitch_onlyChanges l _).mono (by decide)
    · exact .refl s _
    · exact .refl s _
  simp only
  split
  · exact h.trans ((State.holdLane_onlyChanges _ l).mono (by decide))
  all_goals exact h

theorem State.fallOnLanes_onlyChanges (s : State) :
    s.OnlyChanges s.fallOnLanes [.lanes, .jobs, .freeUnits, .grantQueue] := by
  exact ((State.OnlyChanges.foldl (fs := [.lanes, .jobs, .freeUnits])
    State.fallOnLane_onlyChanges _ s).mono (by decide)).trans
    ((State.setGrantQueue_onlyChanges _ _).mono (by decide))

/-! ### The end of a job -/

theorem State.dropRefs_onlyChanges (s : State) (hs : List Handle) :
    s.OnlyChanges (s.dropRefs hs) [.blocks] :=
  .foldl (fun s h => s.updBlock_onlyChanges h _) hs s

theorem State.addRefs_onlyChanges (s : State) (hs : List Handle) :
    s.OnlyChanges (s.addRefs hs) [.blocks] :=
  .foldl (fun s h => s.updBlock_onlyChanges h _) hs s

theorem State.laneGoesOn_onlyChanges (s : State) (l : LaneId) (stopped : Bool) :
    s.OnlyChanges (s.laneGoesOn l stopped) [.lanes, .jobs] := by
  unfold State.laneGoesOn
  split
  · exact (s.updLane_onlyChanges l _).mono (by decide)
  · exact ((s.updLane_onlyChanges l _).mono (by decide)).trans (State.startHead_onlyChanges _ l)

theorem State.offerJobEnd_onlyChanges (s : State) (id : Nat) (current : Bool) :
    s.OnlyChanges (s.offerJobEnd id current) [.lanes, .jobs, .outbox] := by
  unfold State.offerJobEnd
  split
  · exact .refl s _
  · split
    · have h : ∀ o f, s.OnlyChanges ((s.setOutbox o).updJob id f) [.lanes, .jobs, .outbox] := by
        intro o f g hg; cases g <;> first | exact absurd (by decide) hg | rfl
      simp only
      split
      · exact (h _ _).trans ((State.laneGoesOn_onlyChanges _ _ _).mono (by decide))
      · exact h _ _
    · simp only
      split <;> (intro g hg; cases g <;> first | exact absurd (by decide) hg | rfl)

theorem State.finishJob_onlyChanges (s : State) (id : Nat) (st : JobState) (r : EndReason)
    (stopped current : Bool) :
    s.OnlyChanges (s.finishJob id st r stopped current) [.lanes, .jobs, .outbox, .blocks] := by
  unfold State.finishJob
  split
  · exact .refl s _
  · simp only
    refine .trans ?_ ((State.offerJobEnd_onlyChanges _ id current).mono (by decide))
    refine .trans ?_ ((State.dropRefs_onlyChanges _ _).mono (by decide))
    split <;> (intro g hg; cases g <;> first | exact absurd (by decide) hg | rfl)

theorem State.finishCurrent_onlyChanges (s : State) (l : LaneId) (st : JobState) (r : EndReason)
    (stopped : Bool) :
    s.OnlyChanges (s.finishCurrent l st r stopped) [.lanes, .jobs, .outbox, .blocks] := by
  unfold State.finishCurrent
  split
  · exact State.finishJob_onlyChanges _ _ _ _ _ _
  · exact .refl s _

theorem State.laneFailure_onlyChanges (s : State) (l : LaneId) (o : CycleOutcome) :
    s.OnlyChanges (s.laneFailure l o) [.lanes, .jobs, .outbox, .blocks] := by
  unfold State.laneFailure
  split
  · exact .refl s _
  · exact State.finishCurrent_onlyChanges _ _ _ _ _

theorem State.serveLane_onlyChanges (s : State) (l : LaneId) (others : List LaneId) :
    s.OnlyChanges (s.serveLane l others) [.lanes, .jobs, .outbox] := by
  unfold State.serveLane
  split
  · intro g hg; cases g <;> first | exact absurd (by decide) hg | rfl
  · simp only
    split
    · intro g hg; cases g <;> first | exact absurd (by decide) hg | rfl
    · have h : ∀ o id f k, s.OnlyChanges (((s.updLane l f).setOutbox o).updJob id k)
          [.lanes, .jobs, .outbox] := by
        intro o id f k g hg; cases g <;> first | exact absurd (by decide) hg | rfl
      split
      · exact (h _ _ _ _).trans ((State.laneGoesOn_onlyChanges _ _ _).mono (by decide))
      · exact h _ _ _ _

theorem serveWaiting_onlyChanges (n : Nat) (s : State) :
    s.OnlyChanges (serveWaiting n s) [.lanes, .jobs, .outbox] := by
  induction n generalizing s with
  | zero => exact .refl s _
  | succ n ih =>
    unfold serveWaiting
    split
    · exact .refl s _
    · split
      · exact (s.serveLane_onlyChanges _ _).trans (ih _)
      · exact .refl s _

theorem State.serveFreed_onlyChanges (s : State) :
    s.OnlyChanges s.serveFreed [.lanes, .jobs, .outbox] := by
  refine .trans (t := s.setOutbox s.outbox.serveOwed) ?_ (serveWaiting_onlyChanges _ _)
  intro g hg; cases g <;> first | exact absurd (by decide) hg | rfl

/-! ### Faults and cancels -/

theorem State.recordFault_onlyChanges (s : State) (r : FaultRecord) :
    s.OnlyChanges (s.recordFault r) [.faults, .jobs] := by
  intro g hg; cases g <;> first | exact absurd (by decide) hg | rfl

theorem State.recordInterrupted_onlyChanges (s : State) (l : LaneId) (id : Nat) :
    s.OnlyChanges (s.recordInterrupted l id) [.faults, .jobs] := by
  unfold State.recordInterrupted
  split
  · exact s.recordFault_onlyChanges _
  · exact .refl s _

/-- What a cancel may change. -/
abbrev cancelFields : List StateField :=
  [.lanes, .jobs, .outbox, .blocks, .freeUnits, .grantQueue, .faults]

theorem State.cancelQueued_onlyChanges (s : State) (j : Job) :
    s.OnlyChanges (s.cancelQueued j) cancelFields :=
  ((s.updLane_onlyChanges j.lane _).mono (by decide)).trans
    ((State.finishJob_onlyChanges _ _ _ _ _ _).mono (by decide))

theorem State.cancelWaiting_onlyChanges (s : State) (j : Job) :
    s.OnlyChanges (s.cancelWaiting j) cancelFields := by
  unfold State.cancelWaiting
  refine .trans ?_ ((State.finishJob_onlyChanges _ _ _ _ _ _).mono (by decide))
  split
  · refine .trans ?_ ((State.grantTest_onlyChanges _).mono (by decide))
    intro g hg; cases g <;> first | exact absurd (by decide) hg | rfl
  · exact .refl s _

theorem State.cancelPulsing_onlyChanges (s : State) (j : Job) :
    s.OnlyChanges (s.cancelPulsing j) cancelFields :=
  ((((s.openSwitch_onlyChanges _ _).mono (by decide)).trans
    ((State.grantTest_onlyChanges _).mono (by decide))).trans
    ((State.recordInterrupted_onlyChanges _ _ _).mono (by decide))).trans
    ((State.finishJob_onlyChanges _ _ _ _ _ _).mono (by decide))

theorem State.deferCancel_onlyChanges (s : State) (j : Job) (tag : Byte) :
    s.OnlyChanges (s.deferCancel j tag) (.deferred :: cancelFields) := by
  unfold State.deferCancel
  simp only
  refine .trans (t := if (s.lane j.lane).slot = .granted then
      ((s.openSwitch j.lane .cut).grantTest).recordInterrupted j.lane j.id else s) ?_ ?_
  · split
    · exact (((s.openSwitch_onlyChanges _ _).mono (by decide)).trans
        ((State.grantTest_onlyChanges _).mono (by decide))).trans
        ((State.recordInterrupted_onlyChanges _ _ _).mono (by decide))
    · exact .refl s _
  · intro g hg; cases g <;> first | exact absurd (by decide) hg | rfl

/-! ### Replies -/

theorem State.completeTag_onlyChanges (s : State) (t : Fin 16) (d : Digest) (f : Frame) :
    s.OnlyChanges (s.completeTag t d f) [.tags, .replyQueue] := by
  refine .trans (t := s.setTagEntry t (.replied d f)) ?_
    ((State.placeReply_onlyChanges _ _).mono (by decide))
  intro g hg; cases g <;> first | exact absurd (by decide) hg | rfl

theorem State.completeDeferred_onlyChanges (s : State) (tag : Byte) (id : Nat) :
    s.OnlyChanges (s.completeDeferred tag id) [.tags, .replyQueue] := by
  unfold State.completeDeferred
  split
  · exact .refl s _
  · split
    · exact .refl s _
    · exact State.completeTag_onlyChanges _ _ _ _

/-- What the end of a cycle may change. -/
abbrev cycleFields : List StateField := .tags :: .replyQueue :: .deferred :: cancelFields

theorem State.endDeferred_onlyChanges (s : State) (l : LaneId) (tags : List Byte) (o : CycleOutcome) :
    s.OnlyChanges (s.endDeferred l tags o) cycleFields := by
  unfold State.endDeferred
  have h : s.OnlyChanges (if (s.lane l).lvpClosed then (s.openSwitch l .none).grantTest else
      s.updLane l fun x => { x with slot := .none }) cycleFields := by
    split
    · exact ((s.openSwitch_onlyChanges _ _).mono (by decide)).trans
        ((State.grantTest_onlyChanges _).mono (by decide))
    · exact (s.updLane_onlyChanges l _).mono (by decide)
  simp only
  split
  · exact h
  · refine .trans ?_ ((State.OnlyChanges.foldl
      (fs := [.tags, .replyQueue]) (fun s t => State.completeDeferred_onlyChanges s t _) tags _).mono (by decide))
    exact .trans (h.trans ((State.finishJob_onlyChanges _ _ _ _ _ _).mono (by decide)))
      ((State.setDeferred_onlyChanges _ _).mono (by decide))

/-! ### The sequencer -/

theorem State.offerFault_onlyChanges (s : State) (l : LaneId) (j : Job) (r : FaultRecord)
    (goOn : State → State) (h : ∀ s : State, s.OnlyChanges (goOn s) cancelFields) :
    s.OnlyChanges (s.offerFault l j r goOn) cancelFields := by
  unfold State.offerFault
  split
  · simp only
    refine .trans ((s.recordFault_onlyChanges r).mono (by decide)) ?_
    split
    · exact (State.finishCurrent_onlyChanges _ _ _ _ _).mono (by decide)
    · exact h _
  · exact (State.finishCurrent_onlyChanges _ _ _ _ _).mono (by decide)

theorem State.rangeDone_onlyChanges (s : State) (l : LaneId) :
    s.OnlyChanges (s.rangeDone l) cancelFields := by
  unfold State.rangeDone
  split
  · exact .refl s _
  · split <;> exact (State.finishCurrent_onlyChanges _ _ _ _ _).mono (by decide)

theorem State.offerProgress_onlyChanges (s : State) (l : LaneId) (j : Job) (done : Nat) :
    s.OnlyChanges (s.offerProgress l j done) [.outbox] := by
  intro g hg; cases g <;> first | exact absurd (by decide) hg | rfl

theorem State.byteDone_onlyChanges (s : State) (l : LaneId) :
    s.OnlyChanges (s.byteDone l) cancelFields := by
  unfold State.byteDone
  split
  · exact .refl s _
  · simp only
    split
    · exact ((s.updJob_onlyChanges _ _).mono (by decide)).trans (State.rangeDone_onlyChanges _ _)
    · refine .trans ?_ ((State.sendAtAddress_onlyChanges _ _ _).mono (by decide))
      refine .trans ?_ ((State.updContext_onlyChanges _ _ _).mono (by decide))
      split
      · split
        · exact ((s.updJob_onlyChanges _ _).mono (by decide)).trans
            ((State.offerProgress_onlyChanges _ _ _ _).mono (by decide))
        · exact (s.updJob_onlyChanges _ _).mono (by decide)
      · exact (s.updJob_onlyChanges _ _).mono (by decide)

theorem State.enterErase_onlyChanges (s : State) (l : LaneId) (a : Nat) :
    s.OnlyChanges (s.enterErase l a) cancelFields :=
  ((s.updContext_onlyChanges _ _).mono (by decide)).trans
    ((State.requestGrant_onlyChanges _ _).mono (by decide))

theorem State.beginSector_onlyChanges (s : State) (l : LaneId) (j : Job) (a : Nat) :
    s.OnlyChanges (s.beginSector l j a) cancelFields := by
  unfold State.beginSector
  simp only
  split
  · exact (((s.updContext_onlyChanges _ _).trans (State.updContext_onlyChanges _ _ _)).trans
      (State.sendAtAddress_onlyChanges _ _ _)).mono (by decide)
  · exact ((s.updContext_onlyChanges _ _).mono (by decide)).trans
      (State.enterErase_onlyChanges _ _ _)

theorem State.sectorDone_onlyChanges (s : State) (l : LaneId) :
    s.OnlyChanges (s.sectorDone l) cancelFields := by
  unfold State.sectorDone
  split
  · exact .refl s _
  · simp only
    split
    · exact ((s.updJob_onlyChanges _ _).mono (by decide)).trans (State.rangeDone_onlyChanges _ _)
    · refine .trans ?_ (State.beginSector_onlyChanges _ _ _ _)
      split
      · split
        · exact ((s.updJob_onlyChanges _ _).mono (by decide)).trans
            ((State.offerProgress_onlyChanges _ _ _ _).mono (by decide))
        · exact (s.updJob_onlyChanges _ _).mono (by decide)
      · exact (s.updJob_onlyChanges _ _).mono (by decide)

theorem State.preconditionByteDone_onlyChanges (s : State) (l : LaneId) :
    s.OnlyChanges (s.preconditionByteDone l) cancelFields := by
  unfold State.preconditionByteDone
  split
  · exact .refl s _
  · simp only
    split
    · exact State.enterErase_onlyChanges _ _ _
    · exact ((s.updContext_onlyChanges _ _).trans (State.sendAtAddress_onlyChanges _ _ _)).mono
        (by decide)

theorem State.readReady_onlyChanges (s : State) (l : LaneId) (j : Job) (v : Byte) :
    s.OnlyChanges (s.readReady l j v) cancelFields := by
  unfold State.readReady State.judgeProgramRead State.judgeVerifyRead State.judgeBlankRead
    State.judgePreconditionRead
  simp only
  split
  · exact .refl s _
  · split
    · exact s.byteDone_onlyChanges l
    · split
      · exact s.offerFault_onlyChanges _ _ _ _ fun s => s.byteDone_onlyChanges l
      · exact (s.sendCycle_onlyChanges _ _ _ _).mono (by decide)
  · split
    · exact s.byteDone_onlyChanges l
    · exact s.offerFault_onlyChanges _ _ _ _ fun s => s.byteDone_onlyChanges l
  · split
    · exact s.byteDone_onlyChanges l
    · exact s.offerFault_onlyChanges _ _ _ _ fun s => s.byteDone_onlyChanges l
  · split
    · exact s.preconditionByteDone_onlyChanges l
    · exact (s.sendCycle_onlyChanges _ _ _ _).mono (by decide)

theorem State.marginReady_onlyChanges (s : State) (l : LaneId) (j : Job) (v : Byte) :
    s.OnlyChanges (s.marginReady l j v) cancelFields := by
  unfold State.marginReady State.judgeProgramMargin State.judgePreconditionMargin
  simp only
  split
  · split
    · exact s.byteDone_onlyChanges l
    · split
      · exact s.offerFault_onlyChanges _ _ _ _ fun s => s.byteDone_onlyChanges l
      · exact (s.requestGrant_onlyChanges _).mono (by decide)
  · split
    · exact s.preconditionByteDone_onlyChanges l
    · split
      · exact s.offerFault_onlyChanges _ _ _ _ fun s => s.preconditionByteDone_onlyChanges l
      · exact (s.requestGrant_onlyChanges _).mono (by decide)
  all_goals exact .refl s _

theorem State.judgeSweep_onlyChanges (s : State) (l : LaneId) (j : Job) (v : Byte) :
    s.OnlyChanges (s.judgeSweep l j v) cancelFields := by
  unfold State.judgeSweep
  simp only
  split
  · split
    · exact s.sectorDone_onlyChanges l
    · exact ((s.updContext_onlyChanges _ _).trans (State.sendAtAddress_onlyChanges _ _ _)).mono
        (by decide)
  · split
    · exact ((s.updContext_onlyChanges _ _).mono (by decide)).trans
        (((State.updContext_onlyChanges _ _ _).mono (by decide)).trans
          ((State.requestGrant_onlyChanges _ _).mono (by decide)))
    · exact ((s.updContext_onlyChanges _ _).mono (by decide)).trans
        (State.offerFault_onlyChanges _ _ _ _ _ fun s => s.sectorDone_onlyChanges l)

theorem State.probePassed_onlyChanges (s : State) (l : LaneId) (j : Job) :
    s.OnlyChanges (s.probePassed l j) cancelFields := by
  unfold State.probePassed
  split
  · exact State.rangeDone_onlyChanges _ _
  · exact (State.sendAtAddress_onlyChanges _ _ _).mono (by decide)
  · exact (State.sendAtAddress_onlyChanges _ _ _).mono (by decide)
  · exact (State.sendAtAddress_onlyChanges _ _ _).mono (by decide)
  · exact State.beginSector_onlyChanges _ _ _ _

theorem State.probeReady_onlyChanges (s : State) (l : LaneId) (j : Job) (m d : Byte) :
    s.OnlyChanges (s.probeReady l j m d) cancelFields := by
  unfold State.probeReady
  simp only
  have h : ∀ f, s.OnlyChanges (s.updJob j.id f) cancelFields := fun f =>
    (s.updJob_onlyChanges _ f).mono (by decide)
  split
  · exact (h _).trans ((State.finishCurrent_onlyChanges _ _ _ _ _).mono (by decide))
  · exact (h _).trans (State.probePassed_onlyChanges _ _ _)

theorem State.cycleReady_onlyChanges (s : State) (l : LaneId) (k : CycleKind) (data : List Byte) :
    s.OnlyChanges (s.cycleReady l k data) cancelFields := by
  unfold State.cycleReady
  split
  · exact .refl s _
  · split
    · exact s.probeReady_onlyChanges _ _ _ _
    · exact s.readReady_onlyChanges _ _ _
    · exact s.marginReady_onlyChanges _ _ _
    · exact s.judgeSweep_onlyChanges _ _ _
    · exact ((s.updContext_onlyChanges _ _).mono (by decide)).trans
        ((State.requestGrant_onlyChanges _ _).mono (by decide))
    · unfold State.pulseEndReady
      split
      · exact (s.sendAtAddress_onlyChanges _ _).mono (by decide)
      · exact (s.sweep_onlyChanges _).mono (by decide)
    all_goals exact .refl s _

theorem State.pulseStarts_onlyChanges (s : State) (l : LaneId) (k : CycleKind) :
    s.OnlyChanges (s.pulseStarts l k) cancelFields := by
  unfold State.pulseStarts
  simp only
  split <;> exact (((s.updLane_onlyChanges l _).trans (State.updContext_onlyChanges _ l _)).mono
    (by decide)).trans ((State.updCurrentJob_onlyChanges _ l _).mono (by decide))

theorem State.pulseCycleEnds_onlyChanges (s : State) (l : LaneId) (k : CycleKind) (o : CycleOutcome) :
    s.OnlyChanges (s.pulseCycleEnds l k o) cancelFields := by
  have hf : ∀ (s : State) o, s.OnlyChanges (((s.openSwitch l .none).setLaneState l .running).laneFailure
      l o).grantTest cancelFields := fun s o =>
    ((((s.openSwitch_onlyChanges l _).mono (by decide)).trans
      ((State.setLaneState_onlyChanges _ l _).mono (by decide))).trans
      ((State.laneFailure_onlyChanges _ l o).mono (by decide))).trans
      ((State.grantTest_onlyChanges _).mono (by decide))
  unfold State.pulseCycleEnds
  split
  · split
    · exact s.pulseStarts_onlyChanges l k
    all_goals exact hf s _
  · unfold State.cutPulseEnds
    simp only
    have h : ∀ f, s.OnlyChanges (s.updLane l f) cancelFields := fun f =>
      (s.updLane_onlyChanges l f).mono (by decide)
    split
    · split
      · exact (h _).trans (((State.holdLane_onlyChanges _ l).mono (by decide)).trans
          (((State.resumeLane_onlyChanges _ l).mono (by decide)).trans
            ((State.grantTest_onlyChanges _).mono (by decide))))
      · exact (h _).trans ((State.holdLane_onlyChanges _ l).mono (by decide))
    all_goals exact (h _).trans (((State.setLaneState_onlyChanges _ l _).mono (by decide)).trans
      ((State.laneFailure_onlyChanges _ l _).mono (by decide)))
  all_goals exact .refl s _

/-- The end of a cycle leaves the link's receiver and Transmitter, the profiles, the identifiers, the supply
and the epoch alone. -/
theorem State.cycleEnds_onlyChanges (s : State) (l : LaneId) (k : CycleKind) (o : CycleOutcome)
    (data : List Byte) : s.OnlyChanges (s.cycleEnds l k o data) cycleFields := by
  unfold State.cycleEnds
  simp only
  refine .trans (t := s.updUnit l fun _ => .ended) ((s.updLane_onlyChanges l _).mono (by decide)) ?_
  split
  · exact State.endDeferred_onlyChanges _ _ _ _
  · split
    · exact (State.pulseCycleEnds_onlyChanges _ _ _ _).mono (by decide)
    · split
      · exact (State.cycleReady_onlyChanges _ _ _ _).mono (by decide)
      all_goals exact (State.laneFailure_onlyChanges _ _ _).mono (by decide)

theorem State.pulseExpires_onlyChanges (s : State) (l : LaneId) :
    s.OnlyChanges (s.pulseExpires l) [.lanes, .freeUnits, .grantQueue] :=
  ((((s.openSwitch_onlyChanges l _).mono (by decide)).trans
    ((State.setLaneState_onlyChanges _ l _).mono (by decide))).trans
    (State.grantTest_onlyChanges _)).trans ((State.sendCycle_onlyChanges _ l _ _ _).mono (by decide))

theorem State.supplyFalls_onlyChanges (s : State) :
    s.OnlyChanges s.supplyFalls [.supply, .lanes, .jobs, .freeUnits, .grantQueue, .outbox] := by
  unfold State.supplyFalls
  exact (((s.setSupply_onlyChanges _).mono (by decide)).trans
    ((State.fallOnLanes_onlyChanges _).mono (by decide))).trans
    ((State.setOutbox_onlyChanges _ _).mono (by decide))

/-! ### Requests -/

/-- The state that judging a request leaves. -/
def Taken.after : Taken → State
  | .replied _ _ s | .deferred s | .selfReplied s => s

/-- What a request that is neither ENGINE-RESET, PROFILE-LOAD nor SUPPLY-RESUME may change. -/
abbrev requestFields : List StateField := .lastId :: .deferred :: cancelFields

theorem State.createJobs_onlyChanges (f : Submit) (p : ProfileId) (w : Work) (ls : List LaneId)
    (s : State) : s.OnlyChanges (s.createJobs f p w ls).1 [.jobs, .lastId, .blocks, .lanes] := by
  induction ls generalizing s with
  | nil => exact .refl s _
  | cons l ls ih =>
    refine .trans (t := s.createJob f p w l) ?_ (ih _)
    unfold State.createJob
    refine .trans ?_ ((State.updLane_onlyChanges _ l _).mono (by decide))
    refine .trans ?_ ((State.addRefs_onlyChanges _ _).mono (by decide))
    intro g hg; cases g <;> first | exact absurd (by decide) hg | rfl

theorem takeJobSubmit_onlyChanges (s : State) (p : List Byte) :
    s.OnlyChanges (takeJobSubmit s p).after [.jobs, .lastId, .blocks, .lanes] := by
  unfold takeJobSubmit
  simp only
  repeat' (first | exact .refl s _ | split)
  exact (State.createJobs_onlyChanges _ _ _ _ s).trans
    ((State.OnlyChanges.foldl State.startHead_onlyChanges _ _).mono (by decide))

theorem takeJobCancel_onlyChanges (s : State) (tag : Byte) (p : List Byte) :
    s.OnlyChanges (takeJobCancel s tag p).after requestFields := by
  unfold takeJobCancel
  repeat' (first | exact .refl s _ | split)
  · exact (s.cancelQueued_onlyChanges _).mono (by decide)
  · exact (s.cancelWaiting_onlyChanges _).mono (by decide)
  · exact (s.deferCancel_onlyChanges _ _).mono (by decide)
  · exact (s.cancelPulsing_onlyChanges _).mono (by decide)
  · exact (s.cancelWaiting_onlyChanges _).mono (by decide)

theorem takeBlock_replied (s : State) (c : Result) (fields : List Byte) (h : Handle) (f : Block → Block) :
    s.OnlyChanges (Taken.replied c fields (s.updBlock h f)).after [.blocks] := s.updBlock_onlyChanges h f

theorem takeBlock_onlyChanges (s : State) (p : List Byte) :
    s.OnlyChanges (takeBlockOpen s).after [.blocks] ∧ s.OnlyChanges (takeBlockWrite s p).after [.blocks] ∧
    s.OnlyChanges (takeBlockSeal s p).after [.blocks] ∧
    s.OnlyChanges (takeBlockRelease s p).after [.blocks] ∧
    s.OnlyChanges (takeBlockQuery s p).after [.blocks] := by
  refine ⟨?_, ?_, ?_, ?_, ?_⟩
  · unfold takeBlockOpen
    split
    · exact .refl s _
    · exact takeBlock_replied _ _ _ _ _
  · unfold takeBlockWrite
    simp only
    repeat' (first | exact .refl s _ | exact takeBlock_replied _ _ _ _ _ | split)
  · unfold takeBlockSeal
    simp only
    repeat' (first | exact .refl s _ | exact takeBlock_replied _ _ _ _ _ | split)
  · unfold takeBlockRelease
    simp only
    repeat' (first | exact .refl s _ | exact takeBlock_replied _ _ _ _ _ | split)
  · unfold takeBlockQuery
    split <;> exact .refl s _

/-- Every request but the three named leaves the epoch, the profiles, the supply and the link alone. -/
theorem carryOut_onlyChanges {r : Request} (h1 : r ≠ .engineReset) (h2 : r ≠ .profileLoad)
    (h3 : r ≠ .supplyResume) (t : Fin 16) (tag : Byte) (d : Digest) (p : List Byte) (s : State) :
    s.OnlyChanges (carryOut r t tag d p s).after requestFields := by
  have hb := takeBlock_onlyChanges s p
  cases r with
  | engineReset => exact absurd rfl h1
  | profileLoad => exact absurd rfl h2
  | supplyResume => exact absurd rfl h3
  | signOn => exact .refl s _
  | status => exact .refl s _
  | blockOpen => exact hb.1.mono (by decide)
  | blockWrite => exact hb.2.1.mono (by decide)
  | blockSeal => exact hb.2.2.1.mono (by decide)
  | blockRelease => exact hb.2.2.2.1.mono (by decide)
  | blockQuery => exact hb.2.2.2.2.mono (by decide)
  | jobSubmit => exact (takeJobSubmit_onlyChanges s p).mono (by decide)
  | jobCancel => exact takeJobCancel_onlyChanges s tag p
  | profileRead =>
    simp only [carryOut, takeProfileRead]
    split <;> exact .refl s _
  | jobQuery =>
    simp only [carryOut, takeJobQuery]
    split <;> exact .refl s _
  | jobRetire =>
    simp only [carryOut, takeJobRetire]
    repeat' (first | exact .refl s _ | split)
    intro g hg; cases g <;> first | exact absurd (by decide) hg | rfl
  | faultsRead =>
    simp only [carryOut, takeFaultsRead]
    repeat' (first | exact .refl s _ | split)
  | laneRestart =>
    simp only [carryOut, takeLaneRestart]
    repeat' (first | exact .refl s _ | split)
    exact ((s.setLaneState_onlyChanges _ _).mono (by decide)).trans
      ((State.startHead_onlyChanges _ _).mono (by decide))
  | reportAck =>
    simp only [carryOut, takeReportAck]
    split
    · exact .refl s _
    · exact ((s.setOutbox_onlyChanges _).mono (by decide)).trans
        ((State.serveFreed_onlyChanges _).mono (by decide))

theorem takeProfileLoad_onlyChanges (s : State) (p : List Byte) :
    s.OnlyChanges (takeProfileLoad s p).after [.profiles] := by
  unfold takeProfileLoad
  simp only
  repeat' (first | exact .refl s _ | split)
  intro g hg; cases g <;> first | exact absurd (by decide) hg | rfl

theorem takeSupplyResume_onlyChanges (s : State) :
    s.OnlyChanges (takeSupplyResume s).after [.supply, .lanes, .jobs, .grantQueue, .freeUnits] := by
  unfold takeSupplyResume
  split
  · exact .refl s _
  · exact .refl s _
  · exact (((s.setSupply_onlyChanges _).mono (by decide)).trans
      ((State.resumeLanes_onlyChanges _ _).mono (by decide))).trans
      ((State.grantTest_onlyChanges _).mono (by decide))

/-- The fields that no request touches. -/
abbrev frameFields : List StateField :=
  .rx :: .epoch :: .tags :: .replyQueue :: .profiles :: .supply :: requestFields

theorem State.engineReset_onlyChanges (s : State) (t : Fin 16) (tag : Byte) (d : Digest) :
    s.OnlyChanges (s.engineReset t tag d)
      (.rx :: .epoch :: .tags :: .replyQueue :: .supply :: requestFields) := by
  unfold State.engineReset
  refine .trans ?_ ((State.setOutbox_onlyChanges _ _).mono (by decide))
  refine .trans ?_ ((State.completeTag_onlyChanges _ _ _ _).mono (by decide))
  intro g hg; cases g <;> first | rfl | (exfalso; revert hg; decide)

theorem carryOut_frame (r : Request) (t : Fin 16) (tag : Byte) (d : Digest) (p : List Byte) (s : State) :
    s.OnlyChanges (carryOut r t tag d p s).after frameFields := by
  by_cases h1 : r = .engineReset
  · subst h1; exact (s.engineReset_onlyChanges t tag d).mono (by decide)
  by_cases h2 : r = .profileLoad
  · subst h2; exact (takeProfileLoad_onlyChanges s p).mono (by decide)
  by_cases h3 : r = .supplyResume
  · subst h3; exact (takeSupplyResume_onlyChanges s).mono (by decide)
  exact (carryOut_onlyChanges h1 h2 h3 t tag d p s).mono (by decide)

/-- Dispatch with a frame that its judging keeps. -/
theorem State.dispatch_onlyChanges (s : State) (f : Frame) (fs : List StateField)
    (ht : StateField.tags ∈ fs) (hq : StateField.replyQueue ∈ fs)
    (hj : ∀ r t (s : State), Request.ofKind f.kind = some r →
      s.OnlyChanges (carryOut r t f.tag f.digest f.payload s).after fs) :
    s.OnlyChanges (s.dispatch f) fs := by
  have hp : ∀ (s : State) g, s.OnlyChanges (s.placeReply g) fs := fun s g =>
    (s.placeReply_onlyChanges g).mono (by simp [hq])
  have htk : ∀ (s : State) t, s.OnlyChanges (s.takeRequest t f) fs := by
    intro s t
    have h0 : s.OnlyChanges (s.setTagEntry t (.inFlight f.digest)) fs := by
      intro g hg; cases g <;> first | rfl | exact absurd ht hg
    have h1 : s.OnlyChanges (judgeRequest t f (s.setTagEntry t (.inFlight f.digest))).after fs := by
      refine h0.trans ?_
      unfold judgeRequest
      split
      · exact .refl _ _
      · next r hr =>
        split
        · exact hj r t _ hr
        · exact .refl _ _
    unfold State.takeRequest
    split
    · next heq =>
      rw [heq] at h1
      exact h1.trans ((State.completeTag_onlyChanges _ _ _ _).mono (by simp [ht, hq]))
    · next heq => rw [heq] at h1; exact h1
    · next heq => rw [heq] at h1; exact h1
  unfold State.dispatch
  split
  · exact hp s _
  · split
    · exact htk s _
    · split
      · exact hp s _
      · exact htk s _
    · split
      · exact .refl s _
      · exact hp s _

theorem State.frameArrives_onlyChanges (s : State) (f : Frame) (fs : List StateField)
    (ht : StateField.tags ∈ fs) (hj : ∀ r t (s : State), Request.ofKind f.kind = some r →
      s.OnlyChanges (carryOut r t f.tag f.digest f.payload s).after fs)
    (hl : ∀ g ∈ [StateField.tx, .replyQueue, .outbox, .choices], g ∈ fs) :
    s.OnlyChanges (s.frameArrives f) fs := by
  have h0 : s.OnlyChanges (s.told.dispatch f) fs :=
    ((s.setOutbox_onlyChanges _).mono (by simpa using hl .outbox)).trans
      (State.dispatch_onlyChanges _ f fs ht (hl _ (by simp)) hj)
  unfold State.frameArrives
  simp only
  split
  · exact h0.trans ((State.transmit_onlyChanges _).mono fun g hg => hl g (by revert g; decide))
  · exact h0.trans ((State.transmitEither_onlyChanges _).mono hl)

end Sys2Proof.Machine
end

