-- ==== Sys2Proof/Laws/Jobs.lean ====
section
/-! SUPPORT. The end of a job, said once: what `finishJob` leaves in the table, the pool, the outbox and the
lane, and that a lane then starts the head of its queue. -/

namespace Sys2Proof.Machine

/-- A job whose record is updated is still found by its identifier. -/
theorem State.job?_updJob_self {s : State} {id : Nat} {j : Job} (h : s.job? id = some j) (f : Job → Job)
    (hf : ∀ j, (f j).id = j.id) : (s.updJob id f).job? id = some (f j) := by
  rw [State.job?_updJob _ _ _ _ hf, h, Option.map_some, if_pos (State.job?_some h).1]

/-- Two updates of one job in a row. -/
theorem State.updJob_updJob (s : State) (id : Nat) (f g : Job → Job) (hf : ∀ j, (f j).id = j.id) :
    (s.updJob id f).updJob id g = s.updJob id fun j => g (f j) := by
  unfold State.updJob
  show s.setJobs _ = s.setJobs _
  rw [State.setJobs_jobs, List.map_map]
  congr 2
  funext q
  simp only [Function.comp]
  by_cases h : q.id = id <;> simp [h, hf]

theorem State.dropRefs_lane (s : State) (hs : List Handle) (l : LaneId) :
    (s.dropRefs hs).lane l = s.lane l :=
  congrArg (fun v : Vector Lane 8 => v[l]) (s.dropRefs_onlyChanges hs .lanes (by simp))

theorem State.dropRefs_jobs (s : State) (hs : List Handle) : (s.dropRefs hs).jobs = s.jobs :=
  s.dropRefs_onlyChanges hs .jobs (by simp)

theorem State.dropRefs_outbox (s : State) (hs : List Handle) : (s.dropRefs hs).outbox = s.outbox :=
  s.dropRefs_onlyChanges hs .outbox (by simp)

theorem State.dropRefs_job? (s : State) (hs : List Handle) (id : Nat) :
    (s.dropRefs hs).job? id = s.job? id := by
  unfold State.job?; rw [State.dropRefs_jobs]

/-- What dropping references does to the blocks depends on the blocks alone. -/
theorem State.dropRefs_blocks {s t : State} (h : t.blocks = s.blocks) (hs : List Handle) :
    (t.dropRefs hs).blocks = (s.dropRefs hs).blocks := by
  induction hs generalizing s t with
  | nil => exact h
  | cons g hs ih =>
    refine ih (s := s.updBlock g Block.dropRef) (t := t.updBlock g Block.dropRef) ?_
    show t.blocks.set g _ = s.blocks.set g _
    unfold State.block; rw [h]

/-- The end of the current job of lane `l`: the lane leaves its working state as `CurrentJobEnds` says, and
then starts the head of its queue if it is IDLE (R17, R18, R19). -/
theorem State.finishJob_current {s : State} {l : LaneId} {j : Job} (hj : s.job? j.id = some j)
    (hl : j.lane = l) (st : JobState) (reason : EndReason) (stopped : Bool) :
    ∃ w : State, s.CurrentJobEnds w l j st reason stopped ∧
      s.finishJob j.id st reason stopped true = w.startHead l := by
  subst hl
  unfold State.finishJob
  simp only [hj, if_true]
  let f₁ : Job → Job := fun j => { j with state := st, endReason := some reason, laneStopped := stopped }
  let s₂ := ((s.updJob j.id f₁).updLane j.lane fun x =>
    { x with current := none, context := .cleared }).dropRefs j.work.blocks
  have hob : s₂.outbox = s.outbox := State.dropRefs_outbox _ _
  have hjob : s₂.job? j.id = some (f₁ j) := by
    rw [State.dropRefs_job?, State.job?_updLane]; exact State.job?_updJob_self hj f₁ fun _ => rfl
  have hjobs : s₂.jobs = s.jobs.map fun q => if q.id = j.id then f₁ q else q := State.dropRefs_jobs _ _
  have hbl : s₂.blocks = (s.dropRefs j.work.blocks).blocks := State.dropRefs_blocks (by rfl) _
  have hla : ∀ m, s₂.lane m = if j.lane = m then
      { s.lane m with current := none, context := .cleared } else s.lane m := by
    intro m
    rw [State.dropRefs_lane, State.lane_updLane]
    simp only [State.lane_updJob]
    split
    · next h => subst h; rfl
    · rfl
  have hoc : s.OnlyChanges s₂ [.jobs, .blocks, .lanes] := by
    refine .trans ?_ ((State.dropRefs_onlyChanges _ _).mono (by decide))
    intro g hg; cases g <;> first | exact absurd (by decide) hg | rfl
  show ∃ w : State, _ ∧ s₂.offerJobEnd j.id true = _
  have hjl : (f₁ j).lane = j.lane := rfl
  have hjs : (f₁ j).laneStopped = stopped := rfl
  have hbody : (f₁ j).endBody = j.endsWith st reason stopped := rfl
  have hmap : ∀ r, (s₂.jobs.map fun q => if q.id = j.id then { q with endReport := r } else q) =
      s.jobs.map fun q => if q.id = j.id then { f₁ q with endReport := r } else q := by
    intro r
    rw [hjobs, List.map_map]
    congr 1
    funext q
    simp only [Function.comp]
    by_cases h : q.id = j.id
    · rw [if_pos h, if_pos h, if_pos (show (f₁ q).id = j.id from h)]
    · rw [if_neg h, if_neg h, if_neg h]
  unfold State.offerJobEnd
  simp only [hjob, hob]
  by_cases hroom : 0 < s.outbox.freeGeneral
  · simp only [hroom, if_true, hjl, hjs, hbody]
    let u := ((s₂.setOutbox (s.outbox.enqueue (j.endsWith st reason stopped))).updJob j.id fun q =>
      { q with endReport := .enqueued })
    refine ⟨u.updLane j.lane fun x => { x with
      state := if stopped then .stopped else .idle, waitFor := none }, ?_, ?_⟩
    · refine ⟨⟨?_, hbl, ?_⟩, ?_, ?_, ?_⟩
      · simp only [hroom, if_true]
        exact hmap .enqueued
      · simp only [hroom, if_true]; rfl
      · have : u.lane j.lane = s₂.lane j.lane := rfl
        simp only [State.lane_updLane_self, this, hla, if_true, Lane.afterJob, hroom, decide_true]
      · intro m hm
        rw [State.lane_updLane_ne _ _ (Ne.symm hm)]
        show s₂.lane m = _
        rw [hla, if_neg (Ne.symm hm)]
      · refine (hoc.mono (by decide)).trans ?_
        intro g hg; cases g <;> first | exact absurd (by decide) hg | rfl
    · unfold State.laneGoesOn
      cases stopped
      · rfl
      · simp only [if_true]
        rw [State.startHead_of_ne (by simp)]
  · simp only [hroom, if_false, hjl, if_true]
    let u := ((s₂.setOutbox (s.outbox.joinWaiting j.lane)).updJob j.id fun q =>
      { q with endReport := .waiting })
    refine ⟨(u.updLane j.lane fun x => { x with waitingEnds := x.waitingEnds ++ [j.id] }).updLane
      j.lane fun x => { x with state := .reportWait, waitFor := some j.id }, ?_, ?_⟩
    · rw [State.updLane_updLane]
      refine ⟨⟨?_, hbl, ?_⟩, ?_, ?_, ?_⟩
      · simp only [hroom, if_false]
        exact hmap .waiting
      · simp only [hroom, if_false]; rfl
      · have : u.lane j.lane = s₂.lane j.lane := rfl
        simp only [State.lane_updLane_self, this, hla, if_true, Lane.afterJob, hroom, decide_false,
          Bool.false_eq_true, if_false]
        rfl
      · intro m hm
        rw [State.lane_updLane_ne _ _ (Ne.symm hm)]
        show s₂.lane m = _
        rw [hla, if_neg (Ne.symm hm)]
      · refine (hoc.mono (by decide)).trans ?_
        intro g hg; cases g <;> first | exact absurd (by decide) hg | rfl
    · rw [State.startHead_of_ne (by simp)]

/-- As before, through the lane's current job. -/
theorem State.finishCurrent_eq {s : State} {l : LaneId} {j : Job} (hj : s.currentJob? l = some j)
    (hl : j.lane = l) (st : JobState) (reason : EndReason) (stopped : Bool) :
    ∃ w : State, s.CurrentJobEnds w l j st reason stopped ∧
      s.finishCurrent l st reason stopped = w.startHead l := by
  unfold State.currentJob? at hj
  unfold State.finishCurrent
  cases hc : (s.lane l).current with
  | none => simp [hc] at hj
  | some id =>
    simp only [hc, Option.bind_some] at hj
    have hid := (State.job?_some hj).1
    subst hid
    exact State.finishJob_current hj hl st reason stopped

/-- A job that stops its lane leaves it STOPPED or in REPORT_WAIT: nothing starts on it (R18). -/
theorem State.CurrentJobEnds.startHead_stopped {s w : State} {l : LaneId} {j : Job} {st : JobState}
    {reason : EndReason} (h : s.CurrentJobEnds w l j st reason true) : w.startHead l = w := by
  refine State.startHead_of_ne ?_
  rw [h.2.1]
  unfold Lane.afterJob
  cases decide (0 < s.outbox.freeGeneral) <;> simp

end Sys2Proof.Machine
end

