-- ==== Sys2Proof/Laws/Memory.lean ====
section
/-! SUPPORT. The content of a block: what a read after a write gives, and that every operation keeps the
canonical form. -/

namespace Sys2Proof.Machine

/-- A content is canonical when its first cell lies below the others and below the size of a block, holds
no value that an unlisted offset reads as, and the rest is canonical. -/
theorem Memory.wf_cons (c : Host.Cell) (m : Memory) :
    Memory.wf (c :: m) = true ↔
      (∀ d ∈ m, c.1 < d.1) ∧ c.1 < Config.blockSize ∧ c.2 ≠ Memory.unlisted ∧ Memory.wf m = true := by
  induction m generalizing c with
  | nil => obtain ⟨x, b⟩ := c; simp [Memory.wf]
  | cons d m ih =>
    obtain ⟨x, b⟩ := c
    obtain ⟨y, e⟩ := d
    have hd := ih (y, e)
    simp only [Memory.wf, Bool.and_eq_true, decide_eq_true_eq, bne_iff_ne, ne_eq, List.mem_cons,
      forall_eq_or_imp]
    constructor
    · rintro ⟨⟨hxy, hb⟩, hw⟩
      obtain ⟨hlt, hy, -, -⟩ := hd.mp hw
      exact ⟨⟨hxy, fun d hdm => by have := hlt d hdm; simp at this; omega⟩, by simp at hy ⊢; omega, hb, hw⟩
    · rintro ⟨⟨hxy, -⟩, -, hb, hw⟩
      exact ⟨⟨hxy, hb⟩, hw⟩

/-- An offset below every listed one reads as unlisted. -/
theorem Memory.read_of_below {m : Memory} {a : Nat} (h : ∀ d ∈ m, a < d.1) :
    m.read a = Memory.unlisted := by
  induction m with
  | nil => rfl
  | cons c m ih =>
    obtain ⟨x, b⟩ := c
    have hx : a < x := h (x, b) (by simp)
    simp only [Memory.read, if_neg (show x ≠ a by omega)]
    exact ih fun d hd => h d (by simp [hd])

/-- A read after a write. -/
theorem Memory.read_write {m : Memory} (hm : m.wf = true) (a : Nat) (v : Byte) (b : Nat) :
    (m.write a v).read b = if b = a then v else m.read b := by
  induction m with
  | nil =>
    unfold Memory.write
    split
    · next h => split <;> simp [Memory.read, h]
    · simp only [Memory.read]
      rcases eq_or_ne a b with h | h
      · simp [h]
      · rw [if_neg h, if_neg h.symm]
  | cons c m ih =>
    obtain ⟨x, w⟩ := c
    obtain ⟨hlt, -, -, hw⟩ := (Memory.wf_cons _ _).mp hm
    have hbelow : ∀ a, a ≤ x → Memory.read m a = Memory.unlisted := fun a ha =>
      Memory.read_of_below fun d hd => by have := hlt d hd; simp at this; omega
    unfold Memory.write
    split
    · next h1 =>
      split
      · next h2 =>
        split
        · next h3 => subst h3; rw [Memory.read, if_neg (by omega), hbelow b (by omega), h2]
        · rfl
      · rw [Memory.read]
        rcases eq_or_ne a b with h | h
        · simp [h]
        · rw [if_neg h, if_neg h.symm]
    · split
      · next h1 h2 =>
        subst h2
        split
        · next h3 =>
          split
          · next h4 => subst h4; rw [hbelow b (Nat.le_refl b), h3]
          · next h4 => rw [Memory.read, if_neg (Ne.symm h4)]
        · rw [Memory.read, Memory.read]
          rcases eq_or_ne a b with h | h
          · simp [h]
          · rw [if_neg h, if_neg h.symm, if_neg h]
      · next h1 h2 =>
        rw [Memory.read, Memory.read, ih hw]
        rcases eq_or_ne x b with h | h
        · rw [if_pos h, if_neg (by omega), if_pos h]
        · rw [if_neg h, if_neg h]

/-- Every offset listed after a write was listed before or is the one written. -/
theorem Memory.mem_write {m : Memory} {a : Nat} {v : Byte} {d : Host.Cell}
    (h : d ∈ m.write a v) : d ∈ m ∨ d = (a, v) := by
  induction m with
  | nil =>
    unfold Memory.write at h
    split at h <;> simp_all
  | cons c m ih =>
    obtain ⟨x, w⟩ := c
    unfold Memory.write at h
    split at h
    · split at h
      · exact .inl h
      · simp at h; rcases h with h | h | h <;> simp [h]
    · split at h
      · split at h
        · exact .inl (by simp [h])
        · simp at h; rcases h with h | h <;> simp [h]
      · simp at h
        rcases h with h | h
        · simp [h]
        · rcases ih h with h | h <;> simp [h]

/-- A write within a block keeps the canonical form. -/
theorem Memory.wf_write {m : Memory} (hm : m.wf = true) {a : Nat} (ha : a < Config.blockSize)
    (v : Byte) : (m.write a v).wf = true := by
  induction m with
  | nil =>
    unfold Memory.write
    split
    · rfl
    · next h => simp [Memory.wf, h]; simpa using ha
  | cons c m ih =>
    obtain ⟨x, w⟩ := c
    obtain ⟨hlt, hx, hne, hw⟩ := (Memory.wf_cons _ _).mp hm
    unfold Memory.write
    split
    · next h1 =>
      split
      · exact hm
      · next h2 =>
        refine (Memory.wf_cons _ _).mpr ⟨?_, ha, h2, hm⟩
        intro d hd
        simp at hd
        rcases hd with rfl | hd
        · exact h1
        · have := hlt d hd; simp at this ⊢; omega
    · split
      · next h1 h2 =>
        split
        · exact hw
        · next h3 => exact (Memory.wf_cons _ _).mpr ⟨by subst h2; exact hlt, ha, h3, hw⟩
      · next h1 h2 =>
        refine (Memory.wf_cons _ _).mpr ⟨?_, hx, hne, ih hw⟩
        intro d hd
        rcases Memory.mem_write hd with h | rfl
        · exact hlt d h
        · simp; omega

/-- A run of writes within a block keeps the canonical form. -/
theorem Memory.wf_writeAll {m : Memory} (hm : m.wf = true) {a : Nat} {vs : List Byte}
    (ha : a + vs.length ≤ Config.blockSize) : (m.writeAll a vs).wf = true := by
  induction vs generalizing m a with
  | nil => exact hm
  | cons v vs ih =>
    simp only [List.length_cons] at ha
    exact ih (Memory.wf_write hm (by omega) v) (by omega)

/-- A read after a run of writes: the byte written there, or the byte that stood there. -/
theorem Memory.read_writeAll {m : Memory} (hm : m.wf = true) {a : Nat} {vs : List Byte}
    (ha : a + vs.length ≤ Config.blockSize) (b : Nat) :
    (m.writeAll a vs).read b = if a ≤ b then vs.getD (b - a) (m.read b) else m.read b := by
  induction vs generalizing m a with
  | nil => simp [Memory.writeAll]
  | cons v vs ih =>
    simp only [List.length_cons] at ha
    rw [Memory.writeAll, ih (Memory.wf_write hm (by omega) v) (by omega),
      Memory.read_write hm]
    by_cases h1 : b = a
    · subst h1
      rw [if_neg (by omega), if_pos rfl, if_pos (Nat.le_refl b), Nat.sub_self]; rfl
    · by_cases h2 : a ≤ b
      · obtain ⟨k, rfl⟩ : ∃ k, b = a + 1 + k := ⟨b - (a + 1), by omega⟩
        have : a + 1 + k - a = k + 1 := by omega
        rw [if_pos (by omega), if_pos h2, if_neg h1, this, Nat.add_sub_cancel_left]; rfl
      · rw [if_neg (by omega), if_neg h1, if_neg h2]

/-- The blocks at power-on hold canonical content. -/
theorem Memory.wf_reset (h : Handle) : (State.reset.block h).content.wf = true := by
  simp [State.block, State.reset, Block.afterPowerOn, Memory.wf]

end Sys2Proof.Machine
end

