-- ==== Sys2Proof/Laws/Supply.lean ====
section
/-! SUPPORT. The Supply Arbiter, said once: what a grant, a grant test, a grant request and an opened switch
do to the state. -/

namespace Sys2Proof.Machine

/-! ### Grants -/

theorem Context.pulseSort_eq_erase (c : Context) : c.pulseSort = .erase ↔ c.phase = some .erase := by
  unfold Context.pulseSort; split <;> simp_all

/-- A grant takes the cost from the free count and changes the granted lane alone. -/
theorem State.grant_eq (s : State) (e : GrantEntry) :
    s.grant e = (s.updLane e.lane fun x => x.grantedBy e).setFreeUnits (s.freeUnits - e.cost) := by
  unfold State.grant State.sendAtAddress
  simp only [State.sendCycle_eq, State.updLane_setFreeUnits, State.updLane_updLane]
  congr 1
  unfold State.updLane
  congr 2
  simp only [Function.comp, Lane.grantedBy, Context.pulseSort, State.lane_setFreeUnits,
    State.lane_setLanes, Vector.getElem_set_self, Fin.getElem_fin]
  cases (s.lane e.lane).context.phase with
  | none => rfl
  | some p => cases p <;> rfl

/-- What stands in the grant queue does not matter to grants from another. -/
theorem grantFrom_setGrantQueue (q : List GrantEntry) (s : State) (v : List GrantEntry) :
    grantFrom q (s.setGrantQueue v) = grantFrom q s := by
  induction q generalizing s with
  | nil => rfl
  | cons e rest ih =>
    by_cases h : s.supply.state = .up ∧ e.cost ≤ s.freeUnits
    · exact (if_pos h).trans ((ih (s.grant e)).trans (if_pos h).symm)
    · exact (if_neg h).trans (if_neg h).symm

/-- All that a grant from the head of a queue can do. -/
theorem grants_grantFrom (q : List GrantEntry) (s : State) (h : s.grantQueue = q) :
    s.Grants (grantFrom q s) := by
  induction q generalizing s with
  | nil =>
    refine ⟨[], h, fun _ => rfl, by simp [grantFrom], ?_, fun l => rfl, ?_⟩
    · intro _ e he; simp [grantFrom] at he
    · exact grantFrom_onlyChanges [] s
  | cons e rest ih =>
    by_cases hfit : s.supply.state = .up ∧ e.cost ≤ s.freeUnits
    · rw [grantFrom, if_pos hfit]
      let s₀ := (s.grant e).setGrantQueue rest
      obtain ⟨granted, hq, hup, hfree, hhead, hlanes, honly⟩ := ih s₀ rfl
      rw [← grantFrom_setGrantQueue rest (s.grant e) rest]
      refine ⟨e :: granted, ?_, ?_, ?_, hhead, ?_, ?_⟩
      · rw [h, List.cons_append, ← hq]; rfl
      · intro hn; exact absurd hfit.1 hn
      · have : s₀.freeUnits = s.freeUnits - e.cost := rfl
        rw [List.map_cons, List.sum_cons]
        have := hfit.2
        have : (grantFrom rest s₀).freeUnits + (granted.map fun e => e.cost).sum =
          s.freeUnits - e.cost := hfree
        show (grantFrom rest s₀).freeUnits + _ = _
        omega
      · intro l
        rw [hlanes l]
        have hl : s₀.lane l = if e.lane = l then (s.lane l).grantedBy e else s.lane l := by
          show (s.grant e).lane l = _
          rw [State.grant_eq, State.lane_setFreeUnits, State.lane_updLane]
          split
          · next hl => rw [hl]
          · rfl
        rw [hl, List.filter_cons]
        by_cases hl' : e.lane = l <;> simp [hl']
      · refine .trans (t := s₀) ?_ honly
        refine .trans ((s.grant_onlyChanges e).mono (by decide))
          ((State.setGrantQueue_onlyChanges _ _).mono (by decide))
    · rw [grantFrom, if_neg hfit]
      refine ⟨[], by rw [h]; rfl, fun _ => rfl, by simp, ?_, fun l => rfl,
        (State.setGrantQueue_onlyChanges _ _).mono (by decide)⟩
      intro hup d hd
      obtain rfl : e = d := by simpa using hd
      exact Nat.lt_of_not_le fun hle => hfit ⟨hup, hle⟩

/-- All that the grant test can do (R77, R78). -/
theorem State.grants_grantTest (s : State) : s.Grants s.grantTest := grants_grantFrom _ s rfl

/-- With the supply not UP the grant test does nothing (R84). -/
theorem State.grantTest_of_not_up {s : State} (h : s.supply.state ≠ .up) : s.grantTest = s := by
  unfold State.grantTest
  cases hq : s.grantQueue with
  | nil => rw [grantFrom, ← hq]; rfl
  | cons e rest => rw [grantFrom, if_neg (fun hc => h hc.1), ← hq]; rfl

/-- Where the head already waits, the grant test does nothing (R77). -/
theorem State.grantTest_of_headWaits {s : State} (h : s.HeadWaits) : s.grantTest = s := by
  unfold State.grantTest
  cases hq : s.grantQueue with
  | nil => rw [grantFrom, ← hq]; rfl
  | cons e rest =>
    rw [grantFrom, if_neg, ← hq]
    · rfl
    · rintro ⟨hup, hle⟩
      exact absurd (h hup e (by rw [hq]; rfl)) (Nat.not_lt.mpr hle)

/-! ### Switches and records of a cut -/

theorem State.openSwitch_eq (s : State) (l : LaneId) (slot : PulseSlot) :
    s.openSwitch l slot = s.opened l slot := rfl

theorem State.recordInterrupted_eq (s : State) (l : LaneId) (j : Job) :
    s.recordInterrupted l j.id = s.interrupted l j := by
  unfold State.recordInterrupted State.interrupted State.faultRoom State.recordFault Context.pulseSort
  by_cases h : s.faults.length < 64
  · simp only [h, decide_true, if_true]
    congr 3
    cases (s.lane l).context.phase with
    | none => rfl
    | some p => cases p <;> rfl
  · simp only [h, decide_false, if_false, Bool.false_eq_true]

theorem State.interrupted_onlyChanges (s : State) (l : LaneId) (j : Job) :
    s.OnlyChanges (s.interrupted l j) [.faults, .jobs] := by
  rw [← State.recordInterrupted_eq]; exact s.recordInterrupted_onlyChanges l j.id

/-! ### Grant requests -/

/-- The current job of a lane stands in the table under the lane's `current`. -/
theorem State.currentJob?_some {s : State} {l : LaneId} {j : Job} (h : s.currentJob? l = some j) :
    (s.lane l).current = some j.id ∧ s.job? j.id = some j := by
  unfold State.currentJob? at h
  cases hc : (s.lane l).current with
  | none => simp [hc] at h
  | some id =>
    simp only [hc, Option.bind_some] at h
    have := (State.job?_some h).1
    subst this
    exact ⟨rfl, h⟩

theorem State.updCurrentJob_eq {s : State} {l : LaneId} {j : Job} (h : s.currentJob? l = some j)
    (f : Job → Job) : s.updCurrentJob l f = s.setJobs (j.changedIn s.jobs f) := by
  unfold State.updCurrentJob
  rw [(State.currentJob?_some h).1]; rfl

/-- The current job after an update of its own record. -/
theorem State.currentJob?_changed {s : State} {l : LaneId} {j : Job} (h : s.currentJob? l = some j)
    (f : Job → Job) (hf : ∀ q, (f q).id = q.id) :
    (s.setJobs (j.changedIn s.jobs f)).currentJob? l = some (f j) := by
  obtain ⟨hc, hj⟩ := State.currentJob?_some h
  unfold State.currentJob?
  rw [State.lane_setJobs, hc]
  exact State.job?_updJob_self hj f hf

/-- The current job after an update of a lane that leaves what is current. -/
theorem State.currentJob?_of_updLane {s : State} {l m : LaneId} {f : Lane → Lane} {j : Job}
    (h : s.currentJob? l = some j) (hf : ∀ x, (f x).current = x.current := by intro; rfl) :
    (s.updLane m f).currentJob? l = some j := by
  unfold State.currentJob? at h ⊢
  rw [State.lane_updLane]
  split
  · next hm => subst hm; rw [hf]; exact h
  · exact h

/-- Two updates of a lane that agree on its record. -/
theorem State.updLane_congr {s : State} {l : LaneId} {f g : Lane → Lane}
    (h : f (s.lane l) = g (s.lane l)) : s.updLane l f = s.updLane l g := by
  unfold State.updLane; rw [h]

/-- All that a grant request can do (R76, R77). -/
theorem State.asksForGrant {s : State} {l : LaneId} {j : Job} (h : s.currentJob? l = some j) :
    let e := grantEntry l (s.profileOf j) (s.lane l).context
    s.AsksForGrant (s.requestGrant l) l j e.cost e.width := by
  have hl : (grantEntry l (s.profileOf j) (s.lane l).context).lane = l := by
    unfold grantEntry; split <;> rfl
  unfold State.requestGrant State.joinGrantQueue
  simp only [h]
  refine ⟨fun hs => ?_, fun hs => ?_⟩
  · rw [if_neg hs]
    have hheld : s.holdLane l = (s.updLane l fun x => { x with state := .held }).setJobs
        (j.changedIn s.jobs fun q => { q with state := .held }) := by
      unfold State.holdLane State.setLaneState
      rw [State.updCurrentJob_eq (State.currentJob?_of_updLane h)]
      rfl
    rw [hheld]
    exact State.grantTest_of_not_up hs
  · rw [if_pos hs]
    have := ((s.setGrantQueue (s.grantQueue ++ [grantEntry l (s.profileOf j) (s.lane l).context])
      ).setLaneState l .pulseWait).grants_grantTest
    generalize hg : grantEntry l (s.profileOf j) (s.lane l).context = e at this hl ⊢
    subst hl
    exact this

/-- The widths of R41. -/
theorem Profile.programWidth_eq (p : Profile) (k : Nat) : p.programWidth k = p.widthOfPulse k := by
  unfold Profile.programWidth Profile.widthOfPulse
  cases p.stepped
  · simp
  · by_cases h3 : k ≤ 3
    · simp [h3, show ¬7 ≤ k by omega, show ¬4 ≤ k by omega]
    · by_cases h6 : k ≤ 6
      · simp [h3, h6, show 4 ≤ k by omega, show ¬7 ≤ k by omega]
      · simp [h3, h6, show 7 ≤ k by omega]

/-- All that a request for a program or precondition pulse can do (R40, R76, R77). -/
theorem State.asksForProgramPulse {s : State} {l : LaneId} {j : Job} (h : s.currentJob? l = some j)
    (hp : (s.lane l).context.phase ≠ some .erase) : s.AsksForProgramPulse (s.requestGrant l) l j := by
  have hsort : (s.lane l).context.pulseSort = .program := by
    unfold Context.pulseSort; split <;> simp_all
  have := State.asksForGrant h
  simp only [grantEntry, hsort, Profile.programWidth_eq] at this
  exact this

/-- All that a request for an erase pulse can do (R62, R76, R77). -/
theorem State.asksForErasePulse {s : State} {l : LaneId} {j : Job} (h : s.currentJob? l = some j)
    (hp : (s.lane l).context.phase = some .erase) : s.AsksForErasePulse (s.requestGrant l) l j := by
  have hsort : (s.lane l).context.pulseSort = .erase := (Context.pulseSort_eq_erase _).mpr hp
  have := State.asksForGrant h
  simp only [grantEntry, hsort] at this
  exact this

end Sys2Proof.Machine
end

