-- ==== Sys2Proof/Laws/Sequencer.lean ====
section
/-! SUPPORT. The steps of a lane's algorithm, said once: what a finished byte, a finished sector, an offered
fault and a failed cycle do. The Lane Cycle Unit is idle after the cycle that led here. -/

namespace Sys2Proof.Machine

/-- A finished range ends the job (R52, R70). -/
theorem State.rangeDone_rangeEnds {s : State} {l : LaneId} {j : Job} (h : s.currentJob? l = some j)
    (hl : j.lane = l) : s.RangeEnds (s.rangeDone l) l j := by
  unfold State.rangeDone State.RangeEnds
  simp only [h]
  by_cases hf : j.faultsRecorded = 0
  · simp only [hf, if_true]; exact State.finishCurrent_eq h hl _ _ _
  · simp only [hf, if_false]; exact State.finishCurrent_eq h hl _ _ _

/-- A cycle handed over right after another is held for the lane gap (R98). -/
theorem State.sendCycle_afterReset {s : State} {l : LaneId} (hu : (s.lane l).unit = .afterReset)
    (k : CycleKind) (a : Nat) (d : Byte) :
    s.sendCycle l k a d = s.updLane l fun x => { x with unit := .holding k a d } := by
  rw [State.sendCycle_eq]
  refine State.updLane_congr ?_
  simp only [hu]; rfl

/-- What a finished byte does (R45, R52, R53). -/
theorem State.byteDone_isDone {s : State} {l : LaneId} {j : Job} (h : s.currentJob? l = some j)
    (hl : j.lane = l) (hu : (s.lane l).unit = .afterReset) : s.ByteIsDone (s.byteDone l) l j := by
  unfold State.byteDone
  simp only [h]
  refine ⟨fun hend => ?_, fun hnext => ?_⟩
  · rw [if_pos hend]
    exact State.rangeDone_rangeEnds (State.currentJob?_changed h _ fun _ => rfl) hl
  · rw [if_neg (Nat.not_le.mpr hnext)]
    have hgo : ∀ o : Outbox, (((s.updJob j.id fun q => { q with bytesDone := j.bytesDone + 1 }).setOutbox
        o).updContext l fun c => { c with address := (s.lane l).context.address + 1, pulseCount := 0 }
        ).sendAtAddress l .read =
        (((s.setJobs (j.changedIn s.jobs fun q => { q with bytesDone := j.bytesDone + 1 })).setOutbox
          o).updLane l fun x => { x with
            context := { x.context with
              address := (s.lane l).context.address + 1, pulseCount := 0 }
            unit := .holding .read ((s.lane l).context.address + 1) 0 }) := by
      intro o
      unfold State.sendAtAddress State.updContext
      rw [State.sendCycle_afterReset (by rw [State.lane_updLane_self]; exact hu),
        State.updLane_updLane, State.lane_updLane_self]
      rfl
    cases hp : j.progress with
    | none => exact hgo s.outbox
    | some i =>
      by_cases hm : (j.bytesDone + 1) % (256 * i) = 0
      · simp only [hm, if_true]; exact hgo _
      · simp only [hm, if_false]; exact hgo s.outbox

/-- What an offered fault does, given what follows a fault that ends nothing (R49 to R51). -/
theorem State.offerFault_isJudged {s : State} {l : LaneId} {j : Job} (h : s.currentJob? l = some j)
    (hl : j.lane = l) {r : FaultRecord} (hr : r.job = j.id) {goOn : State → State}
    {Follows : State → State → Job → Prop}
    (hgo : ∀ v j', v.currentJob? l = some j' → j'.lane = l → j'.work = j.work → v.lane l = s.lane l →
      Follows v (goOn v) j') :
    s.FaultIsJudged (s.offerFault l j r goOn) l j r
      fun v j' => Follows v (s.offerFault l j r goOn) j' := by
  have hcur : ((s.setFaults (s.faults ++ [r])).setJobs (j.changedIn s.jobs fun q =>
      { q with faultsRecorded := q.faultsRecorded + 1 })).currentJob? l =
        some { j with faultsRecorded := j.faultsRecorded + 1 } :=
    State.currentJob?_changed (s := s.setFaults (s.faults ++ [r])) h _ fun _ => rfl
  have hrec : s.recordFault r = (s.setFaults (s.faults ++ [r])).setJobs (j.changedIn s.jobs fun q =>
      { q with faultsRecorded := q.faultsRecorded + 1 }) := by
    unfold State.recordFault; rw [hr]; rfl
  unfold State.offerFault State.faultRoom
  refine ⟨fun hfull => ?_, fun hroom hlim => ?_, fun hroom hlim => ?_⟩
  · rw [if_neg (by simpa using hfull)]
    exact State.finishCurrent_eq h hl _ _ _
  · rw [if_pos (by simpa using hroom), if_pos hlim, hrec]
    exact State.finishCurrent_eq hcur hl _ _ _
  · rw [if_pos (by simpa using hroom), if_neg (Nat.not_le.mpr hlim), hrec]
    exact hgo _ _ hcur hl rfl rfl

/-- What the beginning of a sector does (R57, R62). -/
theorem State.beginSector_begins {s : State} {l : LaneId} {j : Job} (h : s.currentJob? l = some j)
    (hu : (s.lane l).unit = .afterReset) (start : Nat) :
    s.SectorBegins (s.beginSector l j start) l j start := by
  unfold State.beginSector State.enterErase State.updContext
  refine ⟨fun hp => ?_, fun hp => ?_⟩
  · rw [if_pos (by exact hp)]
    unfold State.sendAtAddress
    rw [State.sendCycle_afterReset (by simpa using hu)]
    simp only [State.updLane_updLane, State.lane_updLane_self]
    rfl
  · rw [if_neg (by simp [State.profileOf]; exact hp), State.updLane_updLane]
    refine State.asksForErasePulse ?_ ?_
    · exact State.currentJob?_of_updLane h
    · rw [State.lane_updLane_self]

/-- What a finished sector does (R68, R70). -/
theorem State.sectorDone_isDone {s : State} {l : LaneId} {j : Job} (h : s.currentJob? l = some j)
    (hl : j.lane = l) (hu : (s.lane l).unit = .afterReset) :
    s.SectorIsDone (s.sectorDone l) l j := by
  have hpos : 0 < (s.profileOf j).sectorSize := Nat.two_pow_pos _
  have hdiv : (s.profileOf j).sectorStart (s.lane l).context.watermark / (s.profileOf j).sectorSize =
      (s.lane l).context.watermark / (s.profileOf j).sectorSize := Nat.mul_div_cancel _ hpos
  have hnext : (s.profileOf j).sectorStart (s.lane l).context.watermark + (s.profileOf j).sectorSize =
      ((s.lane l).context.watermark / (s.profileOf j).sectorSize + 1) * (s.profileOf j).sectorSize :=
    (Nat.succ_mul _ _).symm
  unfold State.sectorDone
  simp only [h, hdiv, hnext]
  refine ⟨fun hend => ?_, fun hgo => ?_⟩
  · rw [if_pos (show _ ≤ _ / (s.profileOf j).sectorSize from hend)]
    exact State.rangeDone_rangeEnds (State.currentJob?_changed h _ fun _ => rfl) hl
  · rw [if_neg (show ¬_ ≤ _ / (s.profileOf j).sectorSize from Nat.not_le.mpr hgo)]
    have hbegin : ∀ o : Outbox, ((s.setJobs (j.changedIn s.jobs fun q => { q with
        bytesDone := j.bytesDone + s.profiles[j.profile].sectorSize })).setOutbox o).SectorBegins
          (((s.updJob j.id fun q => { q with
            bytesDone := j.bytesDone + (s.profileOf j).sectorSize }).setOutbox o).beginSector l j
            (((s.lane l).context.watermark / (s.profileOf j).sectorSize + 1) *
              (s.profileOf j).sectorSize)) l j
          (((s.lane l).context.watermark / s.profiles[j.profile].sectorSize + 1) *
              s.profiles[j.profile].sectorSize) := by
      intro o
      have hc : ((s.setJobs (j.changedIn s.jobs fun q => { q with
          bytesDone := j.bytesDone + s.profiles[j.profile].sectorSize })).setOutbox o).currentJob? l =
            some { j with bytesDone := j.bytesDone + s.profiles[j.profile].sectorSize } :=
        State.currentJob?_changed h _ fun _ => rfl
      exact State.beginSector_begins hc hu _
    cases hp : j.progress with
    | none => exact hbegin s.outbox
    | some i =>
      by_cases hm : j.bytesDone / (256 * i) < (j.bytesDone + (s.profileOf j).sectorSize) / (256 * i)
      · have hm' : j.bytesDone / (256 * i) <
            (j.bytesDone + s.profiles[j.profile].sectorSize) / (256 * i) := hm
        simp only [hm, hm', if_true]; exact hbegin _
      · have hm' : ¬j.bytesDone / (256 * i) <
            (j.bytesDone + s.profiles[j.profile].sectorSize) / (256 * i) := hm
        simp only [hm, hm', if_false]; exact hbegin s.outbox

/-- What a finished precondition byte does (R58, R61). -/
theorem State.preconditionByteDone_isDone {s : State} {l : LaneId} {j : Job}
    (h : s.currentJob? l = some j) (hu : (s.lane l).unit = .afterReset) :
    s.PreconditionByteIsDone (s.preconditionByteDone l) l j := by
  unfold State.preconditionByteDone
  simp only [h]
  refine ⟨fun hnext => ?_, fun hend => ?_⟩
  · rw [if_neg (show ¬(s.profileOf j).sectorEnd _ ≤ _ from Nat.not_le.mpr hnext)]
    unfold State.sendAtAddress State.updContext
    rw [State.sendCycle_afterReset (by rw [State.lane_updLane_self]; exact hu), State.updLane_updLane,
      State.lane_updLane_self]
    rfl
  · rw [if_pos (show (s.profileOf j).sectorEnd _ ≤ _ from hend)]
    unfold State.enterErase State.updContext
    refine State.asksForErasePulse ?_ ?_
    · exact State.currentJob?_of_updLane h
    · rw [State.lane_updLane_self]

/-- The state a lane works in does not matter to the end of its job. -/
theorem State.CurrentJobEnds.of_setLaneState {s w : State} {l : LaneId} {v : LaneState} {j : Job}
    {st : JobState} {reason : EndReason} {stopped : Bool}
    (h : (s.setLaneState l v).CurrentJobEnds w l j st reason stopped) :
    s.CurrentJobEnds w l j st reason stopped := by
  obtain ⟨⟨hjobs, hblocks, hout⟩, hlane, hother, honly⟩ := h
  refine ⟨⟨hjobs, hblocks.trans (State.dropRefs_blocks (by rfl) _), hout⟩, ?_, fun m hm => ?_, ?_⟩
  · rw [hlane]
    unfold State.setLaneState
    rw [State.lane_updLane_self]
    show Lane.afterJob _ _ (decide (0 < s.outbox.freeGeneral)) _ = _
    cases decide (0 < s.outbox.freeGeneral) <;> rfl
  · rw [hother m hm]
    exact State.lane_updLane_ne _ _ (Ne.symm hm)
  · exact ((State.setLaneState_onlyChanges _ _ _).mono (by decide)).trans honly

/-- The end of a cycle with no pending-cancel mark whose outcome is a failure (R32, R80, R88). -/
theorem State.cycleEnds_fails {s : State} {l : LaneId} {j : Job} {kind : CycleKind} {o : CycleOutcome}
    {reason : EndReason} (ho : o.reason = some reason) (h : s.currentJob? l = some j) (hl : j.lane = l)
    (hm : (s.lane l).context.mark = none)
    (hslot : kind = .pulseP ∨ kind = .pulseE →
      (s.lane l).slot = .granted ∨ (s.lane l).slot = .cut) (data : List Byte) :
    s.CycleFails (s.cycleEnds l kind o data) l kind j reason := by
  have hne : o ≠ .ready := by rintro rfl; simp [CycleOutcome.reason] at ho
  have hfail : ∀ v : State, v.currentJob? l = some j →
      v.CurrentJobEnds (v.laneFailure l o) l j .failed reason true := by
    intro v hv
    unfold State.laneFailure
    simp only [ho]
    obtain ⟨w, hw, he⟩ := State.finishCurrent_eq hv hl .failed reason true
    rw [he, hw.startHead_stopped]; exact hw
  have hq : (s.updLane l fun x => { x with unit := .afterReset }).currentJob? l = some j := by
    exact State.currentJob?_of_updLane h
  unfold State.cycleEnds
  simp only [hm]
  rw [show (s.updUnit l fun _ => .ended) = s.updLane l fun x => { x with unit := .afterReset } from rfl]
  refine ⟨fun hp he => ?_, fun hk => ⟨fun hcut => ?_, fun hgr => ?_⟩⟩
  · have : kind.isPulse = false := by cases kind <;> simp_all [CycleKind.isPulse]
    rw [this]
    cases o <;> first | exact absurd rfl hne | exact hfail _ hq
  · have : kind.isPulse = true := by rcases hk with rfl | rfl <;> rfl
    rw [this]
    have hs : ((s.updLane l fun x => { x with unit := .afterReset }).lane l).slot = .cut := by
      rw [State.lane_updLane_self]; exact hcut
    rw [if_pos rfl]
    unfold State.pulseCycleEnds
    simp only [hs]
    let v := ((s.updLane l fun x => { x with unit := .afterReset }).updLane l fun x =>
      { x with slot := .none })
    have hv : v.currentJob? l = some j := by
      exact State.currentJob?_of_updLane hq
    have hgoal : v.CurrentJobEnds ((v.setLaneState l .running).laneFailure l o) l j .failed reason
        true := by
      exact (hfail (v.setLaneState l .running) (State.currentJob?_of_updLane hv)).of_setLaneState
    cases o <;> first | exact absurd rfl hne | exact hgoal
  · have : kind.isPulse = true := by rcases hk with rfl | rfl <;> rfl
    rw [this]
    have hs : ((s.updLane l fun x => { x with unit := .afterReset }).lane l).slot = .granted := by
      rw [State.lane_updLane_self]; exact hgr
    rw [if_pos rfl]
    unfold State.pulseCycleEnds
    simp only [hs]
    let v := (s.updLane l fun x => { x with unit := .afterReset }).opened l .none
    have hv : v.currentJob? l = some j := by
      unfold v
      rw [← State.openSwitch_eq]
      exact State.currentJob?_of_updLane (s := State.setFreeUnits _ _) hq
    have hgoal : ∃ w : State, v.CurrentJobEnds w l j .failed reason true ∧
        w.Grants ((v.setLaneState l .running).laneFailure l o).grantTest := by
      refine ⟨_, ?_, State.grants_grantTest _⟩
      exact (hfail (v.setLaneState l .running) (State.currentJob?_of_updLane hv)).of_setLaneState
    cases o <;> first | exact absurd rfl hne | exact hgoal

end Sys2Proof.Machine
end

