-- ==== Sys2Proof/Laws/Waiting.lean ====
section
/-! SUPPORT. The waiting-lane queue, said once: one turn of serving is `served`, and serving goes on turn by
turn until no lane waits or no general entry is free (R198 step 2). -/

namespace Sys2Proof.Machine

/-- Starting a job does not touch any lane's list of WAITING jobs. -/
theorem State.waitingEnds_startHead (s : State) (l m : LaneId) :
    ((s.startHead l).lane m).waitingEnds = (s.lane m).waitingEnds := by
  by_cases h : l = m
  · subst h
    unfold State.startHead
    split
    · split
      · rfl
      · simp only [State.sendProbe, State.updUnit, State.lane_updLane_self, State.lane_updJob]
    all_goals rfl
  · rw [State.lane_startHead_ne s h]

/-- What one turn leaves of the lanes' lists of WAITING jobs. -/
theorem State.waitingEnds_served (s : State) (l m : LaneId) (others : List LaneId) (j : Job)
    (more : List Nat) :
    ((s.served l others j more).lane m).waitingEnds =
      if l = m then more else (s.lane m).waitingEnds := by
  unfold State.served
  simp only
  split
  · rw [State.waitingEnds_startHead]
    by_cases h : l = m
    · subst h; simp only [State.lane_updLane_self, if_true]
    · rw [State.lane_updLane_ne _ _ h, State.lane_updLane_ne _ _ h, if_neg h]; rfl
  · by_cases h : l = m
    · subst h; simp only [State.lane_updLane_self, if_true]
    · rw [State.lane_updLane_ne _ _ h, if_neg h]; rfl

/-- What one turn leaves in the outbox. -/
theorem State.outbox_served (s : State) (l : LaneId) (others : List LaneId) (j : Job) (more : List Nat) :
    (s.served l others j more).outbox = { s.outbox.enqueue j.endBody with
      waitingLanes := if more = [] then others else others ++ [l] } := by
  unfold State.served
  simp only
  split
  · exact ((State.startHead_onlyChanges _ _).mono (gs := [.lanes, .jobs]) (by decide)) .outbox (by decide)
  · rfl

/-- No job leaves the table in a turn. -/
theorem State.job?_served (s : State) (l : LaneId) (others : List LaneId) (j : Job) (more : List Nat)
    (id : Nat) (h : (s.job? id).isSome = true) : ((s.served l others j more).job? id).isSome = true := by
  have hmap : ∀ (u : State) (f : Job → Job), (∀ q, (f q).id = q.id) → (u.job? id).isSome = true →
      ((u.setJobs (u.jobs.map f)).job? id).isSome = true := by
    intro u f hf hu
    unfold State.job? at *
    rw [List.find?_isSome] at *
    obtain ⟨q, hq, hp⟩ := hu
    exact ⟨f q, List.mem_map_of_mem hq, by rw [hf]; exact hp⟩
  have hstart : ∀ u : State, (u.job? id).isSome = true → ((u.startHead l).job? id).isSome = true := by
    intro u hu
    unfold State.startHead
    split
    · split
      · exact hu
      · exact hmap u _ (fun q => by split <;> rfl) hu
    all_goals exact hu
  have hsent := hmap s (fun q => if q.id = j.id then { q with endReport := .enqueued } else q)
    (fun q => by split <;> rfl) h
  unfold State.served
  simp only
  split
  · exact hstart _ hsent
  · exact hsent

/-- A lane with a WAITING job of the table is served as `served` says. -/
theorem State.serveLane_eq {s : State} {l : LaneId} {others : List LaneId} {id : Nat} {more : List Nat}
    {j : Job} (h : (s.lane l).waitingEnds = id :: more) (hj : s.job? id = some j) :
    s.serveLane l others = s.served l others j more := by
  obtain rfl := (State.job?_some hj).1
  have hq : (if more.isEmpty then others else others ++ [l]) =
      if more = [] then others else others ++ [l] := by cases more <;> rfl
  unfold State.serveLane State.served
  simp only [h, hj, hq]
  by_cases hr : (s.lane l).state = .reportWait ∧ (s.lane l).waitFor = some j.id
  · rw [if_pos hr, if_pos hr]
    unfold State.laneGoesOn
    cases hs : j.laneStopped
    · rfl
    · simp only [if_true]
      rw [State.startHead_of_ne (by simp)]
      rfl
  · rw [if_neg hr, if_neg hr]; rfl

/-- A turn keeps the waiting-lane queue and the WAITING jobs in step. -/
theorem State.WaitingKnown.served {s : State} (h : s.WaitingKnown) {l : LaneId} {others : List LaneId}
    {id : Nat} {more : List Nat} (hl : s.outbox.waitingLanes = l :: others)
    (he : (s.lane l).waitingEnds = id :: more) (j : Job) : (s.served l others j more).WaitingKnown := by
  obtain ⟨hnd, hk⟩ := h
  rw [hl, List.nodup_cons] at hnd
  unfold State.WaitingKnown
  rw [State.outbox_served]
  refine ⟨?_, fun m hm => ?_⟩
  · show (if more = [] then others else others ++ [l]).Nodup
    split
    · exact hnd.2
    · rw [List.nodup_append]
      refine ⟨hnd.2, by simp, fun a ha b hb => ?_⟩
      rintro rfl
      rw [List.mem_singleton] at hb
      exact hnd.1 (hb ▸ ha)
  · have hm' : m ∈ if more = [] then others else others ++ [l] := hm
    rw [State.waitingEnds_served]
    by_cases hlm : l = m
    · subst hlm
      rw [if_pos rfl]
      refine ⟨fun hn => hnd.1 (by rwa [if_pos hn] at hm'), fun i hi => ?_⟩
      exact State.job?_served _ _ _ _ _ _
        ((hk l (by rw [hl]; simp)).2 i (by rw [he]; exact List.mem_cons_of_mem _ hi))
    · rw [if_neg hlm]
      have hmem : m ∈ others := by
        split at hm'
        · exact hm'
        · simpa [Ne.symm hlm] using hm'
      have := hk m (by rw [hl]; exact List.mem_cons_of_mem _ hmem)
      exact ⟨this.1, fun i hi => State.job?_served _ _ _ _ _ _ (this.2 i hi)⟩

/-- The number of WAITING jobs that the lanes list. -/
abbrev State.waitingCount (s : State) : Nat := (s.lanes.toList.map fun x => x.waitingEnds.length).sum

theorem State.waitingCount_congr {s t : State} (h : ∀ m, (t.lane m).waitingEnds = (s.lane m).waitingEnds) :
    t.waitingCount = s.waitingCount := by
  unfold State.waitingCount
  congr 1
  refine List.ext_getElem (by simp) fun i hi _ => ?_
  have hi : i < 8 := by simpa using hi
  have : t.lanes[i].waitingEnds.length = s.lanes[i].waitingEnds.length :=
    congrArg List.length (h ⟨i, hi⟩)
  simpa using this

theorem sum_map_set {α : Type} (f : α → Nat) (xs : List α) (i : Nat) (hi : i < xs.length) (y : α) :
    ((xs.set i y).map f).sum + f xs[i] = (xs.map f).sum + f y := by
  induction xs generalizing i with
  | nil => simp at hi
  | cons x xs ih =>
    cases i with
    | zero => simp; omega
    | succ i =>
      have := ih i (by simpa using hi)
      simp at this ⊢; omega

/-- A turn takes one WAITING job off the lists. -/
theorem State.waitingCount_served {s : State} {l : LaneId} {id : Nat} {more : List Nat}
    (h : (s.lane l).waitingEnds = id :: more) (others : List LaneId) (j : Job) :
    (s.served l others j more).waitingCount + 1 = s.waitingCount := by
  have h1 : (s.served l others j more).waitingCount =
      (s.updLane l fun x => { x with waitingEnds := more }).waitingCount := by
    refine State.waitingCount_congr fun m => ?_
    rw [State.waitingEnds_served, State.lane_updLane]
    split
    · rfl
    · rfl
  let x : Lane := { s.lane l with waitingEnds := more }
  have h2 := sum_map_set (fun x : Lane => x.waitingEnds.length) s.lanes.toList l.val (by simp) x
  have h3 : (s.updLane l fun x => { x with waitingEnds := more }).waitingCount =
      ((s.lanes.toList.set l.val x).map fun x => x.waitingEnds.length).sum := by
    unfold State.waitingCount State.updLane
    rw [State.setLanes_lanes, ← Vector.toList_set]
  have h4 : (s.lanes.toList[l.val]'(by simp)).waitingEnds = id :: more := by
    rw [← h]; simp [State.lane]
  rw [h4] at h2
  have h5 : x.waitingEnds.length = more.length := rfl
  simp only [List.length_cons, h5] at h2
  rw [h1, h3]
  show _ = (s.lanes.toList.map fun x => x.waitingEnds.length).sum
  omega

/-- Serving the waiting lanes, with turns enough for every WAITING job. -/
theorem serveWaiting_serves (fuel : Nat) (s : State) (h : s.WaitingKnown) (hf : s.waitingCount ≤ fuel) :
    s.ServesWaiting (serveWaiting fuel s) := by
  induction fuel generalizing s with
  | zero =>
    refine .ended s (.inl ?_)
    cases hw : s.outbox.waitingLanes with
    | nil => rfl
    | cons l others =>
      exfalso
      have hne := (h.2 l (by rw [hw]; simp)).1
      cases he : (s.lane l).waitingEnds with
      | nil => exact hne he
      | cons id more =>
        obtain ⟨j, -⟩ := Option.isSome_iff_exists.mp ((h.2 l (by rw [hw]; simp)).2 id (by rw [he]; simp))
        have := State.waitingCount_served he others j
        omega
  | succ fuel ih =>
    unfold serveWaiting
    cases hw : s.outbox.waitingLanes with
    | nil => exact .ended s (.inl hw)
    | cons l others =>
      simp only
      by_cases hfree : 0 < s.outbox.freeGeneral
      · rw [if_pos hfree]
        have hk := h.2 l (by rw [hw]; simp)
        cases he : (s.lane l).waitingEnds with
        | nil => exact absurd he hk.1
        | cons id more =>
          have hsome := hk.2 id (by rw [he]; simp)
          obtain ⟨j, hj⟩ := Option.isSome_iff_exists.mp hsome
          refine .turn s _ l others id more j hw hfree he hj ?_
          rw [State.serveLane_eq he hj]
          refine ih _ (h.served hw he j) ?_
          have := State.waitingCount_served he others j
          omega
      · rw [if_neg hfree]; exact .ended s (.inr (by omega))

/-- The turns that the outbox allows itself suffice. -/
theorem State.serveWaiting_serveFuel (s : State) (h : s.WaitingKnown) :
    s.ServesWaiting (serveWaiting s.serveFuel s) :=
  serveWaiting_serves _ s h (Nat.le_add_left _ _)

/-- With no lane waiting, serving changes nothing. -/
theorem State.ServesWaiting.eq_of_nil {s t : State} (h : s.ServesWaiting t)
    (hn : s.outbox.waitingLanes = []) : t = s := by
  cases h with
  | ended => rfl
  | turn _ _ _ _ _ _ _ head => rw [hn] at head; cases head

end Sys2Proof.Machine
end

