-- ==== Sys2Proof/Tests/Slice0.lean ====
section
/-! SUPPORT. Small tests, whose expected results are worked out from the spec, and for each statement of
Obligations.lean that has hypotheses a witness that meets them. -/

namespace Sys2Proof.Tests

open Sys2Proof Sys2Proof.Machine

-- One test after another: each evaluation in the kernel would else hold a thread of its own.
set_option Elab.async false

/-! ### The states the tests start from -/

/-- The engine with its ENGINE-READY acknowledged and the Transmitter idle (11.2). -/
def quiet : State := { State.reset with outbox := { Outbox.emptied with nextSeq := 1 } }

/-- Profile 0 of the worked sequence 11.2, with an erase pulse of 100 ms and cost 4 as in 11.3. -/
def profile0 : Profile where
  valid := true
  memExp := 16
  sectorExp := 12
  maker := 0x11
  device := 0x22
  checkIdentity := true
  baseWidth := 100
  maxProgram := 8
  stepped := true
  eraseWidth := 100
  maxErase := 4
  precondition := false
  programCost := 3
  eraseCost := 4

/-- A SEALED, held block of 256 bytes. -/
def sealedBlock (bytes : List Byte) : Block where
  state := .sealed
  held := true
  fill := 256
  refs := 0
  crc := some 0
  content := Memory.writeAll [] 0 bytes

/-- `quiet` with profile 0 loaded and blocks 0 and 1 sealed (11.2); block 0 begins with F0h. -/
def loaded : State :=
  (((quiet.setProfiles (quiet.profiles.set 0 profile0)).updBlock 0 fun _ => sealedBlock [0xF0]).updBlock 1
    fun _ => sealedBlock [])

/-- Job 1 on lane 0 under profile 0. -/
def job1 (w : Work) (st : JobState) : Job where
  id := 1
  lane := 0
  work := w
  profile := 0
  state := st
  endReason := none
  endReport := .notDue
  faultLimit := 2
  progress := none
  bytesDone := 0
  programPulses := 0
  erasePulses := 0
  faultsRecorded := 0
  identity := none
  laneStopped := false

/-- `loaded` with job 1 in the table and lane 0 as `f` makes it. -/
def working (w : Work) (st : JobState) (f : Lane → Lane) : State :=
  (loaded.setJobs [job1 w st]).updLane 0 fun x => f { x with current := some 1 }

/-- A cycle whose fifth byte was out at 0 µs. -/
def sentCycle (k : CycleKind) : Cycle :=
  { Cycle.new k 0 0 false with windowEnd := 50 }

/-- The same cycle with its READY judged in the first slot. -/
def readyCycle (k : CycleKind) : Cycle :=
  { sentCycle k with slots := 1, heard := true, ready := true }

/-- A lane that reads the answer of `c`. -/
def reading (c : Cycle) (x : Lane) : Lane :=
  { x with state := .running, unit := { state := .answering, cycle := some c, gapPassed := false } }

/-- The next state of an answer. -/
def next? : Answer → Option State
  | .next t => some t
  | .fault _ | .refused _ => none

/-- The lane 0 that a command leaves. -/
def lane0 (c : Instr) (s : State) : Option Lane := (next? (exec c s)).map fun t => t.lane 0

/-! ### Ill-formed commands -/

theorem test_wellFormed_payload_over_260 :
    (Instr.status 0 (List.replicate 261 0)).payloadFits = false ∧
      (Instr.status 0 (List.replicate 260 0)).payloadFits = true := by decide +kernel

theorem test_wellFormed_tag_outside_table :
    (Instr.signOn 0x10 []).tagFits = false ∧ (Instr.tagRangeRefusal 0x10 0x0F []).tagFits = false ∧
      (Instr.signOn 0x0F []).wellFormed = true := by decide

theorem test_wellFormed_kind_of_a_request :
    (Instr.badKindRequest 0x10 0 []).kindFits = false ∧
      (Instr.badKindRequest 0x12 0 []).wellFormed = true := by decide

/-! ### Numbers the spec gives -/

/-- R160's check value. -/
theorem test_crc_check_value :
    crc16 [0x31, 0x32, 0x33, 0x34, 0x35, 0x36, 0x37, 0x38, 0x39] = 0x29B1 := by decide +kernel

/-- The stepped schedule of base 250 µs worked under R120. -/
theorem test_stepped_schedule :
    ((List.range 10).map fun k => { profile0 with baseWidth := 250 }.programWidth (k + 1)) =
      [250, 250, 250, 500, 500, 500, 1000, 1000, 1000, 1000] := by decide

/-- No row of the table has bits, so no word spells a command (log 2). -/
theorem test_no_word_spells_a_command : decodeTableWord 8 0x10 = none := by decide

/-! ### The resets -/

/-- R212, R215: ENGINE-READY is the first frame. -/
theorem test_reset_sends_engine_ready :
    State.reset.transmit.tx = .report { kind := 0xE0, tag := 0, payload := [0, 0] } := by decide

/-- R216: BAUD1 low and BAUD0 high give 460800 baud; R95: a low PSUP_OK gives DOWN. -/
theorem test_release_samples_the_pins :
    (next? (exec (.resetRelease false true false true) quiet.heldInReset)).map
      (fun t => (t.linkRate, t.supply.state, t.attn)) = some (.baud460800, .down, true) := by
  decide +kernel

/-- R214: ATTN is low while the engine is held. -/
theorem test_reset_assert_holds :
    (next? (exec .resetAssert State.reset)).map (fun t => (t.inReset, t.attn)) =
      some (true, false) := by decide +kernel

/-- R214: profiles are lost at power-on. -/
theorem test_power_on_clears_profiles :
    (next? (exec .powerOn loaded)).map (fun t => t.profiles[0].valid) = some false := by
  decide +kernel

/-- R178, R129: the epoch advances and the profiles stay. -/
theorem test_engine_reset_keeps_profiles :
    (next? (exec (.engineReset 3 []) loaded)).map (fun t => (t.epoch, t.profiles[0].valid)) =
      some (1, true) := by decide +kernel

/-! ### Requests -/

/-- R177, R185, R187: the payload of a SIGN-ON reply. -/
theorem test_sign_on_reply :
    (next? (exec (.signOn 5 []) quiet)).map (fun t => t.tx) =
      some (.reply { kind := 0x80, tag := 5,
                     payload := [0x10, 0x00, 0x41, 0x60, 1, 8, 64, 24, 0, 0] }) := by
  decide +kernel

/-- R187: the last nine bytes of a STATUS reply: supply, episodes, free units, blocks, entries, faults,
outbox, stalled. -/
theorem test_status_reply :
    (next? (exec (.status 5 []) loaded)).map
      (fun t => match t.tx with
        | .reply f => f.payload.drop 18
        | .idle | .report _ => []) = some [0, 0, 0, 8, 62, 24, 64, 0, 0] := by decide +kernel

/-- R123 check 3: a sector of 4 KiB in a memory of 1 KiB is out of range. -/
theorem test_profile_load_range :
    (next? (exec (.profileLoad 0 [0, 10, 12, 0, 0, 0, 0, 1, 1, 0, 0, 1, 1, 0, 1, 1]) quiet)).map
      (fun t => t.tx) = some (.reply { kind := 0x80, tag := 0, payload := [0x20, 0x04] }) := by
  decide +kernel

/-- R127, R128: an entry that was never loaded reads as zeros. -/
theorem test_profile_read_unloaded :
    (next? (exec (.profileRead 0 [3]) quiet)).map (fun t => t.tx) =
      some (.reply { kind := 0x80, tag := 0,
                     payload := [0x21, 0, 3] ++ List.replicate 17 0 }) := by decide +kernel

/-- R133: the lowest FREE handle. -/
theorem test_block_open_lowest :
    (next? (exec (.blockOpen 0 []) loaded)).map (fun t => (t.block 2).state) = some .filling := by
  decide +kernel

/-- R135: a write over the end of the fill raises the fill length; R134: past the block it is refused. -/
theorem test_block_write_fill :
    (next? (exec (.blockWrite 0 [0, 0xFE, 1, 2])
      (quiet.updBlock 0 fun _ => .opened))).map
        (fun t => ((t.block 0).fill, (t.block 0).content.read 0xFF)) = some (256, 2) ∧
    (next? (exec (.blockWrite 0 [0, 0xFF, 1, 2])
      (quiet.updBlock 0 fun _ => .opened))).map (fun t => (t.block 0).fill) = some 0 := by
  decide +kernel

/-- R136, R160: one block byte 31h. Its CRC, computed outside the model as R160
says, is C782h. -/
theorem test_block_seal_crc :
    (next? (exec (.blockSeal 0 [0, 0xC7, 0x82])
      (quiet.updBlock 0 fun _ => { Block.opened with fill := 1, content := [(0, 0x31)] }))).map
        (fun t => ((t.block 0).state, (t.block 0).crc)) = some (.sealed, some 0xC782) := by
  decide +kernel

/-- R138: a SEALED block without references becomes FREE. -/
theorem test_block_release_frees :
    (next? (exec (.blockRelease 0 [1]) loaded)).map (fun t => (t.block 1).state) = some .free := by
  decide +kernel

/-- R139, R187. -/
theorem test_block_query :
    (next? (exec (.blockQuery 0 [1]) loaded)).map (fun t => t.tx) =
      some (.reply { kind := 0x80, tag := 0, payload := [0x34, 0, 1, 2, 1, 0, 0, 0, 0, 0] }) := by
  decide +kernel

/-- 11.2: PROGRAM over lanes 0, 1 and 2 creates jobs 1, 2 and 3, with 3 references to each block. -/
theorem test_submit_gang_program :
    (next? (exec (.jobSubmit 0 ([0x07, 0x02, 0, 0, 0, 0, 0, 0, 2, 0] ++
      [0, 0, 0, 0, 1, 0, 0, 2, 0, 1])) loaded)).map
        (fun t => (t.jobs.map (fun j => j.id), (t.block 1).refs, (t.lane 2).state)) =
      some ([1, 2, 3], 3, .running) := by decide +kernel

/-- R28: a job that no entry holds. -/
theorem test_job_query_no_job :
    (next? (exec (.jobQuery 0 [9]) quiet)).map (fun t => t.tx) =
      some (.reply { kind := 0x80, tag := 0, payload := [0x41, 0x0D] }) := by decide +kernel

/-- R22: a job between cycles is CANCELLED at once and its JOB-END takes number 1. -/
theorem test_cancel_between_cycles :
    (next? (exec (.jobCancel 0 [1])
      ((working .identify .active fun x => { x with state := .running }).setTx (.reply ⟨0x80, 0, []⟩)))).map
        (fun t => (t.jobs.map (fun j => j.state), t.outbox.nextSeq, (t.lane 0).state)) =
      some ([.cancelled], 2, .idle) := by decide +kernel

/-- R27: a job that is not final is not retired. -/
theorem test_retire_not_final :
    (next? (exec (.jobRetire 0 [1]) (working .identify .queued id))).map (fun t => t.tx) =
      some (.reply { kind := 0x80, tag := 0, payload := [0x43, 0x0F] }) := by decide +kernel

/-- R152: a start index past the job's records. -/
theorem test_faults_read_range :
    (next? (exec (.faultsRead 0 [1, 1]) (working .identify .queued id))).map (fun t => t.tx) =
      some (.reply { kind := 0x80, tag := 0, payload := [0x44, 0x04] }) := by decide +kernel

/-- R29. -/
theorem test_lane_restart :
    (next? (exec (.laneRestart 0 [7]) (quiet.setLaneState 7 .stopped))).map
      (fun t => (t.lane 7).state) = some .idle := by decide +kernel

/-- R91: in UP nothing is held by the supply. -/
theorem test_supply_resume_up :
    (next? (exec (.supplyResume 0 []) quiet)).map (fun t => t.tx) =
      some (.reply { kind := 0x80, tag := 0, payload := [0x50, 0x11] }) := by decide +kernel

/-- R207, R219: the acknowledgement of the last record drops ATTN. -/
theorem test_report_ack_drops_attn :
    (next? (exec (.reportAck 0 [0]) State.reset.transmit)).map (fun t => (t.attn, t.replyQueue.length)) =
      some (false, 1) := by decide +kernel

/-- R170. -/
theorem test_bad_kind :
    (next? (exec (.badKindRequest 0x12 0 []) quiet)).map (fun t => t.tx) =
      some (.reply { kind := 0x80, tag := 0, payload := [0x12, 0x02] }) := by decide +kernel

/-- R168: no entry is written. -/
theorem test_tag_range :
    (next? (exec (.tagRangeRefusal 0x10 0x10 []) quiet)).map (fun t => (t.tx, t.tags)) =
      some (.reply { kind := 0x80, tag := 0x10, payload := [0x10, 0x03] },
        Vector.replicate 16 .free) := by decide +kernel

/-! ### The line -/

/-- R161: A5h starts a frame. -/
theorem test_start_byte :
    (next? (exec (.rxCharacter 9 0xA5 .good) quiet)).map (fun t => (t.rx.phase, t.rx.timer)) =
      some (.header, some 9) := by decide +kernel

/-- R215: a character whose start bit fell before the release is not taken. -/
theorem test_character_begun_in_reset :
    (next? (exec (.rxCharacter 9 0xA5 (.begunInReset true)) quiet)).map (fun t => t.rx) =
      some quiet.rx := by decide +kernel

/-- R162, R164: the A5h behind the start byte begins the next frame, from its own moment. -/
theorem test_frame_timer_rescans :
    (next? (exec .frameTimerExpiry (quiet.setRx { Receiver.afterReset with
      phase := .header, kept := [⟨0xA5, 1⟩, ⟨0xA5, 2⟩], timer := some 1 }))).map
        (fun t => (t.rx.kept, t.rx.timer)) = some ([⟨0xA5, 2⟩], some 2) := by decide +kernel

/-- The outbox of the table in 10.6 (R210). -/
def mergeExample : Outbox where
  records := [
    { body := .supply ⟨.down, 7⟩, seq := 40, transmitted := true, mark := false },
    { body := (job1 .identify .done).endBody, seq := 41, transmitted := true, mark := false },
    { body := .supply ⟨.restored, 7⟩, seq := 42, transmitted := false, mark := false },
    { body := (job1 .identify .done).endBody, seq := 43, transmitted := false, mark := false }]
  nextSeq := 44
  round := 0
  timer := none
  stalled := false
  owed := none
  waitingLanes := []

/-- The table in 10.6: numbers 40, 41, 42, the SUPPLY record first with the latest notice, next 43. -/
theorem test_break_merges :
    (next? (exec .rxBreak ((quiet.setOutbox mergeExample).setTx (.report ⟨0xE3, 40, []⟩)))).map
      (fun t => (t.outbox.records.map (fun r => r.seq), newestNotice t.outbox.records,
        t.outbox.nextSeq)) = some ([40, 41, 42], some ⟨.restored, 7⟩, 43) := by decide +kernel

/-- R217: the same low is not recognised as a break again, and a kept byte stays. -/
theorem test_break_once_for_one_low :
    (next? (exec .rxBreak ((quiet.setOutbox mergeExample).setTx (.report ⟨0xE3, 40, []⟩) |>.setRx
      { Receiver.afterReset with breakDetector := .recognised }))).map (fun t => t.outbox) =
      some mergeExample := by decide +kernel

/-- R166: a frame that arrives after a break has taken RX high, so that the next break is a further one. -/
theorem test_frame_between_breaks :
    (next? (runCommands [.rxBreak, .signOn 0 [], .rxBreak] ((quiet.setOutbox mergeExample).setTx
      (.report ⟨0xE3, 40, []⟩)))).map (fun t => t.rx.breakDetector) = some .recognised ∧
    (next? (runCommands [.rxBreak, .signOn 0 []] quiet)).map (fun t => t.rx.breakDetector) =
      some .clear := by decide +kernel

/-- R175: a reply before a report. -/
theorem test_reply_before_report :
    (next? (exec .transmitFrameEnd ((State.reset.setTx (.reply ⟨0x80, 0, []⟩)).setReplyQueue
      [⟨0x80, 1, []⟩]))).map (fun t => t.tx) = some (.reply ⟨0x80, 1, []⟩) := by decide +kernel

/-- R204: the first expiry begins round 1. -/
theorem test_ack_timer_round :
    (next? (exec .ackTimerExpiry ((quiet.setOutbox { mergeExample with timer := some 250 }).setTx
      (.reply ⟨0x80, 0, []⟩)))).map (fun t => (t.outbox.round, t.outbox.records.map (fun r => r.mark))) =
      some (1, [true, true, false, false]) := by decide +kernel

/-! ### The lanes -/

/-- R98: a held probe goes out when the gap has passed. -/
theorem test_gap_sends_the_probe :
    (lane0 (.laneGapEnd 0) (working .identify .active fun x => { x with
      unit := { x.unit with cycle := some (.new .ident 0 0 true) } })).map (fun x => x.lckRunning) =
      some true := by decide +kernel

/-- R100: the five bytes of a LOAD of 5Ah at address 012345h, in the order they are sent. -/
theorem test_five_bytes_of_a_load :
    { Lane.afterReset with
      unit := { state := .sending, cycle := some (.new .load 0x012345 0x5A false),
                gapPassed := false } }.ldaBytes = [0x4A, 0x01, 0x23, 0x45, 0x5A] := by decide

/-- R103: the window opens for 50 µs. -/
theorem test_sent_moment_opens_window :
    (lane0 (.sentMoment 0 7) (working .identify .active fun x => { x with
      unit := { x.unit with state := .sending, cycle := some (.new .ident 0 0 true) } })).map
        (fun x => x.unit.cycle.map fun c => c.windowEnd) = some (some 57) := by decide +kernel

/-- "A read that waits, long and short" of 5.7: WAIT-SHORT in the slot ending at 14 µs. -/
theorem test_wait_short_of_the_worked_read :
    (lane0 (.answerSlot 0 0x71) (working .identify .active
      (reading { sentCycle .read with slots := 6 }))).map
        (fun x => x.unit.cycle.map fun c => (c.windowEnd, c.heard)) = some (some (64, true)) := by
  decide +kernel

/-- "A shorted data line" of 5.7: 00h on the probe is BAD_ANSWER and stops the lane. -/
theorem test_shorted_line :
    (next? (exec (.answerSlot 0 0x00) (working .identify .active
      (reading { sentCycle .ident with probe := true })))).map
        (fun t => (t.jobs.map (fun j => j.endReason), (t.lane 0).state)) =
      some ([some .badAnswer], .stopped) := by decide +kernel

/-- "A probe on an empty socket" of 5.7. -/
theorem test_empty_socket :
    (next? (exec (.answerWindowClose 0) (working .identify .active
      (reading { sentCycle .ident with probe := true })))).map
        (fun t => (t.jobs.map (fun j => j.endReason), (t.lane 0).state)) =
      some ([some .targetAbsent], .stopped) := by decide +kernel

/-- "A target that never finishes" of 5.7: the ceiling with the window open to 21600 µs. -/
theorem test_ceiling_times_out :
    (next? (exec (.cycleCeiling 0) (working (.erase 0 0) .active
      (reading { sentCycle .marginE with windowEnd := 21600, heard := true })))).map
        (fun t => t.jobs.map (fun j => j.endReason)) = some [some .laneTimeout] := by decide +kernel

/-- R81, R77: the units return and the waiting head is granted (the last row of the first table of
11.2). -/
theorem test_expiry_grants_the_head :
    (next? (exec (.pulseTimerExpiry 1)
      (((working (.program 0 256 [0]) .active fun x => { x with state := .pulseWait }).updLane 1
        fun x => { x with state := .pulsing, slot := .timing, lvpClosed := true, unitsHeld := 3,
                          timer := some 100 }).setFreeUnits 2 |>.setGrantQueue [⟨0, 3, 100⟩]))).map
        (fun t => (t.freeUnits, (t.lane 0).slot, (t.lane 1).state)) =
      some (2, .granted, .running) := by decide +kernel

/-! ### The supply -/

/-- The first rows of 11.2: a fall cuts a running pulse, holds its lane and counts episode 1. -/
theorem test_fall_holds :
    (next? (exec .psupOkFall ((working (.program 0 256 [0]) .active fun x => { x with
      state := .pulsing, slot := .timing, lvpClosed := true, unitsHeld := 3,
      timer := some 100 }).setFreeUnits 5))).map
        (fun t => (t.freeUnits, (t.lane 0).state, t.supply.episodes)) = some (8, .held, 1) := by
  decide +kernel

/-- R89: a rise in DOWN enters RESTORED and counts nothing. -/
theorem test_rise_restores :
    (next? (exec .psupOkRise (quiet.setSupply ⟨.down, 1, false⟩))).map
      (fun t => (t.supply.state, t.supply.episodes)) = some (.restored, 1) := by decide +kernel

/-! ### Witnesses of the statements' hypotheses

`witness_<Name>` meets the hypotheses of `Obligations.<Name>`, clause by clause. -/

theorem quiet_ready : quiet.Ready := ⟨rfl, .inr ⟨rfl, rfl⟩⟩

theorem loaded_ready : loaded.Ready := ⟨rfl, .inr ⟨rfl, rfl⟩⟩

theorem working_ready (w : Work) (st : JobState) (f : Lane → Lane) : (working w st f).Ready :=
  ⟨rfl, .inr ⟨rfl, rfl⟩⟩

/-- A ready engine takes a frame on a FREE tag. -/
theorem takes_of_free {s : State} {t : Fin 16} (f : Frame) (h : s.Ready)
    (ht : s.tagEntry t = .free) : s.Takes t f := by
  refine ⟨h, ?_⟩
  rw [ht]
  trivial

theorem quiet_takes (t : Fin 16) (f : Frame) : quiet.Takes t f :=
  takes_of_free f quiet_ready (by revert t; decide)

theorem loaded_takes (t : Fin 16) (f : Frame) : loaded.Takes t f :=
  takes_of_free f loaded_ready (by revert t; decide)

theorem working_takes (w : Work) (st : JobState) (g : Lane → Lane) (t : Fin 16) (f : Frame) :
    (working w st g).Takes t f :=
  takes_of_free f (working_ready w st g) (by
    show quiet.tagEntry t = .free
    revert t; decide)

theorem witness_StepRunsTheFrontCommand :
    (quiet.setPending [.powerOn, .rxBreak]).pending = [.powerOn, .rxBreak] ∧ quiet.pending = [] ∧
      exec .powerOn quiet = .next quiet.heldInReset := ⟨rfl, rfl, rfl⟩

theorem witness_IdleTransmitterTakesFirst :
    State.reset.inReset = false ∧ State.reset.tx = .idle ∧
      ∀ a b p r, (.laneGapEnd 0 : Instr) ≠ .resetRelease a b p r :=
  ⟨rfl, rfl, fun _ _ _ _ h => by cases h⟩

theorem witness_HeldEngineTakesNoCommand :
    quiet.heldInReset.inReset = true ∧ (.status 0 [] : Instr) ≠ .powerOn ∧
      (.status 0 [] : Instr) ≠ .resetAssert ∧
      (∀ a b p r, (.status 0 [] : Instr) ≠ .resetRelease a b p r) ∧
      (.status 0 [] : Instr) ≠ .psupOkFall ∧ (.status 0 [] : Instr) ≠ .psupOkRise ∧
      ∀ f, (Instr.status 0 []).frame? = some f → f.payload.length ≤ 260 := by
  refine ⟨rfl, by decide, by decide, by decide, by decide, by decide, ?_⟩
  intro f h
  cases h
  decide

theorem witness_ReleaseStartsTheEngine : quiet.heldInReset.inReset = true := rfl

/-- Job 1 gives a program pulse of cost 3 on lane 0 and lists blocks 0 and 1, a request of cost 8 waits,
and PSUP_OK falls. -/
def pulsingEngine : State :=
  ((((working (.program 0 512 [0, 1]) .active fun x => { x with
      state := .pulsing, slot := .timing, lvpClosed := true, unitsHeld := 3,
      timer := some 100 }).setFreeUnits 5).setGrantQueue [⟨1, 8, 100⟩]).updLane 1 fun x =>
        { x with state := .pulseWait }).setBlocks (Vector.ofFn fun h =>
          { loaded.block h with refs := if h.val < 2 then 1 else 0 })
  |>.setPending [.psupOkFall]

theorem pulsingEngine_steps : ∃ t, step pulsingEngine = .next t := ⟨_, rfl⟩

theorem witness_StepsKeepTheBudget :
    pulsingEngine.BudgetKept ∧ ∃ t, step pulsingEngine = .next t :=
  ⟨by unfold State.BudgetKept; decide +kernel, pulsingEngine_steps⟩

theorem witness_StepsKeepSwitchesSafe :
    pulsingEngine.SwitchesSafe ∧ ∃ t, step pulsingEngine = .next t :=
  ⟨by unfold State.SwitchesSafe Lane.SwitchFollowsSlot; decide +kernel, pulsingEngine_steps⟩

theorem witness_StepsLeaveNoFittingHead :
    pulsingEngine.HeadWaits ∧ ∃ t, step pulsingEngine = .next t := by
  refine ⟨?_, pulsingEngine_steps⟩
  intro _ e he
  cases he
  decide +kernel

/-- The outbox of 10.6 keeps the laws; the break is the command that waits. -/
def mergeEngine : State :=
  ((quiet.setOutbox mergeExample).setTx (.reply ⟨0x80, 0, []⟩)).setPending [.rxBreak]

theorem mergeExample_consecutive : consecutive mergeExample.records mergeExample.nextSeq :=
  ⟨by decide, by decide, by decide, rfl⟩

theorem witness_StepsKeepTheOutboxLawful :
    mergeEngine.outbox.Lawful ∧ ∃ t, step mergeEngine = .next t := by
  refine ⟨?_, _, rfl⟩
  exact {
    size := by decide
    general := by decide
    window := by decide
    oneUnsentSupply := by decide
    owed := by decide
    numbers := mergeExample_consecutive
    order := by unfold Report.mayPrecede; decide
    marks := by decide
    rounds := by decide
    waiting := by decide }

theorem pulsingEngine_tables : pulsingEngine.TablesLawful where
  jobs := by decide
  queues := by decide +kernel
  faults := by decide
  replies := by decide
  ids := by decide
  idRange := by decide
  lastId := by decide
  owners := by decide
  counted := by decide +kernel

theorem witness_StepsKeepTheTablesLawful :
    pulsingEngine.TablesLawful ∧ ∃ t, step pulsingEngine = .next t :=
  ⟨pulsingEngine_tables, pulsingEngine_steps⟩

theorem pulsingEngine_queues : pulsingEngine.QueuesLawful where
  queued := by decide +kernel
  once := by decide +kernel
  current := by
    intro l id h
    have only : ∀ l, (pulsingEngine.lane l).current = if l = 0 then some 1 else none := by
      decide +kernel
    rw [only] at h
    split at h
    · next hl =>
      cases h
      exact ⟨job1 (.program 0 512 [0, 1]) .active, by decide +kernel, .inl rfl, hl.symm⟩
    · cases h
  waiting := by decide +kernel
  waitingOnce := by decide +kernel
  waitingLanesOnce := by decide
  waitingLanes := by decide +kernel

/-- `Block.Lawful` as a Bool. -/
def blockOk (b : Block) : Bool :=
  match b.state with
  | .free => !b.held && b.fill == 0 && b.refs == 0 && b.crc.isNone
  | .filling => b.held && decide (b.fill ≤ 256) && b.refs == 0 && b.crc.isNone
  | .sealed => decide (1 ≤ b.fill ∧ b.fill ≤ 256) && b.crc.isSome && (b.held || decide (1 ≤ b.refs))

theorem lawful_of_blockOk {b : Block} (h : blockOk b = true) : b.Lawful := by
  unfold blockOk at h
  unfold Block.Lawful
  cases hb : b.state <;> simp [hb] at h ⊢ <;> simp_all

theorem witness_StepsKeepThePoolLawful :
    pulsingEngine.TablesLawful ∧ pulsingEngine.QueuesLawful ∧ pulsingEngine.PoolLawful ∧
      ∃ t, step pulsingEngine = .next t := by
  refine ⟨pulsingEngine_tables, pulsingEngine_queues, fun h => ?_, pulsingEngine_steps⟩
  have ok : ∀ h, (blockOk (pulsingEngine.block h) && (pulsingEngine.block h).content.wf &&
      (pulsingEngine.block h).refs == pulsingEngine.listings h) = true := by decide +kernel
  have := ok h
  simp only [Bool.and_eq_true, beq_iff_eq] at this
  exact ⟨lawful_of_blockOk this.1.1, this.1.2, this.2⟩

theorem witness_OwnersAloneChangeTheirState :
    (∃ t, exec (.status 0 []) quiet = .next t) ∧
      (∀ a b p r, (.status 0 [] : Instr) ≠ .resetRelease a b p r) ∧
      (.status 0 [] : Instr) ≠ .powerOn ∧ (.status 0 [] : Instr) ≠ .resetAssert ∧
      (∀ m b h, (.status 0 [] : Instr) ≠ .rxCharacter m b h) ∧
      (.status 0 [] : Instr) ≠ .frameTimerExpiry ∧ (.status 0 [] : Instr) ≠ .psupOkFall ∧
      (.status 0 [] : Instr) ≠ .psupOkRise ∧
      ∀ f, (Instr.status 0 []).frame? = some f → f.kind ≠ 0x1F ∧ f.kind ≠ 0x20 ∧ f.kind ≠ 0x50 := by
  refine ⟨⟨_, rfl⟩, by decide, by decide, by decide, (fun _ _ _ h => by cases h), by decide, by decide,
    by decide, ?_⟩
  intro f h
  cases h
  decide

theorem witness_SignOnReplies : quiet.Takes 15 (requestFrame .signOn 15 []) := quiet_takes _ _

theorem witness_StatusReplies : quiet.Takes 0 (requestFrame .status 0 []) := quiet_takes _ _

theorem witness_EngineResetResets :
    loaded.Takes 0 (requestFrame .engineReset 0 []) ∧ loaded.tx = .idle ∧
      (loaded.setTx (.reply ⟨0x80, 0, []⟩)).Takes 0 (requestFrame .engineReset 0 []) ∧
      (loaded.setTx (.reply ⟨0x80, 0, []⟩)).tx ≠ .idle := by
  refine ⟨loaded_takes _ _, rfl, takes_of_free _ ⟨rfl, .inl (by simp [State.setTx])⟩ ?_,
    by simp [State.setTx]⟩
  show loaded.tagEntry 0 = .free
  decide

/-- `quiet` with the entry of tag 15 as given. -/
def tagged (e : TagEntry) : State := quiet.setTagEntry 15 e

theorem tagged_entry (e : TagEntry) : (tagged e).tagEntry 15 = e := by
  simp [tagged, State.setTagEntry, State.tagEntry, State.setTags]

theorem witness_TagTableAnswersRepeats :
    let c : Instr := .status 15 []
    let f : Frame := ⟨0x11, 15, []⟩
    let reply := replyFrame 0x11 15 .ok []
    let other : Digest := { f.digest with kind := 0x10 }
    c.frame? = some f ∧ f.payload.length ≤ 260 ∧ f.tag = byte (15 : Fin 16).val ∧
      ((tagged (.replied f.digest reply)).Ready ∧
        (tagged (.replied f.digest reply)).tagEntry 15 = .replied f.digest reply) ∧
      ((tagged (.inFlight f.digest)).Ready ∧
        (tagged (.inFlight f.digest)).tagEntry 15 = .inFlight f.digest) ∧
      (tagged (.inFlight other)).Ready ∧ (tagged (.inFlight other)).tagEntry 15 = .inFlight other ∧
      other ≠ f.digest :=
  ⟨rfl, by decide, by decide, ⟨⟨rfl, .inr ⟨rfl, rfl⟩⟩, tagged_entry _⟩,
    ⟨⟨rfl, .inr ⟨rfl, rfl⟩⟩, tagged_entry _⟩, ⟨rfl, .inr ⟨rfl, rfl⟩⟩, tagged_entry _,
    fun h => absurd (congrArg Digest.kind h) (by decide)⟩

theorem witness_TagAboveTheTableIsRefused :
    16 ≤ (0x10 : Byte).toNat ∧ 16 ≤ (0xFF : Byte).toNat ∧
      (List.replicate 260 (0 : Byte)).length ≤ 260 ∧ quiet.Ready :=
  ⟨by decide, by decide, by rw [List.length_replicate], quiet_ready⟩

theorem witness_DispatchRefusesKindAndLength :
    ((0x22 : Byte) ∉ ([0x10, 0x11, 0x1F, 0x20, 0x21, 0x30, 0x31, 0x32, 0x33, 0x34, 0x40, 0x41, 0x42,
        0x43, 0x44, 0x45, 0x50, 0x60] : List Byte) ∧
      quiet.Takes 0 { kind := 0x22, tag := byte 0, payload := [] }) ∧
    ((Instr.status (byte 15) [0]).frame? = some (requestFrame .status 15 [0]) ∧
      ([0] : List Byte).length ≠ 0 ∧ quiet.Takes 15 (requestFrame .status 15 [0])) ∧
    ((Instr.blockWrite (byte 0) [0, 0]).frame? = some (requestFrame .blockWrite 0 [0, 0]) ∧
      ¬(3 ≤ ([0, 0] : List Byte).length) ∧
      ¬((List.replicate 259 (0 : Byte)).length ≤ 258) ∧
      quiet.Takes 0 (requestFrame .blockWrite 0 (List.replicate 259 0))) ∧
    ((Instr.jobSubmit (byte 0) (List.replicate 17 0)).frame? =
        some (requestFrame .jobSubmit 0 (List.replicate 17 0)) ∧
      (¬∃ n, (List.replicate 17 (0 : Byte))[17]? = some n ∧ 17 = 18 + n.toNat) ∧
      (¬∃ n, (List.replicate 18 (1 : Byte))[17]? = some n ∧ 18 = 18 + n.toNat)) ∧
    ((Instr.status 0 (List.replicate 261 0)).frame? = some ⟨0x11, 0, List.replicate 261 0⟩ ∧
      260 < (List.replicate 261 (0 : Byte)).length) := by
  refine ⟨⟨by decide, quiet_takes _ _⟩, ⟨rfl, by decide, quiet_takes _ _⟩,
    ⟨rfl, by decide, by rw [List.length_replicate]; decide, quiet_takes _ _⟩, ⟨rfl, ?_, ?_⟩, rfl,
    by rw [List.length_replicate]; decide⟩
  · rintro ⟨n, h, -⟩
    cases h
  · rintro ⟨n, h, hn⟩
    cases h
    exact absurd hn (by decide)

theorem witness_FrameBytesActAsTheRequest :
    let f : Frame := ⟨0x10, 5, []⟩
    let broken := quiet.setRx { Receiver.afterReset with breakDetector := .recognised }
    (Instr.signOn 5 []).frame? = some f ∧ f.payload.length ≤ 260 ∧ quiet.inReset = false ∧
      quiet.rx = { Receiver.afterReset with breakDetector := quiet.rx.breakDetector } ∧
      broken.inReset = false ∧
      broken.rx = { Receiver.afterReset with breakDetector := broken.rx.breakDetector } ∧
      [0, 1, 2, 3, 4, 5, 6].length = f.bytes.length :=
  ⟨rfl, by decide, rfl, rfl, rfl, rfl, by decide⟩

theorem witness_CharactersInHunt :
    quiet.Ready ∧ quiet.rx.rescan = [] ∧ quiet.rx.phase = .hunt ∧ (0x00 : Byte) ≠ 0xA5 :=
  ⟨quiet_ready, rfl, rfl, by decide⟩

/-- `quiet` assembling a frame of which `kept` has arrived. -/
def assembling (kept : List RxByte) : State :=
  quiet.setRx { Receiver.afterReset with phase := .header, kept := kept, timer := some 0 }

theorem assembling_ready (kept : List RxByte) : (assembling kept).Ready := ⟨rfl, .inr ⟨rfl, rfl⟩⟩

/-- A run whose epoch is that of its start at every turn, shown by evaluation. -/
theorem epoch_kept {cs : List Instr} {s : State} {e : Word16}
    (h : ((List.range (cs.length + 1)).all fun n =>
      (next? (runCommands (cs.take n) s)).all fun v => v.epoch == e) = true) (n : Nat) (v : State)
    (hv : runCommands (cs.take n) s = .next v) : v.epoch = e := by
  rw [List.all_eq_true] at h
  have hmin : cs.take n = cs.take (min n cs.length) := by
    rcases Nat.le_total n cs.length with hle | hle
    · rw [Nat.min_eq_left hle]
    · rw [Nat.min_eq_right hle, List.take_length, List.take_of_length_le hle]
  have := h (min n cs.length) (List.mem_range.2 (Nat.lt_succ_of_le (Nat.min_le_right _ _)))
  rw [← hmin, hv] at this
  simpa [next?] using this

/-- `quiet` before the last byte of a SIGN-ON frame of tag 5 whose CRC begins with `high`. -/
def checking (high : Byte) : State :=
  quiet.setRx { Receiver.afterReset with
    phase := .check
    kept := [⟨0xA5, 0⟩, ⟨0x00, 1⟩, ⟨0x00, 2⟩, ⟨0x10, 3⟩, ⟨0x05, 4⟩, ⟨high, 5⟩]
    timer := some 0 }

theorem witness_DiscardedFramesAreRescanned :
    ((assembling [⟨0xA5, 0⟩, ⟨0x01, 1⟩]).Ready ∧ (assembling [⟨0xA5, 0⟩, ⟨0x01, 1⟩]).rx.rescan = [] ∧
      (assembling [⟨0xA5, 0⟩, ⟨0x01, 1⟩]).rx.phase = .header ∧
      (assembling [⟨0xA5, 0⟩, ⟨0x01, 1⟩]).rx.kept = [⟨0xA5, 0⟩, ⟨0x01, 1⟩] ∧
      260 < 256 * (0x01 : Byte).toNat + (0x05 : Byte).toNat) ∧
    (quiet.Ready ∧ quiet.rx.rescan = [] ∧ quiet.rx.timer = none) ∧
    ((assembling [⟨0xA5, 0⟩, ⟨0x00, 1⟩]).Ready ∧
      (assembling [⟨0xA5, 0⟩, ⟨0x00, 1⟩]).rx.timer.isSome = true ∧
      (∀ b ∈ ([⟨0x00, 1⟩] : List RxByte), b.byte ≠ 0xA5) ∧
      (assembling [⟨0xA5, 0⟩, ⟨0x00, 1⟩]).rx.kept = (⟨0xA5, 0⟩ : RxByte) :: [⟨0x00, 1⟩]) ∧
    ((assembling [⟨0xA5, 0⟩, ⟨0x00, 1⟩, ⟨0xA5, 2⟩, ⟨0x00, 3⟩]).Ready ∧
      (assembling [⟨0xA5, 0⟩, ⟨0x00, 1⟩, ⟨0xA5, 2⟩, ⟨0x00, 3⟩]).rx.kept =
        (⟨0xA5, 0⟩ : RxByte) :: [⟨0x00, 1⟩] ++ ⟨0xA5, 2⟩ :: [⟨0x00, 3⟩]) :=
  ⟨⟨assembling_ready _, rfl, rfl, rfl, by decide⟩, ⟨quiet_ready, rfl, rfl⟩,
    ⟨assembling_ready _, rfl, by decide, rfl⟩, assembling_ready _, rfl⟩

/-- The clauses that put a whole run of bytes through HUNT again: a frame timer that expires in a SIGN-ON of
tag 5 behind two start bytes, and a bad CRC. -/
theorem witness_DiscardedFramesAreRescanned_anew :
    let f : Frame := ⟨0x10, 5, []⟩
    let behind : List RxByte := (f.bytes.dropLast).map fun b => ⟨b, 7⟩
    let s := assembling (⟨0xA5, 0⟩ :: behind)
    (s.Ready ∧ s.rx.rescan = [] ∧ s.rx.timer.isSome = true ∧ s.rx.kept = ⟨0xA5, 0⟩ :: behind ∧
      s.rx.breakDetector = .clear ∧
      ∀ n v, runCommands ((behind.map fun b => Instr.rxCharacter b.moment b.byte .good).take n)
        (s.setRx .afterReset) = .next v → v.epoch = s.epoch) ∧
    ∃ kept : List RxByte,
      ((checking 0xA5).Ready ∧ (checking 0xA5).rx.rescan = [] ∧ (checking 0xA5).rx.phase = .check ∧
        (checking 0xA5).rx.kept = ⟨0xA5, 0⟩ :: kept ∧ f.payload.length ≤ 260 ∧
        ((⟨0xA5, 0⟩ :: kept).map fun b => b.byte) = 0xA5 :: f.covered ++ [0xA5] ∧
        f.crc ≠ (0xA5 : Byte) ++ (0x00 : Byte)) ∧
      ∀ n v, runCommands (((kept ++ [({ byte := 0x00, moment := 6 } : RxByte)]).map fun b =>
        Instr.rxCharacter b.moment b.byte .good).take n) ((checking 0xA5).setRx .afterReset) = .next v →
          v.epoch = (checking 0xA5).epoch :=
  ⟨⟨assembling_ready _, rfl, rfl, rfl, rfl, epoch_kept (by decide +kernel)⟩, _,
    ⟨⟨rfl, .inr ⟨rfl, rfl⟩⟩, rfl, rfl, rfl, by decide, by decide, by decide +kernel⟩,
    epoch_kept (by decide +kernel)⟩

theorem witness_BreakRewindsAndMerges :
    ((quiet.setRx { Receiver.afterReset with breakDetector := .recognised }).Ready ∧
      (quiet.setRx { Receiver.afterReset with breakDetector := .recognised }).rx.breakDetector =
        .recognised) ∧
    (quiet.inReset = false ∧ (Instr.signOn 0 []).frame? = some ⟨0x10, 0, []⟩ ∧
      ∃ t, exec (.signOn 0 []) quiet = .next t) ∧
    mergeEngine.Ready ∧ mergeEngine.rx.breakDetector ≠ .recognised ∧
    consecutive mergeEngine.outbox.records mergeEngine.outbox.nextSeq ∧
    mergeEngine.WaitingKnown ∧ quiet.Ready ∧ quiet.outbox.records = [] :=
  ⟨⟨⟨rfl, .inr ⟨rfl, rfl⟩⟩, rfl⟩, ⟨rfl, rfl, _, rfl⟩, ⟨rfl, .inl (by decide)⟩, by decide,
    mergeExample_consecutive, ⟨by decide, fun _ h => nomatch h⟩, quiet_ready, rfl⟩

theorem witness_TransmitterTakesTheNextFrame :
    let g : Frame := ⟨0x80, 0, []⟩
    let busy := State.reset.setTx (.reply g)
    let sent : Outbox := { mergeExample with records := mergeExample.records.map fun r =>
      { r with transmitted := true } }
    let resend : Outbox := { sent with records := sent.records.map fun r => { r with mark := true } }
    busy.inReset = false ∧ busy.tx = .reply g ∧
      (quiet.setTx (.report g)).tx = .report g ∧
      (busy.setReplyQueue [g]).replyQueue = g :: [] ∧
      (busy.replyQueue = [] ∧ busy.outbox.stalled = false ∧
        ∃ r, busy.outbox.records = [] ++ r :: [] ∧ r.transmitted = false ∧
          (∀ q ∈ busy.outbox.records, q.mark = false) ∧ busy.outbox.transmittedCount < 4) ∧
      (resend.stalled = false ∧ ∃ r behind, resend.records = [] ++ r :: behind ∧ r.mark = true) ∧
      (∀ q ∈ sent.records, q.mark = false) ∧ 4 ≤ sent.transmittedCount ∧
      (∀ q ∈ quiet.outbox.records, q.transmitted = true) ∧
      { quiet.outbox with stalled := true }.stalled = true := by
  refine ⟨rfl, rfl, rfl, rfl, ⟨rfl, rfl, _, rfl, rfl, by decide, by decide⟩,
    ⟨rfl, _, _, rfl, rfl⟩, by decide, by decide, by decide, rfl⟩

theorem witness_AckTimerBeginsARoundOrTheStall :
    let waiting := fun n : Nat => (quiet.setOutbox { mergeExample with timer := some 250, round := n }).setTx
      (.reply ⟨0x80, 0, []⟩)
    ((waiting 3).Ready ∧ (waiting 3).outbox.timer.isSome = true ∧ (∀ f, (waiting 3).tx ≠ .report f) ∧
      (waiting 3).outbox.round < 4) ∧
    ((waiting 4).Ready ∧ 4 ≤ (waiting 4).outbox.round ∧ ∀ f, (waiting 4).tx ≠ .report f) ∧
    quiet.Ready ∧ quiet.outbox.timer = none := by
  have busy : (Tx.reply ⟨0x80, 0, []⟩) ≠ .idle := by decide
  have noReport : ∀ f, (Tx.reply ⟨0x80, 0, []⟩) ≠ .report f := fun f h => by cases h
  exact ⟨⟨⟨rfl, .inl busy⟩, rfl, noReport, by decide⟩, ⟨⟨rfl, .inl busy⟩, by decide, noReport⟩,
    quiet_ready, rfl⟩

/-- `CrcIsTheSpecs` asks of one clause that the payload fits a frame. -/
theorem witness_CrcIsTheSpecs : ([0] : List Byte).length ≤ 260 := by decide

theorem witness_ProfileLoadChecksAndWrites :
    (∀ p, quiet.Takes 0 (requestFrame .profileLoad 0 p)) ∧ 4 ≤ (0x04 : Byte).toNat ∧
      (0x03 : Byte) = byte (3 : ProfileId).val ∧ ¬((0x02 : Byte).toNat ≤ 1) ∧
      ((0x01 : Byte).toNat ≤ 1 ∧ (0x00 : Byte).toNat ≤ 1) ∧
      (10 ≤ (0x0A : Byte).toNat ∧ (0x18 : Byte).toNat ≤ 24 ∧ ¬(10 ≤ (0x09 : Byte).toNat)) ∧
      256 * (0x03 : Byte).toNat + (0xE8 : Byte).toNat = 1000 ∧
      (∀ p, (working .identify .active id).Takes 0 (requestFrame .profileLoad 0 p)) ∧
      (∃ j ∈ (working .identify .active id).jobs, j.isUnfinished = true ∧ j.profile = 0) ∧
      ∀ j ∈ quiet.jobs, j.isUnfinished = true → j.profile ≠ 3 :=
  ⟨fun _ => quiet_takes _ _, by decide, by decide, by decide, by decide, by decide, by decide,
    fun _ => working_takes _ _ _ _ _, by decide, by decide⟩

/-- Every block taken. -/
def fullPool : State := quiet.setBlocks (Vector.replicate 64 .opened)

theorem witness_BlockOpenTakesTheLowest :
    (fullPool.Takes 0 (requestFrame .blockOpen 0 []) ∧ ∀ h, (fullPool.block h).state ≠ .free) ∧
      loaded.Takes 0 (requestFrame .blockOpen 0 []) ∧ (loaded.block 2).state = .free ∧
      ∀ g : Handle, g < 2 → (loaded.block g).state ≠ .free :=
  ⟨⟨takes_of_free _ ⟨rfl, .inr ⟨rfl, rfl⟩⟩ (by decide), by decide +kernel⟩, loaded_takes _ _,
    by decide +kernel, by decide +kernel⟩

/-- `quiet` with block 63 FILLING. -/
def filling : State := quiet.updBlock 63 fun _ => { Block.opened with fill := 1 }

theorem filling_takes (t : Fin 16) (f : Frame) : filling.Takes t f :=
  takes_of_free f ⟨rfl, .inr ⟨rfl, rfl⟩⟩ (by show quiet.tagEntry t = .free; revert t; decide)

theorem witness_BlockWriteWritesItsBytes :
    (∀ f, loaded.Takes 0 f) ∧ ((loaded.block 0).held = true ∧ (loaded.block 0).state = .sealed) ∧
      (∀ f, filling.Takes 15 f) ∧
      ((filling.block 63).held = true ∧ (filling.block 63).state = .filling ∧
        (filling.block 63).content.wf = true) ∧
      256 < (0xFF : Byte).toNat + ([1, 2] : List Byte).length ∧
      (0xFF : Byte).toNat + ([1] : List Byte).length ≤ 256 ∧
      (List.replicate 256 (0 : Byte)).length ≤ 256 :=
  ⟨fun _ => loaded_takes _ _, by decide +kernel, fun _ => filling_takes _ _, by decide +kernel,
    by decide, by decide, by rw [List.length_replicate]⟩

theorem witness_BlockSealChecksAndSeals :
    (∀ f, filling.Takes 0 f) ∧ (∀ f, loaded.Takes 0 f) ∧
      ((loaded.block 0).held = true ∧ (loaded.block 0).state = .sealed) ∧
      ((filling.block 63).held = true ∧ (filling.block 63).state = .filling ∧
        (filling.block 63).fill ≠ 0 ∧
        crc16 ((List.range (filling.block 63).fill).map (filling.block 63).content.read) =
          (0xFF : Byte) ++ (0x00 : Byte) ∧
        crc16 ((List.range (filling.block 63).fill).map (filling.block 63).content.read) ≠
          (0xFF : Byte) ++ (0x01 : Byte)) ∧
      (∀ f, (quiet.updBlock 0 fun _ => .opened).Takes 0 f) ∧
      ((quiet.updBlock 0 fun _ => .opened).block 0).held = true ∧
      ((quiet.updBlock 0 fun _ => .opened).block 0).state = .filling ∧
      ((quiet.updBlock 0 fun _ => .opened).block 0).fill = 0 :=
  ⟨fun _ => filling_takes _ _, fun _ => loaded_takes _ _, by decide +kernel, by decide +kernel,
    fun _ => takes_of_free _ ⟨rfl, .inr ⟨rfl, rfl⟩⟩ (by decide), by decide +kernel,
    by decide +kernel, by decide +kernel⟩

/-- `loaded` with 3 references to block 0. -/
def referenced : State := loaded.updBlock 0 fun b => { b with refs := 3 }

theorem witness_BlockReleaseGivesUpTheHold :
    (∀ f, filling.Takes 0 f) ∧ ((filling.block 63).held = true ∧ (filling.block 63).state = .filling) ∧
      (∀ f, loaded.Takes 0 f) ∧ ((loaded.block 0).held = true ∧ (loaded.block 0).refs = 0 ∧
        (loaded.block 0).state ≠ .free) ∧
      (∀ f, referenced.Takes 0 f) ∧ (referenced.block 0).held = true ∧
      (referenced.block 0).state = .sealed ∧ 1 ≤ (referenced.block 0).refs :=
  ⟨fun _ => filling_takes _ _, by decide +kernel, fun _ => loaded_takes _ _, by decide +kernel,
    fun _ => takes_of_free _ ⟨rfl, .inr ⟨rfl, rfl⟩⟩ (by show quiet.tagEntry 0 = .free; decide),
    by decide +kernel, by decide +kernel, by decide +kernel⟩

/-- A handle of a FREE block and a byte that is no handle. -/
theorem witness_UnheldHandlesAreRefused :
    quiet.Unheld 0x3F ∧ quiet.Unheld 0x40 ∧ (∀ f, quiet.Takes 0 f) ∧
      1 ≤ ([0, 0] : List Byte).length - 1 ∧ (List.replicate 257 (0 : Byte)).length ≤ 257 ∧
      ([0, 0] : List Byte).length = 2 := by
  refine ⟨fun h _ => .inr ?_, fun h hh => ?_, fun _ => quiet_takes _ _, by decide,
    by rw [List.length_replicate], rfl⟩
  · revert h; decide +kernel
  · exact absurd hh (by revert h; decide +kernel)

/-- The submission of 11.2: PROGRAM over lanes 0, 1 and 2 from blocks 0 and 1. -/
def gang : Submit where
  mask := 0x07
  kind := 0x02
  profile := 0
  start := 0
  length := 512
  first := 0
  last := 0
  faultLimit := 1
  progress := none
  handles := [0, 1]

theorem gang_fits : gang.Fits := ⟨by decide, by decide, by decide, by decide, by decide, by decide,
  (fun _ h => by cases h), by decide⟩

theorem gang_checks : gang.Check1 ∧ gang.Check2 ∧ gang.Check4 loaded.profiles[0] := by
  refine ⟨by unfold Submit.Check1; decide, ?_, ?_⟩
  · exact ⟨by decide, by decide, by decide, (fun _ h => by cases h), by decide⟩
  · unfold Submit.Check4; decide +kernel

theorem gang_usable : ∀ b ∈ gang.handles, loaded.Usable b := by
  intro b hb
  have : b = byte (0 : Handle).val ∨ b = byte (1 : Handle).val := by
    simpa [gang, byte] using hb
  obtain rfl | rfl := this
  · exact ⟨0, rfl, by decide +kernel⟩
  · exact ⟨1, rfl, by decide +kernel⟩

theorem loaded_tables : loaded.TablesLawful where
  jobs := by decide
  queues := by decide +kernel
  faults := by decide
  replies := by decide
  ids := by decide
  idRange := by decide
  lastId := by decide
  owners := by decide
  counted := by decide

/-- `loaded` with 22 jobs in the table. -/
def crowded : State := loaded.setJobs (List.replicate 22 (job1 .identify .done))

/-- `loaded` with 4 jobs in the queue of lane 2. -/
def queued : State := loaded.updLane 2 fun x => { x with queue := [1, 2, 3, 4] }

/-- `loaded` with block 2 FILLING. -/
def half : State := loaded.updBlock 2 fun _ => .opened

theorem witness_SubmitChecksInOrder :
    gang.Fits ∧ loaded.Takes 0 (requestFrame .jobSubmit 0 gang.payload) ∧
      ({ gang with kind := 0x06 }.Fits ∧ ¬({ gang with kind := 0x06 }.Check1)) ∧
      (gang.Check1 ∧ gang.Check2) ∧
      (quiet.Takes 0 (requestFrame .jobSubmit 0 gang.payload) ∧
        ∀ i : ProfileId, gang.profile = i.val → quiet.profiles[i].valid = false) ∧
      (gang.profile = (0 : ProfileId).val ∧ loaded.profiles[(0 : ProfileId)].valid = true) ∧
      ¬{ gang with start := 65025 }.Check4 loaded.profiles[(0 : ProfileId)] ∧
      gang.Check4 loaded.profiles[(0 : ProfileId)] ∧ loaded.Unheld 0x40 ∧
      ((∀ f, half.Takes 0 f) ∧ (half.block 2).held = true ∧ (half.block 2).state = .filling) ∧
      (∀ b ∈ gang.handles, loaded.Usable b) ∧
      gang.handles = ([0, 1] : List Handle).map (fun h => byte h.val) ∧
      (([0, 1] : List Handle).map fun h => (loaded.block h).fill).sum = 512 ∧
      ((∀ f, crowded.Takes 0 f) ∧ 24 < crowded.jobs.length + (lanesOf gang.mask).length) ∧
      ((∀ f, queued.Takes 0 f) ∧ queued.jobs.length + (lanesOf gang.mask).length ≤ 24 ∧
        ∃ l ∈ lanesOf gang.mask, 4 ≤ (queued.lane l).queue.length) := by
  refine ⟨gang_fits, loaded_takes _ _, ⟨⟨by decide, by decide, by decide, by decide, by decide,
    by decide, (fun _ h => by cases h), by decide⟩, by unfold Submit.Check1; decide⟩,
    ⟨gang_checks.1, gang_checks.2.1⟩, ⟨quiet_takes _ _, by decide +kernel⟩,
    ⟨rfl, by decide +kernel⟩, by unfold Submit.Check4; decide +kernel, gang_checks.2.2, ?_,
    ⟨fun _ => takes_of_free _ ⟨rfl, .inr ⟨rfl, rfl⟩⟩ (by show quiet.tagEntry 0 = .free; decide),
      by decide +kernel⟩,
    gang_usable, by decide, by decide +kernel,
    ⟨fun _ => takes_of_free _ ⟨rfl, .inr ⟨rfl, rfl⟩⟩ (by show quiet.tagEntry 0 = .free; decide),
      by decide +kernel⟩,
    ⟨fun _ => takes_of_free _ ⟨rfl, .inr ⟨rfl, rfl⟩⟩ (by show quiet.tagEntry 0 = .free; decide),
      by decide +kernel, 2, by decide, by decide +kernel⟩⟩
  intro h hh
  exact absurd hh (by revert h; decide +kernel)

theorem witness_SubmitCreatesTheJobs :
    gang.Fits ∧ loaded.Takes 0 (requestFrame .jobSubmit 0 gang.payload) ∧ loaded.TablesLawful ∧
      gang.Check1 ∧ gang.Check2 ∧ gang.profile = (0 : ProfileId).val ∧
      loaded.profiles[(0 : ProfileId)].valid = true ∧ gang.Check4 loaded.profiles[(0 : ProfileId)] ∧
      gang.handles = ([0, 1] : List Handle).map (fun h => byte h.val) ∧
      (∀ b ∈ gang.handles, loaded.Usable b) ∧
      (([0, 1] : List Handle).map fun h => (loaded.block h).fill).sum = gang.length ∧
      loaded.jobs.length + (lanesOf gang.mask).length ≤ 24 ∧
      (∀ l ∈ lanesOf gang.mask, (loaded.lane l).queue.length < 4) ∧
      ∀ l ∈ lanesOf gang.mask, (loaded.lane l).state = .idle → (loaded.lane l).queue = [] :=
  ⟨gang_fits, loaded_takes _ _, loaded_tables, gang_checks.1, gang_checks.2.1, rfl,
    by decide +kernel, gang_checks.2.2, by decide, gang_usable, by decide +kernel, by decide,
    by decide +kernel, by decide +kernel⟩

theorem witness_UnknownJobsAreRefused :
    (∀ j ∈ quiet.jobs, j.id ≠ (0x00 : Byte).toNat) ∧
      (∀ j ∈ (working .identify .queued id).jobs, j.id ≠ (0xFF : Byte).toNat) ∧
      (∀ f, quiet.Takes 0 f) ∧ ∀ f, (working .identify .queued id).Takes 0 f :=
  ⟨by decide, by decide, fun _ => quiet_takes _ _, fun _ => working_takes _ _ _ _ _⟩

theorem witness_QueriesReplyTheRecords :
    ((∀ f, quiet.Takes 0 f) ∧ 4 ≤ (0x04 : Byte).toNat ∧ (0x03 : Byte) = byte (3 : ProfileId).val) ∧
      ((∀ f, loaded.Takes 0 f) ∧ (loaded.block 0).held = true ∧ (loaded.block 0).state ≠ .free) ∧
      (∀ f, (working .identify .queued id).Takes 0 f) ∧
      (working .identify .queued id).job? (0x01 : Byte).toNat = some (job1 .identify .queued) :=
  ⟨⟨fun _ => quiet_takes _ _, by decide, by decide⟩, ⟨fun _ => loaded_takes _ _, by decide +kernel⟩,
    fun _ => working_takes _ _ _ _ _, rfl⟩

theorem witness_CancelOfAQueuedJob :
    (∀ w st g f, (working w st g).Takes 0 f) ∧
      ((working .identify .done id).job? (0x01 : Byte).toNat = some (job1 .identify .done) ∧
        (job1 .identify .done).isFinal = true) ∧
      (working .identify .queued id).job? (0x01 : Byte).toNat = some (job1 .identify .queued) ∧
      (job1 .identify .queued).state = .queued :=
  ⟨fun _ _ _ _ => working_takes _ _ _ _ _, ⟨rfl, rfl⟩, rfl, rfl⟩

/-- Job 1 on lane 0, whose pulse timer runs. -/
def inPulse : State := working (.program 0 512 [0, 1]) .active fun x => { x with
  state := .pulsing, slot := .timing, lvpClosed := true, unitsHeld := 3, timer := some 100 }

/-- Job 1 on lane 0 waits at the head of the grant queue, with lane 1 behind it. -/
def waitingForGrant : State :=
  ((working (.program 0 512 [0, 1]) .active fun x => { x with state := .pulseWait }).setFreeUnits
    2).setGrantQueue [⟨0, 3, 100⟩, ⟨1, 2, 100⟩]

theorem witness_CancelEndsTheCurrentJob :
    (∀ w st g f, (working w st g).Takes 0 f) ∧
      (let s := working (.program 0 512 [0, 1]) .held fun x => { x with state := .held }
       s.job? (0x01 : Byte).toNat = some (job1 (.program 0 512 [0, 1]) .held) ∧
         (s.lane 0).state = .held) ∧
      (let s := working .identify .active fun x => { x with state := .running }
       s.job? (0x01 : Byte).toNat = some (job1 .identify .active) ∧ (s.lane 0).state = .running ∧
         (s.lane 0).unit.cycle = none) ∧
      (waitingForGrant.Takes 0 (requestFrame .jobCancel 0 [1]) ∧
        waitingForGrant.job? (0x01 : Byte).toNat = some (job1 (.program 0 512 [0, 1]) .active) ∧
        (waitingForGrant.lane 0).state = .pulseWait ∧ (waitingForGrant.lane 0).unit.cycle = none) ∧
      inPulse.job? (0x01 : Byte).toNat = some (job1 (.program 0 512 [0, 1]) .active) ∧
      (inPulse.lane 0).state = .pulsing ∧ (inPulse.lane 0).slot = .timing ∧
      (inPulse.lane 0).unit.cycle = none ∧ inPulse.faults.length < 64 ∧
      64 ≤ (inPulse.setFaults (List.replicate 64 ⟨1, .mismatch, 0, none, none, .program, 0⟩)).faults.length :=
  ⟨fun _ _ _ _ => working_takes _ _ _ _ _, ⟨rfl, by decide +kernel⟩, ⟨rfl, by decide +kernel⟩,
    ⟨takes_of_free _ ⟨rfl, .inr ⟨rfl, rfl⟩⟩ (by show quiet.tagEntry 0 = .free; decide), rfl,
      by decide +kernel, by decide +kernel⟩, rfl,
    by decide +kernel, by decide +kernel, by decide +kernel, by decide, by decide +kernel⟩

theorem witness_CancelWithACycleInFlightIsDeferred :
    let s := working .identify .active (reading (sentCycle .ident))
    let g := working (.program 0 512 [0, 1]) .active fun x => { reading (sentCycle .pulseP) x with
      state := .pulsing, slot := .granted, lvpClosed := true, unitsHeld := 3 }
    (s.Takes 0 (requestFrame .jobCancel 0 [1]) ∧
      s.job? (0x01 : Byte).toNat = some (job1 .identify .active) ∧
      (s.lane 0).unit.cycle.isSome = true ∧ (s.lane 0).slot ≠ .granted) ∧
    g.Takes 0 (requestFrame .jobCancel 0 [1]) ∧
    g.job? (0x01 : Byte).toNat = some (job1 (.program 0 512 [0, 1]) .active) ∧
    (g.lane 0).unit.cycle.isSome = true ∧ (g.lane 0).slot = .granted :=
  ⟨⟨working_takes _ _ _ _ _, rfl, by decide +kernel, by decide +kernel⟩, working_takes _ _ _ _ _, rfl,
    by decide +kernel, by decide +kernel⟩

/-- A final job whose JOB-END has been enqueued. -/
def ended : State :=
  working .identify .done id |>.setJobs [{ job1 .identify .done with endReport := .enqueued }]

theorem witness_RetireRemovesTheJob :
    (ended.Takes 0 (requestFrame .jobRetire 0 [1]) ∧
      ∃ j, ended.job? (0x01 : Byte).toNat = some j ∧ j.isFinal = true ∧ j.endReport = .enqueued) ∧
    ((working .identify .queued id).Takes 0 (requestFrame .jobRetire 0 [1]) ∧
      (working .identify .queued id).job? (0x01 : Byte).toNat = some (job1 .identify .queued) ∧
      (job1 .identify .queued).isFinal = false) :=
  ⟨⟨takes_of_free _ ⟨rfl, .inr ⟨rfl, rfl⟩⟩ (by show quiet.tagEntry 0 = .free; decide), _, rfl, rfl,
    rfl⟩, working_takes _ _ _ _ _, rfl, rfl⟩

theorem witness_FaultsReadReplies :
    let s := working .identify .queued id
    (∀ f, s.Takes 0 f) ∧ s.job? (0x01 : Byte).toNat = some (job1 .identify .queued) ∧
      (job1 .identify .queued).faultsRecorded = (s.faults.filter fun r => decide (r.job = 1)).length ∧
      (job1 .identify .queued).faultsRecorded < (0x01 : Byte).toNat ∧
      (0x00 : Byte).toNat ≤ (job1 .identify .queued).faultsRecorded :=
  ⟨fun _ => working_takes _ _ _ _ _, rfl, rfl, by decide, by decide⟩

/-- Lane 7 STOPPED with job 1 in its queue. -/
def stoppedLane : State :=
  (working .identify .queued id).updLane 7 fun x => { x with state := .stopped, queue := [1] }

theorem witness_LaneRestartStartsTheHead :
    (∀ f, stoppedLane.Takes 0 f) ∧ 8 ≤ (0x08 : Byte).toNat ∧ (0x07 : Byte) = byte (7 : LaneId).val ∧
      (stoppedLane.lane 0).state ≠ .stopped ∧
      ((stoppedLane.lane 7).state = .stopped ∧ (stoppedLane.lane 7).queue = 1 :: [] ∧
        stoppedLane.job? 1 = some (job1 .identify .queued)) ∧
      (∀ f, (quiet.setLaneState 7 .stopped).Takes 0 f) ∧
      ((quiet.setLaneState 7 .stopped).lane 7).state = .stopped ∧
      ((quiet.setLaneState 7 .stopped).lane 7).queue = [] :=
  ⟨fun _ => takes_of_free _ ⟨rfl, .inr ⟨rfl, rfl⟩⟩ (by show quiet.tagEntry 0 = .free; decide),
    by decide, by decide, by decide +kernel, ⟨by decide +kernel, by decide +kernel, rfl⟩,
    fun _ => takes_of_free _ ⟨rfl, .inr ⟨rfl, rfl⟩⟩ (by show quiet.tagEntry 0 = .free; decide),
    by decide +kernel, by decide +kernel⟩

/-- The context of the ERASE phase of sector 0 after `n` pulses. -/
def erasing (n : Nat) : Context := { Context.starting 0 with phase := some .erase, eraseCount := n }

/-- With the supply in the given state, lane 0 is HELD at a byte of job 1, and lanes 1 and 2 are HELD in the
ERASE phase of jobs 2 and 3, before and after their first erase pulse. -/
def heldEngine (st : SupplyState) : State :=
  ((((working (.program 0 512 [0, 1]) .held fun x => { x with state := .held }).updLane 1 fun x =>
    { x with state := .held, current := some 2, context := erasing 0 }).updLane 2 fun x =>
      { x with state := .held, current := some 3, context := erasing 1 }).setJobs
        [job1 (.program 0 512 [0, 1]) .held, { job1 (.erase 0 0) .held with id := 2, lane := 1 },
          { job1 (.erase 0 0) .held with id := 3, lane := 2 }]).setSupply ⟨st, 1, true⟩

theorem heldEngine_takes (st : SupplyState) (f : Frame) : (heldEngine st).Takes 0 f :=
  takes_of_free f ⟨rfl, .inr ⟨rfl, rfl⟩⟩ (by show quiet.tagEntry 0 = .free; decide)

theorem witness_SupplyResumeResumesHeldLanes :
    (∀ st f, (heldEngine st).Takes 0 f) ∧ (heldEngine .down).supply.state = .down ∧
      (heldEngine .up).supply.state = .up ∧ (heldEngine .restored).supply.state = .restored ∧
      (∀ l, ((heldEngine .restored).lane l).state = .held →
        ((heldEngine .restored).currentJob? l).isSome = true) ∧
      (((heldEngine .restored).lane 0).state = .held ∧
        ((heldEngine .restored).lane 0).context.phase ≠ some .erase) ∧
      (((heldEngine .restored).lane 1).state = .held ∧
        ((heldEngine .restored).lane 1).context.phase = some .erase ∧
        ((heldEngine .restored).lane 1).context.eraseCount = 0) ∧
      (((heldEngine .restored).lane 2).state = .held ∧
        ((heldEngine .restored).lane 2).context.phase = some .erase ∧
        ((heldEngine .restored).lane 2).context.eraseCount ≠ 0) ∧
      ((heldEngine .restored).lane 3).state ≠ .held :=
  ⟨heldEngine_takes, rfl, rfl, rfl, by decide +kernel, by decide +kernel, by decide +kernel,
    by decide +kernel, by decide +kernel⟩

theorem witness_FallHoldsTheLanes :
    inPulse.Ready ∧ inPulse.supply.state ≠ .down ∧ ∀ l, (inPulse.lane l).SwitchFollowsSlot :=
  ⟨working_ready _ _ _, by decide, by unfold Lane.SwitchFollowsSlot; decide +kernel⟩

theorem witness_RiseRestoresTheSupply :
    (quiet.setSupply ⟨.down, 1, false⟩).Ready ∧
      (quiet.setSupply ⟨.down, 1, false⟩).supply.state = .down := ⟨⟨rfl, .inr ⟨rfl, rfl⟩⟩, rfl⟩

theorem witness_PulseTimerEnds :
    (quiet.Ready ∧ (quiet.lane 7).slot ≠ .timing) ∧ inPulse.Ready ∧ (inPulse.lane 0).slot = .timing ∧
      ∀ e ∈ inPulse.grantQueue, e.lane ≠ 0 :=
  ⟨⟨quiet_ready, by decide +kernel⟩, working_ready _ _ _, by decide +kernel, by decide⟩

theorem witness_CyclesGoOut :
    (quiet.Ready ∧ (quiet.lane 0).unit.state = .idle) ∧
      (let s := working .identify .active (reading (sentCycle .ident))
       s.Ready ∧ (s.lane 0).unit.state ≠ .idle ∧ (s.lane 0).unit.state ≠ .sending) ∧
      (let s := working .identify .active fun x => { x with
         unit := { state := .sending, cycle := some (.new .ident 0 0 true), gapPassed := false } }
       s.Ready ∧ (s.lane 0).unit.state = .sending ∧
         (s.lane 0).unit.cycle = some (.new .ident 0 0 true)) ∧
      ∀ gap, let s := stoppedLane.updUnit 7 fun u => { u with gapPassed := gap }
        (∀ f, s.Takes 0 f) ∧ (s.lane 7).state = .stopped ∧ (s.lane 7).queue = 1 :: [] ∧
          s.job? 1 = some (job1 .identify .queued) ∧ (s.lane 7).unit.gapPassed = gap :=
  ⟨⟨quiet_ready, by decide +kernel⟩, ⟨working_ready _ _ _, by decide +kernel⟩,
    ⟨working_ready _ _ _, by decide +kernel⟩, fun gap =>
      ⟨fun _ => takes_of_free _ ⟨rfl, .inr ⟨rfl, rfl⟩⟩ (by show quiet.tagEntry 0 = .free; decide),
        by cases gap <;> decide +kernel⟩⟩

theorem reading_answers (w : Work) (st : JobState) (c : Cycle) (g : Lane → Lane)
    (h : ∀ x, (g x).unit = x.unit) : (working w st fun x => g (reading c x)).Answering 0 c := by
  constructor <;> simp [working, State.lane, State.updLane, State.setLanes, reading, h]

/-- The first slot, and the last but one in which a READ can be answered. -/
theorem witness_WaitsExtendTheWindow :
    (∀ c, (working .identify .active (reading c)).Ready ∧
      (working .identify .active (reading c)).Answering 0 c) ∧
    (sentCycle .read).SlotOpen ∧ { sentCycle .read with slots := 9998 }.SlotOpen ∧
    (sentCycle .read).sentMoment + 2 * ((sentCycle .read).slots + 1) < (sentCycle .read).windowEnd ∧
    ((sentCycle .ident).SlotOpen ∧ { sentCycle .ident with slots := 9997 }.SlotOpen ∧
      ∀ k ∈ [CycleKind.ident, .read, .marginP, .marginE], (sentCycle k).kind = k) ∧
    (readyCycle .ident).kind = .ident ∧ (readyCycle .ident).ready = true ∧
      (readyCycle .ident).dataBytes = [] :=
  ⟨fun c => ⟨working_ready _ _ _, reading_answers _ _ c id fun _ => rfl⟩, by unfold Cycle.SlotOpen; decide,
    by unfold Cycle.SlotOpen; decide, by decide,
    ⟨by unfold Cycle.SlotOpen; decide, by unfold Cycle.SlotOpen; decide, fun _ _ => rfl⟩, rfl, rfl, rfl⟩

/-- What the statements about answers ask of the job on lane 0. -/
theorem working_current (w : Work) (st : JobState) (f : Lane → Lane) (h : ∀ x, (f x).current = x.current) :
    (working w st f).currentJob? 0 = some (job1 w st) := by
  simp [State.currentJob?, working, State.lane, State.updLane, State.setLanes, h, State.job?,
    State.setJobs, job1]

theorem working_mark (w : Work) (st : JobState) (c : Cycle) :
    ((working w st (reading c)).lane 0).context.mark = none := by
  simp [working, State.lane, State.updLane, State.setLanes, reading, loaded, State.updBlock,
    State.setBlocks, State.setProfiles, State.setJobs, quiet, State.reset, Lane.afterReset,
    Context.cleared]

/-- Job 1 waits for the answer of a pulse cycle on a slot in state `sl`. -/
def pulseAsked (k : CycleKind) (sl : PulseSlot) : State :=
  working (.program 0 512 [0, 1]) .active fun x =>
    { reading (sentCycle k) x with state := .pulsing, slot := sl }

theorem pulseAsked_meets (k : CycleKind) (sl : PulseSlot) :
    (pulseAsked k sl).Ready ∧ (pulseAsked k sl).Answering 0 (sentCycle k) ∧
      (pulseAsked k sl).currentJob? 0 = some (job1 (.program 0 512 [0, 1]) .active) :=
  ⟨working_ready _ _ _,
    reading_answers _ _ _ (fun x => { x with state := .pulsing, slot := sl }) fun _ => rfl,
    working_current _ _ _ fun _ => rfl⟩

theorem witness_FaultAndBadAnswersStopTheLane :
    let s := working .identify .active (reading (sentCycle .ident))
    (s.Ready ∧ s.Answering 0 (sentCycle .ident) ∧ (sentCycle .ident).SlotOpen ∧
      (s.lane 0).context.mark = none ∧
      ((sentCycle .ident).kind ≠ .pulseP ∧ (sentCycle .ident).kind ≠ .pulseE) ∧
      s.currentJob? 0 = some (job1 .identify .active) ∧ (job1 .identify .active).lane = 0 ∧
      (0xE7 : Byte) ∉ ([0xFF, 0x3C, 0x71, 0x72] : List Byte) ∧
      (0x00 : Byte) ∉ ([0xFF, 0x3C, 0x71, 0x72] : List Byte)) ∧
    (∀ k sl, (pulseAsked k sl).Ready ∧ (pulseAsked k sl).Answering 0 (sentCycle k) ∧
      (pulseAsked k sl).currentJob? 0 = some (job1 (.program 0 512 [0, 1]) .active)) ∧
    (sentCycle .pulseP).SlotOpen ∧ (sentCycle .pulseE).SlotOpen ∧
    (((pulseAsked .pulseP .granted).lane 0).slot = .granted ∧
      ((pulseAsked .pulseP .granted).lane 0).context.mark = none) ∧
    ((pulseAsked .pulseE .cut).lane 0).slot = .cut ∧
    ((pulseAsked .pulseE .cut).lane 0).context.mark = none :=
  ⟨⟨working_ready _ _ _, reading_answers _ _ _ id fun _ => rfl, by unfold Cycle.SlotOpen; decide,
      working_mark _ _ _, by decide, working_current _ _ _ fun _ => rfl, rfl, by decide, by decide⟩,
    pulseAsked_meets, by unfold Cycle.SlotOpen; decide, by unfold Cycle.SlotOpen; decide,
    by decide +kernel, by decide +kernel⟩

theorem witness_SilenceStopsTheLane :
    let c := { sentCycle .ident with probe := true }
    let s := working .identify .active (reading c)
    (s.Ready ∧ s.Answering 0 c ∧ c.ready = false ∧ c.kind ≠ .pulseP ∧ c.kind ≠ .pulseE ∧
      (s.lane 0).context.mark = none ∧ s.currentJob? 0 = some (job1 .identify .active) ∧
      (job1 .identify .active).lane = 0 ∧ c.windowEnd ≤ c.sentMoment + 19996 ∧
      { c with windowEnd := 19997 }.sentMoment + 19996 < { c with windowEnd := 19997 }.windowEnd) ∧
    ({ c with slots := 24 }.SlotOpen ∧ { c with slots := 24 }.windowEnd ≤ 0 + 2 * (24 + 1)) ∧
    ((pulseAsked .pulseP .granted).Ready ∧
      (pulseAsked .pulseP .granted).Answering 0 (sentCycle .pulseP) ∧
      (sentCycle .pulseP).ready = false ∧ ((pulseAsked .pulseP .granted).lane 0).slot = .granted ∧
      ((pulseAsked .pulseP .cut).lane 0).slot = .cut ∧
      ((pulseAsked .pulseP .granted).lane 0).context.mark = none ∧
      (sentCycle .pulseP).windowEnd ≤ (sentCycle .pulseP).sentMoment + 20000) :=
  ⟨⟨working_ready _ _ _, reading_answers _ _ _ id fun _ => rfl, rfl, by decide, by decide,
      working_mark _ _ _, working_current _ _ _ fun _ => rfl, rfl, by decide, by decide⟩,
    ⟨by unfold Cycle.SlotOpen; decide, by decide⟩, (pulseAsked_meets _ _).1,
    (pulseAsked_meets _ _).2.1, rfl, by decide +kernel, by decide +kernel,
    by decide +kernel, by decide⟩

/-- Job 1 works at address `a` in phase `p` after `n` pulses and waits for the data byte of `k`. -/
def dataAt (k : CycleKind) (w : Work) (a n : Nat) (p : Option SectorPhase) : State :=
  working w .active fun x => { reading (readyCycle k) x with
    context := { x.context with address := a, pulseCount := n, phase := p } }

theorem dataAt_meets (k : CycleKind) (w : Work) (a n : Nat) (p : Option SectorPhase) :
    (dataAt k w a n p).Ready ∧ (dataAt k w a n p).Answering 0 (readyCycle k) ∧
      (readyCycle k).kind = k ∧ (readyCycle k).ready = true ∧ (readyCycle k).dataBytes = [] ∧
      (dataAt k w a n p).currentJob? 0 = some (job1 w .active) ∧ (job1 w .active).lane = 0 :=
  ⟨working_ready _ _ _, reading_answers _ _ _ (fun x => { x with
    context := { x.context with address := a, pulseCount := n, phase := p } }) fun _ => rfl, rfl, rfl,
    rfl, working_current _ _ _ fun _ => rfl, rfl⟩

/-- The first and the last byte of the range of 11.2's job, as PROGRAM and as VERIFY. -/
theorem witness_EqualByteIsDone :
    let p : Work := .program 0 512 [0, 1]
    let v : Work := .verify 0 512 [0, 1]
    (∀ w a, (dataAt .read w a 0 none).Ready ∧ (dataAt .read w a 0 none).Answering 0 (readyCycle .read) ∧
      (readyCycle .read).kind = .read ∧ (readyCycle .read).ready = true ∧
      (readyCycle .read).dataBytes = [] ∧
      (dataAt .read w a 0 none).currentJob? 0 = some (job1 w .active) ∧ (job1 w .active).lane = 0) ∧
    (p.blocks ≠ [] ∧ v.blocks ≠ []) ∧
    (((dataAt .read p 0 0 none).lane 0).context.mark = none ∧
      ((dataAt .read p 0 0 none).lane 0).context.address = 0 ∧
      (dataAt .read p 0 0 none).streamByte? [0, 1] (0 - 0) = some 0xF0 ∧ 0 + 1 < 0 + 512) ∧
    (((dataAt .read v 511 0 none).lane 0).context.mark = none ∧
      ((dataAt .read v 511 0 none).lane 0).context.address = 511 ∧
      (dataAt .read v 511 0 none).streamByte? [0, 1] (511 - 0) = some 0xFF ∧ 0 + 512 ≤ 511 + 1 ∧
      (0xFE : Byte) ≠ 0xFF) :=
  ⟨fun _ _ => dataAt_meets _ _ _ _ _, by decide, by decide +kernel, by decide +kernel⟩

/-- The probe of `EqualByteIsDone`: the maker code has come, and the device code agrees with the profile or
differs; its profile asks for the check. -/
theorem witness_EqualByteIsDone_probe :
    let c := { readyCycle .ident with dataBytes := [0x11] }
    (∀ w, (working w .active (reading c)).Ready ∧ (working w .active (reading c)).Answering 0 c ∧
      c.kind = .ident ∧ c.ready = true ∧ c.dataBytes = [0x11] ∧
      ((working w .active (reading c)).lane 0).context.mark = none ∧
      (working w .active (reading c)).currentJob? 0 = some (job1 w .active) ∧
      (job1 w .active).lane = 0) ∧
    loaded.profiles[(0 : ProfileId)].checkIdentity = true ∧
    ((0x11 : Byte) = loaded.profiles[(0 : ProfileId)].maker ∧
      (0x22 : Byte) = loaded.profiles[(0 : ProfileId)].device) ∧
    (0x23 : Byte) ≠ loaded.profiles[(0 : ProfileId)].device :=
  ⟨fun _ => ⟨working_ready _ _ _, reading_answers _ _ _ id fun _ => rfl, rfl, rfl, rfl, working_mark _ _ _,
    working_current _ _ _ fun _ => rfl, rfl⟩, by decide +kernel, by decide +kernel, by decide +kernel⟩

/-- Below the maximum of profile 0 and at it. -/
theorem witness_ProgrammableByteIsLoaded :
    let w : Work := .program 0 512 [0, 1]
    (∀ k n, (dataAt k w 0 n none).Ready ∧ (dataAt k w 0 n none).Answering 0 (readyCycle k) ∧
      (readyCycle k).kind = k ∧ (readyCycle k).ready = true ∧ (readyCycle k).dataBytes = [] ∧
      (dataAt k w 0 n none).currentJob? 0 = some (job1 w .active) ∧ (job1 w .active).lane = 0) ∧
    (job1 w .active).work = .program 0 512 [0, 1] ∧
    (((dataAt .read w 0 0 none).lane 0).context.mark = none ∧
      (dataAt .read w 0 0 none).streamByte? [0, 1]
        (((dataAt .read w 0 0 none).lane 0).context.address - 0) = some 0xF0) ∧
    ((0xFF : Byte) ≠ 0xF0 ∧
      ∀ i, i < 8 → (0xFF : Byte).getLsbD i = false → (0xF0 : Byte).getLsbD i = false) ∧
    ((0x7F : Byte) ≠ 0xF0 ∧
      ∃ i, i < 8 ∧ (0x7F : Byte).getLsbD i = false ∧ (0xF0 : Byte).getLsbD i = true) ∧
    (((dataAt .marginP w 0 7 none).lane 0).context.mark = none ∧
      (dataAt .marginP w 0 7 none).streamByte? [0, 1]
        (((dataAt .marginP w 0 7 none).lane 0).context.address - 0) = some 0xF0 ∧
      ((dataAt .marginP w 0 7 none).lane 0).context.phase ≠ some .erase ∧
      ((dataAt .marginP w 0 7 none).lane 0).context.pulseCount <
        loaded.profiles[(0 : ProfileId)].maxProgram) ∧
    loaded.profiles[(0 : ProfileId)].maxProgram ≤
      ((dataAt .marginP w 0 8 none).lane 0).context.pulseCount :=
  ⟨fun _ _ => dataAt_meets _ _ _ _ _, rfl, by decide +kernel, by decide, ⟨by decide, 7, by decide⟩,
    by decide +kernel, by decide +kernel⟩

/-- The READY of a LOAD and of a PULSE-END, and a precondition byte below the maximum and at it. -/
theorem witness_ProgrammableByteIsLoaded_loop :
    let w : Work := .program 0 512 [0, 1]
    let e : Work := .erase 0 0
    (∀ k, (working w .active (reading (sentCycle k))).Ready ∧
      (working w .active (reading (sentCycle k))).Answering 0 (sentCycle k) ∧
      (working w .active (reading (sentCycle k))).currentJob? 0 = some (job1 w .active) ∧
      ((working w .active (reading (sentCycle k))).lane 0).context.mark = none) ∧
    ((sentCycle .load).SlotOpen ∧ (sentCycle .load).kind = .load ∧
      ((working w .active (reading (sentCycle .load))).lane 0).context.phase ≠ some .erase) ∧
    ((sentCycle .pulseEnd).SlotOpen ∧ (sentCycle .pulseEnd).kind = .pulseEnd ∧
      ((working w .active (reading (sentCycle .pulseEnd))).lane 0).context.phase ≠ some .erase) ∧
    (∀ k n, (dataAt k e 0 n (some .precondition)).Ready ∧
      (dataAt k e 0 n (some .precondition)).Answering 0 (readyCycle k) ∧
      (readyCycle k).kind = k ∧ (readyCycle k).ready = true ∧ (readyCycle k).dataBytes = [] ∧
      (dataAt k e 0 n (some .precondition)).currentJob? 0 = some (job1 e .active) ∧
      (job1 e .active).lane = 0) ∧
    (job1 e .active).work = .erase 0 0 ∧
    (((dataAt .read e 0 7 (some .precondition)).lane 0).context.mark = none ∧
      ((dataAt .read e 0 7 (some .precondition)).lane 0).context.phase = some .precondition ∧
      ((dataAt .read e 0 7 (some .precondition)).lane 0).context.pulseCount <
        loaded.profiles[(0 : ProfileId)].maxProgram) ∧
    loaded.profiles[(0 : ProfileId)].maxProgram ≤
      ((dataAt .marginP e 0 8 (some .precondition)).lane 0).context.pulseCount ∧ (0xFE : Byte) ≠ 0 :=
  ⟨fun _ => ⟨working_ready _ _ _, reading_answers _ _ _ id fun _ => rfl, working_current _ _ _ fun _ => rfl,
      working_mark _ _ _⟩, ⟨by unfold Cycle.SlotOpen; decide, rfl, by decide +kernel⟩,
    ⟨by unfold Cycle.SlotOpen; decide, rfl, by decide +kernel⟩, fun _ _ => dataAt_meets _ _ _ _ _, rfl,
    by decide +kernel, by decide +kernel, by decide⟩

theorem witness_ReadyStartsThePulse :
    (∀ k, (pulseAsked k .granted).Ready ∧ (pulseAsked k .granted).Answering 0 (sentCycle k) ∧
      (pulseAsked k .granted).currentJob? 0 = some (job1 (.program 0 512 [0, 1]) .active)) ∧
    (sentCycle .pulseP).SlotOpen ∧ (sentCycle .pulseE).SlotOpen ∧
    ((pulseAsked .pulseP .granted).lane 0).slot = .granted ∧
    ((pulseAsked .pulseE .granted).lane 0).slot = .granted ∧
    ((pulseAsked .pulseP .granted).lane 0).context.mark = none ∧
    ((pulseAsked .pulseE .granted).lane 0).context.mark = none :=
  ⟨fun k => pulseAsked_meets k _, by unfold Cycle.SlotOpen; decide, by unfold Cycle.SlotOpen; decide,
    by decide +kernel, by decide +kernel, by decide +kernel, by decide +kernel⟩

theorem witness_CutPulseIsHeldOrResumed :
    let s := pulseAsked .pulseP .cut
    let e := fun n => working (.erase 0 0) .active fun x => { reading (sentCycle .pulseE) x with
      state := .pulsing, slot := .cut, context := erasing n }
    (s.Ready ∧ s.Answering 0 (sentCycle .pulseP) ∧
      s.currentJob? 0 = some (job1 (.program 0 512 [0, 1]) .active)) ∧
    (sentCycle .pulseP).SlotOpen ∧ (s.lane 0).slot = .cut ∧ (s.lane 0).context.mark = none ∧
    s.HeadWaits ∧ (s.lane 0).context.phase ≠ some .erase ∧ s.supply.state = .up ∧
    ((s.setSupply ⟨.down, 1, false⟩).Ready ∧ (s.setSupply ⟨.down, 1, false⟩).HeadWaits ∧
      (s.setSupply ⟨.down, 1, false⟩).supply.state ≠ .up) ∧
    (∀ n, (e n).Ready ∧ (e n).Answering 0 (sentCycle .pulseE) ∧
      (e n).currentJob? 0 = some (job1 (.erase 0 0) .active) ∧ (e n).HeadWaits ∧
      (e n).supply.state = .up) ∧
    (sentCycle .pulseE).SlotOpen ∧
    (((e 0).lane 0).slot = .cut ∧ ((e 0).lane 0).context.mark = none ∧
      ((e 0).lane 0).context.phase = some .erase ∧ ((e 0).lane 0).context.eraseCount = 0) ∧
    ((e 1).lane 0).context.phase = some .erase ∧ ((e 1).lane 0).context.eraseCount ≠ 0 := by
  have none_waits : ∀ v : State, v.grantQueue = [] → v.HeadWaits := by
    intro v hv _ d hd
    rw [hv] at hd
    cases hd
  exact ⟨pulseAsked_meets _ _, by unfold Cycle.SlotOpen; decide, by decide +kernel, by decide +kernel,
    none_waits _ rfl, by decide +kernel, rfl,
    ⟨⟨rfl, .inr ⟨rfl, rfl⟩⟩, none_waits _ rfl, by decide⟩,
    fun n => ⟨working_ready _ _ _,
      reading_answers _ _ _ (fun x => { x with state := .pulsing, slot := .cut, context := erasing n })
        fun _ => rfl, working_current _ _ _ fun _ => rfl, none_waits _ rfl, rfl⟩,
    by unfold Cycle.SlotOpen; decide, by decide +kernel, by decide +kernel⟩

/-- Job 1 sweeps sector 0 after its first erase pulse and waits for the data byte of a MARGIN-E. -/
def sweeping (supply : SupplyState) (queue : List GrantEntry) : State :=
  ((working (.erase 0 0) .active fun x => { reading (readyCycle .marginE) x with
    context := { x.context with phase := some .erase, eraseCount := 1 } }).setSupply
      ⟨supply, 0, true⟩).setGrantQueue queue

theorem witness_SweepStopAsksForARepulse :
    let waiting : GrantEntry := { lane := 1, cost := 8, width := 100 }
    (∀ st q, (sweeping st q).Ready ∧ (sweeping st q).Answering 0 (readyCycle .marginE)) ∧
    (readyCycle .marginE).kind = .marginE ∧ (readyCycle .marginE).ready = true ∧
    (readyCycle .marginE).dataBytes = [] ∧
    ((sweeping .up []).lane 0).context.mark = none ∧
    (sweeping .up []).currentJob? 0 = some (job1 (.erase 0 0) .active) ∧
    ((sweeping .up []).lane 0).context.phase = some .erase ∧ (0x00 : Byte) ≠ 0xFF ∧
    ((sweeping .up []).lane 0).context.eraseCount < (sweeping .up []).profiles[(0 : ProfileId)].maxErase ∧
    ((sweeping .down []).supply.state ≠ .up ∧ (sweeping .down []).grantQueue = []) ∧
    ((sweeping .up []).supply.state = .up ∧ (sweeping .up []).grantQueue = [] ∧
      (sweeping .up []).profiles[(0 : ProfileId)].eraseCost ≤ (sweeping .up []).freeUnits) ∧
    ((sweeping .up [waiting]).setFreeUnits 3).Ready ∧
    ((sweeping .up [waiting]).setFreeUnits 3).HeadWaits ∧
    ((sweeping .up [waiting]).setFreeUnits 3).grantQueue ≠ [] := by
  refine ⟨fun st q => ⟨⟨rfl, .inr ⟨rfl, rfl⟩⟩, by constructor <;> simp [sweeping, working, State.lane,
      State.updLane, State.setLanes, State.setSupply, State.setGrantQueue, reading]⟩,
    rfl, rfl, rfl, by decide +kernel, rfl, by decide +kernel, by decide, by decide +kernel,
    ⟨by decide, rfl⟩, ⟨rfl, rfl, by decide +kernel⟩, ⟨rfl, .inr ⟨rfl, rfl⟩⟩, ?_, by decide⟩
  intro _ e he
  cases he
  decide

/-- The READY of the PULSE-END before a sweep; bytes FFh before the sector end and at it, and a stop at the
maximum. -/
theorem witness_SweepStopAsksForARepulse_bytes :
    let e : Work := .erase 0 0
    let before := working e .active fun x => { reading (sentCycle .pulseEnd) x with context := erasing 1 }
    let at_ := fun a => working e .active fun x => { reading (readyCycle .marginE) x with
      context := { erasing 4 with address := a } }
    (before.Ready ∧ before.Answering 0 (sentCycle .pulseEnd) ∧ (sentCycle .pulseEnd).SlotOpen ∧
      (sentCycle .pulseEnd).kind = .pulseEnd ∧ (before.lane 0).context.mark = none ∧
      before.currentJob? 0 = some (job1 e .active) ∧ (before.lane 0).context.phase = some .erase) ∧
    (∀ a, (at_ a).Ready ∧ (at_ a).Answering 0 (readyCycle .marginE) ∧
      (at_ a).currentJob? 0 = some (job1 e .active)) ∧
    (job1 e .active).lane = 0 ∧
    (((at_ 4094).lane 0).context.mark = none ∧
      ((at_ 4094).lane 0).context.address < 4094 / loaded.profiles[(0 : ProfileId)].sectorSize *
        loaded.profiles[(0 : ProfileId)].sectorSize + loaded.profiles[(0 : ProfileId)].sectorSize - 1) ∧
    (4095 / loaded.profiles[(0 : ProfileId)].sectorSize * loaded.profiles[(0 : ProfileId)].sectorSize +
      loaded.profiles[(0 : ProfileId)].sectorSize - 1 ≤ ((at_ 4095).lane 0).context.address) ∧
    loaded.profiles[(0 : ProfileId)].maxErase ≤ ((at_ 4095).lane 0).context.eraseCount :=
  ⟨⟨working_ready _ _ _, reading_answers _ _ _ (fun x => { x with context := erasing 1 }) fun _ => rfl,
      by unfold Cycle.SlotOpen; decide, rfl, by decide +kernel, working_current _ _ _ fun _ => rfl,
      by decide +kernel⟩,
    fun a => ⟨working_ready _ _ _, reading_answers _ _ _ (fun x => { x with
      context := { erasing 4 with address := a } }) fun _ => rfl, working_current _ _ _ fun _ => rfl⟩,
    rfl, by decide +kernel, by decide +kernel, by decide +kernel⟩

theorem witness_BlankFaultIsRecordedOrEndsTheJob :
    let w : Work := .blankCheck 0 2
    let full := List.replicate 64 (⟨1, .mismatch, 0, none, none, .program, 0⟩ : FaultRecord)
    (∀ a, (dataAt .read w a 0 none).Ready ∧ (dataAt .read w a 0 none).Answering 0 (readyCycle .read) ∧
      (readyCycle .read).kind = .read ∧ (readyCycle .read).ready = true ∧
      (readyCycle .read).dataBytes = [] ∧
      (dataAt .read w a 0 none).currentJob? 0 = some (job1 w .active) ∧ (job1 w .active).lane = 0) ∧
    ((dataAt .read w 0 0 none).lane 0).context.mark = none ∧
    (job1 w .active).work = .blankCheck 0 2 ∧ (0xFE : Byte) ≠ 0xFF ∧
    (((dataAt .read w 0 0 none).setFaults full).Ready ∧
      64 ≤ ((dataAt .read w 0 0 none).setFaults full).faults.length) ∧
    ((dataAt .read w 0 0 none).faults.length < 64 ∧
      (job1 w .active).faultsRecorded + 1 < (job1 w .active).faultLimit ∧
      ((dataAt .read w 0 0 none).lane 0).context.address + 1 < 0 + 2) ∧
    0 + 2 ≤ ((dataAt .read w 1 0 none).lane 0).context.address + 1 ∧
    { job1 w .active with faultLimit := 1 }.faultLimit ≤
      { job1 w .active with faultLimit := 1 }.faultsRecorded + 1 :=
  ⟨fun _ => dataAt_meets _ _ _ _ _, by decide +kernel, rfl, by decide,
    ⟨⟨rfl, .inr ⟨rfl, rfl⟩⟩, by decide +kernel⟩, by decide +kernel, by decide +kernel, by decide⟩

/-- Job 1 reads the answer of `c` under a pending-cancel mark of tag 3, its switch as given. -/
def marked (c : Cycle) (closed : Bool) : State :=
  (working .identify .active fun x => { reading c x with
    lvpClosed := closed
    context := { x.context with mark := some [3] } }).setTagEntry 3 (.inFlight ⟨0x42, 1, 0⟩)

theorem witness_DeferredCancelEnds :
    (∀ c b, (marked c b).Ready ∧ (marked c b).Answering 0 c) ∧
    (∀ b, ((marked (readyCycle .read) b).lane 0).context.mark = some [3] ∧
      (marked (readyCycle .read) b).currentJob? 0 = some (job1 .identify .active) ∧
      ((marked (readyCycle .read) b).lane 0).lvpClosed = b) ∧
    (job1 .identify .active).lane = 0 ∧
    ((readyCycle .read).ready = true ∧ (readyCycle .read).kind ∈ [.read, .marginP, .marginE] ∧
      (readyCycle .read).dataBytes = []) ∧
    ({ readyCycle .ident with dataBytes := [0x11] }.kind = .ident ∧
      { readyCycle .ident with dataBytes := [0x11] }.dataBytes.length = 1) ∧
    ((sentCycle .pulseP).SlotOpen ∧ (sentCycle .pulseP).kind ∈ [.load, .pulseP, .pulseE, .pulseEnd]) ∧
    (0x00 : Byte) ∉ ([0xFF, 0x3C, 0x71, 0x72] : List Byte) ∧
    ({ sentCycle .read with slots := 24 }.SlotOpen ∧
      { sentCycle .read with slots := 24 }.windowEnd ≤ 0 + 2 * (24 + 1)) ∧
    ((sentCycle .read).ready = false ∧ (sentCycle .read).windowEnd ≤ (sentCycle .read).lastSlotEnd ∧
      ¬{ sentCycle .read with windowEnd := 19999 }.windowEnd ≤ (sentCycle .read).lastSlotEnd) ∧
    (∀ tag ∈ ([3] : List Byte), ∃ (t : Fin 16) (d : Digest),
      tag = byte t.val ∧ (marked (readyCycle .read) true).tagEntry t = .inFlight d) ∧
    (5 : Fin 16).val = 5 ∧ byte (5 : Fin 16).val ∉ ([3] : List Byte) :=
  ⟨fun c b => ⟨⟨rfl, .inr ⟨rfl, rfl⟩⟩, by constructor <;> simp [marked, State.setTagEntry, State.setTags,
      working, State.lane, State.updLane, State.setLanes, reading]⟩,
    by decide +kernel, rfl, by decide, ⟨rfl, rfl⟩, ⟨by unfold Cycle.SlotOpen; decide, by decide⟩,
    by decide, ⟨by unfold Cycle.SlotOpen; decide, by decide⟩, by decide,
    fun tag h => ⟨3, ⟨0x42, 1, 0⟩, List.mem_singleton.1 h, by decide +kernel⟩, rfl,
    by decide⟩

/-- A general record with number `n`. -/
def general (n : Nat) (sent : Bool) : Report where
  body := (job1 .identify .done).endBody
  seq := byte n
  transmitted := sent
  mark := false

/-- A full outbox: a SUPPLY record and fifteen general ones, the first four of all transmitted, and a notice
owed. -/
def fullOutbox : Outbox := { quiet.outbox with
  records := { body := .supply ⟨.down, 1⟩, seq := 0, transmitted := true, mark := false } ::
    (List.range 15).map fun n => general (n + 1) (decide (n < 3))
  nextSeq := 16
  owed := some ⟨.restored, 1⟩ }

/-- `fullOutbox` with lane 0 waiting for jobs 1 and 2, in REPORT_WAIT for the second, and lane 1 for job 3.
-/
def waitingLanesEngine : State :=
  ((((quiet.setOutbox { fullOutbox with waitingLanes := [0, 1] }).setTx (.report ⟨0xE1, 3, []⟩)).setJobs
    ([(1, 0), (2, 0), (3, 1)].map fun (x : Nat × LaneId) =>
      { job1 .identify .done with id := x.1, lane := x.2, endReport := .waiting })).updLane 0 fun x =>
        { x with state := .reportWait, waitFor := some 2, waitingEnds := [1, 2] }).updLane 1 fun x =>
          { x with waitingEnds := [3] }

/-- What the outbox's last records tell: the kind, and the job of a JOB-END. -/
def told (o : Outbox) (from_ : Nat) : List (Option Nat) :=
  (o.records.drop from_).map fun r => match r.body with
    | .jobEnd e => some e.id
    | .engineReady _ | .progress _ _ _ | .supply _ => none

/-- R198: an acknowledgement of four records gives the first entry to the owed notice, and the others to lane
0, lane 1 and lane 0 again. -/
theorem test_ack_serves_in_turn :
    (next? (exec (.reportAck 0 [3]) waitingLanesEngine)).map
      (fun t => (told t.outbox 12, t.outbox.waitingLanes, (t.lane 0).state)) =
        some ([none, some 1, some 3, some 2], [], .idle) := by decide +kernel

/-- R198, R210: a break merges two SUPPLY records and so frees one entry, which takes the JOB-END of job 1; lane
0 goes behind lane 1, and stays in REPORT_WAIT for job 2. -/
theorem test_break_serves_one_lane :
    (next? (exec .rxBreak (waitingLanesEngine.setOutbox { waitingLanesEngine.outbox with
      records := { body := .supply ⟨.down, 1⟩, seq := 0, transmitted := true, mark := false } ::
        { body := .supply ⟨.restored, 1⟩, seq := 1, transmitted := true, mark := false } ::
          (List.range 14).map fun n => general (n + 2) false
      owed := none }))).map
        (fun t => (told t.outbox 15, t.outbox.waitingLanes, (t.lane 0).state)) =
          some ([some 1], [1, 0], .reportWait) := by decide +kernel

theorem waitingLanesEngine_known : waitingLanesEngine.WaitingKnown :=
  ⟨by decide, by decide +kernel⟩

/-- A break with lanes waiting, one of them for two jobs and one only for a queued job that was cancelled. -/
theorem witness_BreakRewindsAndMerges_waiting :
    waitingLanesEngine.Ready ∧ waitingLanesEngine.rx.breakDetector ≠ .recognised ∧
      consecutive waitingLanesEngine.outbox.records waitingLanesEngine.outbox.nextSeq ∧
      waitingLanesEngine.WaitingKnown ∧ waitingLanesEngine.outbox.waitingLanes ≠ [] :=
  ⟨⟨rfl, .inl (by decide)⟩, by decide,
    ⟨rfl, rfl, rfl, rfl, rfl, rfl, rfl, rfl, rfl, rfl, rfl, rfl, rfl, rfl, rfl, rfl⟩,
    waitingLanesEngine_known, by decide⟩

theorem witness_AckRemovesReports :
    (∀ f, mergeEngine.Takes 0 f) ∧
      (∀ r ∈ mergeEngine.heard.outbox.records, r.transmitted = true → r.seq ≠ 42) ∧
      (∃ a b behind, mergeEngine.heard.outbox.records = [a] ++ b :: behind ∧
        (∀ q ∈ [a], q.transmitted = true → q.seq ≠ 41) ∧ b.transmitted = true ∧ b.seq = 41) ∧
      mergeEngine.heard.outbox.owed = none ∧ mergeEngine.heard.outbox.waitingLanes = [] ∧
      (let s := (quiet.setOutbox fullOutbox).setTx (.report ⟨0xE1, 3, []⟩)
       (∀ f, s.Takes 0 f) ∧ s.heard.outbox.owed.isSome = true ∧ s.heard.outbox.waitingLanes = [] ∧
         ∃ a behind, s.heard.outbox.records = [] ++ a :: behind ∧ a.transmitted = true ∧ a.seq = 0 ∧
           behind.length < 16) :=
  ⟨fun _ => takes_of_free _ ⟨rfl, .inl (by decide)⟩ (by show quiet.tagEntry 0 = .free; decide),
    by decide, ⟨_, _, _, rfl, by decide, by decide, by decide⟩, rfl, rfl,
    fun _ => takes_of_free _ ⟨rfl, .inl (by decide)⟩ (by show quiet.tagEntry 0 = .free; decide), rfl, rfl,
    _, _, rfl, rfl, rfl, by decide +kernel⟩

/-- Fifteen general records, the first four of them transmitted, and lane 0 waits with job 1. -/
def waitingEngine : State :=
  (((working .identify .done fun x => { x with
    state := .reportWait, current := none, waitFor := some 1, waitingEnds := [1] }).setOutbox
      { quiet.outbox with
        records := (List.range 15).map fun n => general n (decide (n < 4))
        nextSeq := 15
        waitingLanes := [0] }).setTx (.report ⟨0xE1, 3, []⟩))

theorem waitingEngine_lawful : waitingEngine.outbox.Lawful where
  size := by decide +kernel
  general := by decide +kernel
  window := by decide +kernel
  oneUnsentSupply := by decide +kernel
  owed := by decide
  numbers := by
    refine ⟨?_, ?_, ?_, ?_, ?_, ?_, ?_, ?_, ?_, ?_, ?_, ?_, ?_, ?_, ?_⟩ <;> rfl
  order := by unfold Report.mayPrecede; decide +kernel
  marks := by decide +kernel
  rounds := by decide
  waiting := fun _ => by decide +kernel

theorem witness_AckServesTheWaitingLane :
    let s := waitingEngine
    s.Takes 0 (requestFrame .reportAck 0 [0]) ∧ s.outbox.stalled = false ∧ s.outbox.Lawful ∧
      (∃ behind, s.outbox.records = [] ++ general 0 true :: behind) ∧
      (general 0 true).transmitted = true ∧ (general 0 true).seq = 0 ∧ s.outbox.owed = none ∧
      s.outbox.waitingLanes = [0] ∧ (s.lane 0).waitingEnds = [1] ∧
      s.job? 1 = some (job1 .identify .done) ∧ (s.lane 0).state = .reportWait ∧
      (s.lane 0).waitFor = some 1 ∧ (job1 .identify .done).lane = 0 ∧
      ∃ q ∈ [] ++ [general 0 true], q.isSupply = false :=
  ⟨takes_of_free _ ⟨rfl, .inl (by decide)⟩ (by show quiet.tagEntry 0 = .free; decide), rfl,
    waitingEngine_lawful, ⟨_, rfl⟩, rfl, rfl, rfl, rfl, by decide +kernel, rfl, by decide +kernel,
    by decide +kernel, rfl, _, List.mem_singleton.2 rfl, rfl⟩

theorem witness_AckServesTheWaitingLane_turns :
    let s := waitingLanesEngine
    s.Takes 0 (requestFrame .reportAck 0 [3]) ∧ s.WaitingKnown ∧ s.heard.outbox.owed.isSome = true ∧
      s.heard.outbox.waitingLanes = [0, 1] ∧
      ∃ ahead r behind, s.heard.outbox.records = ahead ++ r :: behind ∧
        (∀ q ∈ ahead, q.transmitted = true → q.seq ≠ 3) ∧ r.transmitted = true ∧ r.seq = 3 ∧
        behind.length < 16 :=
  ⟨takes_of_free _ ⟨rfl, .inl (by decide)⟩ (by show quiet.tagEntry 0 = .free; decide),
    waitingLanesEngine_known, rfl, rfl, fullOutbox.records.take 3, _, _, rfl, by decide +kernel, rfl, rfl,
    by decide +kernel⟩

theorem witness_OffersMergeOrJoinTheOutbox :
    let o := mergeExample
    let p : Report := { body := .progress 1 0 256, seq := 44, transmitted := false, mark := false }
    (∃ ahead r behind, o.records = ahead ++ r :: behind ∧
      (∀ q ∈ ahead, q.isSupply = true → q.transmitted = true) ∧ r.isSupply = true ∧
      r.transmitted = false) ∧
    (∀ q ∈ quiet.outbox.records, q.isSupply = true → q.transmitted = true) ∧
    { quiet.outbox with owed := some ⟨.down, 1⟩ }.owed.isSome = true ∧
    16 ≤ ((List.range 16).map fun n => general n false).length ∧
    (∀ q ∈ (List.range 16).map (fun n => general n false), q.isSupply = true → q.transmitted = true) ∧
    (quiet.outbox.owed = none ∧ quiet.outbox.records.length < 16) ∧
    ([p] = [] ++ p :: [] ∧ (!p.transmitted && p.isProgressOf 1) = true) ∧
    (∀ q ∈ quiet.outbox.records, (!q.transmitted && q.isProgressOf 1) = false) ∧
    4 ≤ min (16 - quiet.outbox.records.length) (15 - quiet.outbox.general) ∧
    min (16 - waitingEngine.outbox.records.length) (15 - waitingEngine.outbox.general) < 4 ∧
    ∀ q ∈ waitingEngine.outbox.records, (!q.transmitted && q.isProgressOf 1) = false := by
  refine ⟨⟨mergeExample.records.take 2, _, _, rfl, by decide, by decide, by decide⟩, by decide, rfl,
    by decide, by decide +kernel, ⟨rfl, by decide⟩, ⟨rfl, by decide⟩, by decide, by decide,
    by decide +kernel, by decide +kernel⟩

end Sys2Proof.Tests
end

section
/-! PROOF. A fall of PSUP_OK (R86): what it does to one lane, to a run of lanes, and to the supply. -/

namespace Sys2Proof.Machine

/-! ### Holding a lane, and the units of all lanes -/

/-- A job's record, HELD if `p`. -/
def Job.holdIf (j : Job) (p : Prop) [Decidable p] : Job := if p then { j with state := .held } else j

@[simp] theorem Job.holdIf_id (j : Job) (p : Prop) [Decidable p] : (j.holdIf p).id = j.id := by
  unfold Job.holdIf; split <;> rfl

theorem Job.holdIf_holdIf (j : Job) (p q : Prop) [Decidable p] [Decidable q] :
    (j.holdIf p).holdIf q = j.holdIf (p ∨ q) := by
  unfold Job.holdIf
  by_cases hp : p <;> by_cases hq : q <;> simp [hp, hq]

theorem Job.holdIf_congr {j : Job} {p q : Prop} [Decidable p] [Decidable q] (h : p ↔ q) :
    j.holdIf p = j.holdIf q := if_congr h rfl rfl

theorem State.holdLane_eq (s : State) (l : LaneId) :
    s.holdLane l = (s.updLane l fun x => { x with state := .held }).setJobs
      (s.jobs.map fun j => j.holdIf ((s.lane l).current = some j.id)) := by
  unfold State.holdLane State.setLaneState State.updCurrentJob
  rw [State.lane_updLane_self]
  cases (s.lane l).current with
  | none => simp only [Job.holdIf, reduceCtorEq, if_false, List.map_id']; rfl
  | some id =>
    simp only [Job.holdIf, Option.some.injEq, State.updJob, State.updLane_jobs, eq_comm (a := id)]

/-- The units of all lanes move by what one lane's record gains or gives up. -/
theorem State.unitsHeld_updLane (s : State) (l : LaneId) (f : Lane → Lane) :
    (s.updLane l f).unitsHeld + (s.lane l).unitsHeld = s.unitsHeld + (f (s.lane l)).unitsHeld := by
  have h := sum_map_set (fun x : Lane => x.unitsHeld) s.lanes.toList l.val (by simp) (f (s.lane l))
  have hl : s.lanes.toList[l.val]'(by simp) = s.lane l := by simp [State.lane]
  rw [hl] at h
  simpa only [State.unitsHeld, State.updLane, State.setLanes_lanes, Vector.toList_set] using h

theorem State.unitsHeld_eq_zero {s : State} (h : ∀ l, (s.lane l).unitsHeld = 0) : s.unitsHeld = 0 := by
  refine List.sum_eq_zero fun n hn => ?_
  obtain ⟨x, hx, rfl⟩ := List.mem_map.1 hn
  obtain ⟨i, hi, rfl⟩ := List.mem_iff_getElem.1 hx
  simpa [State.lane] using h ⟨i, by simpa using hi⟩

/-! ### One lane -/

/-- The lanes that a fall holds: those whose pulse it cuts in TIMING and those that wait for a grant. -/
abbrev Lane.HeldAtFall (x : Lane) : Prop := x.slot = .timing ∨ x.state = .pulseWait

/-- A lane's record with its switch opened by a fall (R82). -/
def Lane.cutAtFall (x : Lane) : Lane :=
  { x with
    lvpClosed := false
    unitsHeld := 0
    timer := none
    slot := if x.slot = .granted then .cut else if x.slot = .timing then .none else x.slot }

/-- A lane's record after a fall (R86). -/
def Lane.fallen (x : Lane) : Lane :=
  if x.HeldAtFall then { x.cutAtFall with state := .held } else x.cutAtFall

theorem Lane.fallen_of_held {x : Lane} (h : x.HeldAtFall) :
    x.fallen = { x.cutAtFall with state := .held } := if_pos h

theorem Lane.fallen_of_not_held {x : Lane} (h : ¬ x.HeldAtFall) : x.fallen = x.cutAtFall := if_neg h

@[simp] theorem Lane.fallen_unitsHeld (x : Lane) : x.fallen.unitsHeld = 0 := by
  unfold Lane.fallen; split <;> rfl

theorem Lane.SwitchFollowsSlot.isOpen {x : Lane} (h : x.SwitchFollowsSlot) (hg : x.slot ≠ .granted)
    (ht : x.slot ≠ .timing) : x.lvpClosed = false ∧ x.unitsHeld = 0 ∧ x.timer = none := by
  obtain ⟨hclosed, hunits, htimer⟩ := h
  have hopen : x.lvpClosed = false := by simpa [hg, ht] using hclosed
  exact ⟨hopen, hunits hopen, by simpa [ht] using htimer⟩

theorem Lane.SwitchFollowsSlot.cutAtFall_eq {x : Lane} (h : x.SwitchFollowsSlot)
    (hg : x.slot ≠ .granted) (ht : x.slot ≠ .timing) : x.cutAtFall = x := by
  obtain ⟨hopen, hunits, htimer⟩ := h.isOpen hg ht
  unfold Lane.cutAtFall
  rw [if_neg hg, if_neg ht, ← hopen, ← hunits, ← htimer]

/-- The switch of lane `l` opened by a fall, whatever its slot was. -/
def State.cutAtFall (s : State) (l : LaneId) : State :=
  (s.setFreeUnits (s.freeUnits + (s.lane l).unitsHeld)).updLane l Lane.cutAtFall

theorem State.openSwitch_eq_cutAtFall {s : State} {l : LaneId} {v : PulseSlot}
    (h : (s.lane l).cutAtFall.slot = v) : s.openSwitch l v = s.cutAtFall l := by
  subst h; exact State.updLane_congr rfl

/-- A fall does nothing to a switch that is open. -/
theorem State.cutAtFall_of_open {s : State} {l : LaneId} (h : (s.lane l).SwitchFollowsSlot)
    (hg : (s.lane l).slot ≠ .granted) (ht : (s.lane l).slot ≠ .timing) : s.cutAtFall l = s := by
  have hlanes : s.lanes.set l (s.lane l) = s.lanes := Vector.set_getElem_self _
  unfold State.cutAtFall State.updLane
  rw [State.lane_setFreeUnits, h.cutAtFall_eq hg ht, (h.isOpen hg ht).2.1, State.setFreeUnits_lanes,
    hlanes]
  rfl

/-- Holding a lane twice is holding it once. -/
theorem State.holdLane_holdLane (s : State) (l : LaneId) : (s.holdLane l).holdLane l = s.holdLane l := by
  simp only [State.holdLane_eq, State.updLane_setJobs, State.updLane_updLane, State.lane_setJobs,
    State.lane_updLane_self, State.setJobs_jobs, List.map_map]
  refine congrArg (State.setJobs _) (List.map_congr_left fun j _ => ?_)
  exact (Job.holdIf_holdIf j _ _).trans (Job.holdIf_congr (by simp))

theorem State.fallOnLane_of_held {s : State} {l : LaneId} (h : (s.lane l).SwitchFollowsSlot)
    (hh : (s.lane l).HeldAtFall) : s.fallOnLane l = (s.cutAtFall l).holdLane l := by
  unfold State.fallOnLane
  cases hslot : (s.lane l).slot with
  | timing =>
    rw [← State.openSwitch_eq_cutAtFall (v := .none) (by simp [Lane.cutAtFall, hslot])]
    dsimp only
    split
    · exact State.holdLane_holdLane _ l
    all_goals rfl
  | granted =>
    have hwait : (s.lane l).state = .pulseWait := hh.resolve_left (by simp [hslot])
    simp only [hwait]
    rw [State.openSwitch_eq_cutAtFall (by simp [Lane.cutAtFall, hslot])]
  | none | cut =>
    have hwait : (s.lane l).state = .pulseWait := hh.resolve_left (by simp [hslot])
    simp only [hwait]
    rw [State.cutAtFall_of_open h (by simp [hslot]) (by simp [hslot])]

theorem State.fallOnLane_of_not_held {s : State} {l : LaneId} (h : (s.lane l).SwitchFollowsSlot)
    (hh : ¬ (s.lane l).HeldAtFall) : s.fallOnLane l = s.cutAtFall l := by
  obtain ⟨ht, hwait⟩ := not_or.1 hh
  unfold State.fallOnLane
  cases hslot : (s.lane l).slot with
  | timing => exact absurd hslot ht
  | granted =>
    rw [← State.openSwitch_eq_cutAtFall (v := .cut) (by simp [Lane.cutAtFall, hslot])]
    dsimp only
    split
    · contradiction
    all_goals rfl
  | none | cut =>
    rw [State.cutAtFall_of_open h (by simp [hslot]) ht]
    dsimp only
    split
    · contradiction
    all_goals rfl

/-- All that a fall does to one lane (R82, R86). -/
theorem State.fallOnLane_eq {s : State} {l : LaneId} (h : (s.lane l).SwitchFollowsSlot) :
    s.fallOnLane l =
      ((s.setFreeUnits (s.freeUnits + (s.lane l).unitsHeld)).updLane l Lane.fallen).setJobs
        (s.jobs.map fun j => j.holdIf ((s.lane l).current = some j.id ∧ (s.lane l).HeldAtFall)) := by
  by_cases hh : (s.lane l).HeldAtFall
  · rw [State.fallOnLane_of_held h hh, State.holdLane_eq, State.cutAtFall, State.updLane_updLane,
      State.lane_updLane_self]
    simp only [hh, and_true]
    exact congrArg (State.setJobs · _) (State.updLane_congr (Lane.fallen_of_held hh).symm)
  · rw [State.fallOnLane_of_not_held h hh]
    simp only [hh, and_false, Job.holdIf, if_false, List.map_id']
    exact State.updLane_congr (g := Lane.fallen) (Lane.fallen_of_not_held hh).symm

theorem State.lane_fallOnLane {s : State} {l : LaneId} (h : (s.lane l).SwitchFollowsSlot) (m : LaneId) :
    (s.fallOnLane l).lane m = if l = m then (s.lane l).fallen else s.lane m := by
  rw [State.fallOnLane_eq h, State.lane_setJobs, State.lane_updLane]; rfl

theorem State.lane_fallOnLane_ne {s : State} {l m : LaneId} (h : (s.lane l).SwitchFollowsSlot)
    (hm : l ≠ m) : (s.fallOnLane l).lane m = s.lane m := (State.lane_fallOnLane h m).trans (if_neg hm)

/-! ### A run of lanes -/

/-- `t` is `s` after a fall on the lanes of `ls`: their records and jobs, and the units they returned. -/
structure State.FellOn (s t : State) (ls : List LaneId) : Prop where
  lanes : ∀ m, t.lane m = if m ∈ ls then (s.lane m).fallen else s.lane m
  jobs : t.jobs = s.jobs.map fun j =>
    j.holdIf (∃ l ∈ ls, (s.lane l).current = some j.id ∧ (s.lane l).HeldAtFall)
  units : t.freeUnits + t.unitsHeld = s.freeUnits + s.unitsHeld

/-- What a fall does to one lane and then to lanes without it, it does to all of them. -/
theorem State.FellOn.cons {s t : State} {l : LaneId} {ls : List LaneId} (hl : l ∉ ls)
    (h : (s.lane l).SwitchFollowsSlot) (ht : (s.fallOnLane l).FellOn t ls) : s.FellOn t (l :: ls) := by
  obtain ⟨hlanes, hjobs, hunits⟩ := ht
  have hother : ∀ m ∈ ls, (s.fallOnLane l).lane m = s.lane m := fun m hm =>
    State.lane_fallOnLane_ne h (ne_of_mem_of_not_mem hm hl).symm
  constructor
  case lanes =>
    intro m
    rw [hlanes, State.lane_fallOnLane h]
    by_cases hlm : l = m
    · subst hlm; simp [hl]
    · simp [hlm, Ne.symm hlm]
  case jobs =>
    rw [hjobs, State.fallOnLane_eq h, State.setJobs_jobs, List.map_map]
    refine List.map_congr_left fun j _ => ?_
    refine (Job.holdIf_holdIf j _ _).trans (Job.holdIf_congr ?_)
    rw [Job.holdIf_id, List.exists_mem_cons_iff]
    refine or_congr_right (exists_congr fun m => and_congr_right fun hm => ?_)
    rw [← State.fallOnLane_eq h, hother m hm]
  case units =>
    rw [hunits, State.fallOnLane_eq h]
    have hmoved := State.unitsHeld_updLane s l Lane.fallen
    rw [Lane.fallen_unitsHeld] at hmoved
    show s.freeUnits + (s.lane l).unitsHeld + (s.updLane l Lane.fallen).unitsHeld = _
    omega

theorem State.FellOn.setGrantQueue {s t : State} {ls : List LaneId} (h : s.FellOn t ls)
    (v : List GrantEntry) : s.FellOn (t.setGrantQueue v) ls := ⟨h.lanes, h.jobs, h.units⟩

theorem State.foldl_fallOnLane {ls : List LaneId} (hn : ls.Nodup) (s : State)
    (h : ∀ l ∈ ls, (s.lane l).SwitchFollowsSlot) : s.FellOn (ls.foldl State.fallOnLane s) ls := by
  induction ls generalizing s with
  | nil => exact ⟨fun m => by simp, by simp [Job.holdIf], rfl⟩
  | cons l ls ih =>
    obtain ⟨hl, hls⟩ := List.nodup_cons.1 hn
    have hfirst := h l List.mem_cons_self
    refine .cons hl hfirst (ih hls _ fun m hm => ?_)
    rw [State.lane_fallOnLane_ne hfirst (ne_of_mem_of_not_mem hm hl).symm]
    exact h m (List.mem_cons_of_mem l hm)

/-- A fall on every lane, from the first to the last. -/
theorem State.fallOnLanes_fellOn (s : State) (h : ∀ l, (s.lane l).SwitchFollowsSlot) :
    s.FellOn s.fallOnLanes (List.finRange 8) :=
  (State.foldl_fallOnLane (List.nodup_finRange 8) s fun l _ => h l).setGrantQueue []

/-! ### The supply -/

/-- After a fall on every lane no lane holds a unit: all are free (R86). -/
theorem State.FellOn.freeUnits {s t : State} (h : s.FellOn t (List.finRange 8)) :
    t.freeUnits = s.freeUnits + s.unitsHeld := by
  rw [← h.units, State.unitsHeld_eq_zero (s := t) fun l => ?_, Nat.add_zero]
  rw [h.lanes, if_pos (List.mem_finRange l), Lane.fallen_unitsHeld]

theorem State.psupFallTaken_eq {s : State} (h : s.supply.state ≠ .down) :
    s.psupFallTaken = s.supplyFalls := by
  unfold State.psupFallTaken
  split
  · rfl
  · rfl
  · next hd => exact absurd hd h

/-- The supply of a fall: DOWN, one episode more, the pin low. -/
def State.supplyDown (s : State) : State :=
  s.setSupply { state := .down, episodes := s.supply.episodes + 1, psupOk := false }

theorem State.supplyFalls_eq (s : State) :
    (s.setPsupOk false).supplyFalls = s.supplyDown.fallOnLanes.offerSupplyNotice := rfl

end Sys2Proof.Machine

open Sys2Proof.Machine

/-- Settles O44: the lanes fall one after another, each for itself, and the sum of free and held units
stays while every lane ends with none. -/
theorem fallHoldsTheLanes : Obligations.FallHoldsTheLanes := by
  intro s hready hup hsafe
  have hexec : exec .psupOkFall s = .next (s.setPsupOk false).supplyFalls.transmit := by
    rw [exec_psupOkFall_of_ready hready, State.psupFallTaken_eq (s := s.setPsupOk false) hup]
  have hchanges : s.OnlyChanges (s.setPsupOk false).supplyFalls
      [.supply, .grantQueue, .freeUnits, .lanes, .jobs, .outbox] :=
    ((s.setSupply_onlyChanges _).mono (by decide)).trans
      ((State.supplyFalls_onlyChanges _).mono (by decide))
  have hfell := State.fallOnLanes_fellOn s.supplyDown hsafe
  have hframe := s.supplyDown.fallOnLanes_onlyChanges
  have hqueue : s.supplyDown.fallOnLanes.grantQueue = [] := rfl
  refine ⟨_, hexec, ?_⟩
  rw [State.supplyFalls_eq] at hchanges ⊢
  generalize s.supplyDown.fallOnLanes = t at hchanges hfell hframe hqueue ⊢
  have hsupply : t.supply = s.supplyDown.supply := hframe .supply (by decide)
  have houtbox : t.outbox = s.outbox := hframe .outbox (by decide)
  refine ⟨hsupply, hqueue, hfell.freeUnits, fun l => ?lane, ?jobs, ?notice, hchanges⟩
  case lane => exact (hfell.lanes l).trans (if_pos (List.mem_finRange l))
  case jobs =>
    refine hfell.jobs.trans (List.map_congr_left fun j _ => if_congr ?_ rfl rfl)
    simp only [List.mem_finRange, true_and]
    rfl
  case notice =>
    show t.outbox.offerSupply ⟨t.supply.state, t.supply.episodes⟩ = _
    rw [houtbox, hsupply]
    rfl
end

section
/-! PROOF. The host link: SIGN-ON (R177), a tag above the table (R168), and the CRC (R160). -/

namespace Sys2Proof.Machine

/-! ### Requests and tags -/

/-- The fields of SIGN-ON do not see that the frame was heard and its tag taken. -/
theorem State.signOnFields_heard_setTagEntry (s : State) (t : Fin 16) (e : TagEntry) :
    (s.heard.setTagEntry t e).signOnFields = s.signOnFields := rfl

theorem State.dispatch_of_tag_above {f : Frame} (h : 16 ≤ f.tag.toNat) (s : State) :
    s.dispatch f = s.placeReply (replyFrame f.kind f.tag .badField []) := by
  rw [State.dispatch, tagIndex?_none h]

/-! ### The CRC -/

/-- One bit into the register, as R160 words it: the bit against the register's top bit. -/
theorem crcBit_eq (r : Word16) (b : Bool) :
    crcBit r b = if r.getLsbD 15 = b then r <<< 1 else (r <<< 1) ^^^ 0x1021#16 := by
  have htop : r.msb = r.getLsbD 15 := BitVec.msb_eq_getLsbD_last r
  simp [crcBit, htop]

theorem crc16_append_singleton (bs : List Byte) (b : Byte) :
    crc16 (bs ++ [b]) = crcByte (crc16 bs) b := by
  simp [crc16]

/-! ### Numbers in two bytes, and the parts of a frame -/

theorem ofBe_be16 {n : Nat} (h : n < 65536) : ofBe (be16 n) = n := by
  simp only [ofBe, be16, byte, List.foldl_cons, List.foldl_nil, BitVec.toNat_ofNat]
  omega

theorem Frame.covered_length (f : Frame) : f.covered.length = 4 + f.payload.length := by
  simp only [Frame.covered, be16, List.length_append, List.length_cons, List.length_nil]
  omega

/-- Behind the start byte stand the covered bytes. -/
theorem Frame.take_bytes (f : Frame) : (f.bytes.drop 1).take (4 + f.payload.length) = f.covered :=
  List.take_left' f.covered_length

/-- Behind the covered bytes stands the CRC. -/
theorem Frame.drop_bytes (f : Frame) : f.bytes.drop (5 + f.payload.length) = be16 f.crc.toNat := by
  have hlen : (0xA5 :: f.covered).length = 5 + f.payload.length := by
    rw [List.length_cons, f.covered_length]; omega
  exact List.drop_left' hlen

end Sys2Proof.Machine

open Sys2Proof Sys2Proof.Machine

/-- Settles O14: SIGN-ON reads the epoch, which hearing the frame leaves, and changes no field. -/
theorem signOnReplies : Obligations.SignOnReplies := by
  intro s t h
  have hj : carryOut .signOn t (byte t.val) (requestFrame .signOn t []).digest []
      (s.heard.setTagEntry t (.inFlight (requestFrame .signOn t []).digest)) =
      .replied .ok s.signOnFields
        (s.heard.setTagEntry t (.inFlight (requestFrame .signOn t []).digest)) := by
    rw [carryOut, takeSignOn, State.signOnFields_heard_setTagEntry]
  exact h.exec_eq rfl (by decide) rfl hj rfl rfl rfl

/-- Settles O18: Dispatch finds no entry for the tag and only places the refusal. -/
theorem tagAboveTheTableIsRefused : Obligations.TagAboveTheTableIsRefused := by
  intro s kind tag p htag hp hs
  have hd : s.heard.dispatch ⟨kind, tag, p⟩ = s.heard.placeReply (replyFrame kind tag .badField []) :=
    State.dispatch_of_tag_above htag s.heard
  rw [exec_frame_of_ready rfl hs hp]
  exact congrArg Host.Outcome.next
    (State.frameArrives_placeReply (s := s.lineHigh) hs.2 hd rfl rfl rfl)

/-- Settles O26, from one bit of the register to the whole frame and the block. -/
theorem crcIsTheSpecs : Obligations.CrcIsTheSpecs := by
  refine ⟨by decide +kernel, rfl, fun bs b => ?byte, fun f => rfl, fun f _ => ?frame, fun b => rfl⟩
  case byte =>
    rw [crc16_append_singleton]
    simp only [crcByte, crcBit_eq]
  case frame =>
    rw [f.drop_bytes, f.take_bytes, ofBe_be16 (BitVec.isLt _), Frame.crc]
end

section
/-! PROOF. The Report Outbox by itself: what each of its operations does to a record list that is split at the
record it changes, and that each keeps the laws of the outbox (R194 to R197, R202 to R210). -/

-- One proof after another: a thread for each of them would take too much memory.
set_option Elab.async false

namespace Sys2Proof.Machine

/-! ### Changing one element of a list -/

theorem updateFirst_append {α : Type} {p : α → Bool} {f : α → α} {ahead behind : List α} {x : α}
    (hahead : ∀ y ∈ ahead, p y = false) (hx : p x = true) :
    updateFirst p f (ahead ++ x :: behind) = ahead ++ f x :: behind := by
  induction ahead with
  | nil => simp [updateFirst, hx]
  | cons y ys ih =>
    have hy : p y = false := hahead y List.mem_cons_self
    simp [updateFirst, hy, ih fun z hz => hahead z (List.mem_cons_of_mem y hz)]

theorem updateLast_append {α : Type} {p : α → Bool} {f : α → α} {ahead behind : List α} {x : α}
    (hx : p x = true) (hbehind : ∀ y ∈ behind, p y = false) :
    updateLast p f (ahead ++ x :: behind) = ahead ++ f x :: behind := by
  induction ahead with
  | nil =>
    have hany : behind.any p = false := List.any_eq_false.2 fun y hy => by simp [hbehind y hy]
    simp [updateLast, hany, hx]
  | cons y ys ih =>
    have hany : (ys ++ x :: behind).any p = true := List.any_eq_true.2 ⟨x, by simp, hx⟩
    simp only [List.cons_append, updateLast, hany, if_true, ih]

/-- A list with an element for which `p` holds, split at the first of them. -/
theorem exists_first_of_any {α : Type} {p : α → Bool} {xs : List α} (h : xs.any p = true) :
    ∃ ahead x behind, xs = ahead ++ x :: behind ∧ (∀ y ∈ ahead, p y = false) ∧ p x = true := by
  obtain ⟨x, hx⟩ := Option.isSome_iff_exists.1 ((List.find?_isSome.2 (List.any_eq_true.1 h)))
  obtain ⟨hp, ahead, behind, rfl, hahead⟩ := List.find?_eq_some_iff_append.1 hx
  exact ⟨ahead, x, behind, rfl, fun y hy => by simpa using hahead y hy, hp⟩

/-- A list with an element for which `p` holds, split at the last of them. -/
theorem exists_last_of_any {α : Type} {p : α → Bool} {xs : List α} (h : xs.any p = true) :
    ∃ ahead x behind, xs = ahead ++ x :: behind ∧ p x = true ∧ ∀ y ∈ behind, p y = false := by
  obtain ⟨ahead, x, behind, hxs, hahead, hx⟩ :=
    exists_first_of_any (p := p) (xs := xs.reverse) (by simpa using h)
  refine ⟨behind.reverse, x, ahead.reverse, ?_, hx, fun y hy => hahead y (List.mem_reverse.1 hy)⟩
  rw [← List.reverse_reverse xs, hxs]
  simp

/-! ### Consecutive numbers (R195) -/

/-- The numbers of a record list are consecutive when each follows the one before it and the next number
follows the last. -/
theorem consecutive_iff (rs : List Report) (n : Byte) :
    consecutive rs n ↔
      rs.IsChain (fun r q => r.seq + 1 = q.seq) ∧ ∀ r ∈ rs.getLast?, r.seq + 1 = n := by
  induction rs with
  | nil => simp [consecutive]
  | cons r rs ih =>
    cases rs with
    | nil => simp [consecutive]
    | cons q rs => simp only [consecutive, ih, List.isChain_cons_cons, List.getLast?_cons_cons, and_assoc]

theorem consecutive_congr {rs qs : List Report} (h : rs.map Report.seq = qs.map Report.seq) (n : Byte) :
    consecutive rs n ↔ consecutive qs n := by
  have hlast := congrArg List.getLast? h
  have hmap : ∀ xs : List Report, xs.IsChain (fun r q => r.seq + 1 = q.seq) ↔
      (xs.map Report.seq).IsChain (fun a b => a + 1 = b) := fun xs => by rw [List.isChain_map]
  rw [List.getLast?_map, List.getLast?_map] at hlast
  have hseq : ∀ xs : List Report, (∀ r ∈ xs.getLast?, r.seq + 1 = n) ↔
      ∀ m ∈ xs.getLast?.map Report.seq, m + 1 = n := fun xs => by
    cases xs.getLast? <;> simp
  rw [consecutive_iff, consecutive_iff, hmap, hmap, h, hseq, hseq, hlast]

theorem consecutive_append_singleton {rs : List Report} {n : Byte} (h : consecutive rs n) {r : Report}
    (hr : r.seq = n) : consecutive (rs ++ [r]) (n + 1) := by
  obtain ⟨hchain, hlast⟩ := (consecutive_iff rs n).1 h
  refine (consecutive_iff _ _).2 ⟨List.isChain_append.2 ⟨hchain, .singleton r, ?_⟩, by simp [hr]⟩
  intro q hq x hx
  obtain rfl : r = x := by simpa using hx
  rw [hr]
  exact hlast q hq

theorem consecutive_of_append {rs qs : List Report} {n : Byte} (h : consecutive (rs ++ qs) n) :
    consecutive qs n := by
  obtain ⟨hchain, hlast⟩ := (consecutive_iff _ n).1 h
  refine (consecutive_iff _ _).2 ⟨(List.isChain_append.1 hchain).2.1, fun r hr => hlast r ?_⟩
  simp [List.getLast?_append, Option.mem_def.1 hr]

/-! ### The laws apart from the waiting lanes -/

/-- The laws of the outbox but the one about the waiting lanes, which an acknowledgement breaks until the
freed entries are given away. -/
def Outbox.Sound (o : Outbox) : Prop := { o with waitingLanes := [] }.Lawful

theorem Outbox.Lawful.sound {o : Outbox} (h : o.Lawful) : o.Sound :=
  ⟨h.size, h.general, h.window, h.oneUnsentSupply, h.owed, h.numbers, h.order, h.marks, h.rounds,
    fun hn => absurd rfl hn⟩

theorem Outbox.Sound.lawful {o : Outbox} (h : o.Sound) (hw : o.waitingLanes ≠ [] → o.freeGeneral = 0) :
    o.Lawful :=
  ⟨h.size, h.general, h.window, h.oneUnsentSupply, h.owed, h.numbers, h.order, h.marks, h.rounds, hw⟩

/-- The laws apart from the waiting lanes say nothing of the timer, the stall and the waiting lanes. -/
theorem Outbox.Sound.congr {o p : Outbox} (h : o.Sound) (hr : p.records = o.records)
    (hn : p.nextSeq = o.nextSeq) (hro : p.round = o.round) (ho : p.owed = o.owed) : p.Sound := by
  obtain ⟨records, nextSeq, round, timer, stalled, owed, waitingLanes⟩ := p
  cases hr; cases hn; cases hro; cases ho
  exact ⟨h.size, h.general, h.window, h.oneUnsentSupply, h.owed, h.numbers, h.order, h.marks, h.rounds,
    fun hn => absurd rfl hn⟩

theorem Outbox.freeGeneral_pos {o : Outbox} :
    0 < o.freeGeneral ↔ o.records.length < 16 ∧ o.general < 15 := by
  simp only [Outbox.freeGeneral, Config.outboxSize, Config.outboxGeneral]; omega

/-! ### Enqueueing -/

theorem Outbox.general_enqueue (o : Outbox) (b : ReportBody) :
    (o.enqueue b).general =
      o.general + if (Report.isSupply ⟨b, o.nextSeq, false, false⟩) then 0 else 1 := by
  simp only [Outbox.general, Outbox.enqueue, List.countP_append, List.countP_singleton]
  split <;> simp_all

theorem Outbox.unsentSupply_enqueue (o : Outbox) (b : ReportBody) :
    (o.enqueue b).unsentSupply =
      o.unsentSupply + if (Report.isSupply ⟨b, o.nextSeq, false, false⟩) then 1 else 0 := by
  simp only [Outbox.unsentSupply, Outbox.enqueue, List.countP_append, List.countP_singleton]
  split <;> simp_all

/-- A record joins the tail: a SUPPLY record while none is untransmitted and none is owed, a general one
while a general entry is free. -/
theorem Outbox.Sound.enqueue {o : Outbox} (h : o.Sound) {b : ReportBody} (hsize : o.records.length < 16)
    (hsupply : Report.isSupply ⟨b, o.nextSeq, false, false⟩ = true → o.unsentSupply = 0 ∧ o.owed = none)
    (hgeneral : Report.isSupply ⟨b, o.nextSeq, false, false⟩ = false → o.general < 15) :
    (o.enqueue b).Sound := by
  have hg := o.general_enqueue b
  have hu := o.unsentSupply_enqueue b
  have hcount : o.general ≤ 15 := h.general
  have hunsent : o.unsentSupply ≤ 1 := h.oneUnsentSupply
  have howed : o.owed.isSome = true → o.unsentSupply = 0 := h.owed
  constructor
  case size => simpa [Outbox.enqueue] using hsize
  case general =>
    show (o.enqueue b).general ≤ 15
    rw [hg]; split <;> simp_all
  case window =>
    have hw : o.transmittedCount ≤ 4 := h.window
    simpa [Outbox.transmittedCount, Outbox.enqueue, List.countP_append] using hw
  case oneUnsentSupply =>
    show (o.enqueue b).unsentSupply ≤ 1
    rw [hu]; split <;> simp_all
  case owed =>
    show o.owed.isSome = true → (o.enqueue b).unsentSupply = 0
    intro hs
    rw [hu]; split <;> simp_all
  case numbers => exact consecutive_append_singleton h.numbers rfl
  case order =>
    refine List.pairwise_append.2 ⟨h.order, List.pairwise_singleton _ _, fun r _ q hq => ?_⟩
    obtain rfl := List.mem_singleton.1 hq
    exact ⟨by simp, by simp⟩
  case marks =>
    intro r hr
    rcases List.mem_append.1 hr with hr | hr
    · exact h.marks r hr
    · obtain rfl := List.mem_singleton.1 hr
      simp
  case rounds => exact h.rounds
  case waiting => exact fun hn => absurd rfl hn

/-- Enqueueing frees no entry. -/
theorem Outbox.freeGeneral_enqueue_le (o : Outbox) (b : ReportBody) :
    (o.enqueue b).freeGeneral ≤ o.freeGeneral := by
  have hg := o.general_enqueue b
  have hl : (o.enqueue b).records.length = o.records.length + 1 := by simp [Outbox.enqueue]
  simp only [Outbox.freeGeneral, hg, hl]
  omega

theorem Outbox.Sound.enqueue_general {o : Outbox} (h : o.Sound) {b : ReportBody}
    (hroom : 0 < o.freeGeneral) (hb : Report.isSupply ⟨b, o.nextSeq, false, false⟩ = false) :
    (o.enqueue b).Sound :=
  h.enqueue (Outbox.freeGeneral_pos.1 hroom).1 (by simp [hb]) fun _ => (Outbox.freeGeneral_pos.1 hroom).2

theorem Outbox.Lawful.enqueue {o : Outbox} (h : o.Lawful) {b : ReportBody} (hs : (o.enqueue b).Sound) :
    (o.enqueue b).Lawful :=
  hs.lawful fun hw => Nat.le_zero.1 ((o.freeGeneral_enqueue_le b).trans (h.waiting hw).le)

/-! ### Changing one record -/

/-- One record is replaced by another of its sort and number. -/
theorem Outbox.Sound.replace {o : Outbox} (h : o.Sound) {ahead behind : List Report} {r r' : Report}
    (hr : o.records = ahead ++ r :: behind) (hseq : r'.seq = r.seq) (hsup : r'.isSupply = r.isSupply)
    (hsent : r.transmitted = true → r'.transmitted = true)
    (hwindow : r'.transmitted = true → r.transmitted = true ∨ o.transmittedCount < 4)
    (hbefore : ∀ q ∈ ahead, q.mayPrecede r') (hafter : ∀ q ∈ behind, r'.mayPrecede q)
    (hmark : r'.mark = true → r'.transmitted = true) :
    { o with records := ahead ++ r' :: behind }.Sound := by
  obtain ⟨records, nextSeq, round, timer, stalled, owed, waitingLanes⟩ := o
  subst hr
  obtain ⟨hsize, hgeneral, hwin, hone, howed, hnum, horder, hmarks, hrounds, -⟩ := h
  have hunsent : Outbox.unsentSupply
      ⟨ahead ++ r' :: behind, nextSeq, round, timer, stalled, owed, []⟩ ≤
      Outbox.unsentSupply ⟨ahead ++ r :: behind, nextSeq, round, timer, stalled, owed, []⟩ := by
    simp only [Outbox.unsentSupply, List.countP_append, List.countP_cons, hsup]
    cases hp : r.transmitted with
    | true => simp [hsent hp]
    | false => cases r'.transmitted <;> simp
  obtain ⟨horderA, horderB, horderAB⟩ := List.pairwise_append.1 horder
  constructor
  case size => simpa using hsize
  case general =>
    simp only [Outbox.general, List.countP_append, List.countP_cons, hsup] at hgeneral ⊢
    exact hgeneral
  case window =>
    simp only [Outbox.transmittedCount, List.countP_append, List.countP_cons, Config.window]
      at hwin hwindow ⊢
    cases hp : r'.transmitted with
    | false => simp only [Bool.false_eq_true, if_false]; omega
    | true =>
      rcases hwindow hp with hq | hq
      · simpa [hq] using hwin
      · simp only [if_true]; omega
  case oneUnsentSupply => exact hunsent.trans hone
  case owed => exact fun hs => Nat.le_zero.1 (hunsent.trans (howed hs).le)
  case numbers => exact (consecutive_congr (by simp [hseq]) _).2 hnum
  case order =>
    refine List.pairwise_append.2 ⟨horderA, List.pairwise_cons.2 ⟨hafter, (List.pairwise_cons.1 horderB).2⟩,
      fun q hq p hp => ?_⟩
    rcases List.mem_cons.1 hp with rfl | hp
    · exact hbefore q hq
    · exact horderAB q hq p (List.mem_cons_of_mem r hp)
  case marks =>
    intro q hq
    rcases List.mem_append.1 hq with hq' | hq'
    · exact hmarks q (List.mem_append_left _ hq')
    · rcases List.mem_cons.1 hq' with rfl | hq''
      · exact hmark
      · exact hmarks q (List.mem_append_right _ (List.mem_cons_of_mem r hq''))
  case rounds => exact hrounds
  case waiting => exact fun hn => absurd rfl hn

/-- A change of one record leaves the free entries as they are. -/
theorem Outbox.freeGeneral_replace {o : Outbox} {ahead behind : List Report} {r r' : Report}
    (hr : o.records = ahead ++ r :: behind) (hsup : r'.isSupply = r.isSupply) :
    { o with records := ahead ++ r' :: behind }.freeGeneral = o.freeGeneral := by
  simp only [Outbox.freeGeneral, Outbox.general, hr, List.length_append, List.length_cons,
    List.countP_append, List.countP_cons, hsup]

/-- The neighbours of a record in a lawful outbox. -/
theorem Outbox.Sound.neighbours {o : Outbox} (h : o.Sound) {ahead behind : List Report} {r : Report}
    (hr : o.records = ahead ++ r :: behind) :
    (∀ q ∈ ahead, q.mayPrecede r) ∧ ∀ q ∈ behind, r.mayPrecede q := by
  have horder := h.order
  simp only [hr] at horder
  obtain ⟨-, hB, hAB⟩ := List.pairwise_append.1 horder
  exact ⟨fun q hq => hAB q hq r List.mem_cons_self, (List.pairwise_cons.1 hB).1⟩

/-- A record's fields are replaced by others of its sort: number and marks stay. -/
theorem Outbox.Lawful.replace_body {o : Outbox} (h : o.Lawful) {ahead behind : List Report} {r : Report}
    (hr : o.records = ahead ++ r :: behind) {b : ReportBody}
    (hb : Report.isSupply { r with body := b } = r.isSupply) :
    { o with records := ahead ++ { r with body := b } :: behind }.Lawful := by
  obtain ⟨hbefore, hafter⟩ := h.sound.neighbours hr
  have hmem : r ∈ o.records := hr ▸ List.mem_append_right _ List.mem_cons_self
  refine Outbox.Sound.lawful (h.sound.replace hr rfl hb id (fun ht => .inl ht) hbefore hafter
    (h.marks r hmem)) fun hw => ?_
  rw [Outbox.freeGeneral_replace hr hb]
  exact h.waiting hw

/-! ### Taking a record (R202) -/

/-- All that taking a record can do: the first marked record loses its mark, or within the window and with
no mark set the first untransmitted record becomes transmitted. -/
theorem Outbox.take?_some {o o' : Outbox} {r : Report} (h : o.take? = some (r, o')) :
    ∃ ahead behind, o.records = ahead ++ r :: behind ∧ o.stalled = false ∧
      ((r.mark = true ∧ (∀ q ∈ ahead, q.mark = false) ∧
          o' = { o with records := ahead ++ { r with mark := false } :: behind }) ∨
        ((∀ q ∈ o.records, q.mark = false) ∧ o.transmittedCount < 4 ∧ r.transmitted = false ∧
          (∀ q ∈ ahead, q.transmitted = true) ∧
          o' = { o with records := ahead ++ { r with transmitted := true } :: behind })) := by
  unfold Outbox.take? at h
  cases hst : o.stalled with
  | true => simp [hst] at h
  | false =>
    simp only [hst, Bool.false_eq_true, if_false] at h
    split at h
    · next q hq =>
      obtain ⟨hm, ahead, behind, hrec, hahead⟩ := List.find?_eq_some_iff_append.1 hq
      have hunmarked : ∀ y ∈ ahead, y.mark = false := fun y hy => by simpa using hahead y hy
      obtain ⟨rfl, rfl⟩ := Prod.mk.inj (Option.some.inj h)
      refine ⟨ahead, behind, hrec, rfl, .inl ⟨hm, hunmarked, ?_⟩⟩
      rw [hrec, updateFirst_append hunmarked hm]
    · next hnone =>
      split at h
      · next hwindow =>
        split at h
        · next q hq =>
          obtain ⟨hf, ahead, behind, hrec, hahead⟩ := List.find?_eq_some_iff_append.1 hq
          have hsent : ∀ y ∈ ahead, (!y.transmitted) = false := fun y hy => by
            simpa using hahead y hy
          obtain ⟨rfl, rfl⟩ := Prod.mk.inj (Option.some.inj h)
          refine ⟨ahead, behind, hrec, rfl, .inr ⟨?_, hwindow, by simpa using hf, ?_, ?_⟩⟩
          · exact fun y hy => by simpa using List.find?_eq_none.1 hnone y hy
          · exact fun y hy => by simpa using hsent y hy
          · rw [hrec, updateFirst_append hsent hf]
        · exact absurd h (by simp)
      · exact absurd h (by simp)

theorem Outbox.Lawful.take? {o o' : Outbox} {r : Report} (h : o.Lawful) (ht : o.take? = some (r, o')) :
    o'.Lawful ∧ o'.waitingLanes = o.waitingLanes := by
  have hfree : ∀ {ahead behind : List Report} (r' : Report), o.records = ahead ++ r :: behind →
      r'.isSupply = r.isSupply → o.waitingLanes ≠ [] →
      { o with records := ahead ++ r' :: behind }.freeGeneral = 0 := fun r' hrec hsup hw =>
    (Outbox.freeGeneral_replace hrec hsup).trans (h.waiting hw)
  obtain ⟨ahead, behind, hrec, -, htaken⟩ := Outbox.take?_some ht
  obtain ⟨hbefore, hafter⟩ := h.sound.neighbours hrec
  have hmem : r ∈ o.records := hrec ▸ List.mem_append_right _ List.mem_cons_self
  rcases htaken with ⟨hm, hunmarked, rfl⟩ | ⟨hunmarked, hwindow, hr, hsent, rfl⟩
  · refine ⟨Outbox.Sound.lawful (h.sound.replace hrec rfl rfl id .inl (fun q hq => ?_) (fun q hq => ?_)
      (by simp)) (hfree _ hrec rfl), rfl⟩
    · exact ⟨(hbefore q hq).1, fun _ hq' => by simp [hunmarked q hq] at hq'⟩
    · exact ⟨(hafter q hq).1, by simp⟩
  · refine ⟨Outbox.Sound.lawful (h.sound.replace hrec rfl rfl (fun _ => rfl) (fun _ => .inr hwindow)
      (fun q hq => ?_) (fun q hq => ?_) (fun _ => rfl)) (hfree _ hrec rfl), rfl⟩
    · exact ⟨fun _ => hsent q hq, fun _ hm => by
        rw [hunmarked q (hrec ▸ List.mem_append_left _ hq)] at hm; cases hm⟩
    · exact ⟨fun _ => rfl, fun _ hm => by rw [hunmarked r hmem] at hm; cases hm⟩

/-! ### Offers (R199, R200) -/

theorem Outbox.Lawful.offerProgress {o : Outbox} (h : o.Lawful) (id : Nat) (l : LaneId) (done : Nat) :
    (o.offerProgress id l done).Lawful := by
  unfold Outbox.offerProgress
  simp only
  split
  · next hany =>
    obtain ⟨ahead, r, behind, hrec, hr, hbehind⟩ := exists_last_of_any hany
    rw [hrec, updateLast_append (p := fun r : Report => !r.transmitted && r.isProgressOf id) hr hbehind]
    refine h.replace_body hrec ?_
    unfold Report.isProgressOf at hr
    unfold Report.isSupply
    cases hb : r.body <;> simp_all
  · split
    · next hfree => exact h.enqueue (h.sound.enqueue_general (Nat.lt_of_lt_of_le (by decide) hfree) rfl)
    · exact h

theorem Outbox.Lawful.offerSupply {o : Outbox} (h : o.Lawful) (n : Notice) : (o.offerSupply n).Lawful := by
  unfold Outbox.offerSupply
  simp only
  split
  · next hany =>
    obtain ⟨ahead, r, behind, hrec, hahead, hr⟩ := exists_first_of_any hany
    rw [hrec, updateFirst_append hahead hr]
    refine h.replace_body hrec ?_
    simp only [Bool.and_eq_true] at hr
    rw [hr.2]; rfl
  · next hnone =>
    have hunsent : o.unsentSupply = 0 := List.countP_eq_zero.2 fun r hr => by
      simpa using List.any_eq_false.1 (Bool.eq_false_iff.2 hnone) r hr
    have howe : { o with owed := some n }.Lawful :=
      ⟨h.size, h.general, h.window, h.oneUnsentSupply, fun _ => hunsent, h.numbers, h.order, h.marks,
        h.rounds, h.waiting⟩
    split
    · exact howe
    · next hnotOwed =>
      split
      · next hfree =>
        refine h.enqueue (h.sound.enqueue (by simpa [Outbox.hasFreeEntry] using hfree)
          (fun _ => ⟨hunsent, by simpa using hnotOwed⟩) fun hb => absurd hb (by simp [Report.isSupply]))
      · exact howe

/-- The owed notice takes a freed entry (R198 step 1). -/
theorem Outbox.Sound.serveOwed {o : Outbox} (h : o.Sound) : o.serveOwed.Sound := by
  unfold Outbox.serveOwed
  split
  · next n hn =>
    split
    · next hfree =>
      have hunsent : o.unsentSupply = 0 := h.owed (by simp [hn])
      have hnone : { o with owed := none }.Sound :=
        ⟨h.size, h.general, h.window, h.oneUnsentSupply, by simp, h.numbers, h.order, h.marks, h.rounds,
          by simp⟩
      exact hnone.enqueue (b := .supply n) (by simpa [Outbox.hasFreeEntry] using hfree)
        (fun _ => ⟨hunsent, rfl⟩) fun hb => absurd hb (by simp [Report.isSupply])
    · exact h
  · exact h

/-! ### Marks (R204, R206) -/

@[simp] theorem Report.markIfTransmitted_seq (r : Report) : r.markIfTransmitted.seq = r.seq := by
  unfold Report.markIfTransmitted; split <;> rfl
@[simp] theorem Report.markIfTransmitted_body (r : Report) : r.markIfTransmitted.body = r.body := by
  unfold Report.markIfTransmitted; split <;> rfl
@[simp] theorem Report.markIfTransmitted_transmitted (r : Report) :
    r.markIfTransmitted.transmitted = r.transmitted := by
  unfold Report.markIfTransmitted; split <;> rfl
@[simp] theorem Report.markIfTransmitted_isSupply (r : Report) :
    r.markIfTransmitted.isSupply = r.isSupply := by
  unfold Report.markIfTransmitted; split <;> rfl

theorem Report.markIfTransmitted_mark (r : Report) :
    r.markIfTransmitted.mark = (r.mark || r.transmitted) := by
  unfold Report.markIfTransmitted
  cases h : r.transmitted <;> simp

/-- Every transmitted record is marked: no law notices but that of the round count. -/
theorem Outbox.Lawful.markAll {o : Outbox} (h : o.Lawful) {round : Nat} (hround : round ≤ 4)
    (timer : Option Nat) (stalled : Bool) :
    { o with
      records := o.records.map Report.markIfTransmitted
      round := round
      timer := timer
      stalled := stalled }.Lawful := by
  obtain ⟨hsize, hgeneral, hwindow, hone, howed, hnum, horder, hmarks, -, hwaiting⟩ := h
  have hcount : ∀ p : Report → Bool, (∀ r : Report, p r.markIfTransmitted = p r) →
      (o.records.map Report.markIfTransmitted).countP p = o.records.countP p := fun p hp => by
    rw [List.countP_map]; exact congrArg (List.countP · _) (funext hp)
  have hgen : (o.records.map Report.markIfTransmitted).countP (fun r => !r.isSupply) = o.general :=
    hcount _ (by simp)
  have hunsent : (o.records.map Report.markIfTransmitted).countP
      (fun r => !r.transmitted && r.isSupply) = o.unsentSupply := hcount _ (by simp)
  constructor
  case size => simpa using hsize
  case general => exact hgen.trans_le hgeneral
  case window => exact (hcount (fun r => r.transmitted) (by simp)).trans_le hwindow
  case oneUnsentSupply => exact hunsent.trans_le hone
  case owed => exact fun hs => hunsent.trans (howed hs)
  case numbers =>
    refine (consecutive_congr ?_ _).2 hnum
    simp [Function.comp_def]
  case order =>
    refine List.pairwise_map.2 (horder.imp fun {r q} hrq => ⟨by simpa using hrq.1, fun hq _ => ?_⟩)
    rw [Report.markIfTransmitted_transmitted] at hq
    simp [Report.markIfTransmitted_mark, hq]
  case marks =>
    intro q hq hm
    obtain ⟨r, hr, rfl⟩ := List.mem_map.1 hq
    rw [Report.markIfTransmitted_mark] at hm
    rw [Report.markIfTransmitted_transmitted]
    cases ht : r.transmitted
    · exact ht ▸ hmarks r hr (by simpa [ht] using hm)
    · rfl
  case rounds => exact hround
  case waiting =>
    intro hw
    have := hwaiting hw
    simp only [Outbox.freeGeneral, Outbox.general, List.length_map] at this hgen ⊢
    rwa [hgen]

theorem Outbox.Lawful.endStall {o : Outbox} (h : o.Lawful) : o.endStall.Lawful := by
  unfold Outbox.endStall
  split
  · exact h.markAll (Nat.zero_le 4) o.timer false
  · exact h

theorem Outbox.Lawful.congr_timer {o : Outbox} (h : o.Lawful) (timer : Option Nat) (stalled : Bool) :
    { o with timer := timer, stalled := stalled }.Lawful :=
  ⟨h.size, h.general, h.window, h.oneUnsentSupply, h.owed, h.numbers, h.order, h.marks, h.rounds,
    h.waiting⟩

theorem Outbox.Lawful.ackExpired {o : Outbox} (h : o.Lawful) : o.ackExpired.Lawful := by
  unfold Outbox.ackExpired
  split
  · next hround => exact h.markAll (Nat.succ_le_of_lt hround) none o.stalled
  · exact h.congr_timer none true

theorem Outbox.Lawful.reportFrameEnded {o : Outbox} (h : o.Lawful) : o.reportFrameEnded.Lawful := by
  unfold Outbox.reportFrameEnded
  split
  · exact h.congr_timer _ o.stalled
  · exact h

theorem Outbox.Lawful.joinWaiting {o : Outbox} (h : o.Lawful) (hfull : o.freeGeneral = 0) (l : LaneId) :
    (o.joinWaiting l).Lawful := by
  have hf : (o.joinWaiting l).freeGeneral = 0 := by unfold Outbox.joinWaiting; split <;> exact hfull
  refine Outbox.Sound.lawful (h.sound.congr ?_ ?_ ?_ ?_) fun _ => hf
  all_goals unfold Outbox.joinWaiting; split <;> rfl

/-! ### Acknowledgement (R207) -/

/-- The records that a number acknowledges, split at the first transmitted record that carries it. -/
theorem recordsAfter_append {n : Byte} {ahead behind : List Report} {r : Report}
    (hahead : ∀ q ∈ ahead, q.acked n = false) (hr : r.acked n = true) :
    recordsAfter n (ahead ++ r :: behind) = behind := by
  unfold recordsAfter
  rw [List.dropWhile_append_of_pos (by simpa using hahead), List.dropWhile_cons_of_neg (by simpa using hr)]
  rfl

/-- What an acknowledgement does (R207). -/
theorem Outbox.acknowledge_append {o : Outbox} {n : Byte} {ahead behind : List Report} {r : Report}
    (hrec : o.records = ahead ++ r :: behind) (hahead : ∀ q ∈ ahead, q.acked n = false)
    (hr : r.acked n = true) :
    o.acknowledge n = some { o with
      records := behind
      round := 0
      timer := if behind.any (fun q => q.transmitted) then some 250 else none } := by
  have hany : o.records.any (Report.acked n) = true :=
    List.any_eq_true.2 ⟨r, hrec ▸ List.mem_append_right _ List.mem_cons_self, hr⟩
  unfold Outbox.acknowledge
  rw [if_pos hany]
  simp only [hrec, recordsAfter_append hahead hr]

theorem Outbox.Sound.drop {o : Outbox} (h : o.Sound) {ahead behind : List Report}
    (hrec : o.records = ahead ++ behind) (timer : Option Nat) :
    { o with records := behind, round := 0, timer := timer }.Sound := by
  obtain ⟨hsize, hgeneral, hwindow, hone, howed, hnum, horder, hmarks, -, -⟩ := h
  simp only [Outbox.general, Outbox.transmittedCount, Outbox.unsentSupply, hrec, List.countP_append,
    List.length_append] at hsize hgeneral hwindow hone howed
  simp only [hrec] at hnum horder hmarks
  constructor
  case size => exact le_trans (Nat.le_add_left _ _) hsize
  case general => exact le_trans (Nat.le_add_left _ _) hgeneral
  case window => exact le_trans (Nat.le_add_left _ _) hwindow
  case oneUnsentSupply => exact le_trans (Nat.le_add_left _ _) hone
  case owed => exact fun hs => (Nat.add_eq_zero_iff.1 (howed hs)).2
  case numbers => exact consecutive_of_append hnum
  case order => exact (List.pairwise_append.1 horder).2.1
  case marks => exact fun r hr => hmarks r (List.mem_append_right _ hr)
  case rounds => exact Nat.zero_le 4
  case waiting => exact fun hn => absurd rfl hn

theorem Outbox.Sound.acknowledge {o o' : Outbox} {n : Byte} (h : o.Sound) (ha : o.acknowledge n = some o') :
    o'.Sound ∧ o'.waitingLanes = o.waitingLanes := by
  unfold Outbox.acknowledge at ha
  split at ha
  · next hany =>
    obtain ⟨ahead, r, behind, hrec, hahead, hr⟩ := exists_first_of_any hany
    obtain rfl := Option.some.inj ha
    refine ⟨?_, rfl⟩
    have hsplit : o.records = (ahead ++ [r]) ++ behind := by simp [hrec]
    simp only [hrec, recordsAfter_append hahead hr]
    exact h.drop hsplit _
  · cases ha

end Sys2Proof.Machine
end

section
/-! PROOF. The outbox at a break: rewinding, and merging the SUPPLY records into the oldest of them (R209,
R210). -/

-- One proof after another: a thread for each of them would take too much memory.
set_option Elab.async false

namespace Sys2Proof.Machine

/-! ### Notices and SUPPLY records -/

theorem Report.isSupply_iff {r : Report} : r.isSupply = true ↔ ∃ n, r.body = .supply n := by
  unfold Report.isSupply
  cases r.body <;> simp

/-- The notice of a record, if it is a SUPPLY record. -/
def Report.notice? (r : Report) : Option Notice :=
  match r.body with
  | .supply n => some n
  | .engineReady _ | .jobEnd _ | .progress _ _ _ => none

theorem Report.notice?_eq_none {r : Report} (h : r.isSupply = false) : r.notice? = none := by
  unfold Report.isSupply at h
  unfold Report.notice?
  cases hb : r.body <;> simp_all

theorem newestNotice_eq (rs : List Report) : newestNotice rs = (rs.filterMap Report.notice?).getLast? := rfl

theorem newestNotice_of_none {rs : List Report} (h : ∀ r ∈ rs, r.isSupply = false) :
    newestNotice rs = none := by
  rw [newestNotice_eq, List.filterMap_eq_nil_iff.2 fun r hr => Report.notice?_eq_none (h r hr)]
  rfl

/-- With a SUPPLY record in the list there is a newest notice. -/
theorem newestNotice_of_some {ahead behind : List Report} {r : Report} (hr : r.isSupply = true) :
    ∃ n, newestNotice (ahead ++ r :: behind) = some n := by
  obtain ⟨n, hn⟩ := Report.isSupply_iff.1 hr
  have hmem : n ∈ (ahead ++ r :: behind).filterMap Report.notice? :=
    List.mem_filterMap.2 ⟨r, by simp, by simp [Report.notice?, hn]⟩
  exact Option.isSome_iff_exists.1 (List.getLast?_isSome.2 (List.ne_nil_of_mem hmem))

/-- The only SUPPLY record carries the newest notice. -/
theorem newestNotice_of_last {ahead behind : List Report} {r : Report} {n : Notice}
    (hr : r.body = .supply n) (hbehind : ∀ q ∈ behind, q.isSupply = false) :
    newestNotice (ahead ++ r :: behind) = some n := by
  have hnil : behind.filterMap Report.notice? = [] :=
    List.filterMap_eq_nil_iff.2 fun q hq => Report.notice?_eq_none (hbehind q hq)
  have hsome : r.notice? = some n := by simp [Report.notice?, hr]
  rw [newestNotice_eq, List.filterMap_append, List.filterMap_cons_some hsome, hnil]
  simp

/-! ### Renumbering -/

theorem renumber_map {β : Type} (f : Report → β) (hf : ∀ (r : Report) n, f { r with seq := n } = f r)
    (n : Byte) (rs : List Report) : (renumber n rs).map f = rs.map f := by
  induction rs generalizing n with
  | nil => rfl
  | cons r rs ih => simp [renumber, hf, ih]

theorem isChain_cons_renumber (r : Report) (rs : List Report) :
    (r :: renumber (r.seq + 1) rs).IsChain fun r q => r.seq + 1 = q.seq := by
  induction rs generalizing r with
  | nil => exact .singleton r
  | cons q rs ih =>
    rw [renumber, List.isChain_cons_cons]
    exact ⟨rfl, ih { q with seq := r.seq + 1 }⟩

theorem mergeSupply_append {n : Notice} {ahead behind : List Report} {r : Report}
    (hahead : ∀ q ∈ ahead, q.isSupply = false) (hr : r.isSupply = true) :
    mergeSupply n (ahead ++ r :: behind) =
      ahead ++ { r with body := .supply n } ::
        renumber (r.seq + 1) (behind.filter fun q => !q.isSupply) := by
  induction ahead with
  | nil => simp [mergeSupply, hr]
  | cons q qs ih =>
    have hq : q.isSupply = false := hahead q List.mem_cons_self
    simp [mergeSupply, hq, ih fun p hp => hahead p (List.mem_cons_of_mem q hp)]

/-! ### The merge -/

theorem Outbox.merge_of_no_supply {o : Outbox} (h : ∀ r ∈ o.records, r.isSupply = false) :
    o.merge = o := by
  simp only [Outbox.merge, newestNotice_of_none h]

/-- What a merge leaves where a SUPPLY record stands: the oldest of them carries the owed or else the newest
notice `n`, the others are gone, and the numbers run on (R210). -/
structure Outbox.Merged (o p : Outbox) (ahead behind : List Report) (n : Notice) : Prop where
  frame : p = { o with records := p.records, nextSeq := p.nextSeq, owed := none }
  bodies : p.records.map (fun r => r.body) =
    ahead.map (fun r => r.body) ++ .supply (o.owed.getD n) ::
      (behind.filter fun q => !q.isSupply).map fun r => r.body
  numbers : consecutive p.records p.nextSeq
  first : p.records.head?.map (fun r => r.seq) = o.records.head?.map (fun r => r.seq)
  flags : ∀ q ∈ p.records, ∃ r ∈ o.records, q.transmitted = r.transmitted ∧ q.mark = r.mark

theorem head?_seq_append (ahead behind : List Report) {r r' : Report} (h : r'.seq = r.seq)
    (behind' : List Report) :
    (ahead ++ r' :: behind').head?.map (fun r => r.seq) =
      (ahead ++ r :: behind).head?.map fun r => r.seq := by
  cases ahead <;> simp [h]

theorem Outbox.countP_supply_append {ahead behind : List Report} {r : Report}
    (hahead : ∀ q ∈ ahead, q.isSupply = false) (hr : r.isSupply = true) :
    (ahead ++ r :: behind).countP (fun r => r.isSupply) = behind.countP (fun r => r.isSupply) + 1 := by
  have : ahead.countP (fun r => r.isSupply) = 0 :=
    List.countP_eq_zero.2 fun q hq => by simp [hahead q hq]
  simp [List.countP_append, this, hr]

/-- The only SUPPLY record stays, with the owed notice if one is owed. -/
theorem Outbox.merge_of_one {o : Outbox} {ahead behind : List Report} {r : Report} {n : Notice}
    (hrec : o.records = ahead ++ r :: behind) (hahead : ∀ q ∈ ahead, q.isSupply = false)
    (hr : r.body = .supply n) (hbehind : ∀ q ∈ behind, q.isSupply = false) :
    o.merge = { o with
      records := ahead ++ { r with body := .supply (o.owed.getD n) } :: behind
      owed := none } := by
  have hsup : r.isSupply = true := Report.isSupply_iff.2 ⟨n, hr⟩
  have hcount : (o.records.countP fun r => r.isSupply) = 1 := by
    rw [hrec, Outbox.countP_supply_append hahead hsup,
      List.countP_eq_zero.2 fun q hq => by simp [hbehind q hq]]
  have hnewest : newestNotice o.records = some n := hrec ▸ newestNotice_of_last hr hbehind
  unfold Outbox.merge
  simp only [hnewest, hcount, if_true]
  cases ho : o.owed with
  | none =>
    obtain ⟨body, seq, transmitted, mark⟩ := r
    obtain rfl : body = .supply n := hr
    show o = _
    rw [Option.getD_none, ← ho, ← hrec]
  | some m => simp only [hrec, updateFirst_append hahead hsup, Option.getD_some]

/-- Of several SUPPLY records the oldest stays. -/
theorem Outbox.merge_of_more {o : Outbox} {ahead behind : List Report} {r : Report} {n : Notice}
    (hrec : o.records = ahead ++ r :: behind) (hahead : ∀ q ∈ ahead, q.isSupply = false)
    (hr : r.isSupply = true) (hbehind : ∃ q ∈ behind, q.isSupply = true)
    (hn : newestNotice o.records = some n) :
    let rs := ahead ++ { r with body := .supply (o.owed.getD n) } ::
      renumber (r.seq + 1) (behind.filter fun q => !q.isSupply)
    o.merge = { o with
      records := rs
      nextSeq := (rs.getLast?.map fun r => r.seq + 1).getD o.nextSeq
      owed := none } := by
  have hcount : (o.records.countP fun r => r.isSupply) ≠ 1 := by
    have : 0 < behind.countP fun r => r.isSupply := List.countP_pos_iff.2 hbehind
    rw [hrec, Outbox.countP_supply_append hahead hr]
    omega
  unfold Outbox.merge
  simp only [hn, hcount, if_false]
  rw [hrec, mergeSupply_append hahead hr]

theorem Outbox.merge_merged {o : Outbox} {ahead behind : List Report} {r : Report}
    (hrec : o.records = ahead ++ r :: behind) (hahead : ∀ q ∈ ahead, q.isSupply = false)
    (hr : r.isSupply = true) (hnum : consecutive o.records o.nextSeq) :
    ∃ n, newestNotice o.records = some n ∧ o.Merged o.merge ahead behind n := by
  have hmem : ∀ q, q ∈ ahead ∨ q = r ∨ q ∈ behind → q ∈ o.records := fun q hq => by
    rw [hrec]; simpa using hq
  by_cases hbehind : ∃ q ∈ behind, q.isSupply = true
  · obtain ⟨n, hn⟩ := newestNotice_of_some (ahead := ahead) (behind := behind) hr
    rw [← hrec] at hn
    refine ⟨n, hn, ?_⟩
    rw [Outbox.merge_of_more hrec hahead hr hbehind hn]
    obtain ⟨hchain, -⟩ := (consecutive_iff _ _).1 hnum
    rw [hrec] at hchain
    obtain ⟨hchainA, -, hchainAB⟩ := List.isChain_append.1 hchain
    constructor
    case frame => rfl
    case bodies =>
      simp only [List.map_append, List.map_cons, renumber_map (fun r => r.body) (fun _ _ => rfl)]
    case numbers =>
      refine (consecutive_iff _ _).2 ⟨List.isChain_append.2 ⟨hchainA,
        isChain_cons_renumber { r with body := .supply (o.owed.getD n) } _, ?_⟩, ?_⟩
      · intro q hq p hp
        obtain rfl : _ = p := Option.some.inj hp
        exact hchainAB q hq r rfl
      · intro q hq
        rw [Option.mem_def.1 hq]
        rfl
    case first => rw [hrec]; exact head?_seq_append (r := r) ahead behind (by rfl) _
    case flags =>
      intro q hq
      have hren : ∀ p ∈ renumber (r.seq + 1) (behind.filter fun q => !q.isSupply),
          ∃ x ∈ behind, (p.transmitted, p.mark) = (x.transmitted, x.mark) := fun p hp => by
        have hp' := List.mem_map_of_mem (f := fun r => (r.transmitted, r.mark)) hp
        rw [renumber_map (fun r => (r.transmitted, r.mark)) fun _ _ => rfl] at hp'
        obtain ⟨x, hx, hxp⟩ := List.mem_map.1 hp'
        exact ⟨x, (List.mem_filter.1 hx).1, hxp.symm⟩
      rcases List.mem_append.1 hq with hq | hq
      · exact ⟨q, hmem q (.inl hq), rfl, rfl⟩
      · rcases List.mem_cons.1 hq with rfl | hq
        · exact ⟨r, hmem r (.inr (.inl rfl)), rfl, rfl⟩
        · obtain ⟨x, hx, hxq⟩ := hren q hq
          exact ⟨x, hmem x (.inr (.inr hx)), (Prod.mk.inj hxq).1, (Prod.mk.inj hxq).2⟩
  · have hnone : ∀ q ∈ behind, q.isSupply = false := fun q hq => by
      cases h : q.isSupply
      · rfl
      · exact absurd ⟨q, hq, h⟩ hbehind
    obtain ⟨n, hn⟩ := Report.isSupply_iff.1 hr
    refine ⟨n, hrec ▸ newestNotice_of_last hn hnone, ?_⟩
    rw [Outbox.merge_of_one hrec hahead hn hnone]
    have hfilter : behind.filter (fun q => !q.isSupply) = behind :=
      List.filter_eq_self.2 fun q hq => by simp [hnone q hq]
    constructor
    case frame => rfl
    case bodies => simp [hfilter]
    case numbers => exact (consecutive_congr (by simp [hrec]) _).2 hnum
    case first => rw [hrec]; exact head?_seq_append (r := r) ahead behind (by rfl) _
    case flags =>
      intro q hq
      rcases List.mem_append.1 hq with hq | hq
      · exact ⟨q, hmem q (.inl hq), rfl, rfl⟩
      · rcases List.mem_cons.1 hq with rfl | hq
        · exact ⟨r, hmem r (.inr (.inl rfl)), rfl, rfl⟩
        · exact ⟨q, hmem q (.inr (.inr hq)), rfl, rfl⟩

/-! ### Rewinding and merging keep the laws -/

/-- A record made untransmitted and unmarked (R209). -/
def Report.rewound (r : Report) : Report := { r with transmitted := false, mark := false }

theorem Outbox.rewind_records (o : Outbox) : o.rewind.records = o.records.map Report.rewound := rfl

theorem Outbox.rewind_numbers {o : Outbox} (h : consecutive o.records o.nextSeq) :
    consecutive o.rewind.records o.rewind.nextSeq := by
  refine (consecutive_congr ?_ _).2 h
  simp [Outbox.rewind_records, Report.rewound, Function.comp_def]

/-- An outbox with no record transmitted is lawful, apart from the waiting lanes, by its counts. -/
theorem Outbox.sound_of_unsent {o : Outbox} (hflags : ∀ r ∈ o.records, r.transmitted = false ∧ r.mark = false)
    (hsize : o.records.length ≤ 16) (hgeneral : o.general ≤ 15) (hone : o.unsentSupply ≤ 1)
    (howed : o.owed.isSome = true → o.unsentSupply = 0) (hnum : consecutive o.records o.nextSeq)
    (hround : o.round ≤ 4) : o.Sound := by
  refine ⟨hsize, hgeneral, ?_, hone, howed, hnum, ?_, ?_, hround, fun hn => absurd rfl hn⟩
  · show o.records.countP (fun r => r.transmitted) ≤ 4
    rw [List.countP_eq_zero.2 fun r hr => by simp [(hflags r hr).1]]
    exact Nat.zero_le 4
  · refine List.pairwise_iff_forall_sublist.2 fun {r q} hrq => ?_
    have hq : q ∈ o.records := hrq.subset (by simp)
    constructor <;> intro ht <;> simp [(hflags q hq).1] at ht
  · intro r hr hm
    simp [(hflags r hr).2] at hm

/-- Whether a report is a SUPPLY report shows in its body. -/
def ReportBody.isSupply : ReportBody → Bool
  | .supply _ => true
  | .engineReady _ | .jobEnd _ | .progress _ _ _ => false

theorem Report.isSupply_eq (r : Report) : r.isSupply = r.body.isSupply := by
  unfold Report.isSupply ReportBody.isSupply
  cases r.body <;> rfl

theorem countP_bodies (rs : List Report) (p : Bool → Bool) :
    rs.countP (fun r => p r.isSupply) = (rs.map fun r => r.body).countP fun b => p b.isSupply := by
  rw [List.countP_map]
  exact congrArg (List.countP · rs) (funext fun r => congrArg p r.isSupply_eq)

/-- A merge leaves one SUPPLY record. -/
theorem Outbox.Merged.supply_count {o p : Outbox} {ahead behind : List Report} {n : Notice}
    (h : o.Merged p ahead behind n) (hahead : ∀ q ∈ ahead, q.isSupply = false) :
    (p.records.countP fun r => r.isSupply) = 1 := by
  have hzero : ∀ qs : List Report, (∀ q ∈ qs, q.isSupply = false) →
      (qs.map fun r => r.body).countP (fun b => b.isSupply) = 0 := fun qs hqs => by
    rw [← countP_bodies qs fun b => b]
    exact List.countP_eq_zero.2 fun q hq => by simp [hqs q hq]
  rw [countP_bodies _ fun b => b, h.bodies, List.countP_append, List.countP_cons, hzero ahead hahead,
    hzero _ fun q hq => by simpa using (List.mem_filter.1 hq).2]
  rfl

/-- A merge keeps the general records. -/
theorem Outbox.Merged.general_eq {o p : Outbox} {ahead behind : List Report} {r : Report} {n : Notice}
    (h : o.Merged p ahead behind n) (hrec : o.records = ahead ++ r :: behind) (hr : r.isSupply = true) :
    p.general = o.general := by
  have hr' : (!r.body.isSupply) = false := by rw [← r.isSupply_eq, hr]; rfl
  have hnotice : (!ReportBody.isSupply (.supply (o.owed.getD n))) = false := rfl
  unfold Outbox.general
  rw [countP_bodies _ fun b => !b, countP_bodies o.records fun b => !b, h.bodies, hrec, List.map_append,
    List.map_cons, List.countP_append, List.countP_append, List.countP_cons, List.countP_cons, hr',
    hnotice, ← countP_bodies behind fun b => !b, ← countP_bodies (behind.filter _) fun b => !b,
    List.countP_filter]
  simp only [Bool.and_self]

theorem Outbox.Merged.length_le {o p : Outbox} {ahead behind : List Report} {r : Report} {n : Notice}
    (h : o.Merged p ahead behind n) (hrec : o.records = ahead ++ r :: behind) :
    p.records.length ≤ o.records.length := by
  have hlen := congrArg List.length h.bodies
  have hfilter := List.length_filter_le (fun q : Report => !q.isSupply) behind
  simp only [List.length_map, List.length_append, List.length_cons] at hlen
  rw [hlen, hrec, List.length_append, List.length_cons]
  omega

theorem Outbox.Sound.rewind_merge {o : Outbox} (h : o.Sound) : o.rewind.merge.Sound := by
  have hnum := Outbox.rewind_numbers h.numbers
  have hflags : ∀ r ∈ o.rewind.records, r.transmitted = false ∧ r.mark = false := fun r hr => by
    obtain ⟨q, -, rfl⟩ := List.mem_map.1 hr
    exact ⟨rfl, rfl⟩
  have hsize : o.rewind.records.length ≤ 16 := by simpa [Outbox.rewind_records] using h.size
  have hgeneral : o.rewind.general ≤ 15 := by
    have : o.rewind.general = o.general := by
      rw [Outbox.general, Outbox.rewind_records, List.countP_map]; rfl
    exact this.trans_le h.general
  by_cases hany : o.rewind.records.any Report.isSupply = true
  · obtain ⟨ahead, r, behind, hrec, hahead, hr⟩ := exists_first_of_any hany
    obtain ⟨n, -, hm⟩ := Outbox.merge_merged hrec hahead hr hnum
    have hmflags : ∀ r ∈ o.rewind.merge.records, r.transmitted = false ∧ r.mark = false := fun q hq => by
      obtain ⟨p, hp, hqp, hqm⟩ := hm.flags q hq
      exact ⟨hqp.trans (hflags p hp).1, hqm.trans (hflags p hp).2⟩
    have hone : o.rewind.merge.unsentSupply ≤ 1 :=
      (List.countP_mono_left fun q _ hq => (Bool.and_eq_true_iff.1 hq).2).trans
        (hm.supply_count hahead).le
    have howed : o.rewind.merge.owed = none := by rw [hm.frame]
    have hround : o.rewind.merge.round = 0 := by rw [hm.frame]; rfl
    exact Outbox.sound_of_unsent hmflags ((hm.length_le hrec).trans hsize)
      ((hm.general_eq hrec hr).trans_le hgeneral) hone (by simp [howed]) hm.numbers
      (hround.trans_le (Nat.zero_le 4))
  · have hnone : ∀ r ∈ o.rewind.records, r.isSupply = false := fun r hr => by
      simpa using List.any_eq_false.1 (Bool.eq_false_iff.2 hany) r hr
    have hunsent : o.rewind.unsentSupply = 0 :=
      List.countP_eq_zero.2 fun r hr => by simp [hnone r hr]
    rw [Outbox.merge_of_no_supply hnone]
    exact Outbox.sound_of_unsent hflags hsize hgeneral (by omega) (fun _ => hunsent) hnum (Nat.zero_le 4)

theorem Outbox.rewind_merge_waitingLanes (o : Outbox) :
    o.rewind.merge.waitingLanes = o.waitingLanes := by
  unfold Outbox.merge
  split
  · rfl
  · split
    · split <;> rfl
    · rfl

end Sys2Proof.Machine
end

section
/-! PROOF. All that a step can do to what the laws speak of, said once: `State.Move` lists the single changes,
`State.Leads` chains them, and `step_leads` takes every step apart. Each law that every step keeps is then
shown move by move. -/

-- One proof after another: a thread for each of them would take too much memory.
set_option Elab.async false

namespace Sys2Proof.Machine

/-! ### What the laws see of a lane and of a job -/

/-- Two records of a lane that agree in what the Supply Arbiter holds for it. -/
structure Lane.SamePower (x y : Lane) : Prop where
  slot : y.slot = x.slot
  lvpClosed : y.lvpClosed = x.lvpClosed
  unitsHeld : y.unitsHeld = x.unitsHeld
  timer : y.timer = x.timer

/-- Two records of a lane that list the same jobs. -/
structure Lane.SameJobs (x y : Lane) : Prop where
  queue : y.queue = x.queue
  current : y.current = x.current
  waitingEnds : y.waitingEnds = x.waitingEnds

theorem Lane.SamePower.refl (x : Lane) : x.SamePower x := ⟨rfl, rfl, rfl, rfl⟩
theorem Lane.SameJobs.refl (x : Lane) : x.SameJobs x := ⟨rfl, rfl, rfl⟩

theorem Lane.SamePower.trans {x y z : Lane} (h : x.SamePower y) (g : y.SamePower z) : x.SamePower z :=
  ⟨g.slot.trans h.slot, g.lvpClosed.trans h.lvpClosed, g.unitsHeld.trans h.unitsHeld,
    g.timer.trans h.timer⟩

theorem Lane.SameJobs.trans {x y z : Lane} (h : x.SameJobs y) (g : y.SameJobs z) : x.SameJobs z :=
  ⟨g.queue.trans h.queue, g.current.trans h.current, g.waitingEnds.trans h.waitingEnds⟩

/-- What the laws see of a job. -/
def Job.standing (j : Job) : Nat × LaneId × Work × JobState × EndReport × Nat :=
  (j.id, j.lane, j.work, j.state, j.endReport, j.faultsRecorded)

/-- The fields that no law speaks of. -/
abbrev linkFields : List StateField :=
  [.inReset, .linkRate, .epoch, .rx, .tags, .deferred, .tx, .profiles, .choices, .pending]

/-! ### Moves -/

/-- A QUEUED job `j` becomes CANCELLED out of its lane's queue (R21). -/
structure State.Withdrawn (s t : State) (j : Job) : Prop where
  final : s.JobBecomesFinal t j .cancelled .cancelled false
  lane : t.lane j.lane = { s.lane j.lane with
    queue := (s.lane j.lane).queue.filter fun id => id != j.id
    waitingEnds := if 0 < s.outbox.freeGeneral then (s.lane j.lane).waitingEnds
      else (s.lane j.lane).waitingEnds ++ [j.id] }
  others : ∀ m, m ≠ j.lane → t.lane m = s.lane m
  frame : s.OnlyChanges t [.jobs, .blocks, .outbox, .lanes]

/-- What every reset leaves of the work of `s` (R30, R95, R144, R155, R212). -/
structure State.ClearedTo (s t : State) : Prop where
  jobs : t.jobs = []
  lastId : t.lastId = 0
  faults : t.faults = []
  lanes : ∀ l, t.lane l = .afterReset
  freeUnits : t.freeUnits = 8
  grantQueue : t.grantQueue = []
  replies : t.replyQueue.length ≤ 8
  outbox : t.outbox.Lawful
  waitingLanes : t.outbox.waitingLanes = []
  blocks : ∀ h, (t.block h).Lawful ∧ (t.block h).refs = 0 ∧
    ((s.block h).content.wf = true → (t.block h).content.wf = true)

/-- The single changes that a step is made of and that leave the head of the grant queue waiting. -/
inductive State.Move : State → State → Prop where
  | link {s t : State} (h : s.OnlyChanges t linkFields) : Move s t
  | pin (s : State) (v : Bool) : Move s (s.setPsupOk v)
  | replies (s : State) (q : List Frame) (h : q.length ≤ 8 ∨ q.length ≤ s.replyQueue.length) :
      Move s (s.setReplyQueue q)
  | outbox (s : State) (o : Outbox) (hl : s.outbox.Lawful → o.Lawful)
      (hw : o.waitingLanes = s.outbox.waitingLanes) : Move s (s.setOutbox o)
  | serve (s : State) (o : Outbox) (hl : s.outbox.Lawful → o.Sound)
      (hw : o.waitingLanes = s.outbox.waitingLanes) :
      Move s (serveWaiting (s.setOutbox o).serveFuel (s.setOutbox o))
  | lane (s : State) (l : LaneId) (f : Lane → Lane) (hp : (s.lane l).SamePower (f (s.lane l)))
      (hj : (s.lane l).SameJobs (f (s.lane l))) : Move s (s.updLane l f)
  | job (s : State) (id : Nat) (f : Job → Job) (h : ∀ j, (f j).standing = j.standing) :
      Move s (s.updJob id f)
  | currentState (s : State) (l : LaneId) (v : JobState) (h : v = .active ∨ v = .held) :
      Move s (s.updCurrentJob l fun j => { j with state := v })
  | start (s : State) (l : LaneId) : Move s (s.startHead l)
  | ends {s w : State} {j : Job} {st : JobState} {reason : EndReason} {stopped : Bool}
      (hj : s.job? j.id = some j) (hst : Job.isFinal { j with state := st } = true)
      (hc : (∃ l, (s.lane l).current = some j.id) ∨ j.state = .active ∨ j.state = .held)
      (h : s.CurrentJobEnds w j.lane j st reason stopped) : Move s w
  | withdrawn {s w : State} {j : Job} (hj : s.job? j.id = some j) (hq : j.state = .queued)
      (h : s.Withdrawn w j) : Move s w
  | fault (s : State) (r : FaultRecord) (room : s.faults.length < 64)
      (owner : ∃ j ∈ s.jobs, j.id = r.job) : Move s (s.recordFault r)
  | create (s : State) (f : Submit) (p : ProfileId) (w : Work) (l : LaneId) (room : s.jobs.length < 24)
      (hq : (s.lane l).queue.length < 4) (hb : ∀ h ∈ w.blocks, (s.block h).state = .sealed) :
      Move s (s.createJob f p w l)
  | retire {s : State} {j : Job} (hj : s.job? j.id = some j) (hf : j.isFinal = true)
      (he : j.endReport = .enqueued) :
      Move s ((s.setFaults (s.faults.filter fun r => r.job != j.id)).setJobs
        (s.jobs.filter fun q => q.id != j.id))
  | block (s : State) (h : Handle) (f : Block → Block)
      (hl : (s.block h).Lawful → (f (s.block h)).Lawful ∧ (f (s.block h)).refs = (s.block h).refs)
      (hc : (s.block h).content.wf = true → (f (s.block h)).content.wf = true) : Move s (s.updBlock h f)
  | slotCleared (s : State) (l : LaneId) (h : (s.lane l).lvpClosed = false ∨ (s.lane l).slot = .cut) :
      Move s (s.updLane l fun x => { x with slot := .none })
  | pulseStarts (s : State) (l : LaneId) (h : (s.lane l).slot = .granted) :
      Move s (s.updLane l fun x => { x with slot := .timing, timer := some x.width })
  | fall (s : State) : Move s (s.setSupply
      { s.supply with state := .down, episodes := s.supply.episodes + 1 }).fallOnLanes
  | rise (s : State) (h : s.supply.state = .down) : Move s (s.setSupplyState .restored)
  | reset {s t : State} (h : s.ClearedTo t) : Move s t

/-- The single changes after which the Arbiter has to make its grant test (log 20). -/
inductive State.LooseMove : State → State → Prop where
  | openSwitch (s : State) (l : LaneId) (v : PulseSlot) (h : v = .none ∨ v = .cut) :
      LooseMove s (s.openSwitch l v)
  | grantQueue (s : State) (q : List GrantEntry) : LooseMove s (s.setGrantQueue q)
  | supplyUp (s : State) (h : s.supply.state = .restored) : LooseMove s (s.setSupplyState .up)

/-- Single changes lead from the first state to the second; `tested` says that the Arbiter has made its grant
test after the last change that called for one. -/
inductive State.Leads : (tested : Bool) → State → State → Prop where
  | refl (s : State) : Leads true s s
  | move {b : Bool} {s t u : State} (h : Leads b s t) (m : t.Move u) : Leads b s u
  | loosen {b : Bool} {s t u : State} (h : Leads b s t) (m : t.LooseMove u) : Leads false s u
  | test {b : Bool} {s t : State} (h : Leads b s t) : Leads true s t.grantTest

theorem State.Move.leads {s t : State} (m : s.Move t) : s.Leads true t := (Leads.refl s).move m

theorem State.LooseMove.leads {s t : State} (m : s.LooseMove t) : s.Leads false t := (Leads.refl s).loosen m

theorem State.Leads.loose {b : Bool} {s t : State} (h : s.Leads b t) : s.Leads false t :=
  h.loosen (.grantQueue t t.grantQueue)

/-- Changes that keep the head of the grant queue waiting, after others. -/
theorem State.Leads.trans {b : Bool} {s t u : State} (h : s.Leads b t) (g : t.Leads true u) :
    s.Leads b u := by
  generalize hc : true = c at g
  have key : ∀ {c : Bool} {t u : State}, t.Leads c u → s.Leads b t →
      (c = true → s.Leads b u) ∧ s.Leads false u := by
    intro c t u g h
    induction g with
    | refl => exact ⟨fun _ => h, h.loose⟩
    | move _ m ih => exact ⟨fun e => ((ih h).1 e).move m, (ih h).2.move m⟩
    | loosen _ m ih => exact ⟨fun e => absurd e (by decide), (ih h).2.loosen m⟩
    | test _ ih =>
      cases b with
      | true => exact ⟨fun _ => (ih h).2.test, (ih h).2.test.loose⟩
      | false => exact ⟨fun _ => (ih h).2.test.loose, (ih h).2.test.loose⟩
  exact (key g h).1 hc.symm

theorem State.Leads.trans_loose {b c : Bool} {s t u : State} (h : s.Leads b t) (g : t.Leads c u) :
    s.Leads false u := by
  induction g with
  | refl => exact h.loose
  | move _ m ih => exact (ih h).move m
  | loosen _ m ih => exact (ih h).loosen m
  | test _ ih => exact (ih h).test.loose

theorem State.Leads.foldl {α : Type} {b : Bool} {op : State → α → State}
    (h : ∀ (s : State) (a : α), s.Leads true (op s a)) (xs : List α) {s t : State} (hs : s.Leads b t) :
    s.Leads b (xs.foldl op t) := by
  induction xs generalizing t with
  | nil => exact hs
  | cons a as ih => exact ih (hs.trans (h t a))

/-! ### Updates that no law sees -/

theorem State.setRx_leads (s : State) (v : Receiver) : s.Leads true (s.setRx v) :=
  (Move.link fun g hg => by cases g <;> first | exact absurd (by decide) hg | rfl).leads

theorem State.setTx_leads (s : State) (v : Tx) : s.Leads true (s.setTx v) :=
  (Move.link fun g hg => by cases g <;> first | exact absurd (by decide) hg | rfl).leads

theorem State.setTagEntry_leads (s : State) (t : Fin 16) (e : TagEntry) :
    s.Leads true (s.setTagEntry t e) :=
  (Move.link fun g hg => by cases g <;> first | exact absurd (by decide) hg | rfl).leads

theorem State.setChoices_leads (s : State) (v : Nat) : s.Leads true (s.setChoices v) :=
  (Move.link fun g hg => by cases g <;> first | exact absurd (by decide) hg | rfl).leads

theorem State.setDeferred_leads (s : State) (v : List DeferredCancel) : s.Leads true (s.setDeferred v) :=
  (Move.link ((s.setDeferred_onlyChanges v).mono (by decide))).leads

theorem State.setProfiles_leads (s : State) (v : Vector Profile 4) : s.Leads true (s.setProfiles v) :=
  (Move.link fun g hg => by cases g <;> first | exact absurd (by decide) hg | rfl).leads

theorem State.setPending_leads (s : State) (v : List Instr) : s.Leads true (s.setPending v) :=
  (Move.link fun g hg => by cases g <;> first | exact absurd (by decide) hg | rfl).leads

/-- A lane update that touches neither what the Arbiter holds nor what jobs the lane lists. -/
theorem State.updLane_leads (s : State) (l : LaneId) {f : Lane → Lane}
    (hp : ∀ x : Lane, x.SamePower (f x)) (hj : ∀ x : Lane, x.SameJobs (f x)) : s.Leads true (s.updLane l f) := (Move.lane s l f (hp _) (hj _)).leads

theorem State.setLaneState_leads (s : State) (l : LaneId) (v : LaneState) :
    s.Leads true (s.setLaneState l v) :=
  s.updLane_leads l (fun _ => ⟨rfl, rfl, rfl, rfl⟩) fun _ => ⟨rfl, rfl, rfl⟩

theorem State.updContext_leads (s : State) (l : LaneId) (f : Context → Context) :
    s.Leads true (s.updContext l f) :=
  s.updLane_leads l (fun _ => ⟨rfl, rfl, rfl, rfl⟩) fun _ => ⟨rfl, rfl, rfl⟩

theorem State.updUnit_leads (s : State) (l : LaneId) (f : CycleUnit → CycleUnit) :
    s.Leads true (s.updUnit l f) :=
  s.updLane_leads l (fun _ => ⟨rfl, rfl, rfl, rfl⟩) fun _ => ⟨rfl, rfl, rfl⟩

theorem State.sendCycle_leads (s : State) (l : LaneId) (k : CycleKind) (a : Nat) (d : Byte) :
    s.Leads true (s.sendCycle l k a d) := s.updUnit_leads l _

theorem State.sendAtAddress_leads (s : State) (l : LaneId) (k : CycleKind) :
    s.Leads true (s.sendAtAddress l k) := s.sendCycle_leads l k _ 0

theorem State.sweep_leads (s : State) (l : LaneId) : s.Leads true (s.sweep l) :=
  (s.updContext_leads l _).trans (State.sendAtAddress_leads _ l _)

theorem State.updJob_leads (s : State) (id : Nat) {f : Job → Job} (h : ∀ j, (f j).standing = j.standing) :
    s.Leads true (s.updJob id f) := (Move.job s id f h).leads

theorem State.updCurrentJob_leads (s : State) (l : LaneId) {f : Job → Job}
    (h : ∀ j, (f j).standing = j.standing) : s.Leads true (s.updCurrentJob l f) := by
  unfold State.updCurrentJob
  split
  · exact s.updJob_leads _ h
  · exact .refl s

/-! ### The Transmitter and the replies -/

theorem State.takeReply?_leads {s t : State} (h : s.takeReply? = some t) : s.Leads true t := by
  unfold State.takeReply? at h
  split at h
  · cases h
  · next f rest hq =>
    obtain rfl := Option.some.inj h
    exact ((Move.replies s rest (.inr (by simp [hq]))).leads).trans (State.setTx_leads _ _)

theorem State.takeReport?_leads {s t : State} (h : s.takeReport? = some t) : s.Leads true t := by
  unfold State.takeReport? at h
  split at h
  · cases h
  · next r o ho =>
    obtain rfl := Option.some.inj h
    exact ((Move.outbox s o (fun hl => (hl.take? ho).1) (by
      obtain ⟨_, _, _, _, h' | h'⟩ := Outbox.take?_some ho
      · rw [h'.2.2]
      · rw [h'.2.2.2.2])).leads).trans (State.setTx_leads _ _)

theorem State.transmit_leads (s : State) : s.Leads true s.transmit := by
  unfold State.transmit
  split
  · exact .refl s
  · exact .refl s
  · cases hr : s.takeReply? with
    | some t => exact State.takeReply?_leads hr
    | none =>
      cases hp : s.takeReport? with
      | some t => exact State.takeReport?_leads hp
      | none => exact .refl s

theorem State.transmitEither_leads (s : State) : s.Leads true s.transmitEither := by
  unfold State.transmitEither
  split
  · exact .refl s
  · exact .refl s
  · split
    · next withReply withReport h1 h2 =>
      cases Config.reportTakenFirst s.choices
      · exact (State.takeReply?_leads h1).trans (State.setChoices_leads _ _)
      · exact (State.takeReport?_leads h2).trans (State.setChoices_leads _ _)
    · next h _ => exact State.takeReply?_leads h
    · next h => exact State.takeReport?_leads h
    · exact .refl s

theorem State.placeReply_leads (s : State) (f : Frame) : s.Leads true (s.placeReply f) := by
  unfold State.placeReply
  split
  · next h => exact (Move.replies s _ (.inl (by simpa using h))).leads
  · exact .refl s

theorem State.completeTag_leads (s : State) (t : Fin 16) (d : Digest) (f : Frame) :
    s.Leads true (s.completeTag t d f) :=
  (s.setTagEntry_leads t _).trans (State.placeReply_leads _ f)

theorem State.completeDeferred_leads (s : State) (tag : Byte) (id : Nat) :
    s.Leads true (s.completeDeferred tag id) := by
  unfold State.completeDeferred
  split
  · exact .refl s
  · split
    · exact .refl s
    · exact s.completeTag_leads _ _ _

theorem State.frameEnded_leads (s : State) : s.Leads true s.frameEnded := by
  unfold State.frameEnded
  split
  · exact .refl s
  · exact (s.setTx_leads _).trans (State.transmit_leads _)
  · refine ((s.setTx_leads .idle).move (.outbox _ _ Outbox.Lawful.reportFrameEnded ?_)).trans
      (State.transmit_leads _)
    unfold Outbox.reportFrameEnded
    split <;> rfl

/-! ### Jobs and lanes -/

/-- The end of a job that a lane works on (R17 to R19). -/
theorem State.finishJob_leads {s : State} {j : Job} (hj : s.job? j.id = some j)
    (hc : (∃ l, (s.lane l).current = some j.id) ∨ j.state = .active ∨ j.state = .held) {st : JobState}
    (hst : Job.isFinal { j with state := st } = true) (reason : EndReason) (stopped : Bool) :
    s.Leads true (s.finishJob j.id st reason stopped true) := by
  obtain ⟨w, hw, heq⟩ := State.finishJob_current hj rfl st reason stopped
  rw [heq]
  exact (Move.ends hj hst hc hw).leads.move (.start w _)

theorem State.finishJob_of_none {s : State} {id : Nat} (h : s.job? id = none) (st : JobState)
    (reason : EndReason) (stopped current : Bool) : s.finishJob id st reason stopped current = s := by
  simp only [State.finishJob, h]

/-- The end of the job that a lane names as its current one. -/
theorem State.finishJob_current_leads {s : State} {l : LaneId} {id : Nat}
    (h : (s.lane l).current = some id) {st : JobState}
    (hst : ∀ j : Job, Job.isFinal { j with state := st } = true) (reason : EndReason) (stopped : Bool) :
    s.Leads true (s.finishJob id st reason stopped true) := by
  cases hj : s.job? id with
  | none => rw [State.finishJob_of_none hj]; exact .refl s
  | some j =>
    obtain ⟨rfl, -⟩ := State.job?_some hj
    exact State.finishJob_leads hj (.inl ⟨l, h⟩) (hst j) reason stopped

theorem State.finishCurrent_leads (s : State) (l : LaneId) {st : JobState}
    (hst : ∀ j : Job, Job.isFinal { j with state := st } = true) (reason : EndReason) (stopped : Bool) :
    s.Leads true (s.finishCurrent l st reason stopped) := by
  unfold State.finishCurrent
  split
  · next id h => exact State.finishJob_current_leads h hst reason stopped
  · exact .refl s

theorem State.laneFailure_leads (s : State) (l : LaneId) (o : CycleOutcome) :
    s.Leads true (s.laneFailure l o) := by
  unfold State.laneFailure
  split
  · exact .refl s
  · exact s.finishCurrent_leads l (fun _ => rfl) _ true

theorem State.recordInterrupted_leads {s : State} {id : Nat} (h : ∃ j ∈ s.jobs, j.id = id) (l : LaneId) :
    s.Leads true (s.recordInterrupted l id) := by
  unfold State.recordInterrupted
  split
  · next hroom => exact (Move.fault s _ (by simpa [State.faultRoom] using hroom) h).leads
  · exact .refl s

/-! ### Grants -/

theorem Lane.sameJobs_foldl_grantedBy (es : List GrantEntry) (x : Lane) :
    x.SameJobs (es.foldl Lane.grantedBy x) := by
  induction es generalizing x with
  | nil => exact .refl x
  | cons e es ih => exact Lane.SameJobs.trans (y := x.grantedBy e) ⟨rfl, rfl, rfl⟩ (ih _)

/-- Grants do not touch the jobs that a lane lists. -/
theorem State.sameJobs_grantTest (s : State) (l : LaneId) : (s.lane l).SameJobs (s.grantTest.lane l) := by
  obtain ⟨_, _, _, _, _, hlanes, _⟩ := s.grants_grantTest
  rw [hlanes]
  exact Lane.sameJobs_foldl_grantedBy _ _

theorem State.grantTest_jobs (s : State) : s.grantTest.jobs = s.jobs :=
  s.grantTest_onlyChanges .jobs (by decide)

theorem State.job?_of_jobs {s t : State} (h : t.jobs = s.jobs) (id : Nat) : t.job? id = s.job? id := by
  simp only [State.job?, h]

/-- An opened switch and the grant test that follows it. -/
theorem State.openSwitch_grantTest_leads (s : State) (l : LaneId) {v : PulseSlot}
    (h : v = .none ∨ v = .cut) : s.Leads true (s.openSwitch l v).grantTest :=
  (LooseMove.openSwitch s l v h).leads.test

theorem State.holdLane_leads (s : State) (l : LaneId) : s.Leads true (s.holdLane l) :=
  (s.setLaneState_leads l _).move (.currentState _ l .held (.inr rfl))

theorem State.joinGrantQueue_leads (s : State) (l : LaneId) : s.Leads false (s.joinGrantQueue l) := by
  unfold State.joinGrantQueue
  split
  · exact (Leads.refl s).loose
  · split
    · exact (LooseMove.grantQueue s _).leads.trans (State.setLaneState_leads _ l _)
    · exact (s.holdLane_leads l).loose

theorem State.requestGrant_leads (s : State) (l : LaneId) : s.Leads true (s.requestGrant l) :=
  (s.joinGrantQueue_leads l).test

theorem State.resumeLane_leads (s : State) (l : LaneId) : s.Leads false (s.resumeLane l) := by
  have h : s.Leads true ((s.setLaneState l .running).updCurrentJob l fun j => { j with state := .active }) :=
    (s.setLaneState_leads l _).move (.currentState _ l .active (.inl rfl))
  unfold State.resumeLane
  simp only
  split
  · exact (h.trans (State.sendAtAddress_leads _ l _)).loose
  · split
    · exact h.trans_loose (State.joinGrantQueue_leads _ l)
    · exact (h.trans (State.sweep_leads _ l)).loose

/-! ### Cancels -/

theorem State.cancelWaiting_leads {s : State} {j : Job} (hj : s.job? j.id = some j)
    (hc : j.state = .active ∨ j.state = .held) : s.Leads true (s.cancelWaiting j) := by
  unfold State.cancelWaiting
  simp only
  split
  · have hjobs := (s.setGrantQueue (s.grantQueue.filter fun e => e.lane != j.lane)).grantTest_jobs
    exact (LooseMove.grantQueue s _).leads.test.trans (State.finishJob_leads
      ((State.job?_of_jobs hjobs j.id).trans hj) (.inr hc) rfl _ _)
  · exact State.finishJob_leads hj (.inr hc) rfl _ _

/-- A cancel that cuts a pulse, up to its INTERRUPTED record: the job is still in the table. -/
theorem State.cut_leads {s : State} {j : Job} (hj : s.job? j.id = some j) {v : PulseSlot}
    (hv : v = .none ∨ v = .cut) :
    s.Leads true (((s.openSwitch j.lane v).grantTest).recordInterrupted j.lane j.id) ∧
      ∃ n, (((s.openSwitch j.lane v).grantTest).recordInterrupted j.lane j.id).job? j.id =
        some { j with faultsRecorded := n } := by
  have hjobs : (s.openSwitch j.lane v).grantTest.jobs = s.jobs := State.grantTest_jobs _
  have hj' := (State.job?_of_jobs hjobs j.id).trans hj
  refine ⟨(s.openSwitch_grantTest_leads j.lane hv).trans (State.recordInterrupted_leads
    ⟨j, (State.job?_some hj').2, rfl⟩ _), ?_⟩
  unfold State.recordInterrupted
  split
  · exact ⟨_, State.job?_updJob_self (s := State.setFaults _ _) hj' _ fun _ => rfl⟩
  · exact ⟨_, hj'⟩

theorem State.cancelPulsing_leads {s : State} {j : Job} (hj : s.job? j.id = some j)
    (hc : j.state = .active ∨ j.state = .held) : s.Leads true (s.cancelPulsing j) := by
  obtain ⟨hcut, n, hn⟩ := State.cut_leads hj (v := .none) (.inl rfl)
  exact hcut.trans (State.finishJob_leads (j := { j with faultsRecorded := n }) hn (.inr hc) rfl _ _)

theorem State.deferCancel_leads {s : State} {j : Job} (hj : s.job? j.id = some j) (tag : Byte) :
    s.Leads true (s.deferCancel j tag) := by
  have h : ∀ {u : State}, s.Leads true u → s.Leads true ((u.updContext j.lane fun c =>
      { c with mark := some (c.mark.getD [] ++ [tag]) }).setDeferred
        (u.deferred ++ [{ tag := tag, job := j.id }])) := fun hu =>
    (hu.trans (State.updContext_leads _ _ _)).trans (State.setDeferred_leads _ _)
  unfold State.deferCancel
  simp only
  split
  · exact h (State.cut_leads hj (.inr rfl)).1
  · exact h (.refl s)

/-- A QUEUED job leaves its queue and ends (R21). -/
theorem State.cancelQueued_withdrawn {s : State} {j : Job} (hj : s.job? j.id = some j) :
    s.Withdrawn (s.cancelQueued j) j := by
  let filtered := s.updLane j.lane fun x => { x with queue := x.queue.filter fun i => i != j.id }
  let ended := fun q : Job =>
    { q with state := .cancelled, endReason := some .cancelled, laneStopped := false }
  let s₁ := filtered.updJob j.id ended
  let s₂ := s₁.dropRefs j.work.blocks
  have h1 : s₂.job? j.id = some (ended j) := by
    show (s₁.dropRefs j.work.blocks).job? j.id = _
    rw [State.dropRefs_job?]
    exact State.job?_updJob_self (s := filtered) hj ended fun _ => rfl
  have hfinish : s.cancelQueued j = s₂.offerJobEnd j.id false := by
    have hj' : filtered.job? j.id = some j := hj
    show filtered.finishJob j.id .cancelled .cancelled false false = _
    unfold State.finishJob
    simp only [hj']
    rfl
  have houtbox : s₂.outbox = s.outbox := State.dropRefs_outbox s₁ _
  have hjobs : s₂.jobs = s₁.jobs := State.dropRefs_jobs s₁ _
  have hblocks : s₂.blocks = (s.dropRefs j.work.blocks).blocks :=
    State.dropRefs_blocks (s := s) (t := s₁) rfl _
  have hlane : ∀ m, s₂.lane m = filtered.lane m := fun m => State.dropRefs_lane s₁ _ m
  have hframe : s.OnlyChanges (s.cancelQueued j) [.jobs, .blocks, .outbox, .lanes] :=
    ((s.updLane_onlyChanges j.lane _).mono (by decide)).trans
      ((State.finishJob_onlyChanges _ _ _ _ _ _).mono (by decide))
  rw [hfinish] at hframe ⊢
  unfold State.offerJobEnd at hframe ⊢
  simp only [h1] at hframe ⊢
  by_cases hfree : 0 < s.outbox.freeGeneral
  · simp only [houtbox, hfree, if_true, Bool.false_eq_true, if_false] at hframe ⊢
    refine ⟨⟨?_, hblocks, ?_⟩, ?_, fun m hm => ?_, hframe⟩
    · simp only [State.updJob_jobs, State.setOutbox_jobs, hjobs, s₁, List.map_map, hfree, if_true]
      refine List.map_congr_left fun q _ => ?_
      by_cases hq : q.id = j.id <;> simp [hq, ended]
    · simp only [State.updJob_outbox, State.setOutbox_outbox, hfree, if_true]; rfl
    · simp only [State.lane_updJob, State.lane_setOutbox, hlane, filtered, State.lane_updLane_self, hfree,
        if_true]
    · simp only [State.lane_updJob, State.lane_setOutbox, hlane, filtered]
      exact State.lane_updLane_ne _ _ (Ne.symm hm)
  · simp only [houtbox, hfree, if_false, Bool.false_eq_true] at hframe ⊢
    refine ⟨⟨?_, hblocks, ?_⟩, ?_, fun m hm => ?_, hframe⟩
    · simp only [State.updLane_jobs, State.updJob_jobs, State.setOutbox_jobs, hjobs, s₁, List.map_map,
        hfree, if_false]
      refine List.map_congr_left fun q _ => ?_
      by_cases hq : q.id = j.id <;> simp [hq, ended]
    · simp only [State.updLane_outbox, State.updJob_outbox, State.setOutbox_outbox, hfree, if_false]; rfl
    · rw [State.lane_updLane_self]
      simp only [State.lane_updJob, State.lane_setOutbox, hlane, filtered, State.lane_updLane_self, hfree,
        if_false, ended]
    · rw [State.lane_updLane_ne _ _ (show (ended j).lane ≠ m from Ne.symm hm)]
      simp only [State.lane_updJob, State.lane_setOutbox, hlane, filtered]
      exact State.lane_updLane_ne _ _ (Ne.symm hm)

theorem State.endDeferred_leads (s : State) (l : LaneId) (tags : List Byte) (o : CycleOutcome) :
    s.Leads true (s.endDeferred l tags o) := by
  have h : ∀ {u : State}, s.Leads true u → (u.lane l).current = (s.lane l).current →
      s.Leads true (match (s.lane l).current with
        | none => u
        | some id =>
          let s₂ := u.finishJob id .cancelled .cancelled (o != .ready) true
          tags.foldl (fun s t => s.completeDeferred t id)
            (s₂.setDeferred (s₂.deferred.filter fun d => d.job != id))) := fun {u} hu hcur => by
    split
    · exact hu
    · next id hid =>
      exact Leads.foldl (fun v t => v.completeDeferred_leads t id) tags
        ((hu.trans (State.finishJob_current_leads (hcur.trans hid) (fun _ => rfl) _ _)).trans
          (State.setDeferred_leads _ _))
  unfold State.endDeferred
  simp only
  by_cases hclosed : (s.lane l).lvpClosed = true
  · rw [if_pos hclosed]
    refine h (s.openSwitch_grantTest_leads l (.inl rfl)) ?_
    rw [(State.sameJobs_grantTest _ l).current, State.openSwitch, State.lane_updLane_self]; rfl
  · rw [if_neg hclosed]
    refine h (Move.slotCleared s l (.inl (Bool.eq_false_iff.2 hclosed))).leads ?_
    rw [State.lane_updLane_self]

end Sys2Proof.Machine
end

section
/-! PROOF. Every step taken apart into moves: the sequencer, the requests, the receiver, the pins and the
resets. -/

-- One proof after another: a thread for each of them would take too much memory.
set_option Elab.async false

namespace Sys2Proof.Machine

/-! ### The sequencer -/

theorem State.currentJob?_mem {s : State} {l : LaneId} {j : Job} (h : s.currentJob? l = some j) :
    j ∈ s.jobs := (State.job?_some (State.currentJob?_some h).2).2

theorem State.offerFault_leads {s : State} {j : Job} {r : FaultRecord} (hr : ∃ q ∈ s.jobs, q.id = r.job)
    (l : LaneId) {goOn : State → State} (h : ∀ s : State, s.Leads true (goOn s)) :
    s.Leads true (s.offerFault l j r goOn) := by
  unfold State.offerFault
  split
  · next hroom =>
    have hrec : s.Leads true (s.recordFault r) :=
      (Move.fault s r (by simpa [State.faultRoom] using hroom) hr).leads
    simp only
    split
    · exact hrec.trans (State.finishCurrent_leads _ l (fun _ => rfl) _ _)
    · exact hrec.trans (h _)
  · exact s.finishCurrent_leads l (fun _ => rfl) _ _

theorem State.rangeDone_leads (s : State) (l : LaneId) : s.Leads true (s.rangeDone l) := by
  unfold State.rangeDone
  split
  · exact .refl s
  · split <;> exact s.finishCurrent_leads l (fun _ => rfl) _ _

theorem Outbox.offerProgress_waitingLanes (o : Outbox) (id : Nat) (l : LaneId) (done : Nat) :
    (o.offerProgress id l done).waitingLanes = o.waitingLanes := by
  unfold Outbox.offerProgress
  simp only
  split
  · rfl
  · split <;> rfl

theorem State.offerProgress_leads (s : State) (l : LaneId) (j : Job) (done : Nat) :
    s.Leads true (s.offerProgress l j done) :=
  (Move.outbox s _ (fun h => h.offerProgress j.id l done)
    (s.outbox.offerProgress_waitingLanes j.id l done)).leads

theorem State.byteDone_leads (s : State) (l : LaneId) : s.Leads true (s.byteDone l) := by
  unfold State.byteDone
  split
  · exact .refl s
  · next j _ =>
    have hcount : s.Leads true (s.updJob j.id fun q => { q with bytesDone := j.bytesDone + 1 }) :=
      s.updJob_leads j.id fun _ => rfl
    have hnext : ∀ {u : State} (a : Nat), s.Leads true u → s.Leads true ((u.updContext l fun c =>
        { c with address := a, pulseCount := 0 }).sendAtAddress l .read) := fun _ hu =>
      (hu.trans (State.updContext_leads _ l _)).trans (State.sendAtAddress_leads _ l _)
    simp only
    split
    · exact hcount.trans (State.rangeDone_leads _ l)
    · refine hnext _ ?_
      split
      · split
        · exact hcount.trans (State.offerProgress_leads _ l j _)
        · exact hcount
      · exact hcount

theorem State.enterErase_leads (s : State) (l : LaneId) (a : Nat) : s.Leads true (s.enterErase l a) :=
  (s.updContext_leads l _).trans (State.requestGrant_leads _ l)

theorem State.beginSector_leads (s : State) (l : LaneId) (j : Job) (a : Nat) :
    s.Leads true (s.beginSector l j a) := by
  unfold State.beginSector
  simp only
  split
  · exact ((s.updContext_leads l _).trans (State.updContext_leads _ l _)).trans
      (State.sendAtAddress_leads _ l _)
  · exact (s.updContext_leads l _).trans (State.enterErase_leads _ l a)

theorem State.sectorDone_leads (s : State) (l : LaneId) : s.Leads true (s.sectorDone l) := by
  unfold State.sectorDone
  split
  · exact .refl s
  · next j _ =>
    have hcount : s.Leads true (s.updJob j.id fun q =>
        { q with bytesDone := j.bytesDone + (s.profileOf j).sectorSize }) := s.updJob_leads j.id fun _ => rfl
    simp only
    split
    · exact hcount.trans (State.rangeDone_leads _ l)
    · refine Leads.trans ?_ (State.beginSector_leads _ l j _)
      split
      · split
        · exact hcount.trans (State.offerProgress_leads _ l j _)
        · exact hcount
      · exact hcount

theorem State.preconditionByteDone_leads (s : State) (l : LaneId) :
    s.Leads true (s.preconditionByteDone l) := by
  unfold State.preconditionByteDone
  split
  · exact .refl s
  · simp only
    split
    · exact s.enterErase_leads l _
    · exact (s.updContext_leads l _).trans (State.sendAtAddress_leads _ l _)

theorem State.readReady_leads {s : State} {j : Job} (hj : j ∈ s.jobs) (l : LaneId) (v : Byte) :
    s.Leads true (s.readReady l j v) := by
  have hfault : ∀ k e p, s.Leads true (s.offerFault l j (byteFault j (s.lane l).context k e v p)
      fun s => s.byteDone l) := fun k e p =>
    State.offerFault_leads ⟨j, hj, rfl⟩ l fun s => s.byteDone_leads l
  unfold State.readReady
  split
  · exact .refl s
  · unfold State.judgeProgramRead
    simp only
    split
    · exact s.byteDone_leads l
    · split
      · exact hfault _ _ _
      · exact s.sendCycle_leads l _ _ _
  · unfold State.judgeVerifyRead
    simp only
    split
    · exact s.byteDone_leads l
    · exact hfault _ _ _
  · unfold State.judgeBlankRead
    simp only
    split
    · exact s.byteDone_leads l
    · exact hfault _ _ _
  · unfold State.judgePreconditionRead
    split
    · exact s.preconditionByteDone_leads l
    · exact s.sendCycle_leads l _ _ _

theorem State.marginReady_leads {s : State} {j : Job} (hj : j ∈ s.jobs) (l : LaneId) (v : Byte) :
    s.Leads true (s.marginReady l j v) := by
  unfold State.marginReady
  split
  · unfold State.judgeProgramMargin
    simp only
    split
    · exact s.byteDone_leads l
    · split
      · exact State.offerFault_leads ⟨j, hj, rfl⟩ l fun s => s.byteDone_leads l
      · exact s.requestGrant_leads l
  · unfold State.judgePreconditionMargin
    simp only
    split
    · exact s.preconditionByteDone_leads l
    · split
      · exact State.offerFault_leads ⟨j, hj, rfl⟩ l fun s => s.preconditionByteDone_leads l
      · exact s.requestGrant_leads l
  all_goals exact .refl s

theorem State.judgeSweep_leads {s : State} {j : Job} (hj : j ∈ s.jobs) (l : LaneId) (v : Byte) :
    s.Leads true (s.judgeSweep l j v) := by
  unfold State.judgeSweep
  simp only
  split
  · split
    · exact s.sectorDone_leads l
    · exact (s.updContext_leads l _).trans (State.sendAtAddress_leads _ l _)
  · split
    · exact ((s.updContext_leads l _).trans (State.updContext_leads _ l _)).trans
        (State.requestGrant_leads _ l)
    · refine (s.updContext_leads l _).trans (State.offerFault_leads ?_ l fun s => s.sectorDone_leads l)
      exact ⟨j, hj, rfl⟩

theorem State.probeReady_leads (s : State) (l : LaneId) (j : Job) (maker device : Byte) :
    s.Leads true (s.probeReady l j maker device) := by
  have hknown : s.Leads true (s.updJob j.id fun q =>
      { q with identity := some { maker := maker, device := device } }) := s.updJob_leads j.id fun _ => rfl
  unfold State.probeReady
  simp only
  split
  · exact hknown.trans (State.finishCurrent_leads _ l (fun _ => rfl) _ _)
  · refine hknown.trans ?_
    unfold State.probePassed
    split
    · exact State.rangeDone_leads _ l
    · exact State.sendAtAddress_leads _ l _
    · exact State.sendAtAddress_leads _ l _
    · exact State.sendAtAddress_leads _ l _
    · exact State.beginSector_leads _ l j _

theorem State.cycleReady_leads (s : State) (l : LaneId) (kind : CycleKind) (data : List Byte) :
    s.Leads true (s.cycleReady l kind data) := by
  unfold State.cycleReady
  split
  · exact .refl s
  · next j h =>
    have hj := State.currentJob?_mem h
    split
    · exact s.probeReady_leads l j _ _
    · exact State.readReady_leads hj l _
    · exact State.marginReady_leads hj l _
    · exact State.judgeSweep_leads hj l _
    · exact (s.updContext_leads l _).trans (State.requestGrant_leads _ l)
    · unfold State.pulseEndReady
      split
      · exact s.sendAtAddress_leads l _
      · exact s.sweep_leads l
    · exact .refl s
    · exact .refl s

theorem State.pulseStarts_leads {s : State} {l : LaneId} (h : (s.lane l).slot = .granted)
    (kind : CycleKind) : s.Leads true (s.pulseStarts l kind) := by
  have hslot := (Move.pulseStarts s l h).leads
  unfold State.pulseStarts
  simp only
  split
  · exact (hslot.trans (State.updContext_leads _ l _)).trans
      (State.updCurrentJob_leads _ l fun _ => rfl)
  · exact (hslot.trans (State.updContext_leads _ l _)).trans
      (State.updCurrentJob_leads _ l fun _ => rfl)

theorem State.cutPulseEnds_leads {s : State} {l : LaneId} (h : (s.lane l).slot = .cut)
    (o : CycleOutcome) : s.Leads true (s.cutPulseEnds l o) := by
  have hslot := (Move.slotCleared s l (.inr h)).leads
  unfold State.cutPulseEnds
  simp only
  split
  · have hheld := hslot.trans (State.holdLane_leads _ l)
    split
    · exact (hheld.trans_loose (State.resumeLane_leads _ l)).test
    · exact hheld
  all_goals exact (hslot.trans (State.setLaneState_leads _ l _)).trans (State.laneFailure_leads _ l _)

theorem State.pulseCycleEnds_leads (s : State) (l : LaneId) (kind : CycleKind) (o : CycleOutcome) :
    s.Leads true (s.pulseCycleEnds l kind o) := by
  have hfail : s.Leads true
      (((s.openSwitch l .none).setLaneState l .running).laneFailure l o).grantTest :=
    (((LooseMove.openSwitch s l _ (.inl rfl)).leads.trans (State.setLaneState_leads _ l _)).trans
      (State.laneFailure_leads _ l o)).test
  unfold State.pulseCycleEnds
  split
  · next hslot =>
    split
    · exact State.pulseStarts_leads hslot kind
    all_goals exact hfail
  · next hslot => exact State.cutPulseEnds_leads hslot o
  · exact .refl s
  · exact .refl s

/-- All that the end of a cycle can do. -/
theorem State.cycleEnds_leads (s : State) (l : LaneId) (kind : CycleKind) (o : CycleOutcome)
    (data : List Byte) : s.Leads true (s.cycleEnds l kind o data) := by
  refine (s.updUnit_leads l fun _ => .ended).trans ?_
  unfold State.cycleEnds
  simp only
  split
  · exact State.endDeferred_leads _ l _ o
  · split
    · exact State.pulseCycleEnds_leads _ l kind o
    · split
      · exact State.cycleReady_leads _ l kind data
      all_goals exact State.laneFailure_leads _ l _

theorem State.pulseExpires_leads (s : State) (l : LaneId) : s.Leads true (s.pulseExpires l) :=
  (((LooseMove.openSwitch s l .none (.inl rfl)).leads.trans (State.setLaneState_leads _ l _)).test).trans
    (State.sendCycle_leads _ l _ _ _)

/-! ### JOB-SUBMIT -/

theorem State.heldBlock?_some {s : State} {b : Byte} {h : Handle} (hb : s.heldBlock? b = some h) :
    handle? b = some h ∧ (s.block h).held = true ∧ (s.block h).state ≠ .free := by
  obtain ⟨hh, hheld⟩ := Option.filter_eq_some_iff.1 hb
  simpa [Block.hostHolds, hh] using hheld

/-- The blocks that a submission may list are SEALED (R12). -/
theorem State.usableBlocks_sealed {s : State} {bs : List Byte} {hs : List Handle}
    (h : s.usableBlocks bs = .ok hs) : ∀ g ∈ hs, (s.block g).state = .sealed := by
  induction bs generalizing hs with
  | nil =>
    obtain rfl : [] = hs := by simpa [State.usableBlocks] using h
    simp
  | cons b bs ih =>
    unfold State.usableBlocks at h
    split at h
    · cases h
    · next g hg =>
      obtain ⟨-, -, hfree⟩ := State.heldBlock?_some hg
      split at h
      · cases h
      · next hfilling =>
        split at h
        · cases h
        · next gs hgs =>
          obtain rfl := Except.ok.inj h
          intro k hk
          rcases List.mem_cons.1 hk with rfl | hk
          · cases hstate : (s.block k).state <;> simp_all
          · exact ih hgs k hk

theorem State.blockCheck_sealed {s : State} {f : Submit} {k : JobKind} {hs : List Handle}
    (h : s.blockCheck f k = .ok hs) : ∀ g ∈ (f.work hs k).blocks, (s.block g).state = .sealed := by
  unfold State.blockCheck at h
  split at h
  · simp [Submit.work, Work.blocks]
  · simp [Submit.work, Work.blocks]
  · simp [Submit.work, Work.blocks]
  all_goals
    split at h
    · cases h
    · next gs hgs =>
      split at h
      · obtain rfl := Except.ok.inj h
        exact State.usableBlocks_sealed hgs
      · cases h

theorem State.addRefs_cons (s : State) (h : Handle) (hs : List Handle) :
    s.addRefs (h :: hs) = (s.updBlock h fun b => { b with refs := b.refs + 1 }).addRefs hs := rfl

/-- References added to a block for each of its listings, and to nothing else (R140). -/
theorem State.block_addRefs (s : State) (hs : List Handle) (g : Handle) :
    (s.addRefs hs).block g = { s.block g with refs := (s.block g).refs + hs.count g } := by
  induction hs generalizing s with
  | nil => rfl
  | cons h hs ih =>
    rw [State.addRefs_cons, ih, State.block_updBlock]
    by_cases e : h = g
    · subst e; simp; omega
    · simp [e]

theorem State.createJob_onlyChanges (s : State) (f : Submit) (p : ProfileId) (w : Work) (l : LaneId) :
    s.OnlyChanges (s.createJob f p w l) [.jobs, .lastId, .blocks, .lanes] := by
  have h : s.OnlyChanges (s.createJobs f p w [l]).1 [.jobs, .lastId, .blocks, .lanes] :=
    createJobs_onlyChanges f p w [l] s
  exact h

theorem State.createJob_jobs (s : State) (f : Submit) (p : ProfileId) (w : Work) (l : LaneId) :
    (s.createJob f p w l).jobs =
      s.jobs ++ [f.job (nextFreeId s.jobs Config.jobTableSize s.lastId) l p w] :=
  State.addRefs_onlyChanges _ w.blocks .jobs (by decide)

theorem State.createJob_lastId (s : State) (f : Submit) (p : ProfileId) (w : Work) (l : LaneId) :
    (s.createJob f p w l).lastId = nextFreeId s.jobs Config.jobTableSize s.lastId :=
  State.addRefs_onlyChanges _ w.blocks .lastId (by decide)

theorem State.addRefs_lane (s : State) (hs : List Handle) (m : LaneId) :
    (s.addRefs hs).lane m = s.lane m :=
  congrArg (fun v : Vector Lane 8 => v[m]) (s.addRefs_onlyChanges hs .lanes (by decide))

theorem State.createJob_lane (s : State) (f : Submit) (p : ProfileId) (w : Work) (l m : LaneId) :
    (s.createJob f p w l).lane m =
      if l = m then { s.lane l with
        queue := (s.lane l).queue ++ [nextFreeId s.jobs Config.jobTableSize s.lastId] }
      else s.lane m := by
  unfold State.createJob
  simp only [State.lane_updLane, State.addRefs_lane, State.lane_setLastId, State.lane_setJobs]

theorem State.createJob_block (s : State) (f : Submit) (p : ProfileId) (w : Work) (l : LaneId)
    (h : Handle) : (s.createJob f p w l).block h =
      { s.block h with refs := (s.block h).refs + w.blocks.count h } := by
  unfold State.createJob
  simp only [State.block_updLane, State.block_addRefs]
  rfl

theorem State.createJobs_leads (f : Submit) (p : ProfileId) (w : Work) (ls : List LaneId) (s : State)
    (room : s.jobs.length + ls.length ≤ 24) (hn : ls.Nodup) (hq : ∀ l ∈ ls, (s.lane l).queue.length < 4)
    (hb : ∀ h ∈ w.blocks, (s.block h).state = .sealed) : s.Leads true (s.createJobs f p w ls).1 := by
  induction ls generalizing s with
  | nil => exact .refl s
  | cons l ls ih =>
    obtain ⟨hl, hls⟩ := List.nodup_cons.1 hn
    rw [List.length_cons] at room
    refine (Move.create s f p w l (by omega) (hq l List.mem_cons_self) hb).leads.trans
      (ih _ ?_ hls (fun m hm => ?_) fun h hh => ?_)
    · rw [State.createJob_jobs, List.length_append, List.length_singleton]; omega
    · rw [State.createJob_lane, if_neg (ne_of_mem_of_not_mem hm hl).symm]
      exact hq m (List.mem_cons_of_mem l hm)
    · rw [State.createJob_block]; exact hb h hh

theorem lanesOf_nodup (mask : Byte) : (lanesOf mask).Nodup := (List.nodup_finRange 8).filter _

theorem takeJobSubmit_leads (s : State) (p : List Byte) : s.Leads true (takeJobSubmit s p).after := by
  unfold takeJobSubmit
  simp only
  split
  · exact .refl s
  · split
    · exact .refl s
    · split
      · exact .refl s
      · split
        · exact .refl s
        · split
          · exact .refl s
          · next hs hcheck =>
            split
            · exact .refl s
            · next hroom =>
              split
              · exact .refl s
              · next hfull =>
                have hlen : (lanesOf (Submit.ofPayload p).mask).length ≤ 24 - s.jobs.length := by
                  simpa [State.freeEntries] using hroom
                by_cases hjobs : s.jobs.length ≤ 24
                · exact State.Leads.foldl (fun s l => (State.Move.start s l).leads) _
                    (State.createJobs_leads _ _ _ _ s (by omega) (lanesOf_nodup _)
                      (by simpa using hfull) (State.blockCheck_sealed hcheck))
                · have hnil : lanesOf (Submit.ofPayload p).mask = [] := by
                    rw [← List.length_eq_zero_iff]; omega
                  rw [hnil]
                  exact .refl s

/-! ### The other requests -/

theorem takeJobCancel_leads (s : State) (tag : Byte) (p : List Byte) :
    s.Leads true (takeJobCancel s tag p).after := by
  unfold takeJobCancel
  split
  · exact .refl s
  · next j h =>
    have hj : s.job? j.id = some j := by rw [(State.job?_some h).1]; exact h
    split
    · exact .refl s
    · exact .refl s
    · exact .refl s
    · next hq => exact (State.Move.withdrawn hj hq (State.cancelQueued_withdrawn hj)).leads
    · next hheld => exact State.cancelWaiting_leads hj (.inr hheld)
    · next hactive =>
      split
      · exact State.deferCancel_leads hj tag
      · split
        · exact State.cancelPulsing_leads hj (.inl hactive)
        · exact State.cancelWaiting_leads hj (.inl hactive)

theorem takeJobRetire_leads (s : State) (p : List Byte) : s.Leads true (takeJobRetire s p).after := by
  unfold takeJobRetire
  split
  · exact .refl s
  · next j h =>
    have hj : s.job? j.id = some j := by rw [(State.job?_some h).1]; exact h
    split
    · next hfinal =>
      simp only [Bool.and_eq_true, beq_iff_eq] at hfinal
      exact (State.Move.retire hj hfinal.1 hfinal.2).leads
    · exact .refl s

theorem State.lowestFree?_some {s : State} {h : Handle} (hh : s.lowestFree? = some h) :
    (s.block h).state = .free := by simpa using List.find?_some hh

theorem takeBlockOpen_leads (s : State) : s.Leads true (takeBlockOpen s).after := by
  unfold takeBlockOpen
  split
  · exact .refl s
  · next h hh =>
    have hfree := State.lowestFree?_some hh
    refine (State.Move.block s h (fun _ => Block.opened) (fun hl => ?_) fun _ => rfl).leads
    unfold Block.Lawful at hl
    simp only [hfree] at hl
    exact ⟨⟨rfl, Nat.zero_le _, rfl, rfl⟩, hl.2.2.1.symm⟩

theorem takeBlockWrite_leads (s : State) (p : List Byte) : s.Leads true (takeBlockWrite s p).after := by
  unfold takeBlockWrite
  simp only
  split
  · exact .refl s
  · next h hh =>
    split
    · exact .refl s
    · next hstate =>
      split
      · exact .refl s
      · next hrange =>
        have hfilling : (s.block h).state = .filling := not_not.1 hstate
        have hfit : (at? p 1).toNat + (p.drop 2).length ≤ 256 := Nat.not_lt.1 hrange
        simp only [Taken.after]
        refine (State.Move.block s h _ (fun hl => ⟨?_, rfl⟩) fun hwf =>
          Memory.wf_writeAll hwf hfit).leads
        unfold Block.Lawful at hl ⊢
        simp only [hfilling] at hl ⊢
        exact ⟨hl.1, max_le hl.2.1 hfit, hl.2.2⟩

theorem takeBlockSeal_leads (s : State) (p : List Byte) : s.Leads true (takeBlockSeal s p).after := by
  unfold takeBlockSeal
  split
  · exact .refl s
  · next h hh =>
    simp only
    split
    · exact .refl s
    · next hstate =>
      split
      · exact .refl s
      · next hfill =>
        split
        · simp only [Taken.after]
          refine (State.Move.block s h _ (fun hl => ⟨?_, rfl⟩) fun hwf => hwf).leads
          unfold Block.Lawful at hl ⊢
          simp only [not_not.1 hstate] at hl ⊢
          exact ⟨Nat.one_le_iff_ne_zero.2 hfill, hl.2.1, rfl, .inl hl.1⟩
        · exact .refl s

theorem Block.freed_lawful (b : Block) : b.freed.Lawful := ⟨rfl, rfl, rfl, rfl⟩

theorem takeBlockRelease_leads (s : State) (p : List Byte) :
    s.Leads true (takeBlockRelease s p).after := by
  unfold takeBlockRelease
  split
  · exact .refl s
  · next h hh =>
    obtain ⟨-, -, hfree⟩ := State.heldBlock?_some hh
    refine (State.Move.block s h _ (fun hl => ?_) fun hwf => ?_).leads
    · unfold Block.released
      split
      · next hsealed =>
        refine ⟨?_, rfl⟩
        unfold Block.Lawful at hl ⊢
        simp only [hsealed.1] at hl ⊢
        exact ⟨hl.1, hl.2.1, hl.2.2.1, .inr hsealed.2⟩
      · next hnot =>
        refine ⟨Block.freed_lawful _, ?_⟩
        show 0 = (s.block h).refs
        unfold Block.Lawful at hl
        cases hstate : (s.block h).state <;> simp_all
    · unfold Block.released
      split <;> exact hwf

theorem takeProfileLoad_leads (s : State) (p : List Byte) : s.Leads true (takeProfileLoad s p).after := by
  unfold takeProfileLoad
  simp only
  split
  · exact .refl s
  · repeat' split
    all_goals first | exact .refl s | exact s.setProfiles_leads _

theorem takeLaneRestart_leads (s : State) (p : List Byte) : s.Leads true (takeLaneRestart s p).after := by
  unfold takeLaneRestart
  split
  · exact .refl s
  · split
    · exact (s.setLaneState_leads _ _).move (.start _ _)
    · exact .refl s

theorem takeSupplyResume_leads (s : State) : s.Leads true (takeSupplyResume s).after := by
  unfold takeSupplyResume
  split
  · exact .refl s
  · exact .refl s
  · next h =>
    have hfold : ∀ (ls : List LaneId) {u : State}, s.Leads false u → s.Leads false (u.resumeLanes ls) :=
      fun ls => by
        induction ls with
        | nil => exact fun hu => hu
        | cons l ls ih => exact fun {u} hu => ih (hu.trans_loose (u.resumeLane_leads l))
    exact (hfold s.heldLanes (State.LooseMove.supplyUp s h).leads).test

theorem Outbox.serveOwed_waitingLanes (o : Outbox) : o.serveOwed.waitingLanes = o.waitingLanes := by
  unfold Outbox.serveOwed
  split
  · split <;> rfl
  · rfl

theorem takeReportAck_leads (s : State) (p : List Byte) : s.Leads true (takeReportAck s p).after := by
  unfold takeReportAck
  split
  · exact .refl s
  · next o ho =>
    refine (State.Move.serve s o.serveOwed (fun hl => (hl.sound.acknowledge ho).1.serveOwed) ?_).leads
    rw [o.serveOwed_waitingLanes]
    unfold Outbox.acknowledge at ho
    split at ho
    · obtain rfl := Option.some.inj ho; rfl
    · cases ho

/-! ### ENGINE-RESET -/

theorem Outbox.emptied_lawful : Outbox.emptied.Lawful :=
  ⟨by decide, by decide, by decide, by decide, by decide, trivial, .nil, by simp [Outbox.emptied],
    by decide, by simp [Outbox.emptied]⟩

theorem Outbox.afterReset_lawful (epoch : Word16) : (Outbox.afterReset epoch).Lawful :=
  (Outbox.emptied_lawful.enqueue (b := .engineReady epoch)
    (Outbox.emptied_lawful.sound.enqueue_general (by decide) rfl))

theorem State.lane_replicate (l : LaneId) (s : State)
    (h : s.lanes = Vector.replicate 8 Lane.afterReset) : s.lane l = .afterReset := by
  simp [State.lane, h]

theorem State.engineReset_cleared (s : State) (t : Fin 16) (tag : Byte) (d : Digest) :
    s.ClearedTo (s.engineReset t tag d) := by
  let aborted := (s.deferred.map DeferredCancel.abortedReply).take Config.abortedReplies
  have haborted : aborted.length ≤ 7 := List.length_take_le _ _
  have hframe := State.placeReply_onlyChanges
    (((((s.setReplyQueue aborted).clearWork s.supply.psupOk).setEpoch (s.epoch + 1)).setTags
      (Vector.replicate 16 TagEntry.free)).setTagEntry t
        (.replied d (replyFrame Request.engineReset.kind tag .ok (be16 (s.epoch + 1).toNat))))
    (replyFrame Request.engineReset.kind tag .ok (be16 (s.epoch + 1).toNat))
  constructor
  case jobs => exact hframe .jobs (by decide)
  case lastId => exact hframe .lastId (by decide)
  case faults => exact hframe .faults (by decide)
  case lanes => exact fun l => State.lane_replicate l _ (hframe .lanes (by decide))
  case freeUnits => exact hframe .freeUnits (by decide)
  case grantQueue => exact hframe .grantQueue (by decide)
  case replies =>
    have hplace : ∀ (v : State) (f : Frame), v.replyQueue.length ≤ 7 → (v.placeReply f).replyQueue.length ≤ 8 :=
      fun v f hv => by
        unfold State.placeReply
        split
        · rw [State.setReplyQueue_replyQueue, List.length_append, List.length_singleton]; omega
        · omega
    exact hplace _ _ haborted
  case outbox => exact Outbox.afterReset_lawful _
  case waitingLanes => rfl
  case blocks =>
    intro h
    have hblock : (s.engineReset t tag d).block h = (s.block h).freed := by
      have hb : (s.engineReset t tag d).blocks = s.blocks.map Block.freed := hframe .blocks (by decide)
      simp [State.block, hb]
    rw [hblock]
    exact ⟨Block.freed_lawful _, rfl, fun hwf => hwf⟩

/-! ### Dispatch -/

theorem takeProfileRead_leads (s : State) (p : List Byte) : s.Leads true (takeProfileRead s p).after := by
  unfold takeProfileRead
  split <;> exact .refl s

theorem takeBlockQuery_leads (s : State) (p : List Byte) : s.Leads true (takeBlockQuery s p).after := by
  unfold takeBlockQuery
  split <;> exact .refl s

theorem takeJobQuery_leads (s : State) (p : List Byte) : s.Leads true (takeJobQuery s p).after := by
  unfold takeJobQuery
  split <;> exact .refl s

theorem takeFaultsRead_leads (s : State) (p : List Byte) : s.Leads true (takeFaultsRead s p).after := by
  unfold takeFaultsRead
  split
  · exact .refl s
  · simp only
    split <;> exact .refl s

theorem carryOut_leads (r : Request) (t : Fin 16) (tag : Byte) (d : Digest) (p : List Byte) (s : State) :
    s.Leads true (carryOut r t tag d p s).after := by
  cases r
  case signOn => exact .refl s
  case status => exact .refl s
  case engineReset => exact (State.Move.reset (s.engineReset_cleared t tag d)).leads
  case profileLoad => exact takeProfileLoad_leads s p
  case profileRead => exact takeProfileRead_leads s p
  case blockOpen => exact takeBlockOpen_leads s
  case blockWrite => exact takeBlockWrite_leads s p
  case blockSeal => exact takeBlockSeal_leads s p
  case blockRelease => exact takeBlockRelease_leads s p
  case blockQuery => exact takeBlockQuery_leads s p
  case jobSubmit => exact takeJobSubmit_leads s p
  case jobQuery => exact takeJobQuery_leads s p
  case jobCancel => exact takeJobCancel_leads s tag p
  case jobRetire => exact takeJobRetire_leads s p
  case faultsRead => exact takeFaultsRead_leads s p
  case laneRestart => exact takeLaneRestart_leads s p
  case supplyResume => exact takeSupplyResume_leads s
  case reportAck => exact takeReportAck_leads s p

theorem State.takeRequest_leads (s : State) (t : Fin 16) (f : Frame) : s.Leads true (s.takeRequest t f) := by
  have hjudge : s.Leads true (judgeRequest t f (s.setTagEntry t (.inFlight f.digest))).after := by
    refine (s.setTagEntry_leads t (.inFlight f.digest)).trans ?_
    unfold judgeRequest
    split
    · exact .refl _
    · split
      · exact carryOut_leads _ t _ _ _ _
      · exact .refl _
  unfold State.takeRequest
  split <;> simp only [*, Taken.after] at hjudge
  · exact hjudge.trans (State.completeTag_leads _ _ _ _)
  · exact hjudge
  · exact hjudge

theorem State.dispatch_leads (s : State) (f : Frame) : s.Leads true (s.dispatch f) := by
  unfold State.dispatch
  split
  · exact s.placeReply_leads _
  · split
    · exact s.takeRequest_leads _ f
    · split
      · exact s.placeReply_leads _
      · exact s.takeRequest_leads _ f
    · split
      · exact .refl s
      · exact s.placeReply_leads _

theorem Outbox.endStall_waitingLanes (o : Outbox) : o.endStall.waitingLanes = o.waitingLanes := by
  unfold Outbox.endStall
  split <;> rfl

theorem State.frameArrives_leads (s : State) (f : Frame) : s.Leads true (s.frameArrives f) := by
  have htaken : s.Leads true ((s.setOutbox s.outbox.endStall).dispatch f) :=
    (Move.outbox s _ Outbox.Lawful.endStall s.outbox.endStall_waitingLanes).leads.trans
      (State.dispatch_leads _ f)
  unfold State.frameArrives
  simp only
  split
  · exact htaken.trans (State.transmit_leads _)
  · exact htaken.trans (State.transmitEither_leads _)

/-! ### The receiver -/

theorem State.rxByte_leads (s : State) (b : RxByte) : s.Leads true (s.rxByte b) := by
  unfold State.rxByte
  simp only
  split
  · split
    · exact s.setRx_leads _
    · exact .refl s
  · split
    · exact s.setRx_leads _
    · split <;> exact s.setRx_leads _
  · exact s.setRx_leads _
  · split
    · split
      · exact (s.setRx_leads _).trans (State.frameArrives_leads _ _)
      · exact s.setRx_leads _
    · exact s.setRx_leads _

theorem rescanAll_leads (fuel : Nat) (s : State) : s.Leads true (rescanAll fuel s) := by
  induction fuel generalizing s with
  | zero => exact .refl s
  | succ n ih =>
    unfold rescanAll
    split
    · exact .refl s
    · exact ((s.setRx_leads _).trans (State.rxByte_leads _ _)).trans (ih _)

theorem State.rescanned_leads (s : State) : s.Leads true s.rescanned := rescanAll_leads _ s

theorem State.characterPassed_leads (s : State) (high : Bool) : s.Leads true (s.characterPassed high) := by
  cases high <;> exact s.setRx_leads _

theorem State.frameTimerExpires_leads (s : State) : s.Leads true s.frameTimerExpires := by
  unfold State.frameTimerExpires
  split
  · exact (s.setRx_leads _).trans (State.rescanned_leads _)
  · exact .refl s

theorem State.breakTaken_leads (s : State) : s.Leads true s.breakTaken :=
  (s.setRx_leads _).move (.serve _ s.outbox.rewind.merge (fun h => h.sound.rewind_merge)
    s.outbox.rewind_merge_waitingLanes)

theorem State.breakRecognised_leads (s : State) : s.Leads true s.breakRecognised := by
  unfold State.breakRecognised
  split
  · exact .refl s
  · exact s.breakTaken_leads
  · exact s.breakTaken_leads

/-! ### Pins and resets -/

theorem Outbox.offerSupply_waitingLanes (o : Outbox) (n : Notice) :
    (o.offerSupply n).waitingLanes = o.waitingLanes := by
  unfold Outbox.offerSupply
  simp only
  repeat' split
  all_goals rfl

theorem State.offerSupplyNotice_leads (s : State) : s.Leads true s.offerSupplyNotice :=
  (Move.outbox s _ (fun h => h.offerSupply _) (s.outbox.offerSupply_waitingLanes _)).leads

theorem State.psupFallTaken_leads (s : State) : s.Leads true s.psupFallTaken := by
  unfold State.psupFallTaken
  split
  · exact (Move.fall s).leads.trans (State.offerSupplyNotice_leads _)
  · exact (Move.fall s).leads.trans (State.offerSupplyNotice_leads _)
  · exact .refl s

theorem State.psupRiseTaken_leads (s : State) : s.Leads true s.psupRiseTaken := by
  unfold State.psupRiseTaken
  split
  · next h => exact (Move.rise s h).leads.trans (State.offerSupplyNotice_leads _)
  · exact .refl s
  · exact .refl s

theorem State.block_replicate (h : Handle) (s : State)
    (hs : s.blocks = Vector.replicate 64 Block.afterPowerOn) : s.block h = .afterPowerOn := by
  simp [State.block, hs]

theorem Block.afterPowerOn_lawful : Block.afterPowerOn.Lawful := ⟨rfl, rfl, rfl, rfl⟩

theorem State.heldInReset_cleared (s : State) : s.ClearedTo s.heldInReset where
  jobs := rfl
  lastId := rfl
  faults := rfl
  lanes l := State.lane_replicate l _ rfl
  freeUnits := rfl
  grantQueue := rfl
  replies := Nat.zero_le 8
  outbox := Outbox.emptied_lawful
  waitingLanes := rfl
  blocks h := by
    rw [State.block_replicate h s.heldInReset rfl]
    exact ⟨Block.afterPowerOn_lawful, rfl, fun _ => rfl⟩

theorem State.released_cleared (s : State) (baud1 baud0 psupOk rx : Bool) :
    s.ClearedTo (s.released baud1 baud0 psupOk rx) where
  jobs := rfl
  lastId := rfl
  faults := rfl
  lanes l := State.lane_replicate l _ rfl
  freeUnits := rfl
  grantQueue := rfl
  replies := Nat.zero_le 8
  outbox := Outbox.afterReset_lawful 0
  waitingLanes := rfl
  blocks h := by
    rw [State.block_replicate h (s.released baud1 baud0 psupOk rx) rfl]
    exact ⟨Block.afterPowerOn_lawful, rfl, fun _ => rfl⟩

/-! ### Steps -/

theorem whenRunning_leads {s t : State} {effect : State → State} (h : whenRunning s effect = .next t)
    (he : ∀ s : State, s.Leads true (effect s)) : s.Leads true t := by
  unfold whenRunning at h
  split at h
  · obtain rfl := Host.Outcome.next.inj h; exact .refl s
  · obtain rfl := Host.Outcome.next.inj h; exact s.transmit_leads.trans (he _)

theorem frameCommand_leads {s t : State} {kind tag : Byte} {p : List Byte}
    (h : frameCommand kind tag p s = .next t) : s.Leads true t := by
  unfold frameCommand at h
  split at h
  · exact whenRunning_leads h fun s => (s.setRx_leads _).trans (State.frameArrives_leads _ _)
  · cases h

theorem State.cycleEndsAndTransmit_leads (s : State) (l : LaneId) (kind : CycleKind) (o : CycleOutcome)
    (data : List Byte) : s.Leads true (s.cycleEndsAndTransmit l kind o data) :=
  (s.cycleEnds_leads l kind o data).trans (State.transmit_leads _)

theorem exec_leads {c : Instr} {s t : State} (h : exec c s = .next t) : s.Leads true t := by
  cases c
  case rxCharacter moment b framing =>
    rw [exec, execRxCharacter] at h
    refine whenRunning_leads h fun s => ?_
    cases framing with
    | good => exact ((s.setRx_leads _).trans (State.rxByte_leads _ _)).trans (State.rescanned_leads _)
    | stopLow => exact s.setRx_leads _
    | begunInReset high => exact s.characterPassed_leads high
  case frameTimerExpiry =>
    rw [exec, execFrameTimerExpiry] at h
    exact whenRunning_leads h State.frameTimerExpires_leads
  case rxBreak =>
    rw [exec, execRxBreak] at h
    exact whenRunning_leads h fun s => s.breakRecognised_leads.trans (State.transmit_leads _)
  case transmitFrameEnd =>
    rw [exec, execTransmitFrameEnd] at h
    exact whenRunning_leads h State.frameEnded_leads
  case ackTimerExpiry =>
    rw [exec, execAckTimerExpiry] at h
    refine whenRunning_leads h fun s => ?_
    split
    · refine (State.Move.outbox s _ Outbox.Lawful.ackExpired ?_).leads.trans (State.transmit_leads _)
      unfold Outbox.ackExpired
      split <;> rfl
    · exact .refl s
  case laneGapEnd l =>
    rw [exec, execLaneGapEnd] at h
    exact whenRunning_leads h fun s => s.updUnit_leads l _
  case answerSlot l b =>
    rw [exec, execAnswerSlot] at h
    refine whenRunning_leads h fun s => ?_
    split
    · exact .refl s
    · split
      · exact .refl s
      · exact s.updUnit_leads l _
      · exact s.cycleEndsAndTransmit_leads l _ _ _
  case answerWindowClose l =>
    rw [exec, execAnswerWindowClose] at h
    refine whenRunning_leads h fun s => ?_
    split
    · exact .refl s
    · split
      · exact s.cycleEndsAndTransmit_leads l _ _ _
      · exact .refl s
  case cycleCeiling l =>
    rw [exec, execCycleCeiling] at h
    refine whenRunning_leads h fun s => ?_
    split
    · exact .refl s
    · split
      · exact s.cycleEndsAndTransmit_leads l _ _ _
      · exact .refl s
  case pulseTimerExpiry l =>
    rw [exec, execPulseTimerExpiry] at h
    refine whenRunning_leads h fun s => ?_
    split
    · exact s.pulseExpires_leads l
    · exact .refl s
  case psupOkFall =>
    change execPsupOkFall s = _ at h
    unfold execPsupOkFall at h
    split at h
    · obtain rfl := Host.Outcome.next.inj h; exact (State.Move.pin s false).leads
    · exact whenRunning_leads h fun s => ((State.Move.pin s false).leads.trans
        (State.psupFallTaken_leads _)).trans (State.transmit_leads _)
  case psupOkRise =>
    change execPsupOkRise s = _ at h
    unfold execPsupOkRise at h
    split at h
    · obtain rfl := Host.Outcome.next.inj h; exact (State.Move.pin s true).leads
    · exact whenRunning_leads h fun s => ((State.Move.pin s true).leads.trans
        (State.psupRiseTaken_leads _)).trans (State.transmit_leads _)
  case powerOn =>
    obtain rfl := Host.Outcome.next.inj h; exact (State.Move.reset s.heldInReset_cleared).leads
  case resetAssert =>
    obtain rfl := Host.Outcome.next.inj h; exact (State.Move.reset s.heldInReset_cleared).leads
  case resetRelease baud1 baud0 psupOk rx =>
    change execResetRelease baud1 baud0 psupOk rx s = _ at h
    unfold execResetRelease at h
    split at h
    · obtain rfl := Host.Outcome.next.inj h
      exact (State.Move.reset (s.released_cleared baud1 baud0 psupOk rx)).leads
    · obtain rfl := Host.Outcome.next.inj h; exact .refl s
  case sentMoment l moment =>
    rw [exec, execSentMoment] at h
    exact whenRunning_leads h fun s => s.updUnit_leads l _
  all_goals exact frameCommand_leads h

/-- Every step is a run of moves, with the grant test made where one is called for. -/
theorem step_leads {s t : State} (h : step s = .next t) : s.Leads true t := by
  unfold step at h
  split at h
  · obtain rfl := Host.Outcome.next.inj h; exact .refl s
  · exact (s.setPending_leads _).trans (exec_leads h)

end Sys2Proof.Machine
end

section
/-! PROOF. The laws of the programming supply (R74, R75, R77, R78, R84, R220): every step keeps the budget, keeps
each switch closed exactly under a grant, and leaves no fitting entry at the head of the grant queue. -/

-- One proof after another: a thread for each of them would take too much memory.
set_option Elab.async false

namespace Sys2Proof.Machine

/-! ### Laws that every move keeps -/

/-- What `grantFrom` is made of: granted entries, and the queue that remains. -/
theorem grantFrom_keeps {P : State → Prop} (hqueue : ∀ s q, P s → P (s.setGrantQueue q))
    (hgrant : ∀ s e, s.supply.state = .up → e.cost ≤ s.freeUnits → P s → P (s.grant e))
    (q : List GrantEntry) (s : State) (h : P s) : P (grantFrom q s) := by
  induction q generalizing s with
  | nil => exact hqueue s [] h
  | cons e rest ih =>
    unfold grantFrom
    split
    · next hfits => exact ih _ (hgrant s e hfits.1 hfits.2 h)
    · exact hqueue s _ h

/-- A law that every single change and every grant keeps, every step keeps. -/
theorem step_keeps {P : State → Prop} (hmove : ∀ {s t : State}, s.Move t → P s → P t)
    (hloose : ∀ {s t : State}, s.LooseMove t → P s → P t)
    (hgrant : ∀ s e, s.supply.state = .up → e.cost ≤ s.freeUnits → P s → P (s.grant e)) {s t : State}
    (h : P s) (hstep : step s = .next t) : P t := by
  have key : ∀ {b : Bool} {s t : State}, s.Leads b t → P s → P t := by
    intro b s t hleads hs
    induction hleads with
    | refl => exact hs
    | move _ m ih => exact hmove m (ih hs)
    | loosen _ m ih => exact hloose m (ih hs)
    | test _ ih =>
      exact grantFrom_keeps (fun s q => hloose (.grantQueue s q)) hgrant _ _ (ih hs)
  exact key (step_leads hstep) h

/-! ### Changes that leave the programming supply alone -/

/-- From `s` to `t` nothing of the programming supply changes. -/
structure State.SamePower (s t : State) : Prop where
  lanes : ∀ l, (s.lane l).SamePower (t.lane l)
  freeUnits : t.freeUnits = s.freeUnits
  grantQueue : t.grantQueue = s.grantQueue
  supply : t.supply.state = s.supply.state

theorem State.SamePower.refl (s : State) : s.SamePower s := ⟨fun _ => .refl _, rfl, rfl, rfl⟩

theorem State.SamePower.trans {s t u : State} (h : s.SamePower t) (g : t.SamePower u) : s.SamePower u :=
  ⟨fun l => (h.lanes l).trans (g.lanes l), g.freeUnits.trans h.freeUnits,
    g.grantQueue.trans h.grantQueue, g.supply.trans h.supply⟩

/-- A frame without the fields of the programming supply, and the lanes looked at one by one. -/
theorem State.OnlyChanges.samePower {s t : State} {fs : List StateField} (h : s.OnlyChanges t fs)
    (hlanes : ∀ l, (s.lane l).SamePower (t.lane l)) (hunits : StateField.freeUnits ∉ fs)
    (hqueue : StateField.grantQueue ∉ fs) (hsupply : StateField.supply ∉ fs) : s.SamePower t :=
  ⟨hlanes, h .freeUnits hunits, h .grantQueue hqueue, congrArg Supply.state (h .supply hsupply)⟩

theorem State.lane_of_lanes {s t : State} (h : t.lanes = s.lanes) (l : LaneId) : t.lane l = s.lane l :=
  congrArg (fun v : Vector Lane 8 => v[l]) h

theorem Lane.SamePower.of_eq {x y : Lane} (h : y = x) : x.SamePower y := h ▸ .refl x

theorem State.samePower_updLane {s : State} {l : LaneId} {f : Lane → Lane}
    (h : (s.lane l).SamePower (f (s.lane l))) : s.SamePower (s.updLane l f) := by
  refine (s.updLane_onlyChanges l f).samePower (fun m => ?_) (by decide) (by decide) (by decide)
  rw [State.lane_updLane]
  split
  · next e => subst e; exact h
  · exact .refl _

theorem State.samePower_setJobs (s : State) (v : List Job) : s.SamePower (s.setJobs v) :=
  ⟨fun _ => .refl _, rfl, rfl, rfl⟩

theorem State.samePower_setOutbox (s : State) (v : Outbox) : s.SamePower (s.setOutbox v) :=
  ⟨fun _ => .refl _, rfl, rfl, rfl⟩

/-- A lane starts nothing, or it is IDLE and a job of the table stands at the head of its queue. -/
theorem State.startHead_cases (s : State) (l : LaneId) :
    s.startHead l = s ∨ ∃ id rest j, (s.lane l).state = .idle ∧ (s.lane l).queue = id :: rest ∧
      s.job? id = some j := by
  cases hstate : (s.lane l).state
  case idle =>
    cases hqueue : (s.lane l).queue with
    | nil => exact .inl (State.startHead_of_nil hqueue)
    | cons id rest =>
      cases hj : s.job? id with
      | none => left; unfold State.startHead; simp only [hstate, hqueue, hj]
      | some j => exact .inr ⟨id, rest, j, rfl, rfl, hj⟩
  all_goals exact .inl (State.startHead_of_ne (by simp [hstate]))

theorem State.samePower_startHead (s : State) (l : LaneId) : s.SamePower (s.startHead l) := by
  rcases s.startHead_cases l with h | ⟨id, rest, j, hstate, hqueue, hj⟩
  · rw [h]; exact .refl s
  · rw [State.startHead_eq hstate hqueue hj]
    exact (State.samePower_updLane ⟨rfl, rfl, rfl, rfl⟩).trans (State.samePower_setJobs _ _)

/-- A lane with no WAITING job only leaves the waiting-lane queue. -/
theorem State.serveLane_of_nil {s : State} {l : LaneId} (h : (s.lane l).waitingEnds = [])
    (others : List LaneId) :
    s.serveLane l others = s.setOutbox { s.outbox with waitingLanes := others } := by
  unfold State.serveLane
  simp only [h]

/-- A WAITING job that the table does not hold only leaves its lane's list. -/
theorem State.serveLane_of_unknown {s : State} {l : LaneId} {id : Nat} {more : List Nat}
    (h : (s.lane l).waitingEnds = id :: more) (hj : s.job? id = none) (others : List LaneId) :
    s.serveLane l others = (s.updLane l fun x => { x with waitingEnds := more }).setOutbox
      { s.outbox with waitingLanes := if more.isEmpty then others else others ++ [l] } := by
  unfold State.serveLane
  simp only [h, hj]

theorem State.samePower_served (s : State) (l : LaneId) (others : List LaneId) (j : Job)
    (more : List Nat) : s.SamePower (s.served l others j more) := by
  have hsent : ∀ (o : Outbox) (js : List Job),
      s.SamePower (((s.setOutbox o).setJobs js).updLane l fun x => { x with waitingEnds := more }) :=
    fun o js => ((s.samePower_setOutbox o).trans (State.samePower_setJobs _ js)).trans
      (State.samePower_updLane ⟨rfl, rfl, rfl, rfl⟩)
  unfold State.served
  simp only
  split
  · exact ((hsent _ _).trans (State.samePower_updLane ⟨rfl, rfl, rfl, rfl⟩)).trans
      (State.samePower_startHead _ l)
  · exact hsent _ _

theorem State.samePower_serveLane (s : State) (l : LaneId) (others : List LaneId) :
    s.SamePower (s.serveLane l others) := by
  cases hends : (s.lane l).waitingEnds with
  | nil => rw [State.serveLane_of_nil hends]; exact s.samePower_setOutbox _
  | cons id more =>
    cases hj : s.job? id with
    | none =>
      rw [State.serveLane_of_unknown hends hj]
      exact (State.samePower_updLane ⟨rfl, rfl, rfl, rfl⟩).trans (State.samePower_setOutbox _ _)
    | some j => rw [State.serveLane_eq hends hj]; exact s.samePower_served l others j more

theorem samePower_serveWaiting (fuel : Nat) (s : State) : s.SamePower (serveWaiting fuel s) := by
  induction fuel generalizing s with
  | zero => exact .refl s
  | succ n ih =>
    unfold serveWaiting
    split
    · exact .refl s
    · split
      · exact (s.samePower_serveLane _ _).trans (ih _)
      · exact .refl s

theorem Lane.samePower_afterJob (x : Lane) (id : Nat) (room stopped : Bool) :
    x.SamePower (x.afterJob id room stopped) := by
  unfold Lane.afterJob
  cases room <;> exact ⟨rfl, rfl, rfl, rfl⟩

theorem State.CurrentJobEnds.samePower {s w : State} {l : LaneId} {j : Job} {st : JobState}
    {reason : EndReason} {stopped : Bool} (h : s.CurrentJobEnds w l j st reason stopped) :
    s.SamePower w := by
  obtain ⟨-, hlane, hothers, hframe⟩ := h
  refine hframe.samePower (fun m => ?_) (by decide) (by decide) (by decide)
  by_cases hm : m = l
  · subst hm; rw [hlane]; exact Lane.samePower_afterJob _ _ _ _
  · exact .of_eq (hothers m hm)

theorem State.Withdrawn.samePower {s w : State} {j : Job} (h : s.Withdrawn w j) : s.SamePower w := by
  refine h.frame.samePower (fun m => ?_) (by decide) (by decide) (by decide)
  by_cases hm : m = j.lane
  · subst hm; rw [h.lane]; exact ⟨rfl, rfl, rfl, rfl⟩
  · exact .of_eq (h.others m hm)

/-- The moves that change something of the programming supply. -/
inductive State.PowerMove : State → State → Prop where
  | slotCleared (s : State) (l : LaneId) (h : (s.lane l).lvpClosed = false ∨ (s.lane l).slot = .cut) :
      PowerMove s (s.updLane l fun x => { x with slot := .none })
  | pulseStarts (s : State) (l : LaneId) (h : (s.lane l).slot = .granted) :
      PowerMove s (s.updLane l fun x => { x with slot := .timing, timer := some x.width })
  | fall (s : State) : PowerMove s (s.setSupply
      { s.supply with state := .down, episodes := s.supply.episodes + 1 }).fallOnLanes
  | rise (s : State) (h : s.supply.state = .down) : PowerMove s (s.setSupplyState .restored)
  | reset {s t : State} (h : s.ClearedTo t) : PowerMove s t

theorem State.Move.power {s t : State} (m : s.Move t) : s.SamePower t ∨ s.PowerMove t := by
  cases m with
  | slotCleared l h => exact .inr (.slotCleared s l h)
  | pulseStarts l h => exact .inr (.pulseStarts s l h)
  | fall => exact .inr (.fall s)
  | rise h => exact .inr (.rise s h)
  | reset h => exact .inr (.reset h)
  | link h =>
    exact .inl (h.samePower (fun l => .of_eq (State.lane_of_lanes (h .lanes (by decide)) l)) (by decide)
      (by decide) (by decide))
  | serve o _ _ => exact .inl ((s.samePower_setOutbox o).trans (samePower_serveWaiting _ _))
  | lane l f hp _ => exact .inl (State.samePower_updLane hp)
  | currentState l v _ =>
    have h := s.updCurrentJob_onlyChanges l fun j => { j with state := v }
    exact .inl (h.samePower (fun m => .of_eq (State.lane_of_lanes (h .lanes (by decide)) m)) (by decide)
      (by decide) (by decide))
  | start l => exact .inl (s.samePower_startHead l)
  | ends _ _ _ h => exact .inl h.samePower
  | withdrawn _ _ h => exact .inl h.samePower
  | fault r _ _ =>
    have h := s.recordFault_onlyChanges r
    exact .inl (h.samePower (fun m => .of_eq (State.lane_of_lanes (h .lanes (by decide)) m)) (by decide)
      (by decide) (by decide))
  | create f p w l _ _ _ =>
    refine .inl ((s.createJob_onlyChanges f p w l).samePower (fun m => ?_) (by decide) (by decide)
      (by decide))
    rw [State.createJob_lane]
    split
    · next e => subst e; exact ⟨rfl, rfl, rfl, rfl⟩
    · exact .refl _
  | pin v => exact .inl ⟨fun _ => .refl _, rfl, rfl, rfl⟩
  | replies q _ => exact .inl ⟨fun _ => .refl _, rfl, rfl, rfl⟩
  | outbox o _ _ => exact .inl (s.samePower_setOutbox o)
  | job id f _ => exact .inl ⟨fun _ => .refl _, rfl, rfl, rfl⟩
  | retire _ _ _ => exact .inl ⟨fun _ => .refl _, rfl, rfl, rfl⟩
  | block h f _ _ => exact .inl ⟨fun _ => .refl _, rfl, rfl, rfl⟩

/-! ### The budget (R74) -/

theorem State.unitsHeld_congr {s t : State} (h : ∀ l, (t.lane l).unitsHeld = (s.lane l).unitsHeld) :
    t.unitsHeld = s.unitsHeld := by
  unfold State.unitsHeld
  refine congrArg List.sum (List.ext_getElem (by simp) fun n hn _ => ?_)
  have hn' : n < 8 := by simpa using hn
  simpa [State.lane] using h ⟨n, hn'⟩

theorem State.BudgetKept.congr {s t : State} (h : s.BudgetKept) (hfree : t.freeUnits = s.freeUnits)
    (hheld : ∀ l, (t.lane l).unitsHeld = (s.lane l).unitsHeld) : t.BudgetKept := by
  unfold State.BudgetKept at h ⊢
  rw [hfree, State.unitsHeld_congr hheld]
  exact h

theorem State.BudgetKept.of_samePower {s t : State} (h : s.BudgetKept) (hp : s.SamePower t) :
    t.BudgetKept := h.congr hp.freeUnits fun l => (hp.lanes l).unitsHeld

/-- The units that an opened switch held return to the free count. -/
theorem State.BudgetKept.openSwitch {s : State} (h : s.BudgetKept) (l : LaneId) (v : PulseSlot) :
    (s.openSwitch l v).BudgetKept := by
  have hmoved := State.unitsHeld_updLane (s.setFreeUnits (s.freeUnits + (s.lane l).unitsHeld)) l
    fun x => { x with lvpClosed := false, unitsHeld := 0, timer := none, slot := v }
  have hkept : s.freeUnits + s.unitsHeld = 8 := h
  show s.freeUnits + (s.lane l).unitsHeld + (s.openSwitch l v).unitsHeld = 8
  change (s.openSwitch l v).unitsHeld + (s.lane l).unitsHeld = s.unitsHeld + 0 at hmoved
  omega

/-- The cost of a granted entry moves from the free count to the lane. -/
theorem State.BudgetKept.grant {s : State} (h : s.BudgetKept) {e : GrantEntry}
    (hfits : e.cost ≤ s.freeUnits) : (s.grant e).BudgetKept := by
  have hmoved := s.unitsHeld_updLane e.lane fun x => x.grantedBy e
  have hkept : s.freeUnits + s.unitsHeld = 8 := h
  rw [State.grant_eq]
  show s.freeUnits - e.cost + (s.updLane e.lane fun x => x.grantedBy e).unitsHeld = 8
  change _ = s.unitsHeld + ((s.lane e.lane).unitsHeld + e.cost) at hmoved
  omega

theorem State.samePower_holdLane (s : State) (l : LaneId) : s.SamePower (s.holdLane l) := by
  rw [State.holdLane_eq]
  exact (State.samePower_updLane ⟨rfl, rfl, rfl, rfl⟩).trans (State.samePower_setJobs _ _)

theorem State.BudgetKept.fallOnLane {s : State} (h : s.BudgetKept) (l : LaneId) :
    (s.fallOnLane l).BudgetKept := by
  have hhold : ∀ {u : State}, u.BudgetKept → (u.holdLane l).BudgetKept := fun hu =>
    hu.of_samePower (State.samePower_holdLane _ l)
  unfold State.fallOnLane
  cases (s.lane l).slot with
  | timing =>
    have hcut := hhold (h.openSwitch l .none)
    dsimp only
    split
    · exact hhold hcut
    all_goals exact hcut
  | granted =>
    have hcut := h.openSwitch l .cut
    dsimp only
    split
    · exact hhold hcut
    all_goals exact hcut
  | none | cut =>
    dsimp only
    split
    · exact hhold h
    all_goals exact h

theorem State.BudgetKept.foldl_fallOnLane (ls : List LaneId) {s : State} (h : s.BudgetKept) :
    (ls.foldl State.fallOnLane s).BudgetKept := by
  induction ls generalizing s with
  | nil => exact h
  | cons l ls ih => exact ih (h.fallOnLane l)

theorem State.BudgetKept.fallOnLanes {s : State} (h : s.BudgetKept) : s.fallOnLanes.BudgetKept := by
  have hall := h.foldl_fallOnLane (List.finRange 8)
  unfold State.fallOnLanes
  generalize (List.finRange 8).foldl State.fallOnLane s = u at hall ⊢
  exact hall

theorem State.BudgetKept.powerMove {s t : State} (h : s.BudgetKept) (m : s.PowerMove t) :
    t.BudgetKept := by
  have hlane : ∀ (l : LaneId) {f : Lane → Lane}, (∀ x, (f x).unitsHeld = x.unitsHeld) →
      (s.updLane l f).BudgetKept := fun l f hf => h.congr rfl fun m => by
    rw [State.lane_updLane]
    split
    · next e => subst e; exact hf _
    · rfl
  cases m with
  | slotCleared l _ => exact hlane l fun _ => rfl
  | pulseStarts l _ => exact hlane l fun _ => rfl
  | fall => exact State.BudgetKept.fallOnLanes (s := s.setSupply _) h
  | rise _ => exact h
  | reset hc =>
    have hzero : t.unitsHeld = 0 := State.unitsHeld_eq_zero fun l => by rw [hc.lanes]; rfl
    unfold State.BudgetKept
    rw [hc.freeUnits, hzero]

/-! ### The switches (R75, R84, R220) -/

theorem Lane.SwitchFollowsSlot.of_samePower {x y : Lane} (h : x.SwitchFollowsSlot) (hp : x.SamePower y) :
    y.SwitchFollowsSlot := by
  unfold Lane.SwitchFollowsSlot at h ⊢
  rw [hp.slot, hp.lvpClosed, hp.unitsHeld, hp.timer]
  exact h

theorem State.SwitchesSafe.of_samePower {s t : State} (h : s.SwitchesSafe) (hp : s.SamePower t) :
    t.SwitchesSafe :=
  ⟨fun l => (h.1 l).of_samePower (hp.lanes l), fun hup l => by
    rw [(hp.lanes l).lvpClosed]; exact h.2 (hp.supply ▸ hup) l⟩

/-- The switches are safe after an update of one lane that keeps its own switch safe. -/
theorem State.SwitchesSafe.updLane {s : State} (h : s.SwitchesSafe) (l : LaneId) {f : Lane → Lane}
    (hf : (f (s.lane l)).SwitchFollowsSlot)
    (hopen : s.supply.state ≠ .up → (f (s.lane l)).lvpClosed = false) : (s.updLane l f).SwitchesSafe := by
  constructor
  · intro m
    rw [State.lane_updLane]
    split
    · next e => subst e; exact hf
    · exact h.1 m
  · intro hup m
    rw [State.lane_updLane]
    split
    · next e => subst e; exact hopen hup
    · exact h.2 hup m

/-- A lane whose switch is open, with no units, its timer stopped and no pulse running. -/
theorem Lane.switchFollowsSlot_of_open {x : Lane} (hopen : x.lvpClosed = false) (hunits : x.unitsHeld = 0)
    (htimer : x.timer = none) (hg : x.slot ≠ .granted) (ht : x.slot ≠ .timing) : x.SwitchFollowsSlot := by
  refine ⟨?_, fun _ => hunits, ?_⟩
  · simp [hopen, hg, ht]
  · simp [htimer, ht]

theorem Lane.fallen_open (x : Lane) : x.fallen.lvpClosed = false ∧ x.fallen.timer = none ∧
    x.fallen.slot ≠ .granted ∧ x.fallen.slot ≠ .timing := by
  have hslot : x.fallen.slot = x.cutAtFall.slot := by unfold Lane.fallen; split <;> rfl
  refine ⟨by unfold Lane.fallen; split <;> rfl, by unfold Lane.fallen; split <;> rfl, ?_, ?_⟩
  all_goals
    rw [hslot]
    unfold Lane.cutAtFall
    cases x.slot <;> simp

theorem State.SwitchesSafe.powerMove {s t : State} (h : s.SwitchesSafe) (m : s.PowerMove t) :
    t.SwitchesSafe := by
  cases m with
  | slotCleared l hl =>
    have hslots : (s.lane l).slot ≠ .granted ∧ (s.lane l).slot ≠ .timing := by
      obtain ⟨hclosed, -, -⟩ := h.1 l
      rcases hl with hl | hl
      · simp only [hl, Bool.false_eq_true, false_iff, not_or] at hclosed
        exact hclosed
      · simp [hl]
    obtain ⟨hopen, hunits, htimer⟩ := (h.1 l).isOpen hslots.1 hslots.2
    exact h.updLane l (Lane.switchFollowsSlot_of_open hopen hunits htimer (by simp) (by simp))
      fun _ => hopen
  | pulseStarts l hl =>
    obtain ⟨hclosed, hunits, -⟩ := h.1 l
    exact h.updLane l ⟨by simpa [hl] using hclosed, hunits, by simp⟩ fun hup => h.2 hup l
  | fall =>
    obtain ⟨hlanes, -, -⟩ := State.fallOnLanes_fellOn (s.setSupply
      { s.supply with state := .down, episodes := s.supply.episodes + 1 }) h.1
    have hlane : ∀ l, _ = (s.lane l).fallen := fun l => (hlanes l).trans (if_pos (List.mem_finRange l))
    constructor
    · intro l
      obtain ⟨hopen, htimer, hg, ht⟩ := (s.lane l).fallen_open
      rw [hlane]
      exact Lane.switchFollowsSlot_of_open hopen (Lane.fallen_unitsHeld _) htimer hg ht
    · intro _ l
      rw [hlane]
      exact (s.lane l).fallen_open.1
  | rise hd => exact ⟨h.1, fun _ => h.2 (by simp [hd])⟩
  | reset hc =>
    constructor
    · intro l
      rw [hc.lanes]
      exact Lane.switchFollowsSlot_of_open rfl rfl rfl (by decide) (by decide)
    · intro _ l
      rw [hc.lanes]; rfl

theorem State.SwitchesSafe.looseMove {s t : State} (h : s.SwitchesSafe) (m : s.LooseMove t) :
    t.SwitchesSafe := by
  cases m with
  | openSwitch l v hv =>
    refine State.SwitchesSafe.updLane (s := s.setFreeUnits _) h l (f := fun x => { x with
      lvpClosed := false, unitsHeld := 0, timer := none, slot := v })
      (Lane.switchFollowsSlot_of_open rfl rfl rfl ?_ ?_) fun _ => rfl
    all_goals rcases hv with rfl | rfl <;> simp
  | grantQueue q => exact h
  | supplyUp _ => exact ⟨h.1, fun hup => absurd rfl hup⟩

/-- A grant is made only while the supply is UP. -/
theorem State.SwitchesSafe.grant {s : State} (h : s.SwitchesSafe) {e : GrantEntry}
    (hup : s.supply.state = .up) : (s.grant e).SwitchesSafe := by
  have hgranted : (s.updLane e.lane fun x => x.grantedBy e).SwitchesSafe :=
    h.updLane e.lane ⟨by simp [Lane.grantedBy], by simp [Lane.grantedBy], by simp [Lane.grantedBy]⟩
      fun hn => absurd hup hn
  rw [State.grant_eq]
  exact hgranted

/-! ### The head of the grant queue (R77, R78) -/

theorem State.HeadWaits.of_samePower {s t : State} (h : s.HeadWaits) (hp : s.SamePower t) :
    t.HeadWaits := by
  unfold State.HeadWaits at h ⊢
  rw [hp.supply, hp.grantQueue, hp.freeUnits]
  exact h

theorem State.HeadWaits.powerMove {s t : State} (h : s.HeadWaits) (m : s.PowerMove t) : t.HeadWaits := by
  cases m with
  | slotCleared l _ => exact h
  | pulseStarts l _ => exact h
  | fall =>
    have hsupply := State.fallOnLanes_onlyChanges (s.setSupply
      { s.supply with state := .down, episodes := s.supply.episodes + 1 }) .supply (by decide)
    intro hup
    rw [StateField.Same] at hsupply
    rw [hsupply] at hup
    exact absurd hup (by simp)
  | rise _ => exact fun hup => absurd hup (by simp [State.setSupplyState])
  | reset hc => exact fun _ e he => absurd he (by simp [hc.grantQueue])

/-- Moves keep the head waiting, and a grant test leaves it so. -/
theorem State.HeadWaits.leads {s t : State} (h : s.HeadWaits) (hleads : s.Leads true t) : t.HeadWaits := by
  have key : ∀ {b : Bool} {s t : State}, s.Leads b t → s.HeadWaits → b = true → t.HeadWaits := by
    intro b s t hl h
    induction hl with
    | refl => exact fun _ => h
    | move _ m ih =>
      intro hb
      rcases m.power with hp | hp
      · exact (ih h hb).of_samePower hp
      · exact (ih h hb).powerMove hp
    | loosen => exact fun hb => absurd hb (by decide)
    | test _ _ =>
      intro _
      obtain ⟨_, _, _, _, hwaits, _, _⟩ := State.grants_grantTest _
      exact hwaits
  exact key hleads h rfl

end Sys2Proof.Machine

open Sys2Proof Sys2Proof.Machine

/-- Settles O6: units move only between the free count and a lane, by an opened switch or a grant that fits. -/
theorem stepsKeepTheBudget : Obligations.StepsKeepTheBudget := by
  intro s t h hstep
  refine step_keeps (P := State.BudgetKept) (fun m hs => ?move) (fun m hs => ?loose)
    (fun s e _ hfits hs => hs.grant hfits) h hstep
  case move =>
    rcases m.power with hp | hp
    · exact hs.of_samePower hp
    · exact hs.powerMove hp
  case loose =>
    cases m with
    | openSwitch l v _ => exact hs.openSwitch l v
    | grantQueue q => exact hs
    | supplyUp _ => exact hs

/-- Settles O7: a switch closes only at a grant, which is made while the supply is UP, and a fall opens every
switch. -/
theorem stepsKeepSwitchesSafe : Obligations.StepsKeepSwitchesSafe := by
  intro s t h hstep
  refine step_keeps (P := State.SwitchesSafe) (fun m hs => ?move) (fun m hs => hs.looseMove m)
    (fun s e hup _ hs => hs.grant hup) h hstep
  rcases m.power with hp | hp
  · exact hs.of_samePower hp
  · exact hs.powerMove hp

/-- Settles O8: every change that could let the head fit is followed by a grant test in the same step. -/
theorem stepsLeaveNoFittingHead : Obligations.StepsLeaveNoFittingHead :=
  fun _ _ h hstep => h.leads (step_leads hstep)
end

section
/-! PROOF. The laws of the outbox (R192, R194 to R198, R204): every step keeps them. -/

-- One proof after another: a thread for each of them would take too much memory.
set_option Elab.async false

namespace Sys2Proof.Machine

/-! ### Serving the waiting lanes -/

/-- The WAITING jobs that the lanes list, as one lane's list changes. -/
theorem State.waitingCount_updLane (s : State) (l : LaneId) (f : Lane → Lane) :
    (s.updLane l f).waitingCount + (s.lane l).waitingEnds.length =
      s.waitingCount + (f (s.lane l)).waitingEnds.length := by
  have h := sum_map_set (fun x : Lane => x.waitingEnds.length) s.lanes.toList l.val (by simp) (f (s.lane l))
  have hl : s.lanes.toList[l.val]'(by simp) = s.lane l := by simp [State.lane]
  rw [hl] at h
  simpa only [State.waitingCount, State.updLane, State.setLanes_lanes, Vector.toList_set] using h

/-- The turns that serving can still take. -/
def State.turns (s : State) : Nat := s.outbox.waitingLanes.length + s.waitingCount

theorem State.serveFuel_eq (s : State) : s.serveFuel = s.turns := rfl

theorem length_requeued (more : List Nat) (l : LaneId) (others : List LaneId) :
    (if more = [] then others else others ++ [l]).length ≤ (l :: others).length := by
  split <;> simp

/-- Each turn takes a lane off the waiting-lane queue or a WAITING job off a lane, and keeps the other laws of
the outbox. -/
theorem State.serveLane_turn {s : State} {l : LaneId} {others : List LaneId}
    (hl : s.outbox.waitingLanes = l :: others) (hfree : 0 < s.outbox.freeGeneral)
    (h : s.outbox.Sound) :
    (s.serveLane l others).outbox.Sound ∧ (s.serveLane l others).turns < s.turns := by
  have hlen : s.outbox.waitingLanes.length = (l :: others).length := by rw [hl]
  cases hends : (s.lane l).waitingEnds with
  | nil =>
    rw [State.serveLane_of_nil hends]
    refine ⟨h.congr rfl rfl rfl rfl, ?_⟩
    show others.length + s.waitingCount < _ + s.waitingCount
    rw [hlen, List.length_cons]
    omega
  | cons id more =>
    have hqueue := length_requeued more l others
    cases hj : s.job? id with
    | none =>
      have hcount := s.waitingCount_updLane l fun x => { x with waitingEnds := more }
      simp only [hends, List.length_cons] at hcount
      rw [State.serveLane_of_unknown hends hj]
      refine ⟨h.congr rfl rfl rfl rfl, ?_⟩
      show (if more.isEmpty then others else others ++ [l]).length +
        (s.updLane l fun x => { x with waitingEnds := more }).waitingCount < _ + s.waitingCount
      simp only [List.isEmpty_iff] at hqueue ⊢
      omega
    | some j =>
      have hcount := State.waitingCount_served hends others j
      rw [State.serveLane_eq hends hj]
      refine ⟨?_, ?_⟩
      · rw [State.outbox_served]
        exact (h.enqueue_general hfree rfl).congr rfl rfl rfl rfl
      · unfold State.turns
        rw [State.outbox_served]
        show (if more = [] then others else others ++ [l]).length + _ < _
        omega

/-- Serving with turns enough ends with no lane waiting or no general entry free. -/
theorem serveWaiting_lawful (fuel : Nat) (s : State) (h : s.outbox.Sound) (hf : s.turns ≤ fuel) :
    (serveWaiting fuel s).outbox.Lawful := by
  induction fuel generalizing s with
  | zero =>
    have hnil : s.outbox.waitingLanes = [] := by
      rw [← List.length_eq_zero_iff]; unfold State.turns at hf; omega
    exact h.lawful fun hn => absurd hnil hn
  | succ n ih =>
    unfold serveWaiting
    split
    · next hnil => exact h.lawful fun hn => absurd hnil hn
    · next l others hl =>
      split
      · next hfree =>
        obtain ⟨hsound, hturns⟩ := State.serveLane_turn hl hfree h
        exact ih _ hsound (by omega)
      · next hfull => exact h.lawful fun _ => Nat.eq_zero_of_not_pos hfull

/-! ### Moves -/

theorem State.setSupply_fallOnLanes_onlyChanges (s : State) (v : Supply) :
    s.OnlyChanges (s.setSupply v).fallOnLanes [.supply, .lanes, .jobs, .freeUnits, .grantQueue] :=
  ((s.setSupply_onlyChanges v).mono (by decide)).trans
    ((s.setSupply v).fallOnLanes_onlyChanges.mono (by decide))

/-- The JOB-END of a job is offered: it joins the outbox or its lane waits (R18, R197). -/
theorem State.JobBecomesFinal.outbox_lawful {s t : State} {j : Job} {st : JobState} {reason : EndReason}
    {stopped : Bool} (h : s.JobBecomesFinal t j st reason stopped) (hs : s.outbox.Lawful) :
    t.outbox.Lawful := by
  rw [h.2.2]
  split
  · next hfree => exact hs.enqueue (hs.sound.enqueue_general hfree rfl)
  · next hfull => exact hs.joinWaiting (Nat.eq_zero_of_not_pos hfull) j.lane

theorem State.Move.outbox_lawful {s t : State} (m : s.Move t) (h : s.outbox.Lawful) : t.outbox.Lawful := by
  have hframe : ∀ {fs : List StateField}, s.OnlyChanges t fs → StateField.outbox ∉ fs →
      t.outbox.Lawful := fun hc hn => by
    have : t.outbox = s.outbox := hc .outbox hn
    rw [this]; exact h
  cases m with
  | outbox o hl _ => exact hl h
  | serve o hl _ => exact serveWaiting_lawful _ _ (hl h) (State.serveFuel_eq _).ge
  | ends _ _ _ hend => exact hend.1.outbox_lawful h
  | withdrawn _ _ hend => exact hend.final.outbox_lawful h
  | reset hc => exact hc.outbox
  | link hc => exact hframe hc (by decide)
  | currentState l v _ => exact hframe (s.updCurrentJob_onlyChanges l _) (by decide)
  | start l => exact hframe (s.startHead_onlyChanges l) (by decide)
  | fault r _ _ => exact hframe (s.recordFault_onlyChanges r) (by decide)
  | create f p w l _ _ _ => exact hframe (s.createJob_onlyChanges f p w l) (by decide)
  | fall => exact hframe (s.setSupply_fallOnLanes_onlyChanges _) (by decide)
  | pin v => exact h
  | replies q _ => exact h
  | lane l f _ _ => exact h
  | job id f _ => exact h
  | retire _ _ _ => exact h
  | block g f _ _ => exact h
  | slotCleared l _ => exact h
  | pulseStarts l _ => exact h
  | rise _ => exact h

end Sys2Proof.Machine

open Sys2Proof Sys2Proof.Machine

/-- Settles O9: each operation of the outbox keeps its laws, and serving the waiting lanes after an
acknowledgement or a break ends only with no lane waiting or no general entry free. -/
theorem stepsKeepTheOutboxLawful : Obligations.StepsKeepTheOutboxLawful := by
  intro s t h hstep
  refine step_keeps (P := fun s => s.outbox.Lawful) (fun m hs => m.outbox_lawful hs) (fun m hs => ?loose)
    (fun s e _ _ hs => ?grant) h hstep
  case loose => cases m <;> exact hs
  case grant =>
    have : (s.grant e).outbox = s.outbox := s.grant_onlyChanges e .outbox (by decide)
    rw [this]; exact hs
end

section
/-! PROOF. The laws of the tables (R2, R3, R6, R146, R150, R174): every step keeps the sizes, the identifiers and
the fault counts. -/

-- One proof after another: a thread for each of them would take too much memory.
set_option Elab.async false

namespace Sys2Proof.Machine

/-! ### Identifiers (R3) -/

theorem stepId_eq {c : Nat} (h : c ≤ 255) : stepId c = c % 255 + 1 := by
  unfold stepId
  split
  · next e => subst e; rfl
  · omega

/-- The identifiers are tried one after another from the last one on; the search stops early only at one
that no job holds. -/
theorem nextFreeId_tries (jobs : List Job) (fuel : Nat) {c : Nat} (hc : c ≤ 255) :
    ∃ k ≤ fuel, nextFreeId jobs fuel c = (c + k) % 255 + 1 ∧
      (∀ m < k, (c + m) % 255 + 1 ∈ jobs.map fun j => j.id) ∧
      (k < fuel → (c + k) % 255 + 1 ∉ jobs.map fun j => j.id) := by
  induction fuel generalizing c with
  | zero => exact ⟨0, le_rfl, stepId_eq hc, fun m hm => absurd hm (Nat.not_lt_zero m),
      fun hk => absurd hk (Nat.lt_irrefl 0)⟩
  | succ n ih =>
    have hany : (jobs.any fun j => j.id == stepId c) = true ↔
        c % 255 + 1 ∈ jobs.map fun j => j.id := by
      rw [stepId_eq hc, List.any_eq_true, List.mem_map]
      simp only [beq_iff_eq]
    unfold nextFreeId
    split
    · next htaken =>
      obtain ⟨k, hk, heq, hbefore, hfresh⟩ := ih (c := stepId c) (by rw [stepId_eq hc]; omega)
      have hshift : ∀ m, (stepId c + m) % 255 + 1 = (c + (m + 1)) % 255 + 1 := fun m => by
        rw [stepId_eq hc]; omega
      simp only [hshift] at heq hbefore hfresh
      refine ⟨k + 1, by omega, heq, fun m hm => ?_, fun hlt => hfresh (by omega)⟩
      cases m with
      | zero => exact hany.1 htaken
      | succ m => exact hbefore m (by omega)
    · next hfree =>
      exact ⟨0, Nat.zero_le _, stepId_eq hc, fun m hm => absurd hm (Nat.not_lt_zero m),
        fun _ hm => hfree (hany.2 hm)⟩

/-- With an entry free, the next identifier is the first one after the last that no job holds. -/
theorem nextFreeId_first {jobs : List Job} (hroom : jobs.length < 24) {c : Nat} (hc : c ≤ 255) :
    ∃ k, nextFreeId jobs 24 c = (c + k) % 255 + 1 ∧
      (c + k) % 255 + 1 ∉ jobs.map (fun j => j.id) ∧
      ∀ m < k, (c + m) % 255 + 1 ∈ jobs.map fun j => j.id := by
  obtain ⟨k, hk, heq, hbefore, hfresh⟩ := nextFreeId_tries jobs 24 hc
  refine ⟨k, heq, hfresh ?_, hbefore⟩
  by_contra hall
  obtain rfl : k = 24 := by omega
  have hnodup : ((List.range 24).map fun m => (c + m) % 255 + 1).Nodup := by
    refine List.nodup_range.map_on fun m hm n hn h => ?_
    rw [List.mem_range] at hm hn
    omega
  have hlen := (List.subperm_of_subset hnodup (l₂ := jobs.map fun j => j.id) fun x hx => by
    obtain ⟨m, hm, rfl⟩ := List.mem_map.1 hx
    exact hbefore m (List.mem_range.1 hm)).length_le
  simp only [List.length_map, List.length_range] at hlen
  omega

/-! ### Changes that leave the tables alone -/

/-- What the laws of the tables see of a job. -/
def Job.account (j : Job) : Nat × Nat := (j.id, j.faultsRecorded)

/-- From `s` to `t` no identifier and no fault count changes, and no queue grows past its limit. -/
structure State.SameTables (s t : State) : Prop where
  jobs : t.jobs.map Job.account = s.jobs.map Job.account
  lastId : t.lastId = s.lastId
  faults : t.faults = s.faults
  queues : ∀ l, (t.lane l).queue.length ≤ (s.lane l).queue.length
  replies : t.replyQueue.length ≤ 8 ∨ t.replyQueue.length ≤ s.replyQueue.length

theorem State.SameTables.refl (s : State) : s.SameTables s := ⟨rfl, rfl, rfl, fun _ => le_rfl, .inr le_rfl⟩

theorem State.SameTables.trans {s t u : State} (h : s.SameTables t) (g : t.SameTables u) :
    s.SameTables u where
  jobs := g.jobs.trans h.jobs
  lastId := g.lastId.trans h.lastId
  faults := g.faults.trans h.faults
  queues l := (g.queues l).trans (h.queues l)
  replies := by
    rcases g.replies with hg | hg
    · exact .inl hg
    · exact h.replies.imp hg.trans hg.trans

theorem exists_of_map_eq {α β : Type} {f : α → β} {xs ys : List α} (h : xs.map f = ys.map f) {x : α}
    (hx : x ∈ xs) : ∃ y ∈ ys, f y = f x :=
  List.mem_map.1 (h ▸ List.mem_map_of_mem hx)

theorem map_id_of_account {xs ys : List Job} (h : xs.map Job.account = ys.map Job.account) :
    (xs.map fun j => j.id) = ys.map fun j => j.id := by
  simpa [Function.comp_def, Job.account] using congrArg (List.map Prod.fst) h

/-- A record changed in what no law sees. -/
theorem map_updated {β : Type} (g : Job → β) (jobs : List Job) (id : Nat) {f : Job → Job}
    (h : ∀ j ∈ jobs, j.id = id → g (f j) = g j) :
    (jobs.map fun j => if j.id = id then f j else j).map g = jobs.map g := by
  rw [List.map_map]
  refine List.map_congr_left fun j hj => ?_
  simp only [Function.comp_apply]
  split
  · next e => exact h j hj e
  · rfl

theorem State.TablesLawful.congr {s t : State} (h : s.TablesLawful) (g : s.SameTables t) :
    t.TablesLawful where
  jobs := by
    have := congrArg List.length g.jobs
    rw [List.length_map, List.length_map] at this
    rw [this]; exact h.jobs
  queues l := (g.queues l).trans (h.queues l)
  faults := by rw [g.faults]; exact h.faults
  replies := g.replies.elim id fun hle => hle.trans h.replies
  ids := by rw [map_id_of_account g.jobs]; exact h.ids
  idRange j hj := by
    obtain ⟨q, hq, e⟩ := exists_of_map_eq g.jobs hj
    rw [show j.id = q.id from congrArg Prod.fst e.symm]; exact h.idRange q hq
  lastId := by rw [g.lastId]; exact h.lastId
  owners r hr := by
    obtain ⟨q, hq, e⟩ := h.owners r (g.faults ▸ hr)
    obtain ⟨j, hj, e'⟩ := exists_of_map_eq g.jobs.symm hq
    exact ⟨j, hj, (congrArg Prod.fst e').trans e⟩
  counted j hj := by
    obtain ⟨q, hq, e⟩ := exists_of_map_eq g.jobs hj
    have hcount := h.counted q hq
    rw [show q.id = j.id from congrArg Prod.fst e,
      show q.faultsRecorded = j.faultsRecorded from congrArg Prod.snd e] at hcount
    unfold State.faultsOf at hcount ⊢
    rw [g.faults]; exact hcount

/-- A frame without the fields of the tables, and the jobs and lanes looked at one by one. -/
theorem State.OnlyChanges.sameTables {s t : State} {fs : List StateField} (h : s.OnlyChanges t fs)
    (hjobs : t.jobs.map Job.account = s.jobs.map Job.account)
    (hlanes : ∀ l, (t.lane l).queue.length ≤ (s.lane l).queue.length) (hid : StateField.lastId ∉ fs)
    (hfaults : StateField.faults ∉ fs) (hreplies : StateField.replyQueue ∉ fs) : s.SameTables t :=
  ⟨hjobs, h .lastId hid, h .faults hfaults, hlanes, .inr (h .replyQueue hreplies ▸ le_rfl)⟩

theorem State.sameTables_updLane {s : State} {l : LaneId} {f : Lane → Lane}
    (h : (f (s.lane l)).queue.length ≤ (s.lane l).queue.length) : s.SameTables (s.updLane l f) := by
  refine (s.updLane_onlyChanges l f).sameTables rfl (fun m => ?_) (by decide) (by decide) (by decide)
  rw [State.lane_updLane]
  split
  · next e => subst e; exact h
  · exact le_rfl

theorem State.sameTables_setOutbox (s : State) (o : Outbox) : s.SameTables (s.setOutbox o) :=
  ⟨rfl, rfl, rfl, fun _ => le_rfl, .inr le_rfl⟩

theorem State.sameTables_updJob (s : State) (id : Nat) {f : Job → Job}
    (h : ∀ j, (f j).account = j.account) : s.SameTables (s.updJob id f) :=
  ⟨map_updated Job.account s.jobs id fun j _ _ => h j, rfl, rfl, fun _ => le_rfl, .inr le_rfl⟩

theorem State.sameTables_updCurrentJob (s : State) (l : LaneId) {f : Job → Job}
    (h : ∀ j, (f j).account = j.account) : s.SameTables (s.updCurrentJob l f) := by
  unfold State.updCurrentJob
  split
  · exact s.sameTables_updJob _ h
  · exact .refl s

theorem State.sameTables_startHead (s : State) (l : LaneId) : s.SameTables (s.startHead l) := by
  rcases s.startHead_cases l with h | ⟨id, rest, j, hstate, hqueue, hj⟩
  · rw [h]; exact .refl s
  · rw [State.startHead_eq hstate hqueue hj]
    exact (State.sameTables_updLane (by simp [hqueue])).trans
      (State.sameTables_updJob _ id (f := fun q => { q with state := .active }) fun _ => rfl)

theorem State.sameTables_laneGoesOn (s : State) (l : LaneId) (stopped : Bool) :
    s.SameTables (s.laneGoesOn l stopped) := by
  unfold State.laneGoesOn
  split
  · exact State.sameTables_updLane le_rfl
  · exact (State.sameTables_updLane le_rfl).trans (State.sameTables_startHead _ l)

theorem State.sameTables_serveLane (s : State) (l : LaneId) (others : List LaneId) :
    s.SameTables (s.serveLane l others) := by
  unfold State.serveLane
  split
  · exact s.sameTables_setOutbox _
  · next id more _ =>
    have hlisted : s.SameTables (s.updLane l fun x => { x with waitingEnds := more }) :=
      State.sameTables_updLane le_rfl
    simp only
    split
    · exact hlisted.trans (State.sameTables_setOutbox _ _)
    · have hsent := fun o => (hlisted.trans (State.sameTables_setOutbox _ o)).trans
        (State.sameTables_updJob _ id (f := fun j => { j with endReport := .enqueued }) fun _ => rfl)
      split
      · exact (hsent _).trans (State.sameTables_laneGoesOn _ l _)
      · exact hsent _

theorem sameTables_serveWaiting (fuel : Nat) (s : State) : s.SameTables (serveWaiting fuel s) := by
  induction fuel generalizing s with
  | zero => exact .refl s
  | succ n ih =>
    unfold serveWaiting
    split
    · exact .refl s
    · split
      · exact (s.sameTables_serveLane _ _).trans (ih _)
      · exact .refl s

theorem State.JobBecomesFinal.map_account {s t : State} {j : Job} {st : JobState} {reason : EndReason}
    {stopped : Bool} (h : s.JobBecomesFinal t j st reason stopped) :
    t.jobs.map Job.account = s.jobs.map Job.account := by
  rw [h.1]
  exact map_updated Job.account s.jobs j.id fun _ _ _ => rfl

theorem Lane.afterJob_queue (x : Lane) (id : Nat) (room stopped : Bool) :
    (x.afterJob id room stopped).queue = x.queue := by
  unfold Lane.afterJob
  cases room <;> rfl

theorem State.CurrentJobEnds.sameTables {s w : State} {l : LaneId} {j : Job} {st : JobState}
    {reason : EndReason} {stopped : Bool} (h : s.CurrentJobEnds w l j st reason stopped) :
    s.SameTables w := by
  obtain ⟨hfinal, hlane, hothers, hframe⟩ := h
  refine hframe.sameTables hfinal.map_account (fun m => ?_) (by decide) (by decide) (by decide)
  by_cases hm : m = l
  · subst hm; rw [hlane, Lane.afterJob_queue]
  · rw [hothers m hm]

theorem State.Withdrawn.sameTables {s w : State} {j : Job} (h : s.Withdrawn w j) : s.SameTables w := by
  refine h.frame.sameTables h.final.map_account (fun m => ?_) (by decide) (by decide) (by decide)
  by_cases hm : m = j.lane
  · subst hm; rw [h.lane]; exact List.length_filter_le _ _
  · rw [h.others m hm]

/-- What a law must survive so that a fall of PSUP_OK keeps it. -/
theorem fallOnLanes_keeps {P : State → Prop} (hopen : ∀ s l v, P s → P (s.openSwitch l v))
    (hhold : ∀ s l, P s → P (s.holdLane l)) (hqueue : ∀ s q, P s → P (s.setGrantQueue q)) {s : State}
    (h : P s) : P s.fallOnLanes := by
  have hlane : ∀ (s : State) (l : LaneId), P s → P (s.fallOnLane l) := fun s l hs => by
    have hslot : P (match (s.lane l).slot with
        | .timing => (s.openSwitch l .none).holdLane l
        | .granted => s.openSwitch l .cut
        | .none | .cut => s) := by
      split
      · exact hhold _ l (hopen s l .none hs)
      · exact hopen s l .cut hs
      all_goals exact hs
    unfold State.fallOnLane
    simp only
    split
    · exact hhold _ l hslot
    all_goals exact hslot
  have hall : ∀ (ls : List LaneId) (s : State), P s → P (ls.foldl State.fallOnLane s) := fun ls => by
    induction ls with
    | nil => exact fun s hs => hs
    | cons l ls ih => exact fun s hs => ih _ (hlane s l hs)
  exact hqueue _ [] (hall _ s h)

theorem State.sameTables_openSwitch (s : State) (l : LaneId) (v : PulseSlot) :
    s.SameTables (s.openSwitch l v) :=
  .trans (t := s.setFreeUnits (s.freeUnits + (s.lane l).unitsHeld)) ⟨rfl, rfl, rfl, fun _ => le_rfl, .inr le_rfl⟩
    (State.sameTables_updLane le_rfl)

theorem State.sameTables_holdLane (s : State) (l : LaneId) : s.SameTables (s.holdLane l) :=
  (State.sameTables_updLane le_rfl).trans (State.sameTables_updCurrentJob _ l fun _ => rfl)

theorem State.sameTables_grant (s : State) (e : GrantEntry) : s.SameTables (s.grant e) := by
  refine (s.grant_onlyChanges e).sameTables rfl (fun l => ?_) (by decide) (by decide) (by decide)
  rw [State.grant_eq, State.lane_setFreeUnits, State.lane_updLane]
  split
  · next e => subst e; exact le_rfl
  · exact le_rfl

/-! ### Changes of the tables -/

theorem State.TablesLawful.recordFault {s : State} (h : s.TablesLawful) {r : FaultRecord}
    (room : s.faults.length < 64) (owner : ∃ j ∈ s.jobs, j.id = r.job) :
    (s.recordFault r).TablesLawful := by
  have hids : ((s.recordFault r).jobs.map fun j => j.id) = s.jobs.map fun j => j.id :=
    map_updated (fun j => j.id) s.jobs r.job fun _ _ _ => rfl
  have hfaults : (s.recordFault r).faults = s.faults ++ [r] := rfl
  constructor
  case jobs => exact (List.length_map _).trans_le h.jobs
  case queues => exact h.queues
  case faults => rw [hfaults, List.length_append, List.length_singleton]; exact room
  case replies => exact h.replies
  case ids => rw [hids]; exact h.ids
  case idRange =>
    intro j hj
    obtain ⟨q, hq, e⟩ := exists_of_map_eq hids hj
    rw [← e]; exact h.idRange q hq
  case lastId => exact h.lastId
  case owners =>
    have hkept : ∀ x ∈ s.faults ++ [r], ∃ j ∈ s.jobs, j.id = x.job := fun x hx => by
      rcases List.mem_append.1 hx with hx | hx
      · exact h.owners x hx
      · rw [List.mem_singleton.1 hx]; exact owner
    intro x hx
    obtain ⟨q, hq, e⟩ := hkept x (hfaults ▸ hx)
    obtain ⟨j, hj, e'⟩ := exists_of_map_eq hids.symm hq
    exact ⟨j, hj, e'.trans e⟩
  case counted =>
    intro j hj
    obtain ⟨q, hq, rfl⟩ := List.mem_map.1 hj
    have hcount := h.counted q hq
    unfold State.faultsOf at hcount ⊢
    rw [hfaults]
    by_cases e : q.id = r.job
    · simpa [e] using hcount
    · simpa [e, Ne.symm e] using hcount

theorem State.TablesLawful.createJob {s : State} (h : s.TablesLawful) (f : Submit) (p : ProfileId)
    (w : Work) (l : LaneId) (room : s.jobs.length < 24) (hq : (s.lane l).queue.length < 4) :
    (s.createJob f p w l).TablesLawful := by
  obtain ⟨k, hid, hfresh, -⟩ := nextFreeId_first room h.lastId
  have hrange : 1 ≤ (s.lastId + k) % 255 + 1 ∧ (s.lastId + k) % 255 + 1 ≤ 255 := by omega
  have hjobs : (s.createJob f p w l).jobs = s.jobs ++ [f.job ((s.lastId + k) % 255 + 1) l p w] := by
    rw [← hid]; exact s.createJob_jobs f p w l
  have hframe := s.createJob_onlyChanges f p w l
  have hfaults : (s.createJob f p w l).faults = s.faults := hframe .faults (by decide)
  generalize (s.lastId + k) % 255 + 1 = id at hid hfresh hrange hjobs
  constructor
  case jobs => rw [hjobs, List.length_append, List.length_singleton]; exact room
  case queues =>
    intro m
    rw [State.createJob_lane]
    split
    · rw [List.length_append, List.length_singleton]; exact hq
    · exact h.queues m
  case faults => rw [hfaults]; exact h.faults
  case replies =>
    rw [show (s.createJob f p w l).replyQueue = s.replyQueue from hframe .replyQueue (by decide)]
    exact h.replies
  case ids =>
    rw [hjobs, List.map_append]
    refine h.ids.append (List.nodup_singleton _) (List.disjoint_singleton.2 hfresh)
  case idRange =>
    intro j hj
    rcases List.mem_append.1 (hjobs ▸ hj) with hj | hj
    · exact h.idRange j hj
    · rw [List.mem_singleton.1 hj]; exact hrange
  case lastId => rw [State.createJob_lastId]; exact hid ▸ hrange.2
  case owners =>
    intro r hr
    obtain ⟨j, hj, e⟩ := h.owners r (hfaults ▸ hr)
    exact ⟨j, hjobs ▸ List.mem_append_left _ hj, e⟩
  case counted =>
    intro j hj
    unfold State.faultsOf
    rw [hfaults]
    rcases List.mem_append.1 (hjobs ▸ hj) with hj | hj
    · exact h.counted j hj
    · rw [List.mem_singleton.1 hj]
      symm
      rw [show (f.job id l p w).faultsRecorded = 0 from rfl, List.length_eq_zero_iff,
        List.filter_eq_nil_iff]
      intro r hr he
      obtain ⟨q, hq, e⟩ := h.owners r hr
      exact hfresh (List.mem_map.2 ⟨q, hq, e.trans (beq_iff_eq.1 he)⟩)

theorem State.TablesLawful.retire {s : State} (h : s.TablesLawful) (id : Nat) :
    ((s.setFaults (s.faults.filter fun r => r.job != id)).setJobs
      (s.jobs.filter fun q => q.id != id)).TablesLawful := by
  constructor
  case jobs => exact (List.length_filter_le _ _).trans h.jobs
  case queues => exact h.queues
  case faults => exact (List.length_filter_le _ _).trans h.faults
  case replies => exact h.replies
  case ids => exact h.ids.sublist (List.filter_sublist.map _)
  case idRange => exact fun j hj => h.idRange j (List.mem_of_mem_filter hj)
  case lastId => exact h.lastId
  case owners =>
    intro r hr
    obtain ⟨hr, hne⟩ := List.mem_filter.1 hr
    obtain ⟨j, hj, e⟩ := h.owners r hr
    exact ⟨j, List.mem_filter.2 ⟨hj, by rw [e]; exact hne⟩, e⟩
  case counted =>
    intro j hj
    obtain ⟨hj, hne⟩ := List.mem_filter.1 hj
    rw [h.counted j hj]
    unfold State.faultsOf
    simp only [State.setJobs_faults, State.setFaults_faults, List.filter_filter]
    refine congrArg List.length (List.filter_congr fun r _ => ?_)
    by_cases e : r.job = j.id
    · simpa [e] using hne
    · simp [e]

theorem State.ClearedTo.tablesLawful {s t : State} (h : s.ClearedTo t) : t.TablesLawful where
  jobs := by rw [h.jobs]; decide
  queues l := by rw [h.lanes]; decide
  faults := by rw [h.faults]; decide
  replies := h.replies
  ids := by rw [h.jobs]; exact List.nodup_nil
  idRange j hj := by rw [h.jobs] at hj; cases hj
  lastId := by rw [h.lastId]; decide
  owners r hr := by rw [h.faults] at hr; cases hr
  counted j hj := by rw [h.jobs] at hj; cases hj

theorem Job.account_of_standing {x y : Job} (h : x.standing = y.standing) : x.account = y.account := by
  simp only [Job.standing, Prod.mk.injEq] at h
  exact Prod.ext h.1 h.2.2.2.2.2

theorem State.TablesLawful.move {s t : State} (h : s.TablesLawful) (m : s.Move t) : t.TablesLawful := by
  cases m with
  | fault r room owner => exact h.recordFault room owner
  | create f p w l room hq _ => exact h.createJob f p w l room hq
  | @retire j _ _ _ => exact h.retire j.id
  | reset hc => exact hc.tablesLawful
  | link hc =>
    exact h.congr ⟨by rw [show t.jobs = s.jobs from hc .jobs (by decide)], hc .lastId (by decide),
      hc .faults (by decide), fun l => by rw [State.lane_of_lanes (hc .lanes (by decide)) l],
      .inr (le_of_eq (congrArg List.length (hc .replyQueue (by decide))))⟩
  | pin v => exact h.congr ⟨rfl, rfl, rfl, fun _ => le_rfl, .inr le_rfl⟩
  | replies q hq => exact h.congr ⟨rfl, rfl, rfl, fun _ => le_rfl, hq⟩
  | outbox o _ _ => exact h.congr (s.sameTables_setOutbox o)
  | serve o _ _ => exact h.congr ((s.sameTables_setOutbox o).trans (sameTables_serveWaiting _ _))
  | lane l f _ hj => exact h.congr (State.sameTables_updLane (by rw [hj.queue]))
  | job id f hf => exact h.congr (s.sameTables_updJob id fun j => Job.account_of_standing (hf j))
  | currentState l v _ => exact h.congr (s.sameTables_updCurrentJob l fun _ => rfl)
  | start l => exact h.congr (s.sameTables_startHead l)
  | ends _ _ _ hend => exact h.congr hend.sameTables
  | withdrawn _ _ hend => exact h.congr hend.sameTables
  | block g f _ _ => exact h.congr ⟨rfl, rfl, rfl, fun _ => le_rfl, .inr le_rfl⟩
  | slotCleared l _ => exact h.congr (State.sameTables_updLane le_rfl)
  | pulseStarts l _ => exact h.congr (State.sameTables_updLane le_rfl)
  | fall =>
    refine fallOnLanes_keeps (fun s l v hs => hs.congr (s.sameTables_openSwitch l v))
      (fun s l hs => hs.congr (s.sameTables_holdLane l))
      (fun s q hs => hs.congr ⟨rfl, rfl, rfl, fun _ => le_rfl, .inr le_rfl⟩) ?_
    exact h.congr ⟨rfl, rfl, rfl, fun _ => le_rfl, .inr le_rfl⟩
  | rise _ => exact h.congr ⟨rfl, rfl, rfl, fun _ => le_rfl, .inr le_rfl⟩

theorem State.TablesLawful.looseMove {s t : State} (h : s.TablesLawful) (m : s.LooseMove t) :
    t.TablesLawful := by
  cases m with
  | openSwitch l v _ => exact h.congr (s.sameTables_openSwitch l v)
  | grantQueue q => exact h.congr ⟨rfl, rfl, rfl, fun _ => le_rfl, .inr le_rfl⟩
  | supplyUp _ => exact h.congr ⟨rfl, rfl, rfl, fun _ => le_rfl, .inr le_rfl⟩

end Sys2Proof.Machine

open Sys2Proof Sys2Proof.Machine

/-- Settles O10: a created job takes an identifier that no job holds, a written record is counted for its job,
and a retired job takes its records with it. -/
theorem stepsKeepTheTablesLawful : Obligations.StepsKeepTheTablesLawful := by
  intro s t h hstep
  exact step_keeps (P := State.TablesLawful) (fun m hs => hs.move m) (fun m hs => hs.looseMove m)
    (fun s e _ _ hs => hs.congr (s.sameTables_grant e)) h hstep
end

section
/-! PROOF. The lane queues, the waiting lanes and the reference counts (R6, R8, R131, R140, R141, R197): every
step keeps them, beside the laws of the tables. -/

-- One proof after another: a thread for each of them would take too much memory.
set_option Elab.async false

namespace Sys2Proof.Machine

/-! ### Changes that leave the work alone -/

/-- What the laws of the queues and of the pool see of a job. -/
def Job.role (j : Job) : Nat × LaneId × List Handle × Bool × Bool × EndReport :=
  (j.id, j.lane, j.work.blocks, decide (j.state = .queued), j.isFinal, j.endReport)

theorem Job.working_iff (j : Job) :
    j.state = .active ∨ j.state = .held ↔ j.state ≠ .queued ∧ j.isFinal = false := by
  cases h : j.state <;> simp [Job.isFinal, h]

theorem Job.role_eq_iff {q j : Job} : q.role = j.role ↔ q.id = j.id ∧ q.lane = j.lane ∧
    q.work.blocks = j.work.blocks ∧ (q.state = .queued ↔ j.state = .queued) ∧ q.isFinal = j.isFinal ∧
    q.endReport = j.endReport := by
  simp only [Job.role, Prod.mk.injEq, decide_eq_decide]

theorem Job.role_of_standing {x y : Job} (h : x.standing = y.standing) : x.role = y.role := by
  simp only [Job.standing, Prod.mk.injEq] at h
  obtain ⟨hid, hlane, hwork, hstate, hreport, -⟩ := h
  exact Job.role_eq_iff.2 ⟨hid, hlane, by rw [hwork], by rw [hstate], by simp only [Job.isFinal, hstate],
    hreport⟩

/-- From `s` to `t` every lane lists the same jobs, in the same roles, and no block changes. -/
structure State.SameWork (s t : State) : Prop where
  jobs : t.jobs.map Job.role = s.jobs.map Job.role
  lanes : ∀ l, (s.lane l).SameJobs (t.lane l)
  waitingLanes : t.outbox.waitingLanes = s.outbox.waitingLanes
  blocks : ∀ h, t.block h = s.block h

theorem State.SameWork.trans {s t u : State} (h : s.SameWork t) (g : t.SameWork u) : s.SameWork u :=
  ⟨g.jobs.trans h.jobs, fun l => (h.lanes l).trans (g.lanes l), g.waitingLanes.trans h.waitingLanes,
    fun b => (g.blocks b).trans (h.blocks b)⟩

/-- The laws of the tables, the queues and the pool together. -/
structure State.WorkLawful (s : State) : Prop where
  tables : s.TablesLawful
  queues : s.QueuesLawful
  pool : s.PoolLawful

theorem State.job?_role {s t : State} (h : t.jobs.map Job.role = s.jobs.map Job.role) (id : Nat) :
    (t.job? id).map Job.role = (s.job? id).map Job.role := by
  have hfind : ∀ u : State, (u.job? id).map Job.role = (u.jobs.map Job.role).find? fun r => r.1 == id :=
    fun u => by rw [List.find?_map]; rfl
  rw [hfind, hfind, h]

theorem State.job?_of_role {s t : State} (h : t.jobs.map Job.role = s.jobs.map Job.role) {id : Nat}
    {j : Job} (hj : s.job? id = some j) : ∃ q, t.job? id = some q ∧ q.role = j.role := by
  have hrole := State.job?_role h id
  rw [hj, Option.map_some] at hrole
  exact Option.map_eq_some_iff.1 hrole

theorem State.QueuesLawful.congr {s t : State} (h : s.QueuesLawful) (g : s.SameWork t) :
    t.QueuesLawful where
  queued l id hid := by
    obtain ⟨j, hj, hstate, hlane⟩ := h.queued l id ((g.lanes l).queue ▸ hid)
    obtain ⟨q, hq, hrole⟩ := State.job?_of_role g.jobs hj
    obtain ⟨-, hlane', -, hqueued, -, -⟩ := Job.role_eq_iff.1 hrole
    exact ⟨q, hq, hqueued.2 hstate, hlane'.trans hlane⟩
  once l := (g.lanes l).queue ▸ h.once l
  current l id hid := by
    obtain ⟨j, hj, hstate, hlane⟩ := h.current l id ((g.lanes l).current ▸ hid)
    obtain ⟨q, hq, hrole⟩ := State.job?_of_role g.jobs hj
    obtain ⟨-, hlane', -, hqueued, hfinal, -⟩ := Job.role_eq_iff.1 hrole
    rw [Job.working_iff, ← hfinal, Ne, ← hqueued, ← Ne, ← Job.working_iff] at hstate
    exact ⟨q, hq, hstate, hlane'.trans hlane⟩
  waiting l id hid := by
    obtain ⟨j, hj, hfin, hwait, hlane⟩ := h.waiting l id ((g.lanes l).waitingEnds ▸ hid)
    obtain ⟨q, hq, hrole⟩ := State.job?_of_role g.jobs hj
    obtain ⟨-, hlane', -, -, hfinal, hreport⟩ := Job.role_eq_iff.1 hrole
    exact ⟨q, hq, hfinal.trans hfin, hreport.trans hwait, hlane'.trans hlane⟩
  waitingOnce l := (g.lanes l).waitingEnds ▸ h.waitingOnce l
  waitingLanesOnce := g.waitingLanes ▸ h.waitingLanesOnce
  waitingLanes l := by rw [g.waitingLanes, (g.lanes l).waitingEnds]; exact h.waitingLanes l

/-- The listings of a block in the block list of one job, if it is unfinished. -/
def Job.lists (j : Job) (h : Handle) : Nat := if j.isUnfinished then j.work.blocks.count h else 0

theorem State.listings_eq (s : State) (h : Handle) : s.listings h = (s.jobs.map fun j => j.lists h).sum :=
  rfl

theorem State.listings_congr {s t : State} (h : t.jobs.map Job.role = s.jobs.map Job.role) (b : Handle) :
    t.listings b = s.listings b := by
  let count : Nat × LaneId × List Handle × Bool × Bool × EndReport → Nat := fun r =>
    if !r.2.2.2.2.1 then r.2.2.1.count b else 0
  have hcount : ∀ u : State, u.listings b = ((u.jobs.map Job.role).map count).sum := fun u => by
    rw [List.map_map]; rfl
  rw [hcount, hcount, h]

theorem State.PoolLawful.congr {s t : State} (h : s.PoolLawful) (hb : ∀ b, t.block b = s.block b)
    (hl : ∀ b, t.listings b = s.listings b) : t.PoolLawful := fun b => by
  rw [hb, hl]; exact h b

theorem State.WorkLawful.congr {s t : State} (h : s.WorkLawful) (ht : s.SameTables t)
    (g : s.SameWork t) : t.WorkLawful :=
  ⟨h.tables.congr ht, h.queues.congr g, h.pool.congr g.blocks (State.listings_congr g.jobs)⟩

theorem State.block_of_blocks {s t : State} (h : t.blocks = s.blocks) (b : Handle) : t.block b = s.block b :=
  congrArg (fun v : Vector Block 64 => v[b]) h

/-- A frame without the blocks, and the jobs, the lanes and the waiting-lane queue looked at. -/
theorem State.OnlyChanges.sameWork {s t : State} {fs : List StateField} (h : s.OnlyChanges t fs)
    (hjobs : t.jobs.map Job.role = s.jobs.map Job.role) (hlanes : ∀ l, (s.lane l).SameJobs (t.lane l))
    (hw : t.outbox.waitingLanes = s.outbox.waitingLanes) (hblocks : StateField.blocks ∉ fs) :
    s.SameWork t :=
  ⟨hjobs, hlanes, hw, State.block_of_blocks (h .blocks hblocks)⟩

theorem State.sameWork_updLane {s : State} {l : LaneId} {f : Lane → Lane}
    (h : (s.lane l).SameJobs (f (s.lane l))) : s.SameWork (s.updLane l f) := by
  refine ⟨rfl, fun m => ?_, rfl, fun _ => rfl⟩
  rw [State.lane_updLane]
  split
  · next e => subst e; exact h
  · exact .refl _

theorem State.sameWork_updJob {s : State} {id : Nat} {f : Job → Job}
    (h : ∀ j ∈ s.jobs, j.id = id → (f j).role = j.role) : s.SameWork (s.updJob id f) :=
  ⟨map_updated Job.role s.jobs id h, fun _ => .refl _, rfl, fun _ => rfl⟩

/-- An identifier names one job of lawful tables. -/
theorem State.TablesLawful.unique {s : State} (h : s.TablesLawful) {q j : Job} {id : Nat}
    (hj : s.job? id = some j) (hq : q ∈ s.jobs) (e : q.id = id) : q = j := by
  obtain ⟨hid, hmem⟩ := State.job?_some hj
  exact List.inj_on_of_nodup_map h.ids hq hmem (e.trans hid.symm)

/-- A current job may go between ACTIVE and HELD. -/
theorem State.WorkLawful.sameWork_currentState {s : State} (h : s.WorkLawful) (l : LaneId) {v : JobState}
    (hv : v = .active ∨ v = .held) : s.SameWork (s.updCurrentJob l fun j => { j with state := v }) := by
  unfold State.updCurrentJob
  split
  · next id hid =>
    obtain ⟨j, hj, hworking, -⟩ := h.queues.current l id hid
    refine State.sameWork_updJob fun q hq e => ?_
    obtain rfl := h.tables.unique hj hq e
    have hboth : Job.isFinal { q with state := v } = q.isFinal ∧ (v = .queued ↔ q.state = .queued) := by
      rcases hworking with hs | hs <;> rcases hv with rfl | rfl <;> simp [Job.isFinal, hs]
    exact Job.role_eq_iff.2 ⟨rfl, rfl, rfl, hboth.2, hboth.1, rfl⟩
  · exact ⟨rfl, fun _ => .refl _, rfl, fun _ => rfl⟩

/-! ### One job changes -/

theorem State.job?_changed {s t : State} {id : Nat} {f : Job → Job} (hf : ∀ j, (f j).id = j.id)
    (ht : t.jobs = s.jobs.map fun q => if q.id = id then f q else q) (k : Nat) :
    t.job? k = (s.job? k).map fun j => if j.id = id then f j else j := by
  rw [← s.job?_updJob id k f hf]
  exact State.job?_of_jobs (s := s.updJob id f) ht k

theorem State.job?_changed_ne {s t : State} {id : Nat} {f : Job → Job} (hf : ∀ j, (f j).id = j.id)
    (ht : t.jobs = s.jobs.map fun q => if q.id = id then f q else q) {k : Nat} (h : k ≠ id) :
    t.job? k = s.job? k := by
  rw [State.job?_changed hf ht]
  cases hk : s.job? k with
  | none => rfl
  | some j => simp [(State.job?_some hk).1, h]

theorem State.job?_changed_self {s t : State} {j : Job} {f : Job → Job} (hf : ∀ j, (f j).id = j.id)
    (ht : t.jobs = s.jobs.map fun q => if q.id = j.id then f q else q) (hj : s.job? j.id = some j) :
    t.job? j.id = some (f j) := by
  rw [State.job?_changed hf ht, hj]; simp

theorem State.QueuesLawful.notMem_queue {s : State} (h : s.QueuesLawful) {j : Job} {id : Nat}
    (hj : s.job? id = some j) {l : LaneId} (hne : j.state ≠ .queued ∨ j.lane ≠ l) :
    id ∉ (s.lane l).queue := fun hm => by
  obtain ⟨q, hq, hstate, hlane⟩ := h.queued l id hm
  obtain rfl : j = q := Option.some.inj (hj.symm.trans hq)
  exact hne.elim (fun hn => hn hstate) fun hn => hn hlane

theorem State.QueuesLawful.notMem_waiting {s : State} (h : s.QueuesLawful) {j : Job} {id : Nat}
    (hj : s.job? id = some j) {l : LaneId}
    (hne : j.isFinal = false ∨ j.endReport ≠ .waiting ∨ j.lane ≠ l) : id ∉ (s.lane l).waitingEnds := fun hm => by
  obtain ⟨q, hq, hfinal, hreport, hlane⟩ := h.waiting l id hm
  obtain rfl : j = q := Option.some.inj (hj.symm.trans hq)
  rcases hne with hn | hn | hn
  · rw [hn] at hfinal; cases hfinal
  · exact hn hreport
  · exact hn hlane

theorem State.QueuesLawful.current_ne {s : State} (h : s.QueuesLawful) {j : Job} {id : Nat}
    (hj : s.job? id = some j) {l : LaneId}
    (hne : j.state = .queued ∨ j.isFinal = true ∨ j.lane ≠ l) : (s.lane l).current ≠ some id := fun hc => by
  obtain ⟨q, hq, hworking, hlane⟩ := h.current l id hc
  obtain rfl : j = q := Option.some.inj (hj.symm.trans hq)
  rw [Job.working_iff] at hworking
  rcases hne with hn | hn | hn
  · exact hworking.1 hn
  · rw [hworking.2] at hn; cases hn
  · exact hn hlane

/-- What the queues must satisfy so that they stay lawful when the one job `j` changes by `f`. -/
theorem State.QueuesLawful.changed {s t : State} (h : s.QueuesLawful) {j : Job} {f : Job → Job}
    (hf : ∀ j, (f j).id = j.id) (ht : t.jobs = s.jobs.map fun q => if q.id = j.id then f q else q)
    (hj : s.job? j.id = some j)
    (hqueue : ∀ l, ((t.lane l).queue.Sublist (s.lane l).queue) ∧ j.id ∉ (t.lane l).queue)
    (hcurrent : ∀ l id, (t.lane l).current = some id →
      (s.lane l).current = some id ∧ id ≠ j.id ∨
        id = j.id ∧ ((f j).state = .active ∨ (f j).state = .held) ∧ (f j).lane = l)
    (hwaiting : ∀ l, ∀ id ∈ (t.lane l).waitingEnds, id ∈ (s.lane l).waitingEnds ∧ id ≠ j.id ∨
      id = j.id ∧ (f j).isFinal = true ∧ (f j).endReport = .waiting ∧ (f j).lane = l)
    (honce : ∀ l, (t.lane l).waitingEnds.Nodup) (hlanesOnce : t.outbox.waitingLanes.Nodup)
    (hlanes : ∀ l, l ∈ t.outbox.waitingLanes ↔ (t.lane l).waitingEnds ≠ []) : t.QueuesLawful where
  queued l id hid := by
    obtain ⟨hsub, hne⟩ := hqueue l
    rw [State.job?_changed_ne hf ht (ne_of_mem_of_not_mem hid hne)]
    exact h.queued l id (hsub.mem hid)
  once l := (h.once l).sublist (hqueue l).1
  current l id hid := by
    rcases hcurrent l id hid with ⟨hold, hne⟩ | ⟨rfl, hworking, hlane⟩
    · rw [State.job?_changed_ne hf ht hne]; exact h.current l id hold
    · exact ⟨f j, State.job?_changed_self hf ht hj, hworking, hlane⟩
  waiting l id hid := by
    rcases hwaiting l id hid with ⟨hold, hne⟩ | ⟨rfl, hfinal, hreport, hlane⟩
    · rw [State.job?_changed_ne hf ht hne]; exact h.waiting l id hold
    · exact ⟨f j, State.job?_changed_self hf ht hj, hfinal, hreport, hlane⟩
  waitingOnce := honce
  waitingLanesOnce := hlanesOnce
  waitingLanes := hlanes

/-- The sum over the jobs, as the one job of an identifier changes. -/
theorem sum_map_changed {jobs : List Job} (hids : (jobs.map fun j => j.id).Nodup) {j : Job} (hj : j ∈ jobs)
    (f : Job → Job) (g : Job → Nat) :
    ((jobs.map fun q => if q.id = j.id then f q else q).map g).sum + g j =
      (jobs.map g).sum + g (f j) := by
  induction jobs with
  | nil => cases hj
  | cons q qs ih =>
    obtain ⟨hfresh, hids⟩ := List.nodup_cons.1 (List.map_cons ▸ hids)
    simp only [List.map_cons, List.sum_cons]
    rcases List.mem_cons.1 hj with rfl | hmem
    · have hrest : (qs.map fun q => if q.id = j.id then f q else q) = qs :=
        (List.map_congr_left fun q hq => if_neg fun e : q.id = j.id =>
          hfresh (e ▸ List.mem_map_of_mem hq)).trans
          (List.map_id' qs)
      rw [hrest, if_pos rfl]; omega
    · have hne : q.id ≠ j.id := fun e => hfresh (e ▸ List.mem_map_of_mem hmem)
      have := ih hids hmem
      rw [if_neg hne]; omega

/-- The listings of a block, as the one job `j` changes by `f`. -/
theorem State.TablesLawful.listings_changed {s t : State} (h : s.TablesLawful) {j : Job} {f : Job → Job}
    (ht : t.jobs = s.jobs.map fun q => if q.id = j.id then f q else q) (hj : s.job? j.id = some j)
    (b : Handle) : t.listings b + j.lists b = s.listings b + (f j).lists b := by
  rw [State.listings_eq, State.listings_eq, ht]
  exact sum_map_changed h.ids (State.job?_some hj).2 f fun q => q.lists b

/-! ### The head of a queue starts -/

theorem State.WorkLawful.startHead {s : State} (h : s.WorkLawful) (l : LaneId) :
    (s.startHead l).WorkLawful := by
  refine ⟨h.tables.congr (s.sameTables_startHead l), ?_, ?_⟩
  all_goals
    rcases s.startHead_cases l with hs | ⟨id, rest, j, hstate, hqueue, hj⟩
    · rw [hs]; first | exact h.queues | exact h.pool
    obtain ⟨j', hj', hqueued, hlane⟩ := h.queues.queued l id (by rw [hqueue]; exact List.mem_cons_self)
    obtain rfl : j = j' := Option.some.inj (hj.symm.trans hj')
    obtain ⟨rfl, hmem⟩ := State.job?_some hj
  case refine_1 =>
    have honce := h.queues.once l
    rw [hqueue, List.nodup_cons] at honce
    have hlanes : ∀ m, (s.startHead l).lane m = if l = m then _ else s.lane m := fun m => by
      rw [State.startHead_eq hstate hqueue hj, State.lane_setJobs, State.lane_updLane]
    have hends : ∀ m, ((s.startHead l).lane m).waitingEnds = (s.lane m).waitingEnds := fun m => by
      rw [hlanes]; split
      · next e => subst e; rfl
      · rfl
    have houtbox : (s.startHead l).outbox = s.outbox := s.startHead_onlyChanges l .outbox (by decide)
    refine h.queues.changed (j := j) (f := fun q => { q with state := .active }) (fun _ => rfl)
      (by rw [State.startHead_eq hstate hqueue hj]; rfl) hj (fun m => ?_) (fun m k hk => ?_)
      (fun m k hk => ?_) (fun m => ?_) ?_ fun m => ?_
    · rw [hlanes]
      split
      · next e => subst e; rw [hqueue]; exact ⟨List.sublist_cons_self _ _, honce.1⟩
      · next e => exact ⟨List.Sublist.refl _, h.queues.notMem_queue hj (.inr (hlane ▸ e))⟩
    · rw [hlanes] at hk
      split at hk
      · next e => exact .inr ⟨(Option.some.inj hk).symm, .inl rfl, hlane.trans e⟩
      · exact .inl ⟨hk, fun e => h.queues.current_ne hj (.inl hqueued) (e ▸ hk)⟩
    · rw [hends] at hk
      exact .inl ⟨hk, ne_of_mem_of_not_mem hk
        (h.queues.notMem_waiting hj (.inl (by simp [Job.isFinal, hqueued])))⟩
    · rw [hends]; exact h.queues.waitingOnce m
    · rw [houtbox]; exact h.queues.waitingLanesOnce
    · rw [houtbox, hends]; exact h.queues.waitingLanes m
  case refine_2 =>
    refine h.pool.congr (State.block_of_blocks (s.startHead_onlyChanges l .blocks (by decide))) fun b => ?_
    have hlist := h.tables.listings_changed (t := s.startHead l) (j := j)
      (f := fun q => { q with state := .active })
      (by rw [State.startHead_eq hstate hqueue hj]; rfl) hj b
    have hsame : Job.lists { j with state := .active } b = j.lists b := by
      simp [Job.lists, Job.isUnfinished, Job.isFinal, hqueued]
    omega

/-! ### A job becomes final (R17, R141) -/

/-- A reference dropped from a lawful block that has one. -/
theorem Block.dropRef_lawful {b : Block} (h : b.Lawful) (hr : 1 ≤ b.refs) :
    b.dropRef.Lawful ∧ b.dropRef.refs = b.refs - 1 ∧ b.dropRef.content = b.content := by
  have hsealed : b.state = .sealed := by
    unfold Block.Lawful at h
    cases hs : b.state <;> simp only [hs] at h <;> first | rfl | omega
  unfold Block.dropRef
  split
  · next hlast => exact ⟨b.freed_lawful, hlast.1.symm, rfl⟩
  · next hkept =>
    refine ⟨?_, rfl, rfl⟩
    unfold Block.Lawful at h ⊢
    simp only [hsealed] at h ⊢
    refine ⟨h.1, h.2.1, h.2.2.1, ?_⟩
    cases hheld : b.held with
    | true => exact .inl rfl
    | false => exact .inr (by simp only [hheld, and_true] at hkept; omega)

theorem State.dropRefs_cons (s : State) (h : Handle) (hs : List Handle) :
    s.dropRefs (h :: hs) = (s.updBlock h Block.dropRef).dropRefs hs := rfl

/-- References dropped from a lawful block that has one for each of its listings (R141). -/
theorem State.block_dropRefs (hs : List Handle) (s : State) (g : Handle) (h : (s.block g).Lawful)
    (hr : hs.count g ≤ (s.block g).refs) :
    ((s.dropRefs hs).block g).Lawful ∧
      ((s.dropRefs hs).block g).refs = (s.block g).refs - hs.count g ∧
      ((s.dropRefs hs).block g).content = (s.block g).content := by
  induction hs generalizing s with
  | nil => exact ⟨h, rfl, rfl⟩
  | cons k hs ih =>
    have hblock : (s.updBlock k Block.dropRef).block g =
        if k = g then (s.block g).dropRef else s.block g := by
      rw [State.block_updBlock]
      split
      · next e => subst e; rfl
      · rfl
    rw [State.dropRefs_cons]
    by_cases e : k = g
    · subst e
      rw [if_pos rfl] at hblock
      rw [List.count_cons_self] at hr ⊢
      obtain ⟨hl, hrefs, hcontent⟩ := Block.dropRef_lawful h (by omega)
      obtain ⟨hl', hrefs', hcontent'⟩ := ih (s.updBlock k Block.dropRef) (by rw [hblock]; exact hl)
        (by rw [hblock]; omega)
      rw [hblock] at hrefs' hcontent'
      exact ⟨hl', by omega, hcontent'.trans hcontent⟩
    · rw [if_neg e] at hblock
      rw [List.count_cons_of_ne e] at hr ⊢
      rw [← hblock] at h hr ⊢
      exact ih _ h hr

/-- The references of the pool, as the unfinished job `j` becomes final. -/
theorem State.WorkLawful.pool_final {s t : State} (h : s.WorkLawful) {j : Job} {st : JobState}
    {reason : EndReason} {stopped : Bool} (hj : s.job? j.id = some j) (hopen : j.isFinal = false)
    (hst : Job.isFinal { j with state := st } = true) (hend : s.JobBecomesFinal t j st reason stopped) :
    t.PoolLawful := by
  obtain ⟨hjobs, hblocks, -⟩ := hend
  intro b
  obtain ⟨hlawful, hwf, hrefs⟩ := h.pool b
  have hlist := h.tables.listings_changed hjobs hj b
  have hbefore : j.lists b = j.work.blocks.count b := by simp [Job.lists, Job.isUnfinished, hopen]
  have hafter : ∀ q : Job, q.isFinal = true → q.lists b = 0 := fun q hq => by
    simp [Job.lists, Job.isUnfinished, hq]
  rw [hbefore, hafter] at hlist
  case a => exact hst
  obtain ⟨hl, hr, hc⟩ := State.block_dropRefs j.work.blocks s b hlawful (by omega)
  rw [State.block_of_blocks hblocks]
  exact ⟨hl, hc ▸ hwf, by omega⟩

theorem Outbox.mem_joinWaiting (o : Outbox) (l m : LaneId) :
    m ∈ (o.joinWaiting l).waitingLanes ↔ m ∈ o.waitingLanes ∨ m = l := by
  unfold Outbox.joinWaiting
  split
  · next h =>
    rw [List.contains_iff_mem] at h
    exact ⟨.inl, fun hm => hm.elim id fun e => e ▸ h⟩
  · simp

theorem Outbox.joinWaiting_nodup {o : Outbox} (h : o.waitingLanes.Nodup) (l : LaneId) :
    (o.joinWaiting l).waitingLanes.Nodup := by
  unfold Outbox.joinWaiting
  split
  · exact h
  · next hn =>
    rw [List.contains_iff_mem] at hn
    exact h.append (List.nodup_singleton l) (List.disjoint_singleton.2 hn)

/-- The queues, as the unfinished job `j` becomes final, leaves its place on its lane and has its JOB-END
enqueued or waits with it. -/
theorem State.WorkLawful.queues_final {s t : State} (h : s.WorkLawful) {j : Job} {st : JobState}
    {reason : EndReason} {stopped : Bool} (hj : s.job? j.id = some j) (hopen : j.isFinal = false)
    (hst : Job.isFinal { j with state := st } = true) (hend : s.JobBecomesFinal t j st reason stopped)
    (hqueue : ∀ l, ((t.lane l).queue.Sublist (s.lane l).queue) ∧ j.id ∉ (t.lane l).queue)
    (hcurrent : ∀ l id, (t.lane l).current = some id → (s.lane l).current = some id ∧ id ≠ j.id)
    (hends : ∀ l, (t.lane l).waitingEnds = if 0 < s.outbox.freeGeneral ∨ l ≠ j.lane then
      (s.lane l).waitingEnds else (s.lane l).waitingEnds ++ [j.id]) : t.QueuesLawful := by
  obtain ⟨hjobs, -, houtbox⟩ := hend
  have hnew : ∀ l, j.id ∉ (s.lane l).waitingEnds := fun l => h.queues.notMem_waiting hj (.inl hopen)
  refine h.queues.changed (j := j) (f := fun q => { q with
      state := st, endReason := some reason, laneStopped := stopped
      endReport := if 0 < s.outbox.freeGeneral then .enqueued else .waiting })
    (fun _ => rfl) hjobs hj hqueue (fun l id hid => .inl (hcurrent l id hid)) (fun l id hid => ?_)
    (fun l => ?_) ?_ fun l => ?_
  · rw [hends] at hid
    split at hid
    · exact .inl ⟨hid, ne_of_mem_of_not_mem hid (hnew l)⟩
    · next hwait =>
      rw [not_or, not_not] at hwait
      rcases List.mem_append.1 hid with hid | hid
      · exact .inl ⟨hid, ne_of_mem_of_not_mem hid (hnew l)⟩
      · exact .inr ⟨List.mem_singleton.1 hid, hst, if_neg hwait.1, hwait.2.symm⟩
  · rw [hends]
    split
    · exact h.queues.waitingOnce l
    · exact (h.queues.waitingOnce l).append (List.nodup_singleton _) (List.disjoint_singleton.2 (hnew l))
  · rw [houtbox]
    split
    · exact h.queues.waitingLanesOnce
    · exact Outbox.joinWaiting_nodup h.queues.waitingLanesOnce _
  · rw [houtbox, hends]
    by_cases hfree : 0 < s.outbox.freeGeneral
    · simp only [hfree, true_or, if_true]; exact h.queues.waitingLanes l
    · simp only [hfree, false_or, if_false, Outbox.mem_joinWaiting, h.queues.waitingLanes l]
      by_cases hl : l = j.lane <;> simp [hl]

theorem Lane.afterJob_current (x : Lane) (id : Nat) (room stopped : Bool) :
    (x.afterJob id room stopped).current = none := by
  unfold Lane.afterJob
  cases room <;> rfl

theorem Lane.afterJob_waitingEnds (x : Lane) (id : Nat) (room stopped : Bool) :
    (x.afterJob id room stopped).waitingEnds = if room then x.waitingEnds else x.waitingEnds ++ [id] := by
  unfold Lane.afterJob
  cases room <;> rfl

/-- The end of a job that is ACTIVE or HELD. -/
theorem State.WorkLawful.ends {s w : State} (h : s.WorkLawful) {j : Job} {st : JobState}
    {reason : EndReason} {stopped : Bool} (hj : s.job? j.id = some j)
    (hst : Job.isFinal { j with state := st } = true) (hworking : j.state = .active ∨ j.state = .held)
    (hend : s.CurrentJobEnds w j.lane j st reason stopped) : w.WorkLawful := by
  have htables := h.tables.congr hend.sameTables
  obtain ⟨hfinal, hlane, hothers, -⟩ := hend
  obtain ⟨hne, hopen⟩ := j.working_iff.1 hworking
  refine ⟨htables, h.queues_final hj hopen hst hfinal (fun l => ?_) (fun l id hid => ?_) fun l => ?_,
    h.pool_final hj hopen hst hfinal⟩
  all_goals by_cases hl : l = j.lane
  · subst hl
    rw [hlane, Lane.afterJob_queue]
    exact ⟨List.Sublist.refl _, h.queues.notMem_queue hj (.inl hne)⟩
  · rw [hothers l hl]
    exact ⟨List.Sublist.refl _, h.queues.notMem_queue hj (.inl hne)⟩
  · subst hl
    rw [hlane, Lane.afterJob_current] at hid
    cases hid
  · rw [hothers l hl] at hid
    exact ⟨hid, fun e => h.queues.current_ne hj (.inr (.inr (Ne.symm hl))) (e ▸ hid)⟩
  · subst hl
    rw [hlane, Lane.afterJob_waitingEnds]
    by_cases hfree : 0 < s.outbox.freeGeneral <;> simp [hfree]
  · rw [hothers l hl, if_pos (.inr hl)]

/-- The end of a QUEUED job. -/
theorem State.WorkLawful.withdrawn {s w : State} (h : s.WorkLawful) {j : Job}
    (hj : s.job? j.id = some j) (hq : j.state = .queued) (hend : s.Withdrawn w j) : w.WorkLawful := by
  have hopen : j.isFinal = false := by simp [Job.isFinal, hq]
  refine ⟨h.tables.congr hend.sameTables, h.queues_final hj hopen rfl hend.final (fun l => ?_)
    (fun l id hid => ?_) fun l => ?_, h.pool_final hj hopen rfl hend.final⟩
  all_goals by_cases hl : l = j.lane
  · subst hl
    rw [hend.lane]
    exact ⟨List.filter_sublist, fun hm => by simpa using (List.mem_filter.1 hm).2⟩
  · rw [hend.others l hl]
    exact ⟨List.Sublist.refl _, h.queues.notMem_queue hj (.inr (Ne.symm hl))⟩
  · subst hl
    rw [hend.lane] at hid
    exact ⟨hid, fun e => h.queues.current_ne hj (.inl hq) (e ▸ hid)⟩
  · rw [hend.others l hl] at hid
    exact ⟨hid, fun e => h.queues.current_ne hj (.inl hq) (e ▸ hid)⟩
  · subst hl
    rw [hend.lane]
    simp
  · rw [hend.others l hl, if_pos (.inr hl)]

/-! ### Serving the waiting lanes (R198) -/

theorem State.WorkLawful.setOutbox {s : State} (h : s.WorkLawful) {o : Outbox}
    (ho : o.waitingLanes = s.outbox.waitingLanes) : (s.setOutbox o).WorkLawful :=
  h.congr (s.sameTables_setOutbox o) ⟨rfl, fun _ => .refl _, ho, fun _ => rfl⟩

/-- The state after the JOB-END of a WAITING job has been enqueued, before its lane goes on. -/
def State.sentWaiting (s : State) (l : LaneId) (others : List LaneId) (j : Job) (more : List Nat) : State :=
  ((s.setOutbox { s.outbox with
      records := s.outbox.records ++
        [{ body := j.endBody, seq := s.outbox.nextSeq, transmitted := false, mark := false }]
      nextSeq := s.outbox.nextSeq + 1
      waitingLanes := if more = [] then others else others ++ [l] }).setJobs
    (j.changedIn s.jobs fun q => { q with endReport := .enqueued })).updLane l fun x =>
      { x with waitingEnds := more }

theorem State.served_eq (s : State) (l : LaneId) (others : List LaneId) (j : Job) (more : List Nat) :
    s.served l others j more =
      if (s.lane l).state = .reportWait ∧ (s.lane l).waitFor = some j.id then
        ((s.sentWaiting l others j more).updLane l fun x => { x with
          state := if j.laneStopped then .stopped else .idle
          waitFor := none }).startHead l
      else s.sentWaiting l others j more := rfl

theorem State.WorkLawful.sentWaiting {s : State} (h : s.WorkLawful) {l : LaneId} {others : List LaneId}
    {j : Job} {more : List Nat} (hl : s.outbox.waitingLanes = l :: others)
    (hends : (s.lane l).waitingEnds = j.id :: more) (hj : s.job? j.id = some j) :
    (s.sentWaiting l others j more).WorkLawful := by
  obtain ⟨j', hj', hfinal, -, hlane⟩ := h.queues.waiting l j.id (by rw [hends]; exact List.mem_cons_self)
  obtain rfl : j = j' := Option.some.inj (hj.symm.trans hj')
  have hjobs : (s.sentWaiting l others j more).jobs = s.jobs.map fun q =>
      if q.id = j.id then { q with endReport := .enqueued } else q := rfl
  have hlanes : ∀ m, (s.sentWaiting l others j more).lane m =
      if l = m then { s.lane l with waitingEnds := more } else s.lane m := fun m =>
    State.lane_updLane (State.setJobs _ _) l m _
  have hqueues : ∀ m, ((s.sentWaiting l others j more).lane m).queue = (s.lane m).queue ∧
      ((s.sentWaiting l others j more).lane m).current = (s.lane m).current := fun m => by
    rw [hlanes]; split
    · next e => subst e; exact ⟨rfl, rfl⟩
    · exact ⟨rfl, rfl⟩
  have honce := h.queues.waitingOnce l
  rw [hends, List.nodup_cons] at honce
  have hlanesOnce := h.queues.waitingLanesOnce
  rw [hl, List.nodup_cons] at hlanesOnce
  have hne : j.state ≠ .queued := fun e => by simp [Job.isFinal, e] at hfinal
  refine ⟨h.tables.congr ?_, h.queues.changed (j := j)
    (f := fun q => { q with endReport := .enqueued }) (fun _ => rfl) hjobs hj (fun m => ?_)
    (fun m k hk => ?_) (fun m k hk => ?_) (fun m => ?_) ?_ fun m => ?_, h.pool.congr (fun _ => rfl) fun b => ?_⟩
  · exact ((s.sameTables_setOutbox _).trans (State.sameTables_updJob (s.setOutbox _) j.id
      (f := fun q => { q with endReport := .enqueued }) fun _ => rfl)).trans
        (State.sameTables_updLane le_rfl)
  · rw [(hqueues m).1]
    exact ⟨List.Sublist.refl _, h.queues.notMem_queue hj (.inl hne)⟩
  · rw [(hqueues m).2] at hk
    exact .inl ⟨hk, fun e => h.queues.current_ne hj (.inr (.inl hfinal)) (e ▸ hk)⟩
  · rw [hlanes] at hk
    split at hk
    · next e =>
      subst e
      exact .inl ⟨by rw [hends]; exact List.mem_cons_of_mem _ hk, ne_of_mem_of_not_mem hk honce.1⟩
    · next e =>
      exact .inl ⟨hk, ne_of_mem_of_not_mem hk (h.queues.notMem_waiting hj (.inr (.inr (hlane ▸ e))))⟩
  · rw [hlanes]
    split
    · exact honce.2
    · exact h.queues.waitingOnce m
  · show (if more = [] then others else others ++ [l]).Nodup
    split
    · exact hlanesOnce.2
    · exact hlanesOnce.2.append (List.nodup_singleton l) (List.disjoint_singleton.2 hlanesOnce.1)
  · show m ∈ (if more = [] then others else others ++ [l]) ↔ _
    have hmember := h.queues.waitingLanes m
    rw [hl, List.mem_cons] at hmember
    rw [hlanes]
    by_cases e : l = m
    · subst e
      by_cases hmore : more = [] <;> simp [hmore, hlanesOnce.1]
    · rw [if_neg e, ← hmember]
      by_cases hmore : more = [] <;> simp [hmore, Ne.symm e]
  · have hlist := h.tables.listings_changed hjobs hj b
    have hsame : Job.lists { j with endReport := .enqueued } b = j.lists b := rfl
    omega

theorem State.WorkLawful.served {s : State} (h : s.WorkLawful) {l : LaneId} {others : List LaneId}
    {j : Job} {more : List Nat} (hl : s.outbox.waitingLanes = l :: others)
    (hends : (s.lane l).waitingEnds = j.id :: more) (hj : s.job? j.id = some j) :
    (s.served l others j more).WorkLawful := by
  have hsent := h.sentWaiting hl hends hj
  rw [State.served_eq]
  split
  · exact (hsent.congr (State.sameTables_updLane le_rfl)
      (State.sameWork_updLane ⟨rfl, rfl, rfl⟩)).startHead l
  · exact hsent

theorem State.WorkLawful.serveWaiting (fuel : Nat) {s : State} (h : s.WorkLawful) :
    (serveWaiting fuel s).WorkLawful := by
  induction fuel generalizing s with
  | zero => exact h
  | succ n ih =>
    unfold Machine.serveWaiting
    split
    · exact h
    · next l others hl =>
      split
      · refine ih ?_
        have hsome : (s.lane l).waitingEnds ≠ [] :=
          (h.queues.waitingLanes l).1 (by rw [hl]; exact List.mem_cons_self)
        obtain ⟨id, more, hends⟩ := List.exists_cons_of_ne_nil hsome
        obtain ⟨j, hj, -⟩ := h.queues.waiting l id (by rw [hends]; exact List.mem_cons_self)
        rw [State.serveLane_eq hends hj]
        obtain ⟨rfl, -⟩ := State.job?_some hj
        exact h.served hl hends hj
      · exact h

/-! ### Creation, retirement and the blocks -/

/-- References added to a lawful block, a SEALED one if there are any. -/
theorem Block.addRefs_lawful {b : Block} (h : b.Lawful) (n : Nat) (hs : n ≠ 0 → b.state = .sealed) :
    Block.Lawful { b with refs := b.refs + n } := by
  by_cases hn : n = 0
  · subst hn; exact h
  · unfold Block.Lawful at h ⊢
    simp only [hs hn] at h ⊢
    exact ⟨h.1, h.2.1, h.2.2.1, h.2.2.2.imp id fun hr => by omega⟩

theorem State.WorkLawful.createJob {s : State} (h : s.WorkLawful) (f : Submit) (p : ProfileId)
    (w : Work) (l : LaneId) (room : s.jobs.length < 24) (hq : (s.lane l).queue.length < 4)
    (hb : ∀ g ∈ w.blocks, (s.block g).state = .sealed) : (s.createJob f p w l).WorkLawful := by
  refine ⟨h.tables.createJob f p w l room hq, ?_, ?_⟩
  case refine_1 =>
    obtain ⟨k, hid, hfresh, -⟩ := nextFreeId_first room h.tables.lastId
    have hjobs : (s.createJob f p w l).jobs = s.jobs ++ [f.job ((s.lastId + k) % 255 + 1) l p w] := by
      rw [← hid]; exact s.createJob_jobs f p w l
    have hlanes : ∀ m, (s.createJob f p w l).lane m = if l = m then { s.lane l with
        queue := (s.lane l).queue ++ [(s.lastId + k) % 255 + 1] } else s.lane m := fun m => by
      rw [← hid]; exact s.createJob_lane f p w l m
    generalize (s.lastId + k) % 255 + 1 = id at hfresh hjobs hlanes
    have hold : ∀ {i : Nat} {j : Job}, s.job? i = some j → (s.createJob f p w l).job? i = some j :=
      fun {i j} hj => by
        unfold State.job? at hj ⊢
        rw [hjobs, List.find?_append, hj]; rfl
    have hnone : s.job? id = none := by
      unfold State.job?
      rw [List.find?_eq_none]
      exact fun j hj e => hfresh (List.mem_map.2 ⟨j, hj, beq_iff_eq.1 e⟩)
    have hnew : (s.createJob f p w l).job? id = some (f.job id l p w) := by
      unfold State.job? at hnone ⊢
      rw [hjobs, List.find?_append, hnone, Option.none_or, List.find?_singleton]
      exact if_pos (beq_self_eq_true _)
    have hrest : ∀ m, ((s.createJob f p w l).lane m).current = (s.lane m).current ∧
        ((s.createJob f p w l).lane m).waitingEnds = (s.lane m).waitingEnds := fun m => by
      rw [hlanes]; split
      · next e => subst e; exact ⟨rfl, rfl⟩
      · exact ⟨rfl, rfl⟩
    have houtbox : (s.createJob f p w l).outbox = s.outbox :=
      s.createJob_onlyChanges f p w l .outbox (by decide)
    constructor
    case queued =>
      intro m i hi
      rw [hlanes] at hi
      split at hi
      · next e =>
        subst e
        rcases List.mem_append.1 hi with hi | hi
        · obtain ⟨j, hj, hrest⟩ := h.queues.queued l i hi
          exact ⟨j, hold hj, hrest⟩
        · rw [List.mem_singleton.1 hi]
          exact ⟨_, hnew, rfl, rfl⟩
      · obtain ⟨j, hj, hrest⟩ := h.queues.queued m i hi
        exact ⟨j, hold hj, hrest⟩
    case once =>
      intro m
      rw [hlanes]
      split
      · refine (h.queues.once l).append (List.nodup_singleton _) (List.disjoint_singleton.2 fun hm => ?_)
        obtain ⟨j, hj, -⟩ := h.queues.queued l id hm
        rw [hnone] at hj; cases hj
      · exact h.queues.once m
    case current =>
      intro m i hi
      rw [(hrest m).1] at hi
      obtain ⟨j, hj, hprops⟩ := h.queues.current m i hi
      exact ⟨j, hold hj, hprops⟩
    case waiting =>
      intro m i hi
      rw [(hrest m).2] at hi
      obtain ⟨j, hj, hprops⟩ := h.queues.waiting m i hi
      exact ⟨j, hold hj, hprops⟩
    case waitingOnce => intro m; rw [(hrest m).2]; exact h.queues.waitingOnce m
    case waitingLanesOnce => rw [houtbox]; exact h.queues.waitingLanesOnce
    case waitingLanes => intro m; rw [houtbox, (hrest m).2]; exact h.queues.waitingLanes m
  case refine_2 =>
    intro b
    obtain ⟨hl, hwf, hrefs⟩ := h.pool b
    have hlist : (s.createJob f p w l).listings b = s.listings b + w.blocks.count b := by
      rw [State.listings_eq, State.createJob_jobs, List.map_append, List.sum_append]; rfl
    rw [State.createJob_block, hlist]
    exact ⟨Block.addRefs_lawful hl _ fun hn => hb b (List.count_pos_iff.1 (Nat.pos_of_ne_zero hn)), hwf,
      by rw [← hrefs]⟩

theorem sum_filter_of_zero {jobs : List Job} {p : Job → Bool} {g : Job → Nat}
    (h : ∀ q ∈ jobs, p q = false → g q = 0) : ((jobs.filter p).map g).sum = (jobs.map g).sum := by
  induction jobs with
  | nil => rfl
  | cons q qs ih =>
    have hqs := ih fun x hx => h x (List.mem_cons_of_mem q hx)
    cases hp : p q with
    | true => rw [List.filter_cons_of_pos hp, List.map_cons, List.map_cons, List.sum_cons, List.sum_cons, hqs]
    | false =>
      rw [List.filter_cons_of_neg (by simp [hp]), List.map_cons, List.sum_cons, hqs,
        h q List.mem_cons_self hp, Nat.zero_add]

theorem State.WorkLawful.retire {s : State} (h : s.WorkLawful) {j : Job} (hj : s.job? j.id = some j)
    (hfinal : j.isFinal = true) (hreport : j.endReport = .enqueued) :
    ((s.setFaults (s.faults.filter fun r => r.job != j.id)).setJobs
      (s.jobs.filter fun q => q.id != j.id)).WorkLawful := by
  let t := (s.setFaults (s.faults.filter fun r => r.job != j.id)).setJobs
    (s.jobs.filter fun q => q.id != j.id)
  have hold : ∀ {i : Nat} {q : Job}, i ≠ j.id → s.job? i = some q → t.job? i = some q :=
    fun {i q} hne hq => by
      unfold State.job? at hq ⊢
      show (s.jobs.filter fun q => q.id != j.id).find? (fun q => q.id == i) = some q
      rw [List.find?_filter, ← hq]
      refine congrArg (fun p => List.find? p s.jobs) (funext fun x => ?_)
      by_cases e : x.id = i
      · simp [e, hne]
      · simp [e]
  refine ⟨h.tables.retire j.id, ⟨fun l i hi => ?_, h.queues.once, fun l i hi => ?_, fun l i hi => ?_,
    h.queues.waitingOnce, h.queues.waitingLanesOnce, h.queues.waitingLanes⟩,
    h.pool.congr (fun _ => rfl) fun b => sum_filter_of_zero fun q hq hp => ?_⟩
  · obtain ⟨q, hq, hprops⟩ := h.queues.queued l i hi
    refine ⟨q, hold (fun e => ?_) hq, hprops⟩
    exact h.queues.notMem_queue (l := l) hj (.inl fun hs => by simp [Job.isFinal, hs] at hfinal) (e ▸ hi)
  · obtain ⟨q, hq, hprops⟩ := h.queues.current l i hi
    exact ⟨q, hold (fun e => h.queues.current_ne hj (.inr (.inl hfinal)) (e ▸ hi)) hq, hprops⟩
  · obtain ⟨q, hq, hprops⟩ := h.queues.waiting l i hi
    refine ⟨q, hold (fun e => ?_) hq, hprops⟩
    exact h.queues.notMem_waiting (l := l) hj (.inr (.inl (by simp [hreport]))) (e ▸ hi)
  · obtain rfl := h.tables.unique hj hq (by simpa using hp)
    simp [Job.isUnfinished, hfinal]

theorem State.WorkLawful.updBlock {s : State} (h : s.WorkLawful) (g : Handle) {f : Block → Block}
    (hl : (s.block g).Lawful → (f (s.block g)).Lawful ∧ (f (s.block g)).refs = (s.block g).refs)
    (hc : (s.block g).content.wf = true → (f (s.block g)).content.wf = true) :
    (s.updBlock g f).WorkLawful := by
  refine ⟨h.tables.congr ⟨rfl, rfl, rfl, fun _ => le_rfl, .inr le_rfl⟩,
    ⟨h.queues.queued, h.queues.once, h.queues.current, h.queues.waiting, h.queues.waitingOnce,
      h.queues.waitingLanesOnce, h.queues.waitingLanes⟩, fun b => ?_⟩
  obtain ⟨hlawful, hwf, hrefs⟩ := h.pool b
  rw [State.block_updBlock]
  split
  · next e =>
    subst e
    obtain ⟨hlawful', hrefs'⟩ := hl hlawful
    exact ⟨hlawful', hc hwf, hrefs'.trans hrefs⟩
  · exact ⟨hlawful, hwf, hrefs⟩

/-! ### Moves -/

theorem State.WorkLawful.holdLane {s : State} (h : s.WorkLawful) (l : LaneId) :
    (s.holdLane l).WorkLawful := by
  have hlane : (s.setLaneState l .held).WorkLawful := h.congr (State.sameTables_updLane le_rfl)
    (State.sameWork_updLane (f := fun x => { x with state := .held }) ⟨rfl, rfl, rfl⟩)
  exact hlane.congr (State.sameTables_updCurrentJob _ l fun _ => rfl)
    (hlane.sameWork_currentState l (.inr rfl))

theorem State.WorkLawful.openSwitch {s : State} (h : s.WorkLawful) (l : LaneId) (v : PulseSlot) :
    (s.openSwitch l v).WorkLawful :=
  h.congr (s.sameTables_openSwitch l v)
    (.trans (t := s.setFreeUnits (s.freeUnits + (s.lane l).unitsHeld))
      ⟨rfl, fun _ => .refl _, rfl, fun _ => rfl⟩ (State.sameWork_updLane ⟨rfl, rfl, rfl⟩))

theorem State.WorkLawful.grant {s : State} (h : s.WorkLawful) (e : GrantEntry) : (s.grant e).WorkLawful := by
  refine h.congr (s.sameTables_grant e) ((s.grant_onlyChanges e).sameWork rfl (fun l => ?_) rfl (by decide))
  rw [State.grant_eq, State.lane_setFreeUnits, State.lane_updLane]
  split
  · next he => subst he; exact ⟨rfl, rfl, rfl⟩
  · exact .refl _

theorem State.ClearedTo.queuesLawful {s t : State} (h : s.ClearedTo t) : t.QueuesLawful := by
  constructor
  case queued => intro l id hid; rw [h.lanes] at hid; cases hid
  case once => intro l; rw [h.lanes]; exact List.nodup_nil
  case current => intro l id hid; rw [h.lanes] at hid; cases hid
  case waiting => intro l id hid; rw [h.lanes] at hid; cases hid
  case waitingOnce => intro l; rw [h.lanes]; exact List.nodup_nil
  case waitingLanesOnce => rw [h.waitingLanes]; exact List.nodup_nil
  case waitingLanes => intro l; rw [h.waitingLanes, h.lanes]; simp [Lane.afterReset]

theorem State.ClearedTo.poolLawful {s t : State} (h : s.ClearedTo t) (hs : s.PoolLawful) :
    t.PoolLawful := fun b => by
  obtain ⟨hl, hrefs, hwf⟩ := h.blocks b
  refine ⟨hl, hwf (hs b).2.1, hrefs.trans ?_⟩
  rw [State.listings_eq, h.jobs]; rfl

theorem State.WorkLawful.move {s t : State} (h : s.WorkLawful) (m : s.Move t) : t.WorkLawful := by
  have htables := h.tables.move m
  have hsame : s.SameWork t → t.WorkLawful := fun g =>
    ⟨htables, h.queues.congr g, h.pool.congr g.blocks (State.listings_congr g.jobs)⟩
  cases m with
  | serve o _ hw => exact (h.setOutbox hw).serveWaiting _
  | start l => exact h.startHead l
  | @ends w j st reason stopped hj hst hc hend =>
    refine h.ends hj hst ?_ hend
    rcases hc with ⟨l, hl⟩ | hworking
    · obtain ⟨q, hq, hworking, -⟩ := h.queues.current l j.id hl
      obtain rfl : j = q := Option.some.inj (hj.symm.trans hq)
      exact hworking
    · exact hworking
  | withdrawn hj hq hend => exact h.withdrawn hj hq hend
  | create f p w l room hq hb => exact h.createJob f p w l room hq hb
  | retire hj hf he => exact h.retire hj hf he
  | block g f hl hc => exact h.updBlock g hl hc
  | reset hc => exact ⟨htables, hc.queuesLawful, hc.poolLawful h.pool⟩
  | fall =>
    refine fallOnLanes_keeps (fun s l v hs => hs.openSwitch l v) (fun s l hs => hs.holdLane l)
      (fun s q hs => hs.congr ⟨rfl, rfl, rfl, fun _ => le_rfl, .inr le_rfl⟩
        ⟨rfl, fun _ => .refl _, rfl, fun _ => rfl⟩) ?_
    exact h.congr ⟨rfl, rfl, rfl, fun _ => le_rfl, .inr le_rfl⟩
      ⟨rfl, fun _ => .refl _, rfl, fun _ => rfl⟩
  | link hc =>
    exact hsame (hc.sameWork (by rw [show t.jobs = s.jobs from hc .jobs (by decide)])
      (fun l => by rw [State.lane_of_lanes (hc .lanes (by decide)) l]; exact .refl _)
      (congrArg Outbox.waitingLanes (hc .outbox (by decide))) (by decide))
  | outbox o _ hw => exact h.setOutbox hw
  | lane l f _ hj => exact hsame (State.sameWork_updLane hj)
  | job id f hf => exact hsame (State.sameWork_updJob fun j _ _ => Job.role_of_standing (hf j))
  | currentState l v hv => exact hsame (h.sameWork_currentState l hv)
  | fault r _ _ =>
    exact hsame (.trans (t := s.setFaults (s.faults ++ [r])) ⟨rfl, fun _ => .refl _, rfl, fun _ => rfl⟩
      (State.sameWork_updJob fun _ _ _ => rfl))
  | slotCleared l _ => exact hsame (State.sameWork_updLane ⟨rfl, rfl, rfl⟩)
  | pulseStarts l _ => exact hsame (State.sameWork_updLane ⟨rfl, rfl, rfl⟩)
  | pin v => exact hsame ⟨rfl, fun _ => .refl _, rfl, fun _ => rfl⟩
  | replies q _ => exact hsame ⟨rfl, fun _ => .refl _, rfl, fun _ => rfl⟩
  | rise _ => exact hsame ⟨rfl, fun _ => .refl _, rfl, fun _ => rfl⟩

theorem State.WorkLawful.looseMove {s t : State} (h : s.WorkLawful) (m : s.LooseMove t) : t.WorkLawful := by
  have hsame : s.SameWork t → t.WorkLawful := fun g =>
    ⟨h.tables.looseMove m, h.queues.congr g, h.pool.congr g.blocks (State.listings_congr g.jobs)⟩
  cases m with
  | openSwitch l v _ => exact h.openSwitch l v
  | grantQueue q => exact hsame ⟨rfl, fun _ => .refl _, rfl, fun _ => rfl⟩
  | supplyUp _ => exact hsame ⟨rfl, fun _ => .refl _, rfl, fun _ => rfl⟩

end Sys2Proof.Machine

open Sys2Proof Sys2Proof.Machine

/-- Settles O11: an unfinished job keeps its place on its lane and its references until it becomes final, and a
WAITING job keeps its lane waiting until its JOB-END is enqueued. -/
theorem stepsKeepThePoolLawful : Obligations.StepsKeepThePoolLawful := by
  intro s t htables hqueues hpool hstep
  have h := step_keeps (P := State.WorkLawful) (fun m hs => hs.move m) (fun m hs => hs.looseMove m)
    (fun s e _ _ hs => hs.grant e) ⟨htables, hqueues, hpool⟩ hstep
  exact ⟨h.queues, h.pool⟩
end

section
/-! PROOF. The queue of commands, the pins and the resets: what a step runs (log 1, log 10), what acts while RESET
is low (R214, R215, R218), and which fields each command may change. -/

-- One proof after another: a thread for each of them would take too much memory.
set_option Elab.async false

namespace Sys2Proof.Machine

/-! ### Which fields a command may change -/

theorem Request.kind_of_ofKind {k : Byte} {r : Request} (h : Request.ofKind k = some r) : r.kind = k := by
  simpa using List.find?_some h

theorem whenRunning_onlyChanges {s t : State} {effect : State → State} {fs : List StateField}
    (h : whenRunning s effect = .next t) (hfs : ∀ g ∈ [StateField.tx, .replyQueue, .outbox], g ∈ fs)
    (he : ∀ s : State, s.OnlyChanges (effect s) fs) : s.OnlyChanges t fs := by
  unfold whenRunning at h
  split at h
  · obtain rfl := Host.Outcome.next.inj h; exact .refl s _
  · obtain rfl := Host.Outcome.next.inj h
    exact (s.transmit_onlyChanges.mono hfs).trans (he _)

theorem State.setRx_onlyChanges (s : State) (v : Receiver) : s.OnlyChanges (s.setRx v) [.rx] := by
  intro g hg; cases g <;> first | exact absurd (by decide) hg | rfl

/-- A request command, with a frame that its judging keeps. -/
theorem exec_frame_onlyChanges {c : Instr} {f : Frame} {s t : State} (hc : c.frame? = some f)
    (h : exec c s = .next t) {fs : List StateField}
    (hj : ∀ r u (s : State), Request.ofKind f.kind = some r →
      s.OnlyChanges (carryOut r u f.tag f.digest f.payload s).after fs)
    (hfs : ∀ g ∈ [StateField.rx, .tags, .tx, .replyQueue, .outbox, .choices], g ∈ fs) :
    s.OnlyChanges t fs := by
  rw [exec_frame hc] at h
  unfold frameCommand at h
  split at h
  · refine whenRunning_onlyChanges h (fun g hg => hfs g (by revert g; decide)) fun s => ?_
    refine .trans (t := s.lineHigh) ((s.setRx_onlyChanges _).mono fun g hg => hfs g (by revert g; decide)) ?_
    exact State.frameArrives_onlyChanges _ f fs (hfs _ (by decide)) hj fun g hg =>
      hfs g (by revert g; decide)
  · cases h

/-- The fields that a command which is no reset may change. -/
abbrev runFields : List StateField := .tx :: .choices :: frameFields

theorem State.rxByte_onlyChanges (s : State) (b : RxByte) : s.OnlyChanges (s.rxByte b) runFields := by
  have hrx : ∀ v, s.OnlyChanges (s.setRx v) runFields := fun v => (s.setRx_onlyChanges v).mono (by decide)
  unfold State.rxByte
  simp only
  split
  · split
    · exact hrx _
    · exact .refl s _
  · split
    · exact hrx _
    · split <;> exact hrx _
  · exact hrx _
  · split
    · split
      · exact (hrx _).trans (State.frameArrives_onlyChanges _ _ _ (by decide)
          (fun r u s _ => (carryOut_frame r u _ _ _ s).mono (by decide)) (by decide))
      · exact hrx _
    · exact hrx _

theorem rescanAll_onlyChanges (fuel : Nat) (s : State) : s.OnlyChanges (rescanAll fuel s) runFields := by
  induction fuel generalizing s with
  | zero => exact .refl s _
  | succ n ih =>
    unfold rescanAll
    split
    · exact .refl s _
    · exact (((s.setRx_onlyChanges _).mono (by decide)).trans (State.rxByte_onlyChanges _ _)).trans (ih _)

theorem State.frameTimerExpires_onlyChanges (s : State) :
    s.OnlyChanges s.frameTimerExpires runFields := by
  unfold State.frameTimerExpires
  split
  · exact ((s.setRx_onlyChanges _).mono (by decide)).trans (rescanAll_onlyChanges _ _)
  · exact .refl s _

theorem State.breakRecognised_onlyChanges (s : State) :
    s.OnlyChanges s.breakRecognised [.rx, .outbox, .lanes, .jobs] := by
  have htaken : s.OnlyChanges s.breakTaken [.rx, .outbox, .lanes, .jobs] :=
    .trans (t := (s.setRx _).setOutbox s.outbox.rewind.merge)
      (((s.setRx_onlyChanges _).mono (by decide)).trans
        ((State.setOutbox_onlyChanges _ _).mono (by decide)))
      ((serveWaiting_onlyChanges _ _).mono (by decide))
  unfold State.breakRecognised
  split
  · exact .refl s _
  · exact htaken
  · exact htaken

theorem State.frameEnded_onlyChanges (s : State) :
    s.OnlyChanges s.frameEnded [.tx, .replyQueue, .outbox] := by
  have hidle : s.OnlyChanges (s.setTx .idle) [.tx, .replyQueue, .outbox] := by
    intro g hg; cases g <;> first | exact absurd (by decide) hg | rfl
  unfold State.frameEnded
  split
  · exact .refl s _
  · exact hidle.trans (State.transmit_onlyChanges _)
  · exact (hidle.trans ((State.setOutbox_onlyChanges _ _).mono (by decide))).trans
      (State.transmit_onlyChanges _)

theorem State.psupFallTaken_onlyChanges (s : State) :
    s.OnlyChanges s.psupFallTaken [.supply, .lanes, .jobs, .freeUnits, .grantQueue, .outbox] := by
  unfold State.psupFallTaken
  split
  · exact s.supplyFalls_onlyChanges
  · exact s.supplyFalls_onlyChanges
  · exact .refl s _

theorem State.psupRiseTaken_onlyChanges (s : State) :
    s.OnlyChanges s.psupRiseTaken [.supply, .outbox] := by
  unfold State.psupRiseTaken
  split
  · exact ((s.setSupply_onlyChanges _).mono (by decide)).trans
      ((State.setOutbox_onlyChanges _ _).mono (by decide))
  · exact .refl s _
  · exact .refl s _

/-- The fields that the timing commands of the line and of the lanes may change. -/
abbrev timingFields : List StateField := .rx :: .tx :: cycleFields

/-- The commands of the timers, the break and the lanes. -/
theorem exec_timing_onlyChanges {c : Instr} {s t : State} (h : exec c s = .next t)
    (hframe : c.frame? = none) (h1 : c ≠ .powerOn) (h2 : c ≠ .resetAssert)
    (h3 : ∀ a b p r, c ≠ .resetRelease a b p r) (h4 : ∀ m b g, c ≠ .rxCharacter m b g)
    (h5 : c ≠ .frameTimerExpiry) (h6 : c ≠ .psupOkFall) (h7 : c ≠ .psupOkRise) :
    s.OnlyChanges t timingFields := by
  have htransmit : ∀ s : State, s.OnlyChanges s.transmit timingFields := fun s =>
    s.transmit_onlyChanges.mono (by decide)
  have hcycle : ∀ (s : State) l k o d, s.OnlyChanges (s.cycleEndsAndTransmit l k o d) timingFields :=
    fun s l k o d => ((s.cycleEnds_onlyChanges l k o d).mono (by decide)).trans (htransmit _)
  have hunit : ∀ (s : State) l f, s.OnlyChanges (s.updUnit l f) timingFields := fun s l f =>
    (s.updLane_onlyChanges l _).mono (by decide)
  cases c
  case rxBreak =>
    rw [exec, execRxBreak] at h
    exact whenRunning_onlyChanges h (by decide) fun s =>
      (s.breakRecognised_onlyChanges.mono (by decide)).trans (htransmit _)
  case transmitFrameEnd =>
    rw [exec, execTransmitFrameEnd] at h
    exact whenRunning_onlyChanges h (by decide) fun s => s.frameEnded_onlyChanges.mono (by decide)
  case ackTimerExpiry =>
    rw [exec, execAckTimerExpiry] at h
    refine whenRunning_onlyChanges h (by decide) fun s => ?_
    split
    · exact ((s.setOutbox_onlyChanges _).mono (by decide)).trans (htransmit _)
    · exact .refl s _
  case laneGapEnd l =>
    rw [exec, execLaneGapEnd] at h
    exact whenRunning_onlyChanges h (by decide) fun s => hunit s l _
  case sentMoment l moment =>
    rw [exec, execSentMoment] at h
    exact whenRunning_onlyChanges h (by decide) fun s => hunit s l _
  case answerSlot l b =>
    rw [exec, execAnswerSlot] at h
    refine whenRunning_onlyChanges h (by decide) fun s => ?_
    split
    · exact .refl s _
    · split
      · exact .refl s _
      · exact hunit s l _
      · exact hcycle s l _ _ _
  case answerWindowClose l =>
    rw [exec, execAnswerWindowClose] at h
    refine whenRunning_onlyChanges h (by decide) fun s => ?_
    split
    · exact .refl s _
    · split
      · exact hcycle s l _ _ _
      · exact .refl s _
  case cycleCeiling l =>
    rw [exec, execCycleCeiling] at h
    refine whenRunning_onlyChanges h (by decide) fun s => ?_
    split
    · exact .refl s _
    · split
      · exact hcycle s l _ _ _
      · exact .refl s _
  case pulseTimerExpiry l =>
    rw [exec, execPulseTimerExpiry] at h
    refine whenRunning_onlyChanges h (by decide) fun s => ?_
    split
    · exact (s.pulseExpires_onlyChanges l).mono (by decide)
    · exact .refl s _
  case powerOn => exact absurd rfl h1
  case resetAssert => exact absurd rfl h2
  case resetRelease => exact absurd rfl (h3 _ _ _ _)
  case rxCharacter => exact absurd rfl (h4 _ _ _)
  case frameTimerExpiry => exact absurd rfl h5
  case psupOkFall => exact absurd rfl h6
  case psupOkRise => exact absurd rfl h7
  all_goals simp [Instr.frame?] at hframe

theorem exec_rxCharacter_onlyChanges {s t : State} {moment : Nat} {b : Byte} {framing : Framing}
    (h : exec (.rxCharacter moment b framing) s = .next t) : s.OnlyChanges t runFields := by
  rw [exec, execRxCharacter] at h
  refine whenRunning_onlyChanges h (by decide) fun s => ?_
  have hrx : ∀ v, s.OnlyChanges (s.setRx v) runFields := fun v => (s.setRx_onlyChanges v).mono (by decide)
  cases framing with
  | good => exact ((hrx _).trans (State.rxByte_onlyChanges _ _)).trans (rescanAll_onlyChanges _ _)
  | stopLow => exact hrx _
  | begunInReset high => cases high <;> exact hrx _

theorem exec_psupOk_onlyChanges {c : Instr} {s t : State} (hc : c = .psupOkFall ∨ c = .psupOkRise)
    (h : exec c s = .next t) :
    s.OnlyChanges t [.tx, .replyQueue, .supply, .lanes, .jobs, .freeUnits, .grantQueue, .outbox] := by
  have hpin : ∀ (s : State) v, s.OnlyChanges (s.setPsupOk v)
      [.tx, .replyQueue, .supply, .lanes, .jobs, .freeUnits, .grantQueue, .outbox] := fun s v =>
    (s.setSupply_onlyChanges _).mono (by decide)
  rcases hc with rfl | rfl
  · change execPsupOkFall s = _ at h
    unfold execPsupOkFall at h
    split at h
    · obtain rfl := Host.Outcome.next.inj h; exact hpin s _
    · exact whenRunning_onlyChanges h (by decide) fun s => ((hpin s _).trans
        ((State.psupFallTaken_onlyChanges _).mono (by decide))).trans
          ((State.transmit_onlyChanges _).mono (by decide))
  · change execPsupOkRise s = _ at h
    unfold execPsupOkRise at h
    split at h
    · obtain rfl := Host.Outcome.next.inj h; exact hpin s _
    · exact whenRunning_onlyChanges h (by decide) fun s => ((hpin s _).trans
        ((State.psupRiseTaken_onlyChanges _).mono (by decide))).trans
          ((State.transmit_onlyChanges _).mono (by decide))

/-- Every command that is no reset leaves the link rate, the queue of commands and the reset itself alone. -/
theorem exec_onlyChanges {c : Instr} {s t : State} (h : exec c s = .next t) (h1 : c ≠ .powerOn)
    (h2 : c ≠ .resetAssert) (h3 : ∀ a b p r, c ≠ .resetRelease a b p r) : s.OnlyChanges t runFields := by
  cases hf : c.frame? with
  | some f =>
    exact exec_frame_onlyChanges hf h (fun r u s _ => (carryOut_frame r u _ _ _ s).mono (by decide))
      (by decide)
  | none =>
    by_cases h4 : ∃ m b g, c = .rxCharacter m b g
    · obtain ⟨m, b, g, rfl⟩ := h4
      exact exec_rxCharacter_onlyChanges h
    by_cases h5 : c = .frameTimerExpiry
    · subst h5
      rw [exec, execFrameTimerExpiry] at h
      exact whenRunning_onlyChanges h (by decide) State.frameTimerExpires_onlyChanges
    by_cases h6 : c = .psupOkFall ∨ c = .psupOkRise
    · exact (exec_psupOk_onlyChanges h6 h).mono (by decide)
    obtain ⟨h6, h7⟩ := not_or.1 h6
    exact (exec_timing_onlyChanges h hf h1 h2 h3 (fun m b g e => h4 ⟨m, b, g, e⟩) h5 h6 h7).mono (by decide)

/-! ### What the release of RESET gives -/

theorem State.lane_heldInReset (s : State) (l : LaneId) : s.heldInReset.lane l = .afterReset :=
  State.lane_replicate l _ rfl

theorem State.tagEntry_replicate (k : Fin 16) (s : State) (h : s.tags = Vector.replicate 16 .free) :
    s.tagEntry k = .free := by simp [State.tagEntry, h]

theorem profiles_replicate (i : ProfileId) (s : State)
    (h : s.profiles = Vector.replicate 4 Profile.afterPowerOn) : s.profiles[i] = .afterPowerOn := by
  simp [h]

theorem State.block_unused (h : Handle) (s : State)
    (hs : s.blocks = Vector.replicate 64 Block.afterPowerOn) :
    (s.block h).state = .free ∧ (s.block h).Lawful := by
  rw [State.block_replicate h s hs]
  exact ⟨rfl, Block.afterPowerOn_lawful⟩

theorem State.reset_cleared : State.reset.ClearedTo State.reset :=
  State.reset.released_cleared false false true true

theorem strapRate_eq (baud1 baud0 : Bool) : strapRate baud1 baud0 =
    if baud1 then (if baud0 then .baud3000000 else .baud921600)
    else if baud0 then .baud460800 else .baud115200 := by
  cases baud1 <;> cases baud0 <;> rfl

/-! ### Every command but the release of RESET starts from a settled Transmitter -/

theorem State.transmit_inReset (s : State) : s.transmit.inReset = s.inReset :=
  s.transmit_onlyChanges .inReset (by decide)

theorem frameCommand_transmit {s : State} (h : s.inReset = false) (kind tag : Byte) (p : List Byte) :
    frameCommand kind tag p s = frameCommand kind tag p s.transmit := by
  unfold frameCommand
  rw [whenRunning_transmit h]

/-- A reset does not look at what it empties. -/
theorem State.heldInReset_transmit (s : State) : s.transmit.heldInReset = s.heldInReset := by
  have hframe := s.transmit_onlyChanges
  unfold State.heldInReset
  rw [show s.transmit.linkRate = s.linkRate from hframe .linkRate (by decide),
    show s.transmit.supply = s.supply from hframe .supply (by decide),
    show s.transmit.choices = s.choices from hframe .choices (by decide),
    show s.transmit.pending = s.pending from hframe .pending (by decide)]

theorem exec_transmit {s : State} (h : s.inReset = false) {c : Instr}
    (hc : ∀ a b p r, c ≠ .resetRelease a b p r) : exec c s = exec c s.transmit := by
  have hrun : s.transmit.inReset = false := s.transmit_inReset.trans h
  cases hf : c.frame? with
  | some f => rw [exec_frame hf, exec_frame hf, frameCommand_transmit h]
  | none =>
    by_cases hp : c = .powerOn ∨ c = .resetAssert
    · rcases hp with rfl | rfl <;>
        exact congrArg Host.Outcome.next s.heldInReset_transmit.symm
    obtain ⟨h1, h2⟩ := not_or.1 hp
    by_cases hpin : c = .psupOkFall ∨ c = .psupOkRise
    · rcases hpin with rfl | rfl
      · show execPsupOkFall s = execPsupOkFall s.transmit
        rw [execPsupOkFall, execPsupOkFall, if_neg (by simp [h]), if_neg (by simp [hrun]),
          whenRunning_transmit h]
      · show execPsupOkRise s = execPsupOkRise s.transmit
        rw [execPsupOkRise, execPsupOkRise, if_neg (by simp [h]), if_neg (by simp [hrun]),
          whenRunning_transmit h]
    obtain ⟨h4, h5⟩ := not_or.1 hpin
    obtain ⟨effect, he⟩ := exec_effect hf h1 h2 hc h4 h5
    rw [he, he, whenRunning_transmit h]

end Sys2Proof.Machine

open Sys2Proof Sys2Proof.Machine

/-- Settles O1: a reset keeps the queue, and every other command leaves it out of the fields it may change. -/
theorem stepRunsTheFrontCommand : Obligations.StepRunsTheFrontCommand := by
  refine ⟨fun s c rest h => ?_, fun s h => ?_, fun c s t h => ?_⟩
  · unfold step; rw [h]
  · unfold step; rw [h]
  · by_cases hp : c = .powerOn ∨ c = .resetAssert
    · rcases hp with rfl | rfl <;> · obtain rfl := Host.Outcome.next.inj h; rfl
    by_cases hr : ∃ a b p r, c = .resetRelease a b p r
    · obtain ⟨a, b, p, r, rfl⟩ := hr
      change execResetRelease a b p r s = _ at h
      unfold execResetRelease at h
      split at h <;> · obtain rfl := Host.Outcome.next.inj h; rfl
    obtain ⟨h1, h2⟩ := not_or.1 hp
    exact exec_onlyChanges h h1 h2 (fun a b p r e => hr ⟨a, b, p, r, e⟩) .pending (by decide)

/-- Settles O2. -/
theorem idleTransmitterTakesFirst : Obligations.IdleTransmitterTakesFirst :=
  fun s h => ⟨s.settled_transmit, fun _ hc => exec_transmit h hc⟩

/-- Settles O3: held in reset, a command has no effect, and the two edges only set the level of the pin. -/
theorem heldEngineTakesNoCommand : Obligations.HeldEngineTakesNoCommand := by
  intro s h
  have hheld : ∀ effect : State → State, whenRunning s effect = .next s := fun effect => if_pos h
  refine ⟨fun c h1 h2 h3 h4 h5 hp => ?_, ?_, ?_⟩
  · cases hf : c.frame? with
    | some f => rw [exec_frame hf, frameCommand, if_pos (hp f hf), hheld]
    | none =>
      obtain ⟨effect, he⟩ := exec_effect hf h1 h2 h3 h4 h5
      rw [he, hheld]
  · show execPsupOkFall s = _
    rw [execPsupOkFall, if_pos h]; rfl
  · show execPsupOkRise s = _
    rw [execPsupOkRise, if_pos h]; rfl

/-- Settles O4: both commands lead to `heldInReset`, field by field. -/
theorem powerOnAndResetHoldTheEngine : Obligations.PowerOnAndResetHoldTheEngine := by
  intro s
  refine ⟨s.heldInReset, rfl, rfl, rfl, rfl, rfl, rfl, rfl, rfl, fun k => State.tagEntry_replicate k _ rfl,
    rfl, rfl, rfl, rfl, rfl, fun l => ?_, rfl, rfl, rfl, fun i => profiles_replicate i _ rfl,
    fun h => State.block_unused h _ rfl, rfl, rfl, rfl⟩
  rw [s.lane_heldInReset]
  exact ⟨rfl, rfl, rfl, rfl⟩

/-- Settles O5: the release leads to `released`, field by field, whose only frame is ENGINE-READY. -/
theorem releaseStartsTheEngine : Obligations.ReleaseStartsTheEngine := by
  intro s baud1 baud0 psupOk rx h
  refine ⟨s.released baud1 baud0 psupOk rx, if_pos h, rfl, strapRate_eq baud1 baud0, rfl, rfl, rfl, rfl,
    rfl, fun k => State.tagEntry_replicate k _ rfl, rfl, rfl, rfl, rfl, rfl, rfl, rfl, rfl, rfl, rfl, rfl,
    rfl, rfl, rfl, rfl, rfl, fun l => State.lane_replicate l _ rfl, rfl, rfl,
    fun i => profiles_replicate i _ rfl, fun h => State.block_unused h _ rfl, rfl⟩

/-- Settles O12: after reset every lane is quiet and every table empty. -/
theorem resetMeetsTheLaws : Obligations.ResetMeetsTheLaws := by
  have hlane : ∀ l, State.reset.lane l = .afterReset := State.reset_cleared.lanes
  refine ⟨?budget, ⟨fun l => ?switch, fun _ l => ?isOpen⟩, fun _ e he => absurd he (by simp [State.reset]),
    State.reset_cleared.outbox, State.reset_cleared.tablesLawful, State.reset_cleared.queuesLawful,
    fun b => ⟨(State.reset_cleared.blocks b).1, Memory.wf_reset b, (State.reset_cleared.blocks b).2.1⟩⟩
  case budget =>
    have hheld : State.reset.unitsHeld = 0 := State.unitsHeld_eq_zero fun l => by rw [hlane]; rfl
    rw [State.BudgetKept, hheld]; rfl
  case switch =>
    rw [hlane]
    exact Lane.switchFollowsSlot_of_open rfl rfl rfl (by decide) (by decide)
  case isOpen => rw [hlane]; rfl

/-- Settles O13: each command, by the fields that it may change. -/
theorem ownersAloneChangeTheirState : Obligations.OwnersAloneChangeTheirState := by
  intro c s t h
  refine ⟨fun hr => ?rate, fun h1 h2 h3 h4 h5 => ?others⟩
  case rate =>
    by_cases hp : c = .powerOn ∨ c = .resetAssert
    · rcases hp with rfl | rfl <;> · obtain rfl := Host.Outcome.next.inj h; rfl
    obtain ⟨h1, h2⟩ := not_or.1 hp
    exact exec_onlyChanges h h1 h2 hr .linkRate (by decide)
  case others =>
    cases hf : c.frame? with
    | some f =>
      -- A frame of another kind is carried out as another request.
      have hother : ∀ {r₀ r : Request}, f.kind ≠ r₀.kind → Request.ofKind f.kind = some r → r ≠ r₀ :=
        fun hne hr e => hne (by rw [← e, Request.kind_of_ofKind hr])
      refine ⟨fun hk => ?_, fun hk => ?_, fun hk _ _ => ?_⟩
      · refine exec_frame_onlyChanges hf h (fs := runFields.filter fun g => g ≠ .epoch)
          (fun r u s hr => ?_) (by decide) .epoch (by decide)
        have hreset := hother (r₀ := .engineReset) (hk f rfl) hr
        by_cases h6 : r = .profileLoad
        · subst h6; exact (takeProfileLoad_onlyChanges s _).mono (by decide)
        by_cases h7 : r = .supplyResume
        · subst h7; exact (takeSupplyResume_onlyChanges s).mono (by decide)
        exact (carryOut_onlyChanges hreset h6 h7 _ _ _ _ s).mono (by decide)
      · refine exec_frame_onlyChanges hf h (fs := runFields.filter fun g => g ≠ .profiles)
          (fun r u s hr => ?_) (by decide) .profiles (by decide)
        have hload := hother (r₀ := .profileLoad) (hk f rfl) hr
        by_cases h6 : r = .engineReset
        · subst h6; exact (s.engineReset_onlyChanges _ _ _).mono (by decide)
        by_cases h7 : r = .supplyResume
        · subst h7; exact (takeSupplyResume_onlyChanges s).mono (by decide)
        exact (carryOut_onlyChanges h6 hload h7 _ _ _ _ s).mono (by decide)
      · refine exec_frame_onlyChanges hf h (fs := runFields.filter fun g => g ≠ .supply)
          (fun r u s hr => ?_) (by decide) .supply (by decide)
        have hreset := hother (r₀ := .engineReset) (hk f rfl).1 hr
        have hresume := hother (r₀ := .supplyResume) (hk f rfl).2 hr
        by_cases h6 : r = .profileLoad
        · subst h6; exact (takeProfileLoad_onlyChanges s _).mono (by decide)
        exact (carryOut_onlyChanges hreset h6 hresume _ _ _ _ s).mono (by decide)
    | none =>
      by_cases hpin : c = .psupOkFall ∨ c = .psupOkRise
      · have hframe := exec_psupOk_onlyChanges hpin h
        exact ⟨fun _ => hframe .epoch (by decide), fun _ => hframe .profiles (by decide),
          fun _ h6 h7 => absurd hpin (not_or.2 ⟨h6, h7⟩)⟩
      obtain ⟨h6, h7⟩ := not_or.1 hpin
      have hframe := exec_timing_onlyChanges h hf h1 h2 h3 h4 h5 h6 h7
      exact ⟨fun _ => hframe .epoch (by decide), fun _ => hframe .profiles (by decide),
        fun _ _ _ => hframe .supply (by decide)⟩
end

section
/-! PROOF. The link's own requests: STATUS (R179), ENGINE-RESET (R180, R181), what the tag table answers by itself
(R169), and what Dispatch refuses (R159, R170). -/

-- One proof after another: a thread for each of them would take too much memory.
set_option Elab.async false

namespace Sys2Proof.Machine

/-! ### Requests that change nothing but their tag entry -/

/-- A request that its owning block answers, leaving the state as it is. -/
theorem State.Takes.exec_unchanged {s : State} {t : Fin 16} {r : Request} {p : List Byte} {c : Instr}
    {code : Result} {fields : List Byte} (h : s.Takes t (requestFrame r t p))
    (hc : c.frame? = some (requestFrame r t p)) (hp : p.length ≤ 260) (hl : r.lengthOk p = true)
    (hj : ∀ d, carryOut r t (byte t.val) d p (s.heard.setTagEntry t (.inFlight d)) =
      .replied code fields (s.heard.setTagEntry t (.inFlight d))) :
    exec c s = .next (s.heard.answered t (requestFrame r t p) code fields) :=
  h.exec_eq hc hp hl (hj _) rfl rfl rfl

/-! ### STATUS -/

theorem toList_eq_map_finRange {α : Type} {n : Nat} (v : Vector α n) :
    v.toList = (List.finRange n).map fun i => v[i] :=
  List.ext_getElem (by simp) fun i _ _ => by simp

theorem Outbox.endStall_stalled (o : Outbox) : o.endStall.stalled = false := by
  unfold Outbox.endStall
  split
  · rfl
  · next h => simpa using h

theorem Outbox.endStall_length (o : Outbox) : o.endStall.records.length = o.records.length := by
  unfold Outbox.endStall
  split
  · exact List.length_map _
  · rfl

theorem State.statusFields_heard (s : State) (t : Fin 16) (e : TagEntry) :
    (s.heard.setTagEntry t e).statusFields =
      (List.finRange 8).flatMap (fun l => [(s.lane l).state.code, byte (s.lane l).queue.length]) ++
        s.supply.state.code :: be16 s.supply.episodes.toNat ++
        [byte s.freeUnits, byte ((List.finRange 64).countP fun h => (s.block h).state == .free),
         byte (24 - s.jobs.length), byte (64 - s.faults.length), byte s.outbox.records.length, 0x00] := by
  have hlanes : s.lanes.toList.flatMap (fun x => [x.state.code, byte x.queue.length]) =
      (List.finRange 8).flatMap fun l => [(s.lane l).state.code, byte (s.lane l).queue.length] := by
    rw [toList_eq_map_finRange, List.flatMap_map]; rfl
  have hblocks : s.freeBlocks = (List.finRange 64).countP fun h => (s.block h).state == .free := by
    rw [State.freeBlocks, toList_eq_map_finRange, List.countP_map]; rfl
  have hstall : boolByte s.outbox.endStall.stalled = 0x00 := by rw [Outbox.endStall_stalled]; rfl
  rw [← hlanes, ← hblocks, ← s.outbox.endStall_length, ← hstall]
  rfl

/-! ### ENGINE-RESET -/

theorem State.placeReply_of_room {s : State} (h : s.replyQueue.length < 8) (f : Frame) :
    s.placeReply f = s.setReplyQueue (s.replyQueue ++ [f]) := if_pos h

theorem State.heard_onlyChanges (s : State) : s.OnlyChanges s.heard [.rx, .outbox] := by
  intro g hg; cases g <;> first | exact absurd (by decide) hg | rfl

theorem State.setTagEntry_onlyChanges (s : State) (t : Fin 16) (e : TagEntry) :
    s.OnlyChanges (s.setTagEntry t e) [.tags] := by
  intro g hg; cases g <;> first | exact absurd (by decide) hg | rfl

theorem State.setReplyQueue_onlyChanges (s : State) (v : List Frame) :
    s.OnlyChanges (s.setReplyQueue v) [.replyQueue] := by
  intro g hg; cases g <;> first | exact absurd (by decide) hg | rfl

theorem State.setTx_onlyChanges (s : State) (v : Tx) : s.OnlyChanges (s.setTx v) [.tx] := by
  intro g hg; cases g <;> first | exact absurd (by decide) hg | rfl

/-- The replies of an ENGINE-RESET, in the order in which they stand in the queue (R180). -/
def State.resetReplies (s : State) (tag : Byte) : List Frame :=
  (s.deferred.take 7).map (fun c => replyFrame 0x42 c.tag .resetAborted [byte c.job]) ++
    [replyFrame 0x1F tag .ok (be16 (s.epoch + 1).toNat)]

theorem State.block_clearWork (s : State) (psupOk : Bool) (h : Handle) :
    (s.clearWork psupOk).block h = (s.block h).freed := by
  simp [State.block, State.clearWork]

/-- At most 7 replies stand before the reset's own, which therefore finds its place. -/
theorem State.engineReset_eq (s : State) (t : Fin 16) (tag : Byte) (d : Digest) :
    s.engineReset t tag d =
      ((((s.clearWork s.supply.psupOk).setEpoch (s.epoch + 1)).setTags
        ((Vector.replicate 16 TagEntry.free).set t
          (.replied d (replyFrame 0x1F tag .ok (be16 (s.epoch + 1).toNat))))).setReplyQueue
        (s.resetReplies tag)).setOutbox (.afterReset (s.epoch + 1)) := by
  have hroom : ((s.deferred.map DeferredCancel.abortedReply).take 7).length < 8 :=
    Nat.lt_succ_of_le (List.length_take_le _ _)
  have hplaced : ∀ u : State, u.replyQueue = (s.deferred.map DeferredCancel.abortedReply).take 7 →
      ∀ f, u.placeReply f = u.setReplyQueue
        ((s.deferred.take 7).map (fun c => replyFrame 0x42 c.tag .resetAborted [byte c.job]) ++ [f]) :=
    fun u hu f => by
      rw [State.placeReply_of_room (hu ▸ hroom), hu, ← List.map_take]; rfl
  unfold State.engineReset State.completeTag
  dsimp only
  rw [hplaced]
  case a => rfl
  rfl

theorem State.takeRequest_selfReplied {s u : State} {t : Fin 16} {f : Frame}
    (h : judgeRequest t f (s.setTagEntry t (.inFlight f.digest)) = .selfReplied u) :
    s.takeRequest t f = u := by
  rw [State.takeRequest, h]

/-- An ENGINE-RESET that is taken: the reset, and then an idle Transmitter takes its first reply. -/
theorem State.Takes.exec_engineReset {s : State} {t : Fin 16}
    (h : s.Takes t (requestFrame .engineReset t [])) :
    exec (.engineReset (byte t.val) []) s =
      .next ((s.heard.setTagEntry t (.inFlight (requestFrame .engineReset t []).digest)).engineReset t
        (byte t.val) (requestFrame .engineReset t []).digest).transmit := by
  have hjudge : judgeRequest t (requestFrame .engineReset t [])
      (s.heard.setTagEntry t (.inFlight (requestFrame .engineReset t []).digest)) =
      .selfReplied ((s.heard.setTagEntry t (.inFlight (requestFrame .engineReset t []).digest)).engineReset
        t (byte t.val) (requestFrame .engineReset t []).digest) := judgeRequest_requestFrame _ _ _ _
  have hdispatch : s.heard.dispatch (requestFrame .engineReset t []) = _ :=
    (State.Takes.dispatch (s := s.lineHigh) h rfl).trans (State.takeRequest_selfReplied hjudge)
  rw [exec_frame_of_ready (f := requestFrame .engineReset t []) rfl h.1 (Nat.zero_le _),
    State.frameArrives, if_pos (by simp [requestFrame])]
  exact congrArg (fun u : State => Host.Outcome.next u.transmit) hdispatch

theorem State.transmit_idle_reply {s : State} {first : Frame} {rest : List Frame} (h : s.tx = .idle)
    (hq : s.replyQueue = first :: rest) :
    s.transmit = (s.setReplyQueue rest).setTx (.reply first) := by
  unfold State.transmit State.takeReply?
  simp [h, hq]

/-- With replies in the queue an idle Transmitter takes the first, and a busy one none. -/
theorem State.transmit_replies {w : State} {first : Frame} {rest : List Frame}
    (hq : w.replyQueue = first :: rest) : ∃ q x, w.transmit = (w.setReplyQueue q).setTx x ∧
      (w.tx = .idle → x = .reply first ∧ q = rest) ∧ (w.tx ≠ .idle → x = w.tx ∧ q = first :: rest) := by
  by_cases hi : w.tx = .idle
  · exact ⟨rest, .reply first, State.transmit_idle_reply hi hq, fun _ => ⟨rfl, rfl⟩, fun hn => absurd hi hn⟩
  · refine ⟨first :: rest, w.tx, ?_, fun hn => absurd hn hi, fun _ => ⟨rfl, rfl⟩⟩
    rw [State.transmit_of_busy hi, ← hq]; rfl

/-! ### Repeats -/

theorem State.transmitEither_settled {s : State} (h : s.Settled) : s.transmitEither = s := by
  unfold State.transmitEither
  rcases h with h | ⟨hq, ho⟩
  · split <;> simp_all
  · split <;> simp [State.takeReply?_nil hq, State.takeReport?_none ho]

/-- A frame that Dispatch drops: the end of a stall may give the Transmitter a report to take. -/
theorem State.frameArrives_dropped {s : State} {f : Frame} (hs : s.Settled)
    (hd : s.told.dispatch f = s.told) : s.frameArrives f = s.told.transmit := by
  unfold State.frameArrives
  show (if _ then (s.told.dispatch f).transmit else (s.told.dispatch f).transmitEither) = _
  rw [hd]
  split
  · rfl
  · next hst =>
    have hstall : s.outbox.stalled = false := by
      simp only [Bool.or_eq_true, not_or, Bool.not_eq_true] at hst; exact hst.1
    have hsettled : s.told.Settled := by
      unfold State.Settled
      rw [State.told_outbox, Outbox.endStall_of_not hstall]
      exact hs
    rw [State.transmitEither_settled hsettled, State.transmit_settled hsettled]

theorem State.dispatch_of_replied {s : State} {t : Fin 16} {f reply : Frame} (ht : f.tag = byte t.val)
    (he : s.tagEntry t = .replied f.digest reply) : s.dispatch f = s.placeReply reply := by
  rw [State.dispatch, ht, tagIndex?_byte]
  simp [he]

theorem State.dispatch_of_repeat {s : State} {t : Fin 16} {f : Frame} (ht : f.tag = byte t.val)
    (he : s.tagEntry t = .inFlight f.digest) : s.dispatch f = s := by
  rw [State.dispatch, ht, tagIndex?_byte]
  simp [he]

theorem State.dispatch_of_busy {s : State} {t : Fin 16} {f : Frame} {d : Digest}
    (ht : f.tag = byte t.val) (he : s.tagEntry t = .inFlight d) (hd : d ≠ f.digest) :
    s.dispatch f = s.placeReply (replyFrame f.kind f.tag .tagBusy []) := by
  rw [State.dispatch, ht, tagIndex?_byte]
  simp [he, hd]

/-! ### Kinds and lengths -/

theorem Request.ofKind_none {k : Byte}
    (h : k ∉ [(0x10 : Byte), 0x11, 0x1F, 0x20, 0x21, 0x30, 0x31, 0x32, 0x33, 0x34, 0x40, 0x41, 0x42, 0x43,
      0x44, 0x45, 0x50, 0x60]) : Request.ofKind k = none := by
  have hkinds : Request.all.map Request.kind = [(0x10 : Byte), 0x11, 0x1F, 0x20, 0x21, 0x30, 0x31, 0x32,
    0x33, 0x34, 0x40, 0x41, 0x42, 0x43, 0x44, 0x45, 0x50, 0x60] := rfl
  rw [← hkinds] at h
  refine List.find?_eq_none.2 fun r hr e => h ?_
  exact List.mem_map.2 ⟨r, hr, beq_iff_eq.1 e⟩

theorem Request.jobSubmit_lengthOk (p : List Byte) : Request.jobSubmit.lengthOk p = true ↔
    ∃ n, p[17]? = some n ∧ p.length = 18 + n.toNat := by
  simp only [Request.lengthOk, at?, Bool.and_eq_true, decide_eq_true_eq, beq_iff_eq]
  constructor
  · rintro ⟨hlen, heq⟩
    have h17 : p[17]? = some p[17] := List.getElem?_eq_getElem (by omega)
    exact ⟨p[17], h17, by simpa [List.getD, h17] using heq⟩
  · rintro ⟨n, hn, heq⟩
    exact ⟨by omega, by simpa [List.getD, hn] using heq⟩

/-- A request of a wrong length is refused. -/
theorem State.Takes.exec_badLength {s : State} {t : Fin 16} {r : Request} {p : List Byte} {c : Instr}
    (h : s.Takes t (requestFrame r t p)) (hc : c.frame? = some (requestFrame r t p)) (hp : p.length ≤ 260)
    (hl : ¬ r.lengthOk p = true) :
    exec c s = .next (s.heard.answered t (requestFrame r t p) .badLength []) := by
  rw [exec_frame_of_ready hc h.1 hp]
  refine congrArg Host.Outcome.next (State.Takes.frameArrives_same (s := s.lineHigh) h rfl ?_)
  rw [judgeRequest_requestFrame, if_neg hl]
  rfl

end Sys2Proof.Machine

open Sys2Proof Sys2Proof.Machine

/-- Settles O15: STATUS reads what hearing the frame leaves, with the stall over. -/
theorem statusReplies : Obligations.StatusReplies := by
  intro s t h
  exact h.exec_unchanged rfl (by decide) rfl fun d => by
    rw [carryOut, takeStatus, State.statusFields_heard]

/-- Settles O16: the reset places its replies, of which an idle Transmitter takes the first. -/
theorem engineResetResets : Obligations.EngineResetResets := by
  intro s t h
  simp only
  rw [h.exec_engineReset]
  have hw := State.engineReset_eq (s.heard.setTagEntry t (.inFlight (requestFrame .engineReset t []).digest))
    t (byte t.val) (requestFrame .engineReset t []).digest
  have hframe := State.engineReset_onlyChanges (s.heard.setTagEntry t (.inFlight
    (requestFrame .engineReset t []).digest)) t (byte t.val) (requestFrame .engineReset t []).digest
  generalize State.engineReset _ t _ _ = w at hw hframe ⊢
  obtain ⟨first, rest, hreplies⟩ : ∃ first rest, s.resetReplies (byte t.val) = first :: rest :=
    List.exists_cons_of_ne_nil (List.append_ne_nil_of_right_ne_nil _ (List.cons_ne_nil _ _))
  obtain ⟨q, x, hu, hidle, hbusy⟩ := State.transmit_replies (w := w) (by rw [hw]; exact hreplies)
  have hblocks : ∀ b, w.block b = (s.block b).freed := fun b => by
    rw [hw]; exact State.block_clearWork _ s.supply.psupOk b
  rw [hu]
  subst hw
  refine ⟨_, rfl, fun hi => ⟨first, rest, hreplies, hidle hi⟩,
    fun hn => ⟨(hbusy hn).1, (hbusy hn).2.trans hreplies.symm⟩, rfl, rfl, rfl, rfl, rfl, rfl, rfl, rfl,
    fun l => State.lane_replicate l _ rfl, rfl, rfl, rfl, fun b => ?block, ?frame⟩
  case block =>
    rw [State.block_setTx, State.block_setReplyQueue, hblocks]
    exact ⟨rfl, Block.freed_lawful _⟩
  case frame =>
    exact (((s.heard_onlyChanges.mono (by decide)).trans ((State.setTagEntry_onlyChanges _ t _).mono
      (by decide))).trans (hframe.mono (by decide))).trans
      (((State.setReplyQueue_onlyChanges _ q).mono (by decide)).trans
        ((State.setTx_onlyChanges _ x).mono (by decide)))

/-- Settles O17: Dispatch decides by the entry, and nothing is taken. -/
theorem tagTableAnswersRepeats : Obligations.TagTableAnswersRepeats := by
  intro s c f t hc hp ht hs
  rw [exec_frame_of_ready hc hs hp]
  refine ⟨fun reply he => ?_, fun he => ?_, fun d he hd => ?_⟩
  · exact congrArg Host.Outcome.next (State.frameArrives_placeReply (s := s.lineHigh) (w := s.heard) hs.2
      (State.dispatch_of_replied ht he) rfl rfl rfl)
  · exact congrArg Host.Outcome.next (State.frameArrives_dropped (s := s.lineHigh) hs.2
      (State.dispatch_of_repeat ht he))
  · exact congrArg Host.Outcome.next (State.frameArrives_placeReply (s := s.lineHigh) (w := s.heard) hs.2
      (State.dispatch_of_busy ht he hd) rfl rfl rfl)

/-- Settles O19: the kind names no request, the length is none of the layout, or no frame carries the
payload. -/
theorem dispatchRefusesKindAndLength : Obligations.DispatchRefusesKindAndLength := by
  refine ⟨fun s t kind p hkind hp h => ?_, fun s c r t p => ?_, fun s c f hc hp => ?_⟩
  · rw [exec_frame_of_ready (f := ⟨kind, byte t.val, p⟩) rfl h.1 hp]
    refine congrArg Host.Outcome.next (State.Takes.frameArrives_same (s := s.lineHigh) h rfl ?_)
    rw [judgeRequest, Request.ofKind_none hkind]
    rfl
  · intro fits hc hfits hp h
    refine h.exec_badLength hc hp fun hl => hfits ?_
    cases r with
    | jobSubmit => exact (Request.jobSubmit_lengthOk p).1 hl
    | blockWrite => exact of_decide_eq_true hl
    | _ => exact beq_iff_eq.1 hl
  · rw [exec_frame hc, frameCommand, if_neg (Nat.not_le.2 hp)]
end

section
/-! PROOF. The line: characters outside a frame (R158, R161, R215), the Transmitter's next frame (R175, R202, R203),
the acknowledgement timer (R204, R205) and the break (R166, R209, R210). -/

-- One proof after another: a thread for each of them would take too much memory.
set_option Elab.async false

namespace Sys2Proof.Machine

/-! ### Characters -/

theorem rescanAll_of_nil {s : State} (h : s.rx.rescan = []) (fuel : Nat) : rescanAll fuel s = s := by
  cases fuel with
  | zero => rfl
  | succ n => unfold rescanAll; rw [h]

theorem State.rescanned_of_nil {s : State} (h : s.rx.rescan = []) : s.rescanned = s :=
  rescanAll_of_nil h _

theorem State.rxByte_hunt_other {s : State} {b : RxByte} (hp : s.rx.phase = .hunt) (hb : b.byte ≠ 0xA5) :
    s.rxByte b = s := by
  unfold State.rxByte
  simp only [hp, hb, if_false]

theorem State.rxByte_hunt_start {s : State} {b : RxByte} (hp : s.rx.phase = .hunt) (hb : b.byte = 0xA5) :
    s.rxByte b = s.setRx { s.rx with phase := .header, kept := [b], timer := some b.moment } := by
  unfold State.rxByte
  simp only [hp, hb, if_true]

/-! ### The Transmitter takes the next frame -/

theorem Outbox.take?_marked {o : Outbox} {ahead behind : List Report} {r : Report}
    (hst : o.stalled = false) (hrec : o.records = ahead ++ r :: behind) (hahead : ∀ q ∈ ahead, q.mark = false)
    (hr : r.mark = true) :
    o.take? = some (r, { o with records := ahead ++ { r with mark := false } :: behind }) := by
  have hfind : o.records.find? (fun r => r.mark) = some r :=
    List.find?_eq_some_iff_append.2 ⟨hr, ahead, behind, hrec, fun q hq => by simp [hahead q hq]⟩
  simp only [Outbox.take?, hst, Bool.false_eq_true, if_false, hfind]
  rw [hrec, updateFirst_append hahead hr]

theorem Outbox.take?_fresh {o : Outbox} {ahead behind : List Report} {r : Report}
    (hst : o.stalled = false) (hmarks : ∀ q ∈ o.records, q.mark = false) (hwindow : o.transmittedCount < 4)
    (hrec : o.records = ahead ++ r :: behind) (hahead : ∀ q ∈ ahead, q.transmitted = true)
    (hr : r.transmitted = false) :
    o.take? = some (r, { o with records := ahead ++ { r with transmitted := true } :: behind }) := by
  have hnone : o.records.find? (fun r => r.mark) = none :=
    List.find?_eq_none.2 fun q hq => by simp [hmarks q hq]
  have hsent : ∀ q ∈ ahead, (!q.transmitted) = false := fun q hq => by simp [hahead q hq]
  have hfind : o.records.find? (fun r => !r.transmitted) = some r :=
    List.find?_eq_some_iff_append.2 ⟨by simp [hr], ahead, behind, hrec, fun q hq => by simp [hsent q hq]⟩
  have hroom : o.transmittedCount < Config.window := hwindow
  simp only [Outbox.take?, hst, Bool.false_eq_true, if_false, hnone, hroom, if_true, hfind]
  rw [hrec, updateFirst_append hsent (by simp [hr])]

theorem Outbox.take?_none {o : Outbox} (h : o.stalled = true ∨ ((∀ q ∈ o.records, q.mark = false) ∧
    (4 ≤ o.transmittedCount ∨ ∀ q ∈ o.records, q.transmitted = true))) : o.take? = none := by
  rw [Option.eq_none_iff_forall_ne_some]
  rintro ⟨r, o'⟩ ht
  obtain ⟨ahead, behind, hrec, hst, hcase⟩ := Outbox.take?_some ht
  have hr : r ∈ o.records := by rw [hrec]; simp
  rcases h with h | ⟨hmarks, hfull⟩
  · rw [hst] at h; cases h
  · rcases hcase with ⟨hm, -, -⟩ | ⟨-, hwindow, hfresh, -, -⟩
    · rw [hmarks r hr] at hm; cases hm
    · rcases hfull with hfull | hall
      · omega
      · rw [hall r hr] at hfresh; cases hfresh

theorem State.transmit_idle_report {s : State} {r : Report} {o : Outbox} (h : s.tx = .idle)
    (hq : s.replyQueue = []) (ho : s.outbox.take? = some (r, o)) :
    s.transmit = (s.setOutbox o).setTx (.report r.frame) := by
  unfold State.transmit State.takeReport?
  simp [h, State.takeReply?_nil hq, ho]

/-- The end of a frame: the Transmitter is idle, the timer set if the frame was a report, and the next frame
is taken. -/
theorem State.frameEnded_eq {s : State} {g : Frame} {o : Outbox}
    (h : (s.tx = .reply g ∧ o = s.outbox) ∨ (s.tx = .report g ∧ o = { s.outbox with
      timer := if s.outbox.records.any (fun r => r.transmitted) then some 250 else s.outbox.timer })) :
    s.frameEnded = ((s.setTx .idle).setOutbox o).transmit := by
  unfold State.frameEnded
  rcases h with ⟨htx, rfl⟩ | ⟨htx, rfl⟩
  · rw [htx]; rfl
  · rw [htx]
    have hended : s.outbox.reportFrameEnded = { s.outbox with
        timer := if s.outbox.records.any (fun r => r.transmitted) then some 250
          else s.outbox.timer } := by
      unfold Outbox.reportFrameEnded Outbox.anyTransmitted
      split <;> rfl
    simp only [hended]

/-! ### The acknowledgement timer -/

theorem Report.markIfTransmitted_eq (r : Report) :
    r.markIfTransmitted = { r with mark := r.mark || r.transmitted } := by
  obtain ⟨body, seq, transmitted, mark⟩ := r
  cases transmitted <;> simp [Report.markIfTransmitted]

theorem State.ackTimerRuns_iff (s : State) :
    s.ackTimerRuns = true ↔ s.outbox.timer.isSome = true ∧ ∀ f, s.tx ≠ .report f := by
  unfold State.ackTimerRuns
  cases htx : s.tx <;> simp

/-! ### Frames and the break detector -/

/-- What Dispatch does to a frame, for a law that replies and tag entries do not touch. -/
theorem State.dispatch_keeps {P : State → Prop} {f : Frame} (hreply : ∀ s g, P s → P (s.placeReply g))
    (htag : ∀ s t e, P s → P (s.setTagEntry t e))
    (hcarry : ∀ r t d p s, P s → P (carryOut r t f.tag d p s).after) {s : State} (h : P s) :
    P (s.dispatch f) := by
  have htake : ∀ t, P (s.takeRequest t f) := fun t => by
    have hjudged : P (judgeRequest t f (s.setTagEntry t (.inFlight f.digest))).after := by
      unfold judgeRequest
      split
      · exact htag _ _ _ h
      · split
        · exact hcarry _ _ _ _ _ (htag _ _ _ h)
        · exact htag _ _ _ h
    unfold State.takeRequest
    split
    · next heq => rw [heq] at hjudged; exact hreply _ _ (htag _ _ _ hjudged)
    · next heq => rw [heq] at hjudged; exact hjudged
    · next heq => rw [heq] at hjudged; exact hjudged
  unfold State.dispatch
  split
  · exact hreply _ _ h
  · split
    · exact htake _
    · split
      · exact hreply _ _ h
      · exact htake _
    · split
      · exact h
      · exact hreply _ _ h

/-- No request touches the break detector: even ENGINE-RESET leaves it (R181). -/
theorem carryOut_breakDetector (r : Request) (t : Fin 16) (tag : Byte) (d : Digest) (p : List Byte)
    (s : State) : (carryOut r t tag d p s).after.rx.breakDetector = s.rx.breakDetector := by
  by_cases h1 : r = .engineReset
  · subst h1
    show (s.engineReset t tag d).rx.breakDetector = _
    rw [State.engineReset_eq]; rfl
  by_cases h2 : r = .profileLoad
  · subst h2; exact congrArg _ (takeProfileLoad_onlyChanges s p .rx (by decide))
  by_cases h3 : r = .supplyResume
  · subst h3; exact congrArg _ (takeSupplyResume_onlyChanges s .rx (by decide))
  exact congrArg _ (carryOut_onlyChanges h1 h2 h3 t tag d p s .rx (by decide))

theorem State.frameArrives_breakDetector (s : State) (f : Frame) :
    (s.frameArrives f).rx.breakDetector = s.rx.breakDetector := by
  have hdispatched : (s.told.dispatch f).rx.breakDetector = s.rx.breakDetector :=
    State.dispatch_keeps (P := fun u => u.rx.breakDetector = s.rx.breakDetector)
      (fun u g hu => (congrArg _ (u.placeReply_onlyChanges g .rx (by decide))).trans hu)
      (fun _ _ _ hu => hu) (fun r t d p u hu => (carryOut_breakDetector r t f.tag d p u).trans hu) rfl
  unfold State.frameArrives
  show (if _ then (s.told.dispatch f).transmit else (s.told.dispatch f).transmitEither).rx.breakDetector = _
  split
  · exact (congrArg _ (State.transmit_onlyChanges _ .rx (by decide))).trans hdispatched
  · exact (congrArg _ (State.transmitEither_onlyChanges _ .rx (by decide))).trans hdispatched

/-! ### The break -/

theorem newestNotice_rewound (rs : List Report) :
    newestNotice (rs.map Report.rewound) = newestNotice rs := by
  rw [newestNotice_eq, newestNotice_eq, List.filterMap_map]; rfl

theorem rewound_body (rs : List Report) :
    (rs.map Report.rewound).map (fun r => r.body) = rs.map fun r => r.body := by
  rw [List.map_map]; rfl

/-- The outbox after a break, by the records ahead of its oldest SUPPLY record and the general records behind
it (R209, R210). -/
structure Outbox.Broken (o p : Outbox) : Prop where
  bodies : p.records.map (fun r => r.body) =
    (o.records.takeWhile fun r => !r.isSupply).map (fun r => r.body) ++
      ((newestNotice o.records).toList.map fun n => o.owed.getD n).map ReportBody.supply ++
      ((o.records.drop (o.records.takeWhile fun r => !r.isSupply).length).filter
        fun r => !r.isSupply).map fun r => r.body
  flags : ∀ r ∈ p.records, r.transmitted = false ∧ r.mark = false
  numbers : consecutive p.records p.nextSeq
  first : p.records.head?.map (fun r => r.seq) = o.records.head?.map fun r => r.seq
  empty : o.records = [] → p.nextSeq = o.nextSeq
  owed : p.owed = if (newestNotice o.records).toList.map (fun n => o.owed.getD n) = [] then o.owed else none
  rest : p.stalled = false ∧ p.round = 0 ∧ p.timer = none

theorem Outbox.rewind_merge_broken {o : Outbox} (h : consecutive o.records o.nextSeq) :
    o.Broken o.rewind.merge := by
  have hnum := Outbox.rewind_numbers h
  have hflags : ∀ r ∈ o.rewind.records, r.transmitted = false ∧ r.mark = false := fun r hr => by
    obtain ⟨q, -, rfl⟩ := List.mem_map.1 hr
    exact ⟨rfl, rfl⟩
  have hfirst : o.rewind.records.head?.map (fun r => r.seq) = o.records.head?.map fun r => r.seq := by
    rw [Outbox.rewind_records, List.head?_map, Option.map_map]; rfl
  by_cases hany : o.records.any Report.isSupply = true
  · obtain ⟨ahead, r, behind, hrec, hahead, hr⟩ := exists_first_of_any hany
    have hrec' : o.rewind.records =
        ahead.map Report.rewound ++ r.rewound :: behind.map Report.rewound := by
      rw [Outbox.rewind_records, hrec, List.map_append, List.map_cons]
    obtain ⟨n, hn, hm⟩ := Outbox.merge_merged hrec' (fun q hq => by
      obtain ⟨p, hp, rfl⟩ := List.mem_map.1 hq
      exact hahead p hp) hr hnum
    rw [Outbox.rewind_records, newestNotice_rewound] at hn
    have htake : (o.records.takeWhile fun r => !r.isSupply) = ahead := by
      rw [hrec, List.takeWhile_append_of_pos fun q hq => by simp [hahead q hq],
        List.takeWhile_cons_of_neg (by simp [hr]), List.append_nil]
    have hdrop : (o.records.drop ahead.length).filter (fun r => !r.isSupply) =
        behind.filter fun r => !r.isSupply := by
      rw [hrec, List.drop_left, List.filter_cons_of_neg (by simp [hr])]
    constructor
    case bodies =>
      rw [htake, hdrop, hn, hm.bodies, rewound_body, List.filter_map, rewound_body]
      show _ = ahead.map _ ++ [ReportBody.supply (o.owed.getD n)] ++ _
      rw [List.append_assoc]; rfl
    case flags =>
      intro q hq
      obtain ⟨p, hp, hqp, hqm⟩ := hm.flags q hq
      exact ⟨hqp.trans (hflags p hp).1, hqm.trans (hflags p hp).2⟩
    case numbers => exact hm.numbers
    case first => exact hm.first.trans hfirst
    case empty => intro hnil; rw [hrec] at hnil; simp at hnil
    case owed => rw [hm.frame, hn]; rfl
    case rest => rw [hm.frame]; exact ⟨rfl, rfl, rfl⟩
  · have hnone : ∀ r ∈ o.records, r.isSupply = false := fun r hr => by
      simpa using List.any_eq_false.1 (Bool.eq_false_iff.2 hany) r hr
    have htake : (o.records.takeWhile fun r => !r.isSupply) = o.records :=
      List.takeWhile_eq_self_iff.2 fun q hq => by simp [hnone q hq]
    have hmerge : o.rewind.merge = o.rewind := Outbox.merge_of_no_supply fun r hr => by
      obtain ⟨q, hq, rfl⟩ := List.mem_map.1 hr
      exact hnone q hq
    have hnewest := newestNotice_of_none hnone
    rw [hmerge]
    constructor
    case bodies =>
      rw [htake, hnewest, List.drop_length, Outbox.rewind_records, rewound_body]; simp
    case flags => exact hflags
    case numbers => exact hnum
    case first => exact hfirst
    case empty => exact fun _ => rfl
    case owed => rw [hnewest]; rfl
    case rest => exact ⟨rfl, rfl, rfl⟩

/-- A break that is recognised, before the waiting lanes are served. -/
def State.broken (s : State) : State :=
  (s.setRx { Receiver.afterReset with breakDetector := .recognised }).setOutbox s.outbox.rewind.merge

theorem State.breakRecognised_eq {s : State} (h : s.rx.breakDetector ≠ .recognised) :
    s.breakRecognised = serveWaiting s.broken.serveFuel s.broken := by
  unfold State.breakRecognised
  split
  · next hr => exact absurd hr h
  · rfl
  · rfl

theorem State.WaitingKnown.broken {s : State} (h : s.WaitingKnown) : s.broken.WaitingKnown := by
  unfold State.WaitingKnown at h ⊢
  rw [show s.broken.outbox.waitingLanes = s.outbox.waitingLanes from s.outbox.rewind_merge_waitingLanes]
  exact h

end Sys2Proof.Machine

open Sys2Proof Sys2Proof.Machine

/-- Settles O21: nothing stands to be rescanned, so one character is one step of the receiver. -/
theorem charactersInHunt : Obligations.CharactersInHunt := by
  intro s moment b hs hr
  have hdone : ∀ v : Receiver, v.rescan = [] → (s.setRx v).rescanned = s.setRx v := fun v hv =>
    State.rescanned_of_nil hv
  refine ⟨fun hp hb => ?_, fun hp hb => ?_, ?_, fun high => ?_⟩
  · rw [exec_rxCharacter_of_ready hs]
    show Host.Outcome.next (s.lineHigh.rxByte _).rescanned = _
    rw [State.rxByte_hunt_other (s := s.lineHigh) (b := ⟨b, moment⟩) hp hb]
    exact congrArg Host.Outcome.next (hdone _ hr)
  · rw [exec_rxCharacter_of_ready hs]
    show Host.Outcome.next (s.lineHigh.rxByte _).rescanned = _
    rw [State.rxByte_hunt_start (s := s.lineHigh) (b := ⟨b, moment⟩) hp hb]
    subst hb
    refine congrArg Host.Outcome.next
      ((hdone ⟨.header, [⟨0xA5, moment⟩], some moment, s.rx.rescan, .clear⟩ hr).trans ?_)
    rw [hr]
  · rw [exec_rxCharacter_of_ready hs]; rfl
  · rw [exec_rxCharacter_of_ready hs]
    cases high <;> rfl

/-- Settles O24, by what the Transmitter finds: a reply, a marked record, a new record, or nothing. -/
theorem transmitterTakesTheNextFrame : Obligations.TransmitterTakesTheNextFrame := by
  intro s g o hrun h
  have hbusy : s.tx ≠ .idle := by rcases h with ⟨htx, -⟩ | ⟨htx, -⟩ <;> simp [htx]
  have ho : o.records = s.outbox.records ∧ o.stalled = s.outbox.stalled := by
    rcases h with ⟨-, rfl⟩ | ⟨-, rfl⟩ <;> exact ⟨rfl, rfl⟩
  obtain ⟨hrecords, hstalled⟩ := ho
  have hcount : o.transmittedCount = s.outbox.transmittedCount := by
    rw [Outbox.transmittedCount, hrecords]; rfl
  rw [exec_transmitFrameEnd_of_ready ⟨hrun, .inl hbusy⟩, State.frameEnded_eq h]
  refine ⟨fun reply rest hq => ?_, fun hq => ⟨fun hst ahead r behind hrec => ⟨fun hahead hm => ?_,
    fun hmarks hwindow hahead hr => ?_⟩, fun hnone => ?_⟩⟩
  · rw [State.transmit_idle_reply (s := (s.setTx .idle).setOutbox o) rfl hq]; rfl
  · rw [State.transmit_idle_report (s := (s.setTx .idle).setOutbox o) rfl hq (Outbox.take?_marked (o := o) (hstalled.trans hst)
      (hrecords.trans hrec) hahead hm)]
    rfl
  · rw [State.transmit_idle_report (s := (s.setTx .idle).setOutbox o) rfl hq (Outbox.take?_fresh (o := o) (hstalled.trans hst)
      (by rw [hrecords]; exact hmarks) (hcount.trans_lt hwindow) (hrecords.trans hrec) hahead hr)]
    rfl
  · rw [State.transmit_settled (s := (s.setTx .idle).setOutbox o) (.inr ⟨hq, Outbox.take?_none (o := o) ?_⟩)]
    · rfl
    · rw [hstalled, hrecords, hcount]; exact hnone

/-- Settles O25: the timer runs or not, and the round count is below 4 or not. -/
theorem ackTimerBeginsARoundOrTheStall : Obligations.AckTimerBeginsARoundOrTheStall := by
  intro s hs
  refine ⟨fun htimer htx => ?_, fun h => ?_⟩
  · have hruns : s.ackTimerRuns = true := s.ackTimerRuns_iff.2 ⟨htimer, htx⟩
    rw [exec_ackTimerExpiry_of_ready hs, if_pos hruns]
    refine ⟨fun hround => ?_, fun hround => ?_⟩
    · rw [Outbox.ackExpired, if_pos (show s.outbox.round < Config.maxRounds from hround),
        funext Report.markIfTransmitted_eq]
    · rw [Outbox.ackExpired, if_neg (show ¬ s.outbox.round < Config.maxRounds from Nat.not_lt.2 hround)]
      refine congrArg Host.Outcome.next (State.transmit_settled ?_)
      exact hs.2.imp id fun ⟨hq, _⟩ => ⟨hq, Outbox.take?_none (.inl rfl)⟩
  · rw [exec_ackTimerExpiry_of_ready hs, if_neg]
    rw [s.ackTimerRuns_iff]
    rcases h with h | ⟨f, hf⟩
    · simp [h]
    · exact fun hn => hn.2 f hf

/-- Settles O23: a recognised low does nothing more, a frame clears the detector, and a break leaves the
outbox merged before the waiting lanes are served. -/
theorem breakRewindsAndMerges : Obligations.BreakRewindsAndMerges := by
  refine ⟨fun s hs hr => ?_, fun s t c f hrun hc h => ?_, fun s hs hr hnum hw => ?_⟩
  · rw [exec_rxBreak_of_ready hs]
    have hsame : s.breakRecognised = s := by unfold State.breakRecognised; rw [hr]
    rw [hsame, State.transmit_settled hs.2]
  · rw [exec_frame hc] at h
    unfold frameCommand at h
    split at h
    · unfold whenRunning at h
      rw [hrun, if_neg Bool.false_ne_true] at h
      obtain rfl := Host.Outcome.next.inj h
      exact State.frameArrives_breakDetector _ _
    · cases h
  · have hbroken := Outbox.rewind_merge_broken hnum
    refine ⟨s.broken, s.breakRecognised, exec_rxBreak_of_ready hs, ?_, rfl, hbroken.bodies, hbroken.flags,
      hbroken.numbers, hbroken.first, hbroken.empty, hbroken.owed, hbroken.rest.1, hbroken.rest.2.1,
      hbroken.rest.2.2, s.outbox.rewind_merge_waitingLanes, ?_⟩
    · rw [State.breakRecognised_eq hr]
      exact State.serveWaiting_serveFuel _ hw.broken
    · exact ((s.setRx_onlyChanges _).mono (by decide)).trans
        ((State.setOutbox_onlyChanges _ _).mono (by decide))
end

section
/-! PROOF. The profile requests (R123, R125, R127) and the block requests (R132 to R139). -/

-- One proof after another: a thread for each of them would take too much memory.
set_option Elab.async false

namespace Sys2Proof.Machine

/-! ### Numbers and names in a payload -/

theorem byte_toNat (b : Byte) : byte b.toNat = b := by
  simp [byte]

theorem toNat_byte {n : Nat} (h : n < 256) : (byte n).toNat = n := by
  simp only [byte, BitVec.toNat_ofNat]
  omega

theorem ofBe_two (a b : Byte) : ofBe [a, b] = 256 * a.toNat + b.toNat := by
  simp [ofBe]

theorem append_toNat (a b : Byte) : (a ++ b : Word16).toNat = 256 * a.toNat + b.toNat := by
  have hb : b.toNat < 2 ^ 8 := b.isLt
  rw [BitVec.toNat_append, ← Nat.shiftLeft_add_eq_or_of_lt hb, Nat.shiftLeft_eq]
  omega

theorem profileId?_none {n : Nat} (h : 4 ≤ n) : profileId? n = none := dif_neg (Nat.not_lt.2 h)

theorem profileId?_some (i : ProfileId) : profileId? i.val = some i := dif_pos i.isLt

theorem profileId?_byte (i : ProfileId) : profileId? (byte i.val).toNat = some i := by
  revert i; decide

theorem handle?_byte (h : Handle) : handle? (byte h.val) = some h := by
  revert h; decide

theorem byte_of_handle? {b : Byte} {h : Handle} (hb : handle? b = some h) : b = byte h.val := by
  unfold handle? at hb
  split at hb
  · obtain rfl := Option.some.inj hb
    exact (byte_toNat b).symm
  · cases hb

theorem State.heldBlock?_byte {s : State} {h : Handle} (hheld : (s.block h).held = true)
    (hstate : (s.block h).state ≠ .free) : s.heldBlock? (byte h.val) = some h := by
  unfold State.heldBlock?
  rw [handle?_byte]
  simp [Option.filter, Block.hostHolds, hheld, hstate]

theorem State.heldBlock?_none {s : State} {b : Byte} (h : s.Unheld b) : s.heldBlock? b = none := by
  rw [Option.eq_none_iff_forall_ne_some]
  intro g hg
  obtain ⟨hb, hheld, hfree⟩ := State.heldBlock?_some hg
  rcases h g (byte_of_handle? hb) with hn | hn
  · rw [hheld] at hn; cases hn
  · exact hfree hn

/-! ### PROFILE-LOAD -/

theorem settingOk_iff (b : Byte) : settingOk b = true ↔ b.toNat ≤ 1 := by
  revert b; decide

theorem beq_one_toNat (b : Byte) : (b == 0x01) = (b.toNat == 1) := by
  revert b; decide

theorem State.inUse_pos {s : State} {i : ProfileId} :
    0 < s.inUse i ↔ ∃ j ∈ s.jobs, j.isUnfinished = true ∧ j.profile = i := by
  rw [State.inUse, List.countP_pos_iff]
  simp

theorem LoadFields.codesOk_iff (f : LoadFields) : f.codesOk = true ↔
    f.checkIdentity.toNat ≤ 1 ∧ f.escalation.toNat ≤ 1 ∧ f.precondition.toNat ≤ 1 := by
  simp only [LoadFields.codesOk, Bool.and_eq_true, settingOk_iff, and_assoc]

theorem takeProfileLoad_eq (s : State) {p : List Byte} {f : LoadFields} {i : ProfileId} {n : Nat}
    (hf : LoadFields.ofPayload p = f) (hi : profileId? f.entry = some i) (hn : s.inUse i = n) :
    takeProfileLoad s p =
      if f.codesOk = false then s.refuse .badField
      else if f.inRange = false then s.refuse .range
      else if 0 < n then s.refuse .profileInUse
      else .replied .ok [byte i.val] (s.setProfiles (s.profiles.set i f.profile)) := by
  subst hn
  unfold takeProfileLoad
  rw [hf]
  simp only [hi]

/-! ### BLOCK-OPEN -/

theorem State.lowestFree?_none {s : State} (h : ∀ g, (s.block g).state ≠ .free) : s.lowestFree? = none :=
  List.find?_eq_none.2 fun g _ => by simpa using h g

theorem State.lowestFree?_eq {s : State} {h : Handle} (hfree : (s.block h).state = .free)
    (hlow : ∀ g, g < h → (s.block g).state ≠ .free) : s.lowestFree? = some h := by
  refine List.find?_eq_some_iff_getElem.2 ⟨by simpa using hfree, h.val, by simp, by simp, fun j hj => ?_⟩
  simpa using hlow ⟨j, by omega⟩ hj

/-! ### BLOCK-WRITE -/

theorem Memory.read_writeAll_at {m : Memory} (hm : m.wf = true) {a : Nat} {vs : List Byte}
    (ha : a + vs.length ≤ Config.blockSize) {i : Nat} (hi : i < vs.length) :
    (m.writeAll a vs).read (a + i) = vs[i] := by
  rw [Memory.read_writeAll hm ha, if_pos (Nat.le_add_right a i), Nat.add_sub_cancel_left]
  simp [List.getD, hi]

theorem Memory.read_writeAll_beside {m : Memory} (hm : m.wf = true) {a : Nat} {vs : List Byte}
    (ha : a + vs.length ≤ Config.blockSize) {b : Nat} (hb : b < a ∨ a + vs.length ≤ b) :
    (m.writeAll a vs).read b = m.read b := by
  rw [Memory.read_writeAll hm ha]
  split
  · next hle =>
    have hout : vs.length ≤ b - a := by omega
    simp [List.getD, List.getElem?_eq_none hout]
  · rfl

theorem takeBlockWrite_eq {s : State} {b offset : Byte} {data : List Byte} {h : Handle}
    (hb : s.heldBlock? b = some h) {x : Block} (hx : s.block h = x) :
    takeBlockWrite s (b :: offset :: data) =
      if x.state ≠ .filling then s.refuse .blockState
      else if Config.blockSize < offset.toNat + data.length then s.refuse .range
      else .replied .ok (byte h.val :: be16 (max x.fill (offset.toNat + data.length)))
        (s.updBlock h fun y => { y with
          content := y.content.writeAll offset.toNat data
          fill := max x.fill (offset.toNat + data.length) }) := by
  subst hx
  unfold takeBlockWrite
  simp only [show at? (b :: offset :: data) 0 = b from rfl, hb]
  rfl

/-! ### BLOCK-SEAL and BLOCK-RELEASE -/

theorem takeBlockSeal_eq {s : State} {b : Byte} {more : List Byte} {h : Handle}
    (hb : s.heldBlock? b = some h) {x : Block} (hx : s.block h = x) :
    takeBlockSeal s (b :: more) =
      if x.state ≠ .filling then s.refuse .blockState
      else if x.fill = 0 then s.refuse .badField
      else if x.computedCrc.toNat = field (b :: more) 1 2 then
        .replied .ok (byte h.val :: be16 x.fill ++ be16 x.computedCrc.toNat)
          (s.updBlock h fun y => { y with state := .sealed, crc := some y.computedCrc })
      else .replied .crcMismatch
        (byte h.val :: be16 x.fill ++ be16 x.computedCrc.toNat) s := by
  subst hx
  unfold takeBlockSeal
  simp only [show at? (b :: more) 0 = b from rfl, hb]

theorem takeBlockRelease_eq {s : State} {b : Byte} {h : Handle} (hb : s.heldBlock? b = some h) {x : Block} (hx : s.block h = x) :
    takeBlockRelease s [b] =
      .replied .ok (byte h.val :: x.released.state.code :: be16 x.released.refs)
        (s.updBlock h fun _ => x.released) := by
  subst hx
  unfold takeBlockRelease
  simp only [show at? [b] 0 = b from rfl, hb]

/-! ### Records in bytes -/

theorem flags_toNat (a b c : Bool) : flagBit a 0 ||| flagBit b 1 ||| flagBit c 2 =
    byte ((if a then 1 else 0) + (if b then 2 else 0) + (if c then 4 else 0)) := by
  cases a <;> cases b <;> cases c <;> rfl

end Sys2Proof.Machine

open Sys2Proof Sys2Proof.Machine

/-- Settles O27, by the first of the four checks that fails. -/
theorem profileLoadChecksAndWrites : Obligations.ProfileLoadChecksAndWrites := by
  intro s t entry memExp sectorExp maker device check bw1 bw0 maxP esc ew1 ew0 maxE pre costP costE
    f go refused base erase h
  let p := [entry, memExp, sectorExp, maker, device, check, bw1, bw0, maxP, esc, ew1, ew0, maxE, pre,
    costP, costE]
  have hlen : p.length ≤ 260 := by simp [p]
  let fields : LoadFields := {
    entry := entry.toNat, memExp := memExp.toNat, sectorExp := sectorExp.toNat, maker := maker
    device := device, checkIdentity := check, baseWidth := base, maxProgram := maxP.toNat
    escalation := esc, eraseWidth := erase, maxErase := maxE.toNat, precondition := pre
    programCost := costP.toNat, eraseCost := costE.toNat }
  have hfields : LoadFields.ofPayload p = fields := by
    have hbase : field p 6 2 = base := ofBe_two bw1 bw0
    have herase : field p 10 2 = erase := ofBe_two ew1 ew0
    unfold LoadFields.ofPayload
    rw [hbase, herase]; rfl
  have hrefused : ∀ code, (∀ d, takeProfileLoad (s.heard.setTagEntry t (.inFlight d)) p =
      .replied code [] (s.heard.setTagEntry t (.inFlight d))) → go = refused code := fun code hj =>
    h.exec_unchanged rfl hlen rfl hj
  refine ⟨fun hentry => hrefused _ fun d => ?_, fun i hi => ?_⟩
  · unfold takeProfileLoad
    rw [hfields]
    simp only [fields, profileId?_none hentry]
    rfl
  · have hprofile : profileId? fields.entry = some i := by
      rw [show fields.entry = entry.toNat from rfl, hi]; exact profileId?_byte i
    have hcount : ∀ d, (s.heard.setTagEntry t (.inFlight d)).inUse i = s.inUse i := fun _ => rfl
    have hcodes := fields.codesOk_iff
    refine ⟨fun hbad => hrefused _ fun d => ?_, fun hgood => ⟨fun hbad => hrefused _ fun d => ?_,
      fun hrange huse => hrefused _ fun d => ?_, fun hrange hfree => ?_⟩⟩
    · rw [takeProfileLoad_eq _ hfields hprofile (hcount _), if_pos (Bool.eq_false_iff.2 fun hn => hbad (hcodes.1 hn))]
      rfl
    all_goals have hgood' : ¬ fields.codesOk = false := by simp [hcodes.2 hgood]
    · have hbad' : fields.inRange = false := by
        refine decide_eq_false fun hn => hbad ?_
        simpa only [and_assoc] using hn
      rw [takeProfileLoad_eq _ hfields hprofile (hcount _), if_neg hgood', if_pos hbad']
      rfl
    all_goals
      have hrange' : ¬ fields.inRange = false := by
        rw [Bool.not_eq_false]
        refine decide_eq_true ?_
        simpa only [and_assoc] using hrange
    · rw [takeProfileLoad_eq _ hfields hprofile (hcount _), if_neg hgood', if_neg hrange',
        if_pos (State.inUse_pos.2 huse)]
      rfl
    · have hunused : ¬ 0 < s.inUse i := fun hn => by
        obtain ⟨j, hj, hopen, hp⟩ := State.inUse_pos.1 hn
        exact hfree j hj hopen hp
      refine h.exec_eq (w := s.heard.setProfiles _) rfl hlen rfl ?_ rfl rfl rfl
      show takeProfileLoad _ p = _
      rw [takeProfileLoad_eq _ hfields hprofile (hcount _), if_neg hgood', if_neg hrange', if_neg hunused,
        hi]
      unfold LoadFields.profile
      simp only [fields, beq_one_toNat]
      rfl

/-- Settles O28: the search for a FREE block goes up from handle 0. -/
theorem blockOpenTakesTheLowest : Obligations.BlockOpenTakesTheLowest := by
  intro s t h
  refine ⟨fun hnone => h.exec_unchanged rfl (by decide) rfl fun d => ?_, fun b hfree hlow =>
    ⟨[], rfl, fun _ => rfl, ?_⟩⟩
  · have hlowest : (s.heard.setTagEntry t (.inFlight d)).lowestFree? = none := State.lowestFree?_none hnone
    show takeBlockOpen _ = _
    unfold takeBlockOpen
    rw [hlowest]
    rfl
  · have hlowest : ∀ d, (s.heard.setTagEntry t (.inFlight d)).lowestFree? = some b := fun d =>
      State.lowestFree?_eq hfree hlow
    refine h.exec_eq (w := s.heard.updBlock b _) rfl (by decide) rfl ?_ rfl rfl rfl
    show takeBlockOpen _ = _
    unfold takeBlockOpen
    rw [hlowest]
    rfl

/-- Settles O29, by the state of the block and the end of the bytes. -/
theorem blockWriteWritesItsBytes : Obligations.BlockWriteWritesItsBytes := by
  intro s t b offset data hone hmany f h hheld hstate go
  have hlen : (byte b.val :: offset :: data).length ≤ 260 := by
    simp only [List.length_cons]; omega
  have hlayout : Request.blockWrite.lengthOk (byte b.val :: offset :: data) = true := by
    refine decide_eq_true ?_
    simp only [List.length_cons]; omega
  have hb : ∀ d, (s.heard.setTagEntry t (.inFlight d)).heldBlock? (byte b.val) = some b := fun d =>
    State.heldBlock?_byte hheld hstate
  refine ⟨fun hsealed => h.exec_unchanged rfl hlen hlayout fun d => ?_,
    fun hfilling hlong => h.exec_unchanged rfl hlen hlayout fun d => ?_, fun hfilling hfit hwf => ?_⟩
  · rw [carryOut, takeBlockWrite_eq (hb d) (x := s.block b) rfl, if_pos (show (s.block b).state ≠ .filling by simp [hsealed])]
    rfl
  · rw [carryOut, takeBlockWrite_eq (hb d) (x := s.block b) rfl, if_neg (show ¬ (s.block b).state ≠ .filling by simp [hfilling]),
      if_pos hlong]
    rfl
  · refine ⟨(s.block b).content.writeAll offset.toNat data, Memory.wf_writeAll hwf hfit,
      fun i hi => Memory.read_writeAll_at hwf hfit hi, fun a ha => Memory.read_writeAll_beside hwf hfit ha,
      h.exec_eq (w := s.heard.updBlock b _) rfl hlen hlayout ?_ rfl rfl rfl⟩
    rw [carryOut, takeBlockWrite_eq (hb _) (x := s.block b) rfl, if_neg (show ¬ (s.block b).state ≠ .filling by simp [hfilling]),
      if_neg (Nat.not_lt.2 hfit)]
    rfl

/-- Settles O30, by the state of the block, its fill length and the CRC sent. -/
theorem blockSealChecksAndSeals : Obligations.BlockSealChecksAndSeals := by
  intro s t h crc1 crc0 f htakes hheld go b crc fields
  have hlen : [byte h.val, crc1, crc0].length ≤ 260 := by simp
  have hsent : field [byte h.val, crc1, crc0] 1 2 = (crc1 ++ crc0 : Word16).toNat := by
    rw [append_toNat]; exact ofBe_two crc1 crc0
  have hb : b.state ≠ .free → ∀ d,
      (s.heard.setTagEntry t (.inFlight d)).heldBlock? (byte h.val) = some h := fun hstate d =>
    State.heldBlock?_byte hheld hstate
  refine ⟨fun hsealed => htakes.exec_unchanged rfl hlen rfl fun d => ?_,
    fun hfilling hempty => htakes.exec_unchanged rfl hlen rfl fun d => ?_,
    fun hfilling hfill hne => htakes.exec_unchanged rfl hlen rfl fun d => ?_, fun hfilling hfill heq =>
      htakes.exec_eq (w := s.heard.updBlock h _) rfl hlen rfl ?_ rfl rfl rfl⟩
  · rw [carryOut, takeBlockSeal_eq (hb (by simp [hsealed]) d) (x := b) rfl,
      if_pos (show b.state ≠ .filling by simp [hsealed])]
    rfl
  all_goals
    have hopen : ¬ b.state ≠ .filling := not_not.2 hfilling
    rw [carryOut, takeBlockSeal_eq (hb (by simp [hfilling]) _) (x := b) rfl, if_neg hopen]
  · rw [if_pos hempty]
    rfl
  · have hne' : ¬ b.computedCrc.toNat = field [byte h.val, crc1, crc0] 1 2 := fun hn =>
      hne (BitVec.eq_of_toNat_eq (hn.trans hsent))
    rw [if_neg hfill, if_neg hne']
    rfl
  · have heq' : b.computedCrc.toNat = field [byte h.val, crc1, crc0] 1 2 := by rw [hsent, ← heq]; rfl
    rw [if_neg hfill, if_pos heq']
    rfl

/-- Settles O31: a SEALED block with references only loses its hold. -/
theorem blockReleaseGivesUpTheHold : Obligations.BlockReleaseGivesUpTheHold := by
  intro s t h f htakes hheld hstate go
  have hb : ∀ d, (s.heard.setTagEntry t (.inFlight d)).heldBlock? (byte h.val) = some h := fun d =>
    State.heldBlock?_byte hheld hstate
  refine ⟨fun hfree => ?_, fun hsealed hrefs => ?_⟩
  · have hreleased : (s.block h).released = (s.block h).freed := by
      refine if_neg fun hn => ?_
      rcases hfree with hf | hr
      · rw [hn.1] at hf; cases hf
      · omega
    refine htakes.exec_eq (w := s.heard.updBlock h _) rfl (by simp) rfl ?_ rfl rfl rfl
    rw [carryOut, takeBlockRelease_eq (hb _) (x := s.block h) rfl, hreleased,
      show be16 (s.block h).freed.refs = [0x00, 0x00] from (by decide : be16 0 = [0x00, 0x00])]
    rfl
  · have hreleased : (s.block h).released = { s.block h with held := false } := if_pos ⟨hsealed, hrefs⟩
    refine htakes.exec_eq (w := s.heard.updBlock h _) rfl (by simp) rfl ?_ rfl rfl rfl
    rw [carryOut, takeBlockRelease_eq (hb _) (x := s.block h) rfl, hreleased]
    show Taken.replied .ok (byte h.val :: (s.block h).state.code :: _) _ = _
    rw [hsealed]
    rfl

/-- Settles O32: each of the four requests first looks the handle up. -/
theorem unheldHandlesAreRefused : Obligations.UnheldHandlesAreRefused := by
  intro s t b more hunheld
  have hb : ∀ d, (s.heard.setTagEntry t (.inFlight d)).heldBlock? b = none := fun d =>
    State.heldBlock?_none hunheld
  refine ⟨fun hlen h => ?_, fun hlen h => ?_, fun h => ?_, fun h => ?_⟩
  · refine h.exec_unchanged rfl (by rw [List.length_cons]; omega) (decide_eq_true ?_) fun d => ?_
    · rw [List.length_cons]; omega
    · show takeBlockWrite _ _ = _
      unfold takeBlockWrite
      simp only [show at? (b :: more) 0 = b from rfl, hb]
      rfl
  · refine h.exec_unchanged rfl (by rw [List.length_cons]; omega) (beq_iff_eq.2 ?_) fun d => ?_
    · rw [List.length_cons, hlen]
    · show takeBlockSeal _ _ = _
      unfold takeBlockSeal
      simp only [show at? (b :: more) 0 = b from rfl, hb]
      rfl
  · refine h.exec_unchanged rfl (by simp) rfl fun d => ?_
    show takeBlockRelease _ _ = _
    unfold takeBlockRelease
    simp only [show at? [b] 0 = b from rfl, hb]
    rfl
  · refine h.exec_unchanged rfl (by simp) rfl fun d => ?_
    show takeBlockQuery _ _ = _
    unfold takeBlockQuery
    simp only [show at? [b] 0 = b from rfl, hb]
    rfl
end

section
/-! PROOF. The queries, the refusals for unknown jobs, JOB-RETIRE, FAULTS-READ and LANE-RESTART (R2, R27 to
R29, R127, R139, R152). -/

-- One proof after another: a thread for each of them would take too much memory.
set_option Elab.async false

namespace Sys2Proof.Machine

/-! ### Jobs named in a request -/

theorem State.job?_none {s : State} {id : Nat} (h : ∀ j ∈ s.jobs, j.id ≠ id) : s.job? id = none :=
  List.find?_eq_none.2 fun j hj => by simpa using h j hj

theorem State.byte_id {s : State} {b : Byte} {j : Job} (h : s.job? b.toNat = some j) : byte j.id = b := by
  rw [(State.job?_some h).1, byte_toNat]

theorem State.namedJob?_eq (s : State) (b : Byte) (more : List Byte) :
    s.namedJob? (b :: more) = s.job? b.toNat := rfl

/-! ### Lanes named in a request -/

theorem laneId?_none {b : Byte} (h : 8 ≤ b.toNat) : laneId? b = none := dif_neg (Nat.not_lt.2 h)

theorem laneId?_byte (l : LaneId) : laneId? (byte l.val) = some l := by
  revert l; decide

theorem takeLaneRestart_eq {s : State} {b : Byte} {l : LaneId} {x : Lane} (hb : laneId? b = some l)
    (hx : s.lane l = x) :
    takeLaneRestart s [b] =
      if x.state = .stopped then .replied .ok [byte l.val] ((s.setLaneState l .idle).startHead l)
      else s.refuse .notStopped := by
  subst hx
  unfold takeLaneRestart
  simp only [show at? [b] 0 = b from rfl, hb]

/-! ### Records in bytes -/

theorem Job.bytes_eq (j : Job) : j.bytes =
    [byte j.id, byte j.lane.val, j.work.code, byte j.profile.val, j.state.code,
      EndReason.code j.endReason, j.endReport.code,
      byte ((if j.laneStopped then 1 else 0) + (if j.identity.isSome then 2 else 0) +
        (if j.progress.isSome then 4 else 0))] ++
      be24 j.work.start ++ be32 j.work.length ++ be16 j.work.firstSector ++ be16 j.work.lastSector ++
      [byte j.faultLimit] ++ be16 (j.progress.getD 0) ++ be32 j.bytesDone ++ be32 j.programPulses ++
      be32 j.erasePulses ++
      [byte j.faultsRecorded, (j.identity.map fun i => i.maker).getD 0,
        (j.identity.map fun i => i.device).getD 0, byte j.work.blocks.length] ++
      j.work.blocks.map fun h => byte h.val := by
  unfold Job.bytes
  rw [Job.flags, flags_toNat]
  cases j.identity <;> simp only [List.append_assoc] <;> rfl

theorem FaultRecord.bytes_eq (r : FaultRecord) : r.bytes =
    [r.kind.code, byte ((if r.expected.isSome then 1 else 0) + (if r.readByte.isSome then 2 else 0) +
      (if r.sort = .erase then 4 else 0))] ++ be24 r.address ++
      [r.expected.getD 0, r.readByte.getD 0, byte r.pulses] := by
  unfold FaultRecord.bytes
  rw [FaultRecord.flags, flags_toNat]
  simp only [beq_iff_eq]

theorem length_take_drop {α : Type} (l : List α) (n m : Nat) :
    ((l.drop n).take m).length = min m (l.length - n) := by
  rw [List.length_take, List.length_drop]

theorem takeFaultsRead_eq {s : State} {b start : Byte} {j : Job} {rs : List FaultRecord}
    (hj : s.job? b.toNat = some j) (hrs : (s.faults.filter fun r => decide (r.job = j.id)) = rs) :
    takeFaultsRead s [b, start] =
      if j.faultsRecorded < start.toNat then s.refuse .range
      else .replied .ok
        ([b, byte j.faultsRecorded, start, byte (min 8 (rs.length - start.toNat))] ++
          ((rs.drop start.toNat).take 8).flatMap FaultRecord.bytes) s := by
  have hof : s.faultsOf j.id = rs := by
    rw [← hrs]
    exact List.filter_congr fun r _ => by simp [beq_eq_decide]
  unfold takeFaultsRead
  rw [State.namedJob?_eq, hj]
  simp only [hof, State.byte_id hj, show at? [b, start] 1 = start from rfl, byte_toNat, length_take_drop]

/-! ### JOB-RETIRE -/

theorem takeJobRetire_eq {s : State} {b : Byte} {j : Job} (hj : s.job? b.toNat = some j) :
    takeJobRetire s [b] =
      if j.isFinal = true ∧ j.endReport = .enqueued then
        .replied .ok [b] ((s.setFaults (s.faults.filter fun r => decide (r.job ≠ j.id))).setJobs
          (s.jobs.filter fun q => decide (q.id ≠ j.id)))
      else s.refuse .notFinal := by
  have hfaults : (fun r : FaultRecord => r.job != j.id) = fun r => decide (r.job ≠ j.id) := by
    funext r; simp [bne, beq_eq_decide]
  have hjobs : (fun q : Job => q.id != j.id) = fun q => decide (q.id ≠ j.id) := by
    funext q; simp [bne, beq_eq_decide]
  unfold takeJobRetire
  rw [State.namedJob?_eq, hj]
  simp only [hfaults, hjobs, State.byte_id hj, Bool.and_eq_true, beq_iff_eq]

end Sys2Proof.Machine

open Sys2Proof Sys2Proof.Machine

/-- Settles O35: each of the four requests first looks the job up. -/
theorem unknownJobsAreRefused : Obligations.UnknownJobsAreRefused := by
  intro s t b start hnone
  have hjob : ∀ d more, (s.heard.setTagEntry t (.inFlight d)).namedJob? (b :: more) = none := fun d more =>
    State.job?_none hnone
  refine ⟨fun h => ?_, fun h => ?_, fun h => ?_, fun h => ?_⟩
  · refine h.exec_unchanged rfl (by simp) rfl fun d => ?_
    rw [carryOut, takeJobQuery, hjob]; rfl
  · refine h.exec_unchanged rfl (by simp) rfl fun d => ?_
    rw [carryOut, takeJobCancel, hjob]; rfl
  · refine h.exec_unchanged rfl (by simp) rfl fun d => ?_
    rw [carryOut, takeJobRetire, hjob]; rfl
  · refine h.exec_unchanged rfl (by simp) rfl fun d => ?_
    rw [carryOut, takeFaultsRead, hjob]; rfl

/-- Settles O36: the three replies are the records' bytes. -/
theorem queriesReplyTheRecords : Obligations.QueriesReplyTheRecords := by
  refine ⟨fun s t entry h => ⟨fun hentry => ?_, fun i hi => ?_⟩, ?_,
    fun s t b j h hj => ?_⟩
  · refine h.exec_unchanged rfl (by simp) rfl fun d => ?_
    have hnone : profileId? (at? [entry] 0).toNat = none := profileId?_none hentry
    rw [carryOut, takeProfileRead, hnone]; rfl
  · refine h.exec_unchanged rfl (by simp) rfl fun d => ?_
    have hprofile : profileId? (at? [entry] 0).toNat = some i := by
      rw [show at? [entry] 0 = byte i.val from hi]; exact profileId?_byte i
    rw [carryOut, takeProfileRead, hprofile, hi]; rfl
  · intro s t b f h hheld hstate
    have hb : ∀ d, (s.heard.setTagEntry t (.inFlight d)).heldBlock? (at? [byte b.val] 0) = some b :=
      fun d => State.heldBlock?_byte hheld hstate
    refine h.exec_unchanged rfl (by simp) rfl fun d => ?_
    rw [carryOut, takeBlockQuery, hb]
    show Taken.replied .ok (_ :: (s.block b).state.code :: be16 (s.block b).fill ++ be16 (s.block b).refs ++
      be16 (((s.block b).crc.map BitVec.toNat).getD 0)) _ = _
    cases (s.block b).crc
    case none => rw [show be16 ((none : Option Word16).map BitVec.toNat |>.getD 0) = [0x00, 0x00] by decide]; rfl
    case some => rfl
  · have hjob : ∀ d, (s.heard.setTagEntry t (.inFlight d)).namedJob? [b] = some j := fun d => hj
    refine h.exec_unchanged rfl (by simp) rfl fun d => ?_
    rw [carryOut, takeJobQuery, hjob]
    simp only [Job.bytes_eq, State.byte_id hj]

/-- Settles O40: only a final job whose JOB-END is enqueued is retired. -/
theorem retireRemovesTheJob : Obligations.RetireRemovesTheJob := by
  intro s t b j f h hj
  have hjob : ∀ d, (s.heard.setTagEntry t (.inFlight d)).job? b.toNat = some j := fun d => hj
  refine ⟨fun hfinal => ?_, fun hnot => ?_⟩
  · refine h.exec_eq (w := (s.heard.setFaults _).setJobs _) rfl (by simp) rfl ?_ rfl rfl rfl
    rw [carryOut, takeJobRetire_eq (hjob _), if_pos hfinal]; rfl
  · refine h.exec_unchanged rfl (by simp) rfl fun d => ?_
    have hrefused : ¬ (j.isFinal = true ∧ j.endReport = .enqueued) := fun ⟨hfinal, hsent⟩ =>
      hnot.elim (fun hn => by rw [hfinal] at hn; cases hn) fun hn => hn hsent
    rw [carryOut, takeJobRetire_eq (hjob d), if_neg hrefused]; rfl

/-- Settles O41: the start index is compared with the number of the job's records. -/
theorem faultsReadReplies : Obligations.FaultsReadReplies := by
  intro s t b start j f go mine h hj hcount
  have hread : ∀ d, takeFaultsRead (s.heard.setTagEntry t (.inFlight d)) [b, start] = _ := fun d =>
    takeFaultsRead_eq (rs := mine) (j := j) hj rfl
  refine ⟨fun hlt => h.exec_unchanged rfl (by simp) rfl fun d => ?_,
    fun hle => h.exec_unchanged rfl (by simp) rfl fun d => ?_⟩
  · rw [carryOut, hread, if_pos hlt]; rfl
  · rw [carryOut, hread, if_neg (Nat.not_lt.2 hle), ← hcount, funext FaultRecord.bytes_eq]

/-- Settles O42: a STOPPED lane is IDLE first, and then starts the head of its queue. -/
theorem laneRestartStartsTheHead : Obligations.LaneRestartStartsTheHead := by
  intro s t b f go h
  refine ⟨fun hb => h.exec_unchanged rfl (by simp) rfl fun d => ?_, fun l hl => ?_⟩
  · have hnone : laneId? (at? [b] 0) = none := laneId?_none hb
    rw [carryOut, takeLaneRestart, hnone]; rfl
  have hlane : laneId? b = some l := by rw [hl]; exact laneId?_byte l
  have htake : ∀ d, takeLaneRestart (s.heard.setTagEntry t (.inFlight d)) [b] = _ := fun d =>
    takeLaneRestart_eq hlane (x := s.lane l) rfl
  refine ⟨fun hne => h.exec_unchanged rfl (by simp) rfl fun d => ?_, fun hstop hnil => ?_,
    fun id rest j hstop hq hj => ?_⟩
  · rw [carryOut, htake, if_neg hne]; rfl
  · refine h.exec_eq (w := s.heard.updLane l _) rfl (by simp) rfl ?_ rfl rfl rfl
    have hnil' : ((State.setLaneState (s.heard.setTagEntry t (.inFlight f.digest)) l .idle).lane l).queue =
        [] := by
      unfold State.setLaneState
      rw [State.lane_updLane_self]; exact hnil
    rw [carryOut, htake, if_pos hstop, State.startHead_of_nil hnil', ← hl]
    rfl
  · let v := s.heard.setTagEntry t (.inFlight f.digest)
    let u := v.updLane l fun x => { x with state := .idle }
    have hidle : (u.lane l).state = .idle := by rw [State.lane_updLane_self]
    have hqueue : (u.lane l).queue = id :: rest := by
      rw [State.lane_updLane_self]; exact hq
    refine h.exec_eq (w := (s.heard.updLane l _).setJobs _) rfl (by simp) rfl ?_ rfl rfl rfl
    rw [carryOut, htake, if_pos hstop, show v.setLaneState l .idle = u from rfl,
      State.startHead_eq hidle hqueue (show u.job? id = some j from hj), ← hl, State.updLane_updLane]
    rfl
end

section
/-! PROOF. The seven checks of JOB-SUBMIT (R9 to R12). -/

-- One proof after another: a thread for each of them would take too much memory.
set_option Elab.async false

namespace Sys2Proof.Machine

/-! ### A submission and its payload -/

theorem ofBe_be24 {n : Nat} (h : n < 2 ^ 24) : ofBe (be24 n) = n := by
  simp only [be24, ofBe, byte, List.foldl_cons, List.foldl_nil, BitVec.toNat_ofNat]
  omega

theorem ofBe_be32 {n : Nat} (h : n < 2 ^ 32) : ofBe (be32 n) = n := by
  simp only [be32, ofBe, byte, List.foldl_cons, List.foldl_nil, BitVec.toNat_ofNat]
  omega

theorem Submit.length_payload (f : Submit) : f.payload.length = 18 + f.handles.length := by
  simp [Submit.payload, be16, be24, be32]
  omega

theorem Submit.ofPayload_payload {f : Submit} (h : f.Fits) : Submit.ofPayload f.payload = f := by
  obtain ⟨hprofile, hstart, hlength, hfirst, hlast, hlimit, hprogress, -⟩ := h
  have hinterval : (if field f.payload 15 2 = 0 then none else some (field f.payload 15 2)) =
      f.progress := by
    have hfield : field f.payload 15 2 = ofBe (be16 (f.progress.getD 0)) := rfl
    rw [hfield]
    cases hp : f.progress with
    | none => rfl
    | some i =>
      obtain ⟨hpos, hlt⟩ := hprogress i hp
      rw [Option.getD_some, ofBe_be16 hlt, if_neg (by omega)]
  unfold Submit.ofPayload
  rw [hinterval, show field f.payload 3 3 = f.start from ofBe_be24 hstart,
    show field f.payload 6 4 = f.length from ofBe_be32 hlength,
    show field f.payload 10 2 = f.first from ofBe_be16 hfirst,
    show field f.payload 12 2 = f.last from ofBe_be16 hlast,
    show (at? f.payload 2).toNat = f.profile from toNat_byte hprofile,
    show (at? f.payload 14).toNat = f.faultLimit from toNat_byte hlimit]
  rfl

theorem Submit.Fits.lengthOk {f : Submit} (h : f.Fits) : Request.jobSubmit.lengthOk f.payload = true := by
  obtain ⟨-, -, -, -, -, -, -, hhandles⟩ := h
  have hcount : (at? f.payload 17).toNat = f.handles.length :=
    toNat_byte (show f.handles.length < 256 by omega)
  simp only [Request.lengthOk, hcount, Submit.length_payload]
  simp

theorem Submit.Fits.length_le {f : Submit} (h : f.Fits) : f.payload.length ≤ 260 := by
  obtain ⟨-, -, -, -, -, -, -, hhandles⟩ := h
  rw [Submit.length_payload]
  omega

/-! ### Checks 1 and 2 -/

/-- The code of a job kind (R186). -/
def JobKind.code : JobKind → Byte
  | .identify => 0x01
  | .program => 0x02
  | .verify => 0x03
  | .blankCheck => 0x04
  | .erase => 0x05

theorem JobKind.ofCode?_code (k : JobKind) : JobKind.ofCode? k.code = some k := by
  cases k <;> rfl

theorem JobKind.ofCode?_none {b : Byte} (h : ¬(1 ≤ b.toNat ∧ b.toNat ≤ 5)) :
    JobKind.ofCode? b = none := by
  revert b; decide

theorem Submit.Check1.kind {f : Submit} (h : f.Check1) : ∃ k : JobKind, f.kind = k.code := by
  unfold Submit.Check1 at h
  revert h
  generalize f.kind = b
  revert b
  intro b ⟨hlo, hhi⟩
  have hb : b = byte b.toNat := (byte_toNat b).symm
  generalize b.toNat = n at hb hlo hhi
  subst hb
  interval_cases n
  · exact ⟨.identify, rfl⟩
  · exact ⟨.program, rfl⟩
  · exact ⟨.verify, rfl⟩
  · exact ⟨.blankCheck, rfl⟩
  · exact ⟨.erase, rfl⟩

theorem JobKind.countOk_iff {f : Submit} {k : JobKind} (hk : f.kind = k.code) :
    k.countOk f.handles.length = true ↔
      if f.kind = 0x02 ∨ f.kind = 0x03 then 1 ≤ f.handles.length ∧ f.handles.length ≤ 64
      else f.handles = [] := by
  rw [hk]
  cases k <;> simp [JobKind.countOk, JobKind.code]

theorem Submit.fieldsOk_iff {f : Submit} (hf : f.Fits) {k : JobKind} (hk : f.kind = k.code) :
    f.fieldsOk k = true ↔ f.Check2 := by
  obtain ⟨-, -, -, -, -, -, hprogress, -⟩ := hf
  unfold Submit.fieldsOk Submit.Check2
  simp only [Bool.and_eq_true, JobKind.countOk_iff hk, bne_iff_ne, decide_eq_true_eq]
  generalize (if f.kind = 0x02 ∨ f.kind = 0x03 then 1 ≤ f.handles.length ∧ f.handles.length ≤ 64
    else f.handles = []) = counts
  cases hp : f.progress with
  | none => simp; tauto
  | some i =>
    have hpos : 1 ≤ i := (hprogress i hp).1
    simp [hpos]; tauto

/-! ### Check 4 -/

theorem Submit.rangeOk_iff {f : Submit} {k : JobKind} (hk : f.kind = k.code) (p : Profile) :
    f.rangeOk k p = true ↔ f.Check4 p := by
  unfold Submit.Check4
  rw [hk]
  cases k <;> simp [Submit.rangeOk, JobKind.code]

/-! ### Check 5 -/

theorem State.Usable.held {s : State} {b : Byte} (h : s.Usable b) :
    ∃ g, b = byte g.val ∧ s.heldBlock? b = some g ∧ (s.block g).state = .sealed := by
  obtain ⟨g, hb, hheld, hsealed⟩ := h
  refine ⟨g, hb, ?_, hsealed⟩
  rw [hb]
  exact State.heldBlock?_byte hheld (by rw [hsealed]; simp)

theorem handle_of_byte {g h : Handle} (e : byte g.val = byte h.val) : g = h := by
  have hg := handle?_byte g
  rw [e, handle?_byte] at hg
  exact (Option.some.inj hg).symm

theorem State.usableBlocks_ok {s : State} {hs : List Handle}
    (h : ∀ b ∈ hs.map fun g => byte g.val, s.Usable b) :
    s.usableBlocks (hs.map fun g => byte g.val) = .ok hs := by
  induction hs with
  | nil => rfl
  | cons g hs ih =>
    obtain ⟨g', hb, hheld, hsealed⟩ := (h _ List.mem_cons_self).held
    obtain rfl := handle_of_byte hb
    rw [List.map_cons, State.usableBlocks]
    simp only [hheld, hsealed, ih fun b hb => h b (List.mem_cons_of_mem _ hb)]
    rfl

/-- The first handle that is not usable decides the code (R12). -/
theorem State.usableBlocks_stops {s : State} {ahead behind : List Byte} {b : Byte} {e : Result}
    (h : ∀ g ∈ ahead, s.Usable g) (he : s.usableBlocks (b :: behind) = .error e) :
    s.usableBlocks (ahead ++ b :: behind) = .error e := by
  induction ahead with
  | nil => exact he
  | cons g ahead ih =>
    obtain ⟨g', -, hheld, hsealed⟩ := (h g List.mem_cons_self).held
    rw [List.cons_append, State.usableBlocks]
    simp only [hheld, hsealed, ih fun x hx => h x (List.mem_cons_of_mem _ hx)]
    rfl

theorem State.usableBlocks_unheld {s : State} {b : Byte} (h : s.Unheld b) (behind : List Byte) :
    s.usableBlocks (b :: behind) = .error .noBlock := by
  rw [State.usableBlocks, State.heldBlock?_none h]

theorem State.usableBlocks_filling {s : State} {h : Handle} (hheld : (s.block h).held = true)
    (hfilling : (s.block h).state = .filling) (behind : List Byte) :
    s.usableBlocks (byte h.val :: behind) = .error .blockState := by
  rw [State.usableBlocks, State.heldBlock?_byte hheld (by rw [hfilling]; simp)]
  exact if_pos hfilling

/-- The kinds with a block list check it; for the others check 2 has required it empty. -/
theorem State.blockCheck_eq (s : State) {f : Submit} {k : JobKind} (hk : f.kind = k.code)
    (h2 : f.Check2) : s.blockCheck f k =
      if f.kind = 0x02 ∨ f.kind = 0x03 then
        match s.usableBlocks f.handles with
        | .error e => .error e
        | .ok hs => if s.fillSum hs = f.length then .ok hs else .error .range
      else s.usableBlocks f.handles := by
  obtain ⟨-, -, -, -, hcount⟩ := h2
  rw [hk] at hcount ⊢
  cases k with
  | program => rfl
  | verify => rfl
  | identify => rw [show f.handles = [] from hcount]; rfl
  | blankCheck => rw [show f.handles = [] from hcount]; rfl
  | erase => rw [show f.handles = [] from hcount]; rfl

theorem State.blockCheck_error {s : State} {f : Submit} {k : JobKind} (hk : f.kind = k.code)
    (h2 : f.Check2) {e : Result} (he : s.usableBlocks f.handles = .error e) :
    s.blockCheck f k = .error e := by
  rw [s.blockCheck_eq hk h2, he, ite_self]

/-- Usable blocks pass check 5 if they fill the length, which only the kinds with a block list ask. -/
theorem State.blockCheck_usable {s : State} {f : Submit} {k : JobKind} (hk : f.kind = k.code)
    (h2 : f.Check2) {hs : List Handle} (hlist : f.handles = hs.map fun h => byte h.val)
    (husable : ∀ b ∈ f.handles, s.Usable b) :
    s.blockCheck f k =
      if f.kind = 0x02 ∨ f.kind = 0x03 → (hs.map fun h => (s.block h).fill).sum = f.length
      then .ok hs else .error .range := by
  have hok : s.usableBlocks f.handles = .ok hs := by
    rw [hlist] at husable ⊢
    exact State.usableBlocks_ok husable
  rw [s.blockCheck_eq hk h2, hok]
  by_cases hb : f.kind = 0x02 ∨ f.kind = 0x03
  · rw [if_pos hb]
    simp only [hb, forall_const]
    rfl
  · rw [if_neg hb, if_pos fun h => absurd h hb]

/-! ### The checks in order -/

theorem lanesOf_length_pos {mask : Byte} (h : mask ≠ 0) : 0 < (lanesOf mask).length := by
  refine List.length_pos_of_ne_nil fun hn => h (BitVec.eq_of_getLsbD_eq fun i hi => ?_)
  have hbit := List.filter_eq_nil_iff.1 hn ⟨i, hi⟩ (List.mem_finRange _)
  simpa using hbit

theorem profileId?_filter_some {ps : Vector Profile 4} {n : Nat} {i : ProfileId} (hi : n = i.val)
    (hv : ps[i].valid = true) : ((profileId? n).filter fun j => ps[j].valid) = some i := by
  rw [hi, profileId?_some]
  exact Option.filter_some_pos hv

theorem profileId?_filter_none {ps : Vector Profile 4} {n : Nat}
    (h : ∀ i : ProfileId, n = i.val → ps[i].valid = false) :
    ((profileId? n).filter fun j => ps[j].valid) = none := by
  unfold profileId?
  split
  · next hlt =>
    refine Option.filter_some_neg ?_
    exact h ⟨n, hlt⟩ rfl
  · rfl

section
variable {s : State} {f : Submit} {k : JobKind} {i : ProfileId}

theorem takeJobSubmit_badField (hf : f.Fits) (h : ¬(f.Check1 ∧ f.Check2)) :
    takeJobSubmit s f.payload = s.refuse .badField := by
  unfold takeJobSubmit
  rw [Submit.ofPayload_payload hf]
  by_cases h1 : f.Check1
  · obtain ⟨k, hk⟩ := h1.kind
    have hfields : f.fieldsOk k = false := by
      rw [← Bool.not_eq_true, Submit.fieldsOk_iff hf hk]
      exact fun h2 => h ⟨h1, h2⟩
    simp only [hk, JobKind.ofCode?_code, hfields, if_true]
  · simp only [JobKind.ofCode?_none h1]

theorem takeJobSubmit_profileInvalid (hf : f.Fits) (h1 : f.Check1) (h2 : f.Check2)
    (h : ∀ i : ProfileId, f.profile = i.val → s.profiles[i].valid = false) :
    takeJobSubmit s f.payload = s.refuse .profileInvalid := by
  obtain ⟨k, hk⟩ := h1.kind
  unfold takeJobSubmit
  rw [Submit.ofPayload_payload hf]
  simp only [hk, JobKind.ofCode?_code, (Submit.fieldsOk_iff hf hk).2 h2, profileId?_filter_none h]
  rfl

theorem takeJobSubmit_range (hf : f.Fits) (h1 : f.Check1) (h2 : f.Check2) (hi : f.profile = i.val)
    (hv : s.profiles[i].valid = true) (h4 : ¬ f.Check4 s.profiles[i]) :
    takeJobSubmit s f.payload = s.refuse .range := by
  obtain ⟨k, hk⟩ := h1.kind
  have hrange : f.rangeOk k s.profiles[i] = false := by
    rw [← Bool.not_eq_true, Submit.rangeOk_iff hk]
    exact h4
  unfold takeJobSubmit
  rw [Submit.ofPayload_payload hf]
  simp only [hk, JobKind.ofCode?_code, (Submit.fieldsOk_iff hf hk).2 h2, profileId?_filter_some hi hv,
    hrange]
  rfl

/-- Past check 4 the block list decides, and then the room in the table and in the queues. -/
theorem takeJobSubmit_eq (hf : f.Fits) (hk : f.kind = k.code) (h2 : f.Check2) (hi : f.profile = i.val)
    (hv : s.profiles[i].valid = true) (h4 : f.Check4 s.profiles[i]) :
    takeJobSubmit s f.payload =
      match s.blockCheck f k with
      | .error e => s.refuse e
      | .ok hs =>
        if s.freeEntries < (lanesOf f.mask).length then s.refuse .tableFull
        else if (lanesOf f.mask).any fun l => decide (4 ≤ (s.lane l).queue.length) then
          s.refuse .queueFull
        else
          .replied .ok
            (byte (s.createJobs f i (f.work hs k) (lanesOf f.mask)).2.length ::
              (s.createJobs f i (f.work hs k) (lanesOf f.mask)).2.map byte)
            ((s.createJobs f i (f.work hs k) (lanesOf f.mask)).1.startLanes (lanesOf f.mask)) := by
  unfold takeJobSubmit
  rw [Submit.ofPayload_payload hf]
  simp only [hk, JobKind.ofCode?_code, (Submit.fieldsOk_iff hf hk).2 h2, profileId?_filter_some hi hv,
    (Submit.rangeOk_iff hk _).2 h4]
  rfl

theorem takeJobSubmit_blockList (hf : f.Fits) (h1 : f.Check1) (h2 : f.Check2) (hi : f.profile = i.val)
    (hv : s.profiles[i].valid = true) (h4 : f.Check4 s.profiles[i]) {e : Result}
    (he : s.usableBlocks f.handles = .error e) : takeJobSubmit s f.payload = s.refuse e := by
  obtain ⟨k, hk⟩ := h1.kind
  rw [takeJobSubmit_eq hf hk h2 hi hv h4, State.blockCheck_error hk h2 he]

end

end Sys2Proof.Machine

open Sys2Proof Sys2Proof.Machine

/-- Settles O33, by the first of the seven checks that fails. -/
theorem submitChecksInOrder : Obligations.SubmitChecksInOrder := by
  intro s t f hf frame refused h
  have hrefused : ∀ code, (∀ d, takeJobSubmit (s.heard.setTagEntry t (.inFlight d)) f.payload =
      (s.heard.setTagEntry t (.inFlight d)).refuse code) → refused code := fun code hj =>
    h.exec_unchanged rfl hf.length_le hf.lengthOk hj
  refine ⟨fun hbad => hrefused _ fun d => takeJobSubmit_badField hf hbad, fun ⟨h1, h2⟩ =>
    ⟨fun hinvalid => hrefused _ fun d => takeJobSubmit_profileInvalid hf h1 h2 hinvalid,
      fun i hi hv => ⟨fun h4 => hrefused _ fun d => takeJobSubmit_range hf h1 h2 hi hv h4, fun h4 =>
        ⟨fun ahead b behind hlist husable => ⟨fun hunheld => ?_, fun g hb hheld hfilling => ?_⟩,
          ?_⟩⟩⟩⟩
  · refine hrefused _ fun d => takeJobSubmit_blockList (s := s.heard.setTagEntry t (.inFlight d)) hf h1 h2 hi hv h4 ?_
    rw [hlist]
    exact State.usableBlocks_stops husable (State.usableBlocks_unheld (s := s.heard.setTagEntry t _) hunheld behind)
  · refine hrefused _ fun d => takeJobSubmit_blockList (s := s.heard.setTagEntry t (.inFlight d)) hf h1 h2 hi hv h4 ?_
    rw [hlist, hb]
    exact State.usableBlocks_stops husable
      (State.usableBlocks_filling (s := s.heard.setTagEntry t _) hheld hfilling behind)
  intro hs hlist husable fills
  obtain ⟨k, hk⟩ := h1.kind
  have htake : ∀ d, takeJobSubmit (s.heard.setTagEntry t (.inFlight d)) f.payload = _ := fun d =>
    takeJobSubmit_eq hf hk h2 hi hv h4
  have hcheck : ∀ d, (s.heard.setTagEntry t (.inFlight d)).blockCheck f k =
      if fills then .ok hs else .error .range := fun d =>
    State.blockCheck_usable hk h2 hlist husable
  refine ⟨fun hn => hrefused _ fun d => ?_, fun hfills hfull => hrefused _ fun d => ?_,
    fun hfills hroom ⟨l, hl, hlong⟩ => hrefused _ fun d => ?_⟩
  · rw [htake, hcheck, if_neg hn]
  all_goals rw [htake, hcheck, if_pos hfills]
  · have hpos := lanesOf_length_pos h2.1
    exact if_pos (show 24 - s.jobs.length < (lanesOf f.mask).length by omega)
  · refine (if_neg (show ¬ 24 - s.jobs.length < (lanesOf f.mask).length by omega)).trans (if_pos ?_)
    exact List.any_eq_true.2 ⟨l, hl, decide_eq_true hlong⟩
end

section
/-! PROOF. What a JOB-SUBMIT that passes its checks creates (R3, R4, R13 to R15, R140). -/

-- One proof after another: a thread for each of them would take too much memory.
set_option Elab.async false

namespace Sys2Proof.Machine

/-! ### The jobs of the selected lanes -/

section
variable (s : State) (f : Submit) (p : ProfileId) (w : Work) (l : LaneId) (ls : List LaneId)

theorem State.createJobs_cons_fst :
    (s.createJobs f p w (l :: ls)).1 = ((s.createJob f p w l).createJobs f p w ls).1 := rfl

theorem State.createJobs_cons_snd : (s.createJobs f p w (l :: ls)).2 =
    (s.createJob f p w l).lastId :: ((s.createJob f p w l).createJobs f p w ls).2 := rfl

theorem State.createJobs_length : (s.createJobs f p w ls).2.length = ls.length := by
  induction ls generalizing s with
  | nil => rfl
  | cons l ls ih => rw [State.createJobs_cons_snd, List.length_cons, List.length_cons, ih]

theorem State.createJobs_jobs : (s.createJobs f p w ls).1.jobs =
    s.jobs ++ List.zipWith (fun l id => f.job id l p w) ls (s.createJobs f p w ls).2 := by
  induction ls generalizing s with
  | nil => exact (List.append_nil _).symm
  | cons l ls ih =>
    rw [State.createJobs_cons_fst, State.createJobs_cons_snd, ih, State.createJob_jobs,
      State.createJob_lastId, List.append_assoc]
    rfl

theorem State.createJobs_lastId :
    (s.createJobs f p w ls).1.lastId = (s.createJobs f p w ls).2.getLast?.getD s.lastId := by
  induction ls generalizing s with
  | nil => rfl
  | cons l ls ih =>
    rw [State.createJobs_cons_fst, State.createJobs_cons_snd, ih, List.getLast?_cons, Option.getD_some]

theorem State.createJobs_block (h : Handle) : (s.createJobs f p w ls).1.block h =
    { s.block h with refs := (s.block h).refs + ls.length * w.blocks.count h } := by
  induction ls generalizing s with
  | nil => simp [State.createJobs]
  | cons l ls ih =>
    rw [State.createJobs_cons_fst, ih, State.createJob_block, List.length_cons, Nat.succ_mul]
    simp only [Nat.add_assoc, Nat.add_comm]

theorem lookup_zip_of_notMem {m : LaneId} {ls : List LaneId} (h : m ∉ ls) (ids : List Nat) :
    (ls.zip ids).lookup m = none := by
  rw [List.lookup_eq_none_iff]
  intro e he
  have hne : m ≠ e.1 := fun hm => h (hm ▸ (List.of_mem_zip he).1)
  simpa using hne

theorem State.createJobs_lane (hn : ls.Nodup) (m : LaneId) : (s.createJobs f p w ls).1.lane m =
    ((ls.zip (s.createJobs f p w ls).2).lookup m).elim (s.lane m) fun id =>
      { s.lane m with queue := (s.lane m).queue ++ [id] } := by
  induction ls generalizing s with
  | nil => rfl
  | cons l ls ih =>
    obtain ⟨hl, hls⟩ := List.nodup_cons.1 hn
    rw [State.createJobs_cons_fst, State.createJobs_cons_snd, ih _ hls, List.zip_cons_cons,
      List.lookup_cons, State.createJob_lane, State.createJob_lastId]
    by_cases hm : l = m
    · subst hm
      rw [lookup_zip_of_notMem hl]
      simp
    · rw [if_neg hm, beq_eq_false_iff_ne.2 (Ne.symm hm)]

/-- Each identifier is the first one after the last given that no job holds (R3). -/
theorem State.createJobs_ids (hlast : s.lastId ≤ 255) (room : s.jobs.length + ls.length ≤ 24) :
    ∀ n (hn : n < (s.createJobs f p w ls).2.length),
      let ids := (s.createJobs f p w ls).2
      let taken := s.jobs.map (fun j => j.id) ++ ids.take n
      let last := (ids.take n).getLast?.getD s.lastId
      ∃ k, ids[n] = (last + k) % 255 + 1 ∧ ids[n] ∉ taken ∧ ∀ m < k, (last + m) % 255 + 1 ∈ taken := by
  induction ls generalizing s with
  | nil => exact fun n hn => absurd hn (Nat.not_lt_zero n)
  | cons l ls ih =>
    rw [List.length_cons] at room
    obtain ⟨k, hk, hfresh, hbefore⟩ := nextFreeId_first (jobs := s.jobs) (by omega) hlast
    have hid : (s.createJob f p w l).lastId = (s.lastId + k) % 255 + 1 := by
      rw [State.createJob_lastId]; exact hk
    intro n hn
    cases n with
    | zero =>
      refine ⟨k, hid, ?_, ?_⟩
      · rw [List.take_zero, List.append_nil]
        show (s.createJob f p w l).lastId ∉ _
        rw [hid]
        exact hfresh
      · rw [List.take_zero, List.append_nil]
        exact hbefore
    | succ n =>
      have hrest := ih (s.createJob f p w l) (by rw [hid]; omega)
        (by rw [State.createJob_jobs, List.length_append, List.length_singleton]; omega) n
        (Nat.lt_of_succ_lt_succ hn)
      have htaken : (s.createJob f p w l).jobs.map (fun j => j.id) =
          s.jobs.map (fun j => j.id) ++ [(s.createJob f p w l).lastId] := by
        rw [State.createJob_jobs, State.createJob_lastId, List.map_append]
        rfl
      rw [htaken] at hrest
      simp only [State.createJobs_cons_snd, List.take_succ_cons, List.getLast?_cons, Option.getD_some,
        List.getElem_cons_succ]
      simpa only [List.append_assoc, List.singleton_append] using hrest

theorem State.createJobs_nodup (hlast : s.lastId ≤ 255) (room : s.jobs.length + ls.length ≤ 24)
    (hids : (s.jobs.map fun j => j.id).Nodup) :
    ((s.createJobs f p w ls).1.jobs.map fun j => j.id).Nodup := by
  induction ls generalizing s with
  | nil => exact hids
  | cons l ls ih =>
    rw [List.length_cons] at room
    obtain ⟨k, hk, hfresh, -⟩ := nextFreeId_first (jobs := s.jobs) (by omega) hlast
    rw [State.createJobs_cons_fst]
    refine ih _ ?_ ?_ ?_
    · rw [State.createJob_lastId]
      exact hk ▸ Nat.succ_le_of_lt (Nat.mod_lt _ (by decide))
    · rw [State.createJob_jobs, List.length_append, List.length_singleton]; omega
    · rw [State.createJob_jobs, List.map_append]
      refine hids.append (List.nodup_singleton _) (List.disjoint_singleton.2 ?_)
      exact hk ▸ hfresh

end

/-! ### The idle lanes among them start -/

/-- An IDLE lane that starts the only job of its queue (R14, R15, R34). -/
def Lane.starts (x : Lane) (id address : Nat) : Lane :=
  { x with
    state := .running
    queue := []
    current := some id
    context := .starting address
    unit := x.unit.handOver (.new .ident 0 0 true) }

/-- The record of a job that may start. -/
def Job.activeIf (j : Job) (c : Prop) [Decidable c] : Job := if c then { j with state := .active } else j

theorem Job.activeIf_id (j : Job) (c : Prop) [Decidable c] : (j.activeIf c).id = j.id := by
  unfold Job.activeIf; split <;> rfl

theorem Job.activeIf_work (j : Job) (c : Prop) [Decidable c] : (j.activeIf c).work = j.work := by
  unfold Job.activeIf; split <;> rfl

theorem Job.activeIf_profile (j : Job) (c : Prop) [Decidable c] : (j.activeIf c).profile = j.profile := by
  unfold Job.activeIf; split <;> rfl

theorem Job.activeIf_activeIf (j : Job) (c d : Prop) [Decidable c] [Decidable d] :
    (j.activeIf c).activeIf d = j.activeIf (c ∨ d) := by
  unfold Job.activeIf
  by_cases hc : c <;> by_cases hd : d <;> simp [hc, hd]

theorem State.job?_map {s t : State} {g : Job → Job} (hg : ∀ j, (g j).id = j.id)
    (ht : t.jobs = s.jobs.map g) (k : Nat) : t.job? k = (s.job? k).map g := by
  unfold State.job?
  rw [ht, List.find?_map]
  refine congrArg (Option.map g) (congrArg (s.jobs.find? ·) (funext fun j => ?_))
  rw [Function.comp, hg]

/-- Every IDLE lane of `ls` has one job in its queue, `idOf l`, of the work `w` under the profile `p`. -/
def State.ReadyToStart (v : State) (ls : List LaneId) (idOf : LaneId → Nat) (w : Work) (p : ProfileId) :
    Prop :=
  ∀ l ∈ ls, (v.lane l).state = .idle →
    (v.lane l).queue = [idOf l] ∧ ∃ j, v.job? (idOf l) = some j ∧ j.work = w ∧ j.profile = p

theorem State.ReadyToStart.startHead {v : State} {l : LaneId} {ls : List LaneId} {idOf : LaneId → Nat}
    {w : Work} {p : ProfileId} (h : v.ReadyToStart (l :: ls) idOf w p) :
    (v.startHead l).lane l = (if (v.lane l).state = .idle then
        (v.lane l).starts (idOf l) (w.firstAddress v.profiles[p]) else v.lane l) ∧
      (v.startHead l).jobs =
        v.jobs.map fun j => j.activeIf ((v.lane l).state = .idle ∧ j.id = idOf l) := by
  by_cases hidle : (v.lane l).state = .idle
  · obtain ⟨hq, j, hj, rfl, rfl⟩ := h l List.mem_cons_self hidle
    rw [State.startHead_eq hidle hq hj, if_pos hidle]
    refine ⟨?_, List.map_congr_left fun q _ => ?_⟩
    · rw [State.lane_setJobs, State.lane_updLane_self]; rfl
    · simp only [Job.activeIf, hidle, true_and]
  · rw [State.startHead_of_ne hidle, if_neg hidle]
    refine ⟨rfl, ?_⟩
    simp [Job.activeIf, hidle]

theorem State.ReadyToStart.tail {v : State} {l : LaneId} {ls : List LaneId} {idOf : LaneId → Nat}
    {w : Work} {p : ProfileId} (h : v.ReadyToStart (l :: ls) idOf w p) (hl : l ∉ ls) :
    (v.startHead l).ReadyToStart ls idOf w p := by
  intro m hm hidle
  have hne : l ≠ m := (ne_of_mem_of_not_mem hm hl).symm
  rw [State.lane_startHead_ne v hne] at hidle ⊢
  obtain ⟨hq, j, hj, hw, hp⟩ := h m (List.mem_cons_of_mem l hm) hidle
  refine ⟨hq, j.activeIf ((v.lane l).state = .idle ∧ j.id = idOf l), ?_, ?_, ?_⟩
  · rw [State.job?_map (fun j => j.activeIf_id _) h.startHead.2, hj]
    rfl
  · rw [Job.activeIf_work, hw]
  · rw [Job.activeIf_profile, hp]

theorem State.startLanes_onlyChanges (v : State) (ls : List LaneId) :
    v.OnlyChanges (v.startLanes ls) [.lanes, .jobs] :=
  State.OnlyChanges.foldl State.startHead_onlyChanges ls v

theorem State.ReadyToStart.startLanes {v : State} {ls : List LaneId} {idOf : LaneId → Nat} {w : Work}
    {p : ProfileId} (h : v.ReadyToStart ls idOf w p) (hn : ls.Nodup) :
    (∀ m, (v.startLanes ls).lane m = if m ∈ ls ∧ (v.lane m).state = .idle then
        (v.lane m).starts (idOf m) (w.firstAddress v.profiles[p]) else v.lane m) ∧
      (v.startLanes ls).jobs =
        v.jobs.map fun j => j.activeIf (∃ l ∈ ls, (v.lane l).state = .idle ∧ j.id = idOf l) := by
  induction ls generalizing v with
  | nil =>
    refine ⟨fun m => (if_neg fun hm => List.not_mem_nil hm.1).symm, ?_⟩
    simp [State.startLanes, Job.activeIf]
  | cons l ls ih =>
    obtain ⟨hl, hls⟩ := List.nodup_cons.1 hn
    obtain ⟨hlane, hjobs⟩ := ih (h.tail hl) hls
    obtain ⟨hself, hstart⟩ := h.startHead
    have hprofiles : (v.startHead l).profiles = v.profiles := v.startHead_onlyChanges l .profiles (by decide)
    have hother : ∀ m ∈ ls, (v.startHead l).lane m = v.lane m := fun m hm =>
      State.lane_startHead_ne v (ne_of_mem_of_not_mem hm hl).symm
    have hfold : v.startLanes (l :: ls) = (v.startHead l).startLanes ls := rfl
    rw [hfold, hjobs, hstart, List.map_map]
    refine ⟨fun m => ?_, List.map_congr_left fun j _ => ?_⟩
    · rw [hlane, hprofiles]
      by_cases hm : l = m
      · subst hm
        rw [if_neg fun hc => hl hc.1, hself]
        simp only [List.mem_cons_self, true_and]
      · rw [State.lane_startHead_ne v hm]
        simp only [List.mem_cons, Ne.symm hm, false_or]
    · rw [Function.comp, Job.activeIf_activeIf]
      congr 1
      simp only [Job.activeIf_id, List.exists_mem_cons_iff]
      refine propext (or_congr_right (exists_congr fun m => and_congr_right fun hm => by
        rw [hother m hm]))

theorem State.job?_of_mem {s : State} (hn : (s.jobs.map fun j => j.id).Nodup) {j : Job}
    (hj : j ∈ s.jobs) : s.job? j.id = some j := by
  obtain ⟨q, hq⟩ := Option.isSome_iff_exists.1 
    ((List.find?_isSome (p := fun q => q.id == j.id)).2 ⟨j, hj, beq_self_eq_true j.id⟩)
  obtain ⟨hid, hmem⟩ := State.job?_some (s := s) hq
  rw [List.inj_on_of_nodup_map hn hj hmem hid.symm]
  rwa [hid]

/-- The identifier that lane `l` was given. -/
def givenId (ls : List LaneId) (ids : List Nat) (l : LaneId) : Nat := ((ls.zip ids).lookup l).getD 0

theorem lookup_zip_getElem {ls : List LaneId} {ids : List Nat} (hn : ls.Nodup) {n : Nat}
    (hl : n < ls.length) (hi : n < ids.length) : (ls.zip ids).lookup ls[n] = some ids[n] := by
  induction ls generalizing ids n with
  | nil => exact absurd hl (Nat.not_lt_zero n)
  | cons l ls ih =>
    obtain ⟨hnot, hls⟩ := List.nodup_cons.1 hn
    cases ids with
    | nil => exact absurd hi (Nat.not_lt_zero n)
    | cons id ids =>
      cases n with
      | zero => simp
      | succ n =>
        have hn : n < ls.length := Nat.lt_of_succ_lt_succ hl
        have hne : (ls[n] == l) = false := beq_eq_false_iff_ne.2 fun he => hnot (he ▸ List.getElem_mem hn)
        rw [List.zip_cons_cons, List.getElem_cons_succ, List.lookup_cons, hne]
        exact ih hls hn (Nat.lt_of_succ_lt_succ hi)

section
variable {s : State} {f : Submit} {p : ProfileId} {w : Work} {ls : List LaneId}

/-- What the lanes that are to start find: their queues hold the new jobs, and these are in the table. -/
theorem State.createJobs_ready (hlast : s.lastId ≤ 255) (room : s.jobs.length + ls.length ≤ 24)
    (hids : (s.jobs.map fun j => j.id).Nodup) (hn : ls.Nodup)
    (hidle : ∀ l ∈ ls, (s.lane l).state = .idle → (s.lane l).queue = []) :
    (s.createJobs f p w ls).1.ReadyToStart ls (givenId ls (s.createJobs f p w ls).2) w p := by
  intro l hl hstate
  have hlen := s.createJobs_length f p w ls
  have hjobs := s.createJobs_jobs f p w ls
  have hnodup := s.createJobs_nodup f p w ls hlast room hids
  obtain ⟨n, hn', rfl⟩ := List.getElem_of_mem hl
  rw [s.createJobs_lane f p w ls hn] at hstate ⊢
  generalize (s.createJobs f p w ls).2 = ids at hlen hjobs hstate ⊢
  have hi : n < ids.length := by omega
  have hlook := lookup_zip_getElem (ids := ids) hn hn' hi
  rw [givenId, hlook]
  rw [hlook] at hstate
  refine ⟨?_, f.job ids[n] ls[n] p w, ?_, rfl, rfl⟩
  · show (s.lane ls[n]).queue ++ [ids[n]] = [ids[n]]
    rw [hidle _ hl hstate, List.nil_append]
  · refine State.job?_of_mem hnodup (j := f.job ids[n] ls[n] p w) ?_
    rw [hjobs]
    refine List.mem_append_right _ (List.mem_iff_getElem.2 ⟨n, ?_, ?_⟩)
    · rw [List.length_zipWith]; omega
    · rw [List.getElem_zipWith]

theorem State.createJobs_laneState (hn : ls.Nodup) (m : LaneId) :
    ((s.createJobs f p w ls).1.lane m).state = (s.lane m).state := by
  rw [s.createJobs_lane f p w ls hn]
  cases (ls.zip (s.createJobs f p w ls).2).lookup m <;> rfl

theorem givenId_getElem {ids : List Nat} (hn : ls.Nodup) {n : Nat} (hl : n < ls.length)
    (hi : n < ids.length) : givenId ls ids ls[n] = ids[n] := by
  rw [givenId, lookup_zip_getElem hn hl hi, Option.getD_some]

/-- The lanes after a submission (R13, R14). -/
theorem State.createJobs_startLanes_lane (hlast : s.lastId ≤ 255)
    (room : s.jobs.length + ls.length ≤ 24) (hids : (s.jobs.map fun j => j.id).Nodup) (hn : ls.Nodup)
    (hidle : ∀ l ∈ ls, (s.lane l).state = .idle → (s.lane l).queue = []) (m : LaneId) :
    ((s.createJobs f p w ls).1.startLanes ls).lane m =
      ((ls.zip (s.createJobs f p w ls).2).lookup m).elim (s.lane m) fun id =>
        if (s.lane m).state = .idle then (s.lane m).starts id (w.firstAddress s.profiles[p])
        else { s.lane m with queue := (s.lane m).queue ++ [id] } := by
  have hready := s.createJobs_ready (f := f) (p := p) (w := w) hlast room hids hn hidle
  have hprofiles : (s.createJobs f p w ls).1.profiles = s.profiles :=
    State.createJobs_onlyChanges f p w ls s .profiles (by decide)
  have hlen := s.createJobs_length f p w ls
  rw [(hready.startLanes hn).1, State.createJobs_laneState hn, hprofiles, s.createJobs_lane f p w ls hn]
  generalize (s.createJobs f p w ls).2 = ids at hlen ⊢
  by_cases hm : m ∈ ls
  · obtain ⟨n, hl, rfl⟩ := List.getElem_of_mem hm
    have hi : n < ids.length := by omega
    rw [givenId_getElem hn hl hi, lookup_zip_getElem hn hl hi]
    by_cases hstate : (s.lane ls[n]).state = .idle
    · simp only [hm, hstate, and_self, if_true, Option.elim_some]
      rfl
    · simp only [hstate, and_false, if_false, Option.elim_some]
  · rw [if_neg fun h => hm h.1, lookup_zip_of_notMem hm]
    rfl

/-- The job table after a submission (R4, R13, R14). -/
theorem State.createJobs_startLanes_jobs (hlast : s.lastId ≤ 255)
    (room : s.jobs.length + ls.length ≤ 24) (hids : (s.jobs.map fun j => j.id).Nodup) (hn : ls.Nodup)
    (hidle : ∀ l ∈ ls, (s.lane l).state = .idle → (s.lane l).queue = []) :
    ((s.createJobs f p w ls).1.startLanes ls).jobs =
      s.jobs ++ List.zipWith (fun l id => (f.job id l p w).activeIf ((s.lane l).state = .idle)) ls
        (s.createJobs f p w ls).2 := by
  have hready := s.createJobs_ready (f := f) (p := p) (w := w) hlast room hids hn hidle
  have hlen := s.createJobs_length f p w ls
  have hjobs := s.createJobs_jobs f p w ls
  have hnodup := s.createJobs_nodup f p w ls hlast room hids
  have hmap : (List.zipWith (fun l id => f.job id l p w) ls (s.createJobs f p w ls).2).map (fun j => j.id) =
      (s.createJobs f p w ls).2 := by
    refine List.ext_getElem (by simp [hlen]) fun n _ _ => ?_
    rw [List.getElem_map, List.getElem_zipWith]
    rfl
  rw [(hready.startLanes hn).2, hjobs, List.map_append]
  rw [hjobs, List.map_append, hmap] at hnodup
  simp only [State.createJobs_laneState hn]
  generalize (s.createJobs f p w ls).2 = ids at hlen hnodup ⊢
  obtain ⟨-, hgiven, hapart⟩ := List.nodup_append.1 hnodup
  have hof : ∀ l ∈ ls, givenId ls ids l ∈ ids := fun l hl => by
    obtain ⟨n, hn', rfl⟩ := List.getElem_of_mem hl
    have hi : n < ids.length := by omega
    rw [givenId_getElem hn hn' hi]
    exact List.getElem_mem hi
  congr 1
  · refine (List.map_congr_left fun j hj => if_neg ?_).trans (List.map_id s.jobs)
    rintro ⟨l, hl, -, hid⟩
    exact hapart j.id (List.mem_map_of_mem hj) _ (hof l hl) hid
  · refine List.ext_getElem (by simp) fun n h1 h2 => ?_
    have hi : n < ids.length := by simp at h2; omega
    have hl : n < ls.length := by omega
    simp only [List.getElem_map, List.getElem_zipWith]
    have hiff : (∃ l ∈ ls, (s.lane l).state = .idle ∧ (f.job ids[n] ls[n] p w).id = givenId ls ids l) ↔
        (s.lane ls[n]).state = .idle := by
      constructor
      · rintro ⟨l, hmem, hstate, hid⟩
        obtain ⟨m, hm, rfl⟩ := List.getElem_of_mem hmem
        rw [givenId_getElem hn hm (by omega)] at hid
        obtain rfl := (List.Nodup.getElem_inj_iff hgiven).1 hid
        exact hstate
      · exact fun hstate => ⟨_, List.getElem_mem hl, hstate, (givenId_getElem hn hl hi).symm⟩
    simp only [Job.activeIf, hiff]

end

theorem eq_ofFn {α : Type} {n : Nat} {v : Vector α n} {g : Fin n → α} (h : ∀ i : Fin n, v[i] = g i) :
    v = Vector.ofFn g :=
  Vector.ext fun i hi => (h ⟨i, hi⟩).trans (Vector.getElem_ofFn hi).symm

/-- A state that differs from another in the jobs, the last identifier, the blocks and the lanes. -/
theorem State.eq_of_created {u r : State} {jobs : List Job} {last : Nat} {blocks : Vector Block 64}
    {lanes : Vector Lane 8} (frame : u.OnlyChanges r [.jobs, .lastId, .blocks, .lanes])
    (hjobs : r.jobs = jobs) (hlast : r.lastId = last) (hblocks : r.blocks = blocks)
    (hlanes : r.lanes = lanes) : r = (((u.setJobs jobs).setLastId last).setBlocks blocks).setLanes lanes := by
  refine State.eq_of_fields fun g => ?_
  by_cases hg : g ∈ [StateField.jobs, .lastId, .blocks, .lanes]
  · simp only [List.mem_cons, List.not_mem_nil, or_false] at hg
    rcases hg with rfl | rfl | rfl | rfl
    · exact hjobs
    · exact hlast
    · exact hblocks
    · exact hlanes
  · have hsame := frame g hg
    cases g <;> first | exact absurd (by decide) hg | exact hsame

end Sys2Proof.Machine

open Sys2Proof Sys2Proof.Machine

/-- Settles O34: the jobs are created lane by lane, and then the idle lanes start them. -/
theorem submitCreatesTheJobs : Obligations.SubmitCreatesTheJobs := by
  intro s t f i hs hf frame ls w h hlaw h1 h2 hi hv h4 hlist husable hfills hroom hqueues hidle
  obtain ⟨k, hk⟩ := h1.kind
  let u := s.heard.setTagEntry t (.inFlight frame.digest)
  have hn : ls.Nodup := lanesOf_nodup f.mask
  have hw : f.work hs k = w := by
    show _ = f.described hs
    unfold Submit.described
    rw [hk]
    cases k <;> rfl
  have hframe : u.OnlyChanges ((u.createJobs f i w ls).1.startLanes ls) [.jobs, .lastId, .blocks, .lanes] :=
    (State.createJobs_onlyChanges f i w ls u).trans
      ((State.startLanes_onlyChanges _ ls).mono (by decide))
  have hblocks : ((u.createJobs f i w ls).1.startLanes ls).blocks = (u.createJobs f i w ls).1.blocks :=
    State.startLanes_onlyChanges _ ls .blocks (by decide)
  have hlast : ((u.createJobs f i w ls).1.startLanes ls).lastId = (u.createJobs f i w ls).1.lastId :=
    State.startLanes_onlyChanges _ ls .lastId (by decide)
  refine ⟨(u.createJobs f i w ls).2, u.createJobs_length f i w ls,
    u.createJobs_ids f i w ls hlaw.lastId hroom, ?_⟩
  have hjobs := u.createJobs_startLanes_jobs (f := f) (p := i) (w := w) hlaw.lastId hroom hlaw.ids hn hidle
  have hlanes := u.createJobs_startLanes_lane (f := f) (p := i) (w := w) hlaw.lastId hroom hlaw.ids hn hidle
  refine h.exec_eq (w := (((s.heard.setJobs _).setLastId _).setBlocks _).setLanes _) rfl hf.length_le
    hf.lengthOk ?_ rfl rfl rfl
  rw [carryOut, takeJobSubmit_eq (s := u) hf hk h2 hi hv h4,
    State.blockCheck_usable (s := u) hk h2 hlist husable,
    show (hs.map fun h => (u.block h).fill) = hs.map fun h => (s.block h).fill from rfl, if_pos hfills]
  refine (if_neg (show ¬ 24 - s.jobs.length < ls.length by omega)).trans ((if_neg ?_).trans ?_)
  · rw [List.any_eq_true]
    rintro ⟨l, hl, hlong⟩
    exact absurd (hqueues l hl) (Nat.not_lt.2 (of_decide_eq_true hlong))
  · rw [hw]
    refine congrArg (Taken.replied _ _) ((State.eq_of_created hframe (hjobs.trans ?_)
      (hlast.trans (u.createJobs_lastId f i w ls)) (hblocks.trans (eq_ofFn (u.createJobs_block f i w ls)))
      (eq_ofFn fun m => (hlanes m).trans ?_)).trans rfl)
    · refine congrArg (s.jobs ++ ·) (congrArg (List.zipWith · ls _) (funext fun l => funext fun id => ?_))
      show (f.job id l i w).activeIf ((s.lane l).state = .idle) = _
      by_cases hstate : (s.lane l).state = .idle
      · simp only [Job.activeIf, hstate, if_true]; rfl
      · simp only [Job.activeIf, hstate, if_false]; rfl
    · cases hlook : (ls.zip (u.createJobs f i w ls).2).lookup m with
      | none => rfl
      | some id =>
        have hm : m ∈ ls := by
          by_contra hnot
          rw [lookup_zip_of_notMem hnot] at hlook
          cases hlook
        simp only [Option.elim_some]
        by_cases hstate : (s.lane m).state = .idle
        · rw [if_pos hstate, if_pos (show (u.lane m).state = .idle from hstate)]
          have hq : (s.lane m).queue = [] := hidle m hm hstate
          unfold Lane.starts
          rw [hq]
          rfl
        · rw [if_neg hstate, if_neg (show ¬ (u.lane m).state = .idle from hstate)]
          rfl
end

section
/-! PROOF. JOB-CANCEL (R20 to R24). -/

-- One proof after another: a thread for each of them would take too much memory.
set_option Elab.async false

namespace Sys2Proof.Machine

/-! ### The tag of the request in hand -/

section
variable {s w : State} {t : Fin 16} {e : TagEntry}

theorem State.retag (h : w.tags = (s.setTagEntry t e).tags) :
    w = (w.setTags s.tags).setTagEntry t e := by
  show w = w.setTags (s.setTagEntry t e).tags
  rw [← h]; rfl

theorem State.OnlyChanges.untag {fs : List StateField} (h : (s.setTagEntry t e).OnlyChanges w fs) :
    s.OnlyChanges (w.setTags s.tags) fs := by
  intro g hg
  have hsame := h g hg
  cases g
  case tags => rfl
  all_goals exact hsame

theorem State.JobBecomesFinal.untag {j : Job} {st : JobState} {reason : EndReason} {stopped : Bool}
    (h : (s.setTagEntry t e).JobBecomesFinal w j st reason stopped) :
    s.JobBecomesFinal (w.setTags s.tags) j st reason stopped := by
  obtain ⟨hjobs, hblocks, houtbox⟩ := h
  exact ⟨hjobs, hblocks.trans (State.dropRefs_blocks (s := s) (t := s.setTagEntry t e) rfl _), houtbox⟩

theorem State.CurrentJobEnds.onlyChanges {u : State} {l : LaneId} {j : Job} {st : JobState}
    {reason : EndReason} {stopped : Bool} (h : s.CurrentJobEnds u l j st reason stopped) :
    s.OnlyChanges u [.jobs, .blocks, .outbox, .lanes] := by
  obtain ⟨-, -, -, hframe⟩ := h
  exact hframe

theorem State.CurrentJobEnds.untag {l : LaneId} {j : Job} {st : JobState} {reason : EndReason}
    {stopped : Bool} (h : (s.setTagEntry t e).CurrentJobEnds w l j st reason stopped) :
    s.CurrentJobEnds (w.setTags s.tags) l j st reason stopped := by
  obtain ⟨hfinal, hlane, hothers, hframe⟩ := h
  exact ⟨hfinal.untag, hlane, hothers, hframe.untag⟩

theorem State.Grants.untag (h : (s.setTagEntry t e).Grants w) : s.Grants (w.setTags s.tags) := by
  obtain ⟨granted, hqueue, hup, hfree, hhead, hlanes, hframe⟩ := h
  exact ⟨granted, hqueue, hup, hfree, hhead, hlanes, hframe.untag⟩

theorem State.startHead_setTagEntry (l : LaneId) :
    (s.setTagEntry t e).startHead l = (s.startHead l).setTagEntry t e := by
  by_cases hidle : (s.lane l).state = .idle
  · cases hq : (s.lane l).queue with
    | nil => rw [State.startHead_of_nil hq, State.startHead_of_nil (s := s.setTagEntry t e) hq]
    | cons id rest =>
      cases hj : s.job? id with
      | none =>
        have hsame : ∀ u : State, (u.lane l).state = .idle → (u.lane l).queue = id :: rest →
            u.job? id = none → u.startHead l = u := fun u h1 h2 h3 => by
          unfold State.startHead
          simp only [h1, h2, h3]
        rw [hsame s hidle hq hj, hsame (s.setTagEntry t e) hidle hq hj]
      | some j => rw [State.startHead_eq hidle hq hj, State.startHead_eq (s := s.setTagEntry t e) hidle hq hj]; rfl
  · rw [State.startHead_of_ne hidle, State.startHead_of_ne (s := s.setTagEntry t e) hidle]

theorem State.interrupted_setTagEntry (l : LaneId) (j : Job) :
    (s.setTagEntry t e).interrupted l j = (s.interrupted l j).setTagEntry t e := by
  unfold State.interrupted
  by_cases hroom : s.faults.length < 64
  · simp only [show (s.setTagEntry t e).faults = s.faults from rfl, hroom, if_true]; rfl
  · simp only [show (s.setTagEntry t e).faults = s.faults from rfl, hroom, if_false]

end

/-- A grant test does not look at the tag of the request in hand. -/
theorem State.exists_grants (x : State) (t : Fin 16) (e : TagEntry) : ∃ v : State, x.Grants v ∧
    (x.setTagEntry t e).grantTest = v.setTagEntry t e ∧
    x.OnlyChanges v [.lanes, .freeUnits, .grantQueue] := by
  have hgrants := State.grants_grantTest (x.setTagEntry t e)
  have hframe := State.grantTest_onlyChanges (x.setTagEntry t e)
  exact ⟨_, hgrants.untag, State.retag (hframe .tags (by decide)), hframe.untag⟩

/-! ### What a cancel does, by the state of the job -/

section
variable {s : State} {b tag : Byte} {j : Job}

theorem takeJobCancel_final (hj : s.job? b.toNat = some j) (h : j.isFinal = true) :
    takeJobCancel s tag [b] = s.refuse .alreadyFinal := by
  unfold takeJobCancel
  rw [State.namedJob?_eq, hj]
  unfold Job.isFinal at h
  split at h <;> simp_all

theorem takeJobCancel_queued (hj : s.job? b.toNat = some j) (h : j.state = .queued) :
    takeJobCancel s tag [b] = .replied .ok [b] (s.cancelQueued j) := by
  unfold takeJobCancel
  rw [State.namedJob?_eq, hj]
  simp only [h, cancelled, State.byte_id hj]

theorem takeJobCancel_held (hj : s.job? b.toNat = some j) (h : j.state = .held) :
    takeJobCancel s tag [b] = .replied .ok [b] (s.cancelWaiting j) := by
  unfold takeJobCancel
  rw [State.namedJob?_eq, hj]
  simp only [h, cancelled, State.byte_id hj]

theorem takeJobCancel_active (hj : s.job? b.toNat = some j) (h : j.state = .active) {x : Lane}
    (hx : s.lane j.lane = x) : takeJobCancel s tag [b] =
      if x.unit.cycle.isSome = true then .deferred (s.deferCancel j tag)
      else if x.state = .pulsing then .replied .ok [b] (s.cancelPulsing j)
      else .replied .ok [b] (s.cancelWaiting j) := by
  subst hx
  unfold takeJobCancel
  rw [State.namedJob?_eq, hj]
  simp only [h, cancelled, State.byte_id hj, CycleUnit.inFlight]

theorem State.cancelWaiting_of_ne (h : (s.lane j.lane).state ≠ .pulseWait) :
    s.cancelWaiting j = s.finishJob j.id .cancelled .cancelled false true := by
  unfold State.cancelWaiting
  simp only [h, if_false]

theorem State.cancelWaiting_of_pulseWait (h : (s.lane j.lane).state = .pulseWait) :
    s.cancelWaiting j =
      (s.setGrantQueue (s.grantQueue.filter fun e => decide (e.lane ≠ j.lane))).grantTest.finishJob j.id
        .cancelled .cancelled false true := by
  have hfilter : (fun e : GrantEntry => e.lane != j.lane) = fun e => decide (e.lane ≠ j.lane) := by
    funext e; simp [bne, beq_eq_decide]
  unfold State.cancelWaiting
  simp only [h, if_true, hfilter]

theorem State.cancelPulsing_eq : s.cancelPulsing j =
    ((s.opened j.lane .none).grantTest.interrupted j.lane j).finishJob j.id .cancelled .cancelled false
      true := by
  unfold State.cancelPulsing
  rw [State.openSwitch_eq, State.recordInterrupted_eq]

theorem State.deferCancel_of_ne (h : (s.lane j.lane).slot ≠ .granted) : s.deferCancel j tag =
    (s.updLane j.lane fun x => { x with context := { x.context with
      mark := some (x.context.mark.getD [] ++ [tag]) } }).setDeferred
        (s.deferred ++ [{ tag := tag, job := j.id }]) := by
  unfold State.deferCancel
  simp only [h, if_false]
  rfl

theorem State.deferCancel_of_granted (h : (s.lane j.lane).slot = .granted) {u : State}
    (hu : (s.opened j.lane .cut).grantTest.interrupted j.lane j = u) : s.deferCancel j tag =
    (u.updLane j.lane fun x => { x with context := { x.context with
      mark := some (x.context.mark.getD [] ++ [tag]) } }).setDeferred
        (u.deferred ++ [{ tag := tag, job := j.id }]) := by
  subst hu
  unfold State.deferCancel
  rw [State.openSwitch_eq, State.recordInterrupted_eq, if_pos h]
  rfl

theorem State.job?_interrupted (l : LaneId) (hj : s.job? j.id = some j) :
    (s.interrupted l j).job? j.id = some { j with faultsRecorded :=
      if s.faults.length < 64 then j.faultsRecorded + 1 else j.faultsRecorded } := by
  unfold State.interrupted
  by_cases hroom : s.faults.length < 64
  · simp only [hroom, if_true]
    exact State.job?_updJob_self (s := s.setFaults _) hj
      (fun q => { q with faultsRecorded := q.faultsRecorded + 1 }) fun _ => rfl
  · simpa only [hroom, if_false] using hj

end

/-! ### A cancel as a request -/

theorem Outbox.endStall_freeGeneral (o : Outbox) : o.endStall.freeGeneral = o.freeGeneral := by
  have hgeneral : o.endStall.general = o.general := by
    unfold Outbox.endStall Outbox.general
    split
    · rw [List.countP_map]
      exact List.countP_congr fun r _ => by rw [Function.comp, Report.markIfTransmitted_isSupply]
    · rfl
  rw [Outbox.freeGeneral, hgeneral, Outbox.endStall_length, Outbox.freeGeneral]

theorem State.transmitEither_eq_transmit {s : State} (h : s.tx = .idle → s.replyQueue = []) :
    s.transmitEither = s.transmit := by
  by_cases hidle : s.tx = .idle
  · unfold State.transmitEither State.transmit
    rw [hidle, State.takeReply?_nil (h hidle)]
    cases s.takeReport? <;> rfl
  · rw [State.transmit_of_busy hidle]
    exact State.transmitEither_settled (.inl hidle)

/-- A request whose reply is deferred: what it has made ready may be taken. -/
theorem State.Takes.exec_deferred {s v : State} {t : Fin 16} {r : Request} {p : List Byte} {c : Instr}
    (h : s.Takes t (requestFrame r t p)) (hc : c.frame? = some (requestFrame r t p)) (hp : p.length ≤ 260)
    (hl : r.lengthOk p = true)
    (hj : carryOut r t (byte t.val) (requestFrame r t p).digest p
      (s.heard.setTagEntry t (.inFlight (requestFrame r t p).digest)) = .deferred v)
    (htx : v.tx = s.tx) (hq : v.replyQueue = s.replyQueue) : exec c s = .next v.transmit := by
  have hjudge : judgeRequest t (requestFrame r t p)
      (s.heard.setTagEntry t (.inFlight (requestFrame r t p).digest)) = .deferred v := by
    rw [judgeRequest_requestFrame, if_pos hl]; exact hj
  have htake : s.heard.takeRequest t (requestFrame r t p) = v := by rw [State.takeRequest, hjudge]
  have hdispatch : s.heard.dispatch (requestFrame r t p) = v :=
    (State.Takes.dispatch (s := s.lineHigh) h rfl).trans htake
  have hempty : v.tx = .idle → v.replyQueue = [] := fun hidle => by
    rcases h.1.2 with hn | ⟨hnil, -⟩
    · exact absurd (htx.symm.trans hidle) hn
    · exact hq.trans hnil
  rw [exec_frame_of_ready hc h.1 hp]
  refine congrArg Host.Outcome.next ?_
  show (if _ then (s.heard.dispatch (requestFrame r t p)).transmit
    else (s.heard.dispatch (requestFrame r t p)).transmitEither) = _
  rw [hdispatch, State.transmitEither_eq_transmit hempty, ite_self]

/-- A cancel that ends the lane's current job at once: `v` is what the lane has let go of before. -/
theorem State.Takes.exec_cancelCurrent {s v : State} {t : Fin 16} {b : Byte} {j q : Job}
    (h : s.Takes t (requestFrame .jobCancel t [b])) (hq : v.job? j.id = some q) (hlane : q.lane = j.lane)
    (hid : q.id = j.id) (htx : v.tx = s.tx) (hreplies : v.replyQueue = s.replyQueue)
    (hj : takeJobCancel (s.heard.setTagEntry t (.inFlight (requestFrame .jobCancel t [b]).digest))
        (byte t.val) [b] =
      .replied .ok [b] ((v.setTagEntry t (.inFlight (requestFrame .jobCancel t [b]).digest)).finishJob j.id
        .cancelled .cancelled false true)) :
    ∃ (w : State) (reportFirst : Bool), v.CurrentJobEnds w j.lane q .cancelled .cancelled false ∧
      exec (.jobCancel (byte t.val) [b]) s = .next ((w.startHead j.lane).answeredBeside s.outbox.stalled
        reportFirst t (requestFrame .jobCancel t [b]) .ok [b]) := by
  obtain ⟨w, hends, heq⟩ := State.finishJob_current
    (s := v.setTagEntry t (.inFlight (requestFrame .jobCancel t [b]).digest)) (j := q) (hid ▸ hq) hlane
    .cancelled .cancelled false
  have hframe := hends.onlyChanges
  have hw : w = (w.setTags v.tags).setTagEntry t _ := State.retag (hframe .tags (by decide))
  have hkept : v.OnlyChanges ((w.setTags v.tags).startHead j.lane) [.jobs, .blocks, .outbox, .lanes] :=
    hframe.untag.trans ((State.startHead_onlyChanges _ _).mono (by decide))
  refine ⟨w.setTags v.tags, _, hends.untag, h.exec_beside rfl (by simp) rfl (by decide) ?_
    (Eq.trans (hkept .tx (by decide)) htx) (Eq.trans (hkept .replyQueue (by decide)) hreplies)⟩
  rw [carryOut, hj, ← hid, heq, ← State.startHead_setTagEntry, ← hw]

end Sys2Proof.Machine

open Sys2Proof Sys2Proof.Machine

/-- Settles O37: a QUEUED job ends out of its queue. -/
theorem cancelOfAQueuedJob : Obligations.CancelOfAQueuedJob := by
  intro s t b j f h hj
  refine ⟨fun hfinal => h.exec_unchanged rfl (by simp) rfl fun d =>
    takeJobCancel_final (s := s.heard.setTagEntry t _) hj hfinal, fun hqueued => ?_⟩
  have hid : (s.heard.setTagEntry t (.inFlight f.digest)).job? j.id = some j := by
    rw [(State.job?_some hj).1]; exact hj
  obtain ⟨hfinal, hlane, hothers, hframe⟩ := State.cancelQueued_withdrawn hid
  have hw := State.retag (hframe .tags (by decide))
  refine ⟨(State.cancelQueued _ j).setTags s.tags, _, hfinal.untag, hlane.trans ?_, hothers, hframe.untag,
    h.exec_beside rfl (by simp) rfl (by decide) ?_ (hframe .tx (by decide)) (hframe .replyQueue (by decide))⟩
  · have hfilter : (fun id => id != j.id) = fun id => decide (id ≠ j.id) := by
      funext id; simp [bne, beq_eq_decide]
    rw [hfilter]
    show ({ s.lane j.lane with
      queue := _, waitingEnds := if 0 < s.outbox.endStall.freeGeneral then _ else _ } : Lane) = _
    rw [Outbox.endStall_freeGeneral]
    rfl
  · rw [carryOut, takeJobCancel_queued (s := s.heard.setTagEntry t _) hj hqueued]
    exact congrArg (Taken.replied _ _) hw

/-- Settles O38, by the state of the lane. -/
theorem cancelEndsTheCurrentJob : Obligations.CancelEndsTheCurrentJob := by
  refine ⟨fun s t b j => ?_, fun s t b j => ?_, fun s t b j => ?_⟩
  · intro f h hj hstate
    have hid : s.heard.job? j.id = some j := by rw [(State.job?_some hj).1]; exact hj
    have hne : (s.lane j.lane).state ≠ .pulseWait := by
      rcases hstate with ⟨-, hl⟩ | ⟨-, hl, -⟩ <;> rw [hl] <;> simp
    refine h.exec_cancelCurrent hid rfl rfl rfl rfl ?_
    rw [← State.cancelWaiting_of_ne (s := s.heard.setTagEntry t _) hne]
    rcases hstate with ⟨hheld, -⟩ | ⟨hactive, hrunning, hnone⟩
    · exact takeJobCancel_held (s := s.heard.setTagEntry t _) hj hheld
    · rw [takeJobCancel_active (s := s.heard.setTagEntry t _) hj hactive (x := s.lane j.lane) rfl, hnone,
        hrunning]
      rfl
  · intro f h hj hactive hwait hnone
    have hid : s.heard.job? j.id = some j := by rw [(State.job?_some hj).1]; exact hj
    let x := s.heard.setGrantQueue (s.grantQueue.filter fun e => decide (e.lane ≠ j.lane))
    obtain ⟨v, hgrants, hw, hframe⟩ := x.exists_grants t (.inFlight f.digest)
    obtain ⟨w, reportFirst, hends, hexec⟩ := h.exec_cancelCurrent (v := v) (j := j) (q := j)
      ((State.job?_of_jobs (hframe .jobs (by decide)) j.id).trans hid) rfl rfl (hframe .tx (by decide))
      (hframe .replyQueue (by decide)) (by
        rw [← hw, takeJobCancel_active (s := s.heard.setTagEntry t _) hj hactive (x := s.lane j.lane) rfl,
          hnone, hwait, State.cancelWaiting_of_pulseWait (s := s.heard.setTagEntry t _) hwait]
        rfl)
    exact ⟨v, w, reportFirst, hgrants, hends, hexec⟩
  · intro f h hj hactive hpulsing htiming hnone
    have hid : s.heard.job? j.id = some j := by rw [(State.job?_some hj).1]; exact hj
    let x := s.heard.opened j.lane .none
    obtain ⟨v, hgrants, hw, hframe⟩ := x.exists_grants t (.inFlight f.digest)
    have hcut := State.interrupted_onlyChanges v j.lane j
    have hfaults : v.faults = s.faults := hframe .faults (by decide)
    obtain ⟨w, reportFirst, hends, hexec⟩ := h.exec_cancelCurrent (j := j)
      (v := v.interrupted j.lane j)
      (State.job?_interrupted (s := v) j.lane
        ((State.job?_of_jobs (hframe .jobs (by decide)) j.id).trans hid)) rfl rfl
      (Eq.trans (hcut .tx (by decide)) (hframe .tx (by decide)))
      (Eq.trans (hcut .replyQueue (by decide)) (hframe .replyQueue (by decide))) (by
        rw [← State.interrupted_setTagEntry, ← hw,
          takeJobCancel_active (s := s.heard.setTagEntry t _) hj hactive (x := s.lane j.lane) rfl,
          hnone, hpulsing, State.cancelPulsing_eq]
        rfl)
    rw [hfaults] at hends
    exact ⟨v, w, reportFirst, hgrants, hends, hexec⟩

/-- Settles O39: the reply waits for the end of the cycle. -/
theorem cancelWithACycleInFlightIsDeferred : Obligations.CancelWithACycleInFlightIsDeferred := by
  intro s t b j f marked h hj hactive hcycle
  have htake := takeJobCancel_active (s := s.heard.setTagEntry t (.inFlight f.digest)) (tag := byte t.val)
    hj hactive (x := s.lane j.lane) rfl
  rw [if_pos hcycle] at htake
  refine ⟨fun hslot => ?_, fun hslot => ?_⟩
  · rw [State.deferCancel_of_ne (s := s.heard.setTagEntry t _) hslot] at htake
    exact h.exec_deferred rfl (by simp) rfl htake rfl rfl
  · let x := s.heard.opened j.lane .cut
    obtain ⟨v, hgrants, hw, hframe⟩ := x.exists_grants t (.inFlight f.digest)
    have hcut := State.interrupted_onlyChanges v j.lane j
    have htx : (v.interrupted j.lane j).tx = s.tx := Eq.trans (hcut .tx (by decide)) (hframe .tx (by decide))
    have hreplies : (v.interrupted j.lane j).replyQueue = s.replyQueue :=
      Eq.trans (hcut .replyQueue (by decide)) (hframe .replyQueue (by decide))
    have hdeferred : (v.interrupted j.lane j).deferred = s.deferred :=
      Eq.trans (hcut .deferred (by decide)) (hframe .deferred (by decide))
    refine ⟨v, hgrants, ?_⟩
    rw [State.deferCancel_of_granted (s := s.heard.setTagEntry t _) hslot
      (u := (v.interrupted j.lane j).setTagEntry t (.inFlight f.digest)) (by
        rw [← State.interrupted_setTagEntry, ← hw]; rfl)] at htake
    have hexec := h.exec_deferred (c := .jobCancel (byte t.val) [b]) rfl (by simp) rfl htake
      htx hreplies
    rw [show ((v.interrupted j.lane j).setTagEntry t (.inFlight f.digest)).deferred = s.deferred from
      hdeferred] at hexec
    exact hexec
end

section
/-! PROOF. SUPPLY-RESUME, the rise of PSUP_OK and the end of a pulse (R44, R72, R81, R89, R91, R93). -/

-- One proof after another: a thread for each of them would take too much memory.
set_option Elab.async false

namespace Sys2Proof.Machine

/-! ### One lane resumes -/

/-- Whether a lane that resumes asks for its first erase pulse (R93). -/
abbrev Lane.Asks (x : Lane) : Prop := x.context.phase = some .erase ∧ x.context.eraseCount = 0

/-- What a resume makes of a HELD lane (R44, R72, R93). -/
def Lane.resumed (x : Lane) : Lane :=
  if x.context.phase ≠ some .erase then
    { x with
      state := .running
      unit := x.unit.handOver (.new .marginP x.context.address 0 false) }
  else if x.context.eraseCount = 0 then { x with state := .pulseWait }
  else { x with
    state := .running
    context := { x.context with address := x.context.watermark }
    unit := x.unit.handOver (.new .marginE x.context.watermark 0 false) }

/-- The entry of a lane's erase request (R62). -/
def State.eraseEntry? (s : State) (l : LaneId) : Option GrantEntry :=
  (s.currentJob? l).map fun j => {
    lane := l
    cost := s.profiles[j.profile].eraseCost
    width := s.profiles[j.profile].eraseWidth * 1000 }

theorem State.resumeLane_eq {s : State} {l : LaneId} {j : Job} (h : s.currentJob? l = some j)
    (hup : s.supply.state = .up) :
    s.resumeLane l =
      ((s.updLane l Lane.resumed).setJobs (j.changedIn s.jobs fun q => { q with state := .active })).setGrantQueue
        (s.grantQueue ++ if (s.lane l).Asks then (s.eraseEntry? l).toList else []) := by
  let s₁ := (s.updLane l fun x => { x with state := .running }).setJobs
    (j.changedIn s.jobs fun q => { q with state := .active })
  have hrunning : (s.setLaneState l .running).updCurrentJob l (fun q => { q with state := .active }) = s₁ :=
    State.updCurrentJob_eq (s := s.setLaneState l .running) (State.currentJob?_of_updLane h) _
  have hjob : s₁.currentJob? l = some { j with state := .active } :=
    State.currentJob?_changed (s := s.updLane l fun x => { x with state := .running })
      (State.currentJob?_of_updLane h) (fun q => { q with state := .active }) fun _ => rfl
  have hlane : s₁.lane l = { s.lane l with state := .running } := by
    rw [State.lane_setJobs, State.lane_updLane_self]
  have hagain : ∀ g : Lane → Lane, s₁.updLane l g = (s.updLane l fun x =>
      g { x with state := .running }).setJobs (j.changedIn s.jobs fun q => { q with state := .active }) :=
    fun g => congrArg (State.setJobs · _) (s.updLane_updLane l _ g)
  unfold State.resumeLane
  simp only [hrunning]
  by_cases hphase : (s.lane l).context.phase = some .erase
  · have hsort : (s.lane l).context.pulseSort = .erase := (Context.pulseSort_eq_erase _).2 hphase
    simp only [hsort]
    by_cases hcount : (s.lane l).context.eraseCount = 0
    · have hasks : (s.lane l).Asks := ⟨hphase, hcount⟩
      have hentry : grantEntry l (s₁.profileOf { j with state := .active }) (s₁.lane l).context =
          { lane := l, cost := s.profiles[j.profile].eraseCost
            width := s.profiles[j.profile].eraseWidth * 1000 } := by
        rw [hlane, grantEntry, hsort]; rfl
      have hlist : (s.eraseEntry? l).toList = [{ lane := l, cost := s.profiles[j.profile].eraseCost
                                                 width := s.profiles[j.profile].eraseWidth * 1000 }] := by
        rw [State.eraseEntry?, h]; rfl
      rw [if_pos hcount, if_pos hasks, hlist, State.joinGrantQueue, hjob]
      simp only [show s₁.supply.state = .up from hup, if_true, hentry]
      unfold State.setLaneState
      have hself : (s.lane l).resumed = { s.lane l with state := .pulseWait } := by
        rw [Lane.resumed, if_neg (not_not.2 hphase), if_pos hcount]
      rw [State.updLane_congr (f := Lane.resumed) (g := fun x => { x with state := .pulseWait }) hself]
      show (((s.updLane l fun x => { x with state := .running }).updLane l fun x =>
        { x with state := .pulseWait }).setJobs _).setGrantQueue _ = _
      rw [State.updLane_updLane]
      rfl
    · rw [if_neg hcount, if_neg fun ha : (s.lane l).Asks => hcount ha.2, List.append_nil]
      unfold State.sweep State.updContext State.sendAtAddress
      have hself : (s.lane l).resumed = { s.lane l with
          state := .running
          context := { (s.lane l).context with address := (s.lane l).context.watermark }
          unit := (s.lane l).unit.handOver (.new .marginE (s.lane l).context.watermark 0 false) } := by
        rw [Lane.resumed, if_neg (not_not.2 hphase), if_neg hcount]
      rw [State.sendCycle_eq, State.updLane_updLane, hagain, State.lane_updLane_self, hlane,
        State.updLane_congr (f := Lane.resumed) (g := fun x => { x with
          state := .running
          context := { x.context with address := x.context.watermark }
          unit := x.unit.handOver (.new .marginE x.context.watermark 0 false) }) hself]
      rfl
  · have hsort : (s.lane l).context.pulseSort = .program := by
      unfold Context.pulseSort; split <;> simp_all
    simp only [hsort]
    rw [if_neg (fun ha : (s.lane l).Asks => hphase ha.1), List.append_nil]
    unfold State.sendAtAddress
    rw [State.sendCycle_eq, hagain, hlane]
    have hself : (s.lane l).resumed = { s.lane l with
        state := .running
        unit := (s.lane l).unit.handOver (.new .marginP (s.lane l).context.address 0 false) } :=
      if_pos hphase
    rw [State.updLane_congr (f := Lane.resumed) (g := fun x => { x with
      state := .running
      unit := x.unit.handOver (.new .marginP x.context.address 0 false) }) hself]
    rfl

/-! ### A run of lanes -/

/-- `t` is `s` after the lanes of `ls` have resumed: their records and jobs, and the entries they asked for. -/
structure State.ResumedOn (s t : State) (ls : List LaneId) : Prop where
  lanes : ∀ m, t.lane m = if m ∈ ls then (s.lane m).resumed else s.lane m
  jobs : t.jobs = s.jobs.map fun j => j.activeIf (∃ l ∈ ls, (s.lane l).current = some j.id)
  queue : t.grantQueue =
    s.grantQueue ++ (ls.filter fun l => decide (s.lane l).Asks).filterMap s.eraseEntry?

theorem Job.activeIf_congr {j : Job} {c d : Prop} [Decidable c] [Decidable d] (h : c ↔ d) :
    j.activeIf c = j.activeIf d := if_congr h rfl rfl

section
variable {s : State} {l : LaneId} {j : Job} (hj : s.currentJob? l = some j) (hup : s.supply.state = .up)
include hj hup

theorem State.lane_resumeLane (m : LaneId) :
    (s.resumeLane l).lane m = if l = m then (s.lane m).resumed else s.lane m := by
  rw [State.resumeLane_eq hj hup, State.lane_setGrantQueue, State.lane_setJobs, State.lane_updLane]
  by_cases hm : l = m
  · subst hm; rfl
  · rw [if_neg hm, if_neg hm]

theorem State.resumeLane_jobs :
    (s.resumeLane l).jobs = s.jobs.map fun q => q.activeIf ((s.lane l).current = some q.id) := by
  rw [State.resumeLane_eq hj hup]
  refine List.map_congr_left fun q _ => Job.activeIf_congr (j := q) ?_
  rw [(State.currentJob?_some hj).1, Option.some.injEq, eq_comm]

theorem State.currentJob?_resumeLane {m : LaneId} (hm : l ≠ m) : (s.resumeLane l).currentJob? m =
    (s.currentJob? m).map fun q => q.activeIf ((s.lane l).current = some q.id) := by
  unfold State.currentJob?
  rw [State.lane_resumeLane hj hup, if_neg hm, Option.map_bind]
  exact congrArg (Option.bind _)
    (funext fun id => State.job?_map (fun q => q.activeIf_id _) (State.resumeLane_jobs hj hup) id)

theorem State.eraseEntry?_resumeLane {m : LaneId} (hm : l ≠ m) :
    (s.resumeLane l).eraseEntry? m = s.eraseEntry? m := by
  have hprofiles : (s.resumeLane l).profiles = s.profiles :=
    State.resumeLane_onlyChanges s l .profiles (by decide)
  unfold State.eraseEntry?
  rw [State.currentJob?_resumeLane hj hup hm, hprofiles, Option.map_map]
  refine congrArg (Option.map · _) (funext fun q => ?_)
  simp only [Function.comp, Job.activeIf_profile]

end

/-- What one lane does and then the lanes behind it, all of them do. -/
theorem State.ResumedOn.cons {s t : State} {l : LaneId} {ls : List LaneId} {j : Job} (hl : l ∉ ls)
    (hj : s.currentJob? l = some j) (hup : s.supply.state = .up) (ht : (s.resumeLane l).ResumedOn t ls) :
    s.ResumedOn t (l :: ls) := by
  obtain ⟨hlanes, hjobs, hqueue⟩ := ht
  have hlane := State.lane_resumeLane hj hup
  have hne : ∀ m ∈ ls, l ≠ m := fun m hm => (ne_of_mem_of_not_mem hm hl).symm
  have hother : ∀ m ∈ ls, (s.resumeLane l).lane m = s.lane m := fun m hm => by
    rw [hlane, if_neg (hne m hm)]
  constructor
  case lanes =>
    intro m
    rw [hlanes, hlane]
    by_cases hm : l = m
    · subst hm; simp [hl]
    · simp [hm, Ne.symm hm]
  case jobs =>
    rw [hjobs, State.resumeLane_jobs hj hup, List.map_map]
    refine List.map_congr_left fun q _ => ?_
    rw [Function.comp, Job.activeIf_activeIf]
    refine Job.activeIf_congr ?_
    rw [Job.activeIf_id, List.exists_mem_cons_iff]
    exact or_congr_right (exists_congr fun m => and_congr_right fun hm => by rw [hother m hm])
  case queue =>
    have hasks : (ls.filter fun m => decide ((s.resumeLane l).lane m).Asks) =
        ls.filter fun m => decide (s.lane m).Asks :=
      List.filter_congr fun m hm => by rw [hother m hm]
    have hentries : (ls.filter fun m => decide (s.lane m).Asks).filterMap (s.resumeLane l).eraseEntry? =
        (ls.filter fun m => decide (s.lane m).Asks).filterMap s.eraseEntry? := by
      exact List.filterMap_congr fun m hm =>
        State.eraseEntry?_resumeLane hj hup (hne m (List.mem_of_mem_filter hm))
    rw [hqueue, hasks, hentries, State.resumeLane_eq hj hup, State.setGrantQueue_grantQueue, List.append_assoc]
    refine congrArg (s.grantQueue ++ ·) ?_
    by_cases ha : (s.lane l).Asks
    · rw [if_pos ha, List.filter_cons_of_pos (p := fun l => decide (s.lane l).Asks) (decide_eq_true ha), List.filterMap_cons]
      cases s.eraseEntry? l <;> rfl
    · rw [if_neg ha, List.filter_cons_of_neg (p := fun l => decide (s.lane l).Asks) (by simpa using ha), List.nil_append]

theorem State.resumeLanes_resumedOn {ls : List LaneId} (hn : ls.Nodup) (s : State)
    (hup : s.supply.state = .up) (h : ∀ l ∈ ls, (s.currentJob? l).isSome = true) :
    s.ResumedOn (s.resumeLanes ls) ls := by
  induction ls generalizing s with
  | nil => exact ⟨fun m => by simp [State.resumeLanes], by simp [State.resumeLanes, Job.activeIf],
      (List.append_nil _).symm⟩
  | cons l ls ih =>
    obtain ⟨hl, hls⟩ := List.nodup_cons.1 hn
    obtain ⟨j, hj⟩ := Option.isSome_iff_exists.1 (h l List.mem_cons_self)
    refine .cons hl hj hup (ih hls _ ?_ fun m hm => ?_)
    · rw [show (s.resumeLane l).supply = s.supply from State.resumeLane_onlyChanges s l .supply (by decide)]
      exact hup
    · rw [State.currentJob?_resumeLane hj hup (ne_of_mem_of_not_mem hm hl).symm, Option.isSome_map]
      exact h m (List.mem_cons_of_mem l hm)

theorem State.Grants.setTags {s t : State} (h : s.Grants t) (v : Vector TagEntry 16) :
    (s.setTags v).Grants (t.setTags v) := by
  obtain ⟨granted, hqueue, hup, hfree, hhead, hlanes, hframe⟩ := h
  refine ⟨granted, hqueue, hup, hfree, hhead, hlanes, fun g hg => ?_⟩
  have hsame := hframe g hg
  cases g
  case tags => rfl
  all_goals exact hsame

/-! ### The mask of the reply -/

theorem getLsbD_laneBit (l m : LaneId) : ((1#8) <<< l.val).getLsbD m.val = decide (m = l) := by
  revert l m; decide

theorem getLsbD_foldl_laneMask (ls : List LaneId) (b : Byte) (m : LaneId) :
    (ls.foldl (fun mask l => mask ||| (1#8) <<< l.val) b).getLsbD m.val =
      (b.getLsbD m.val || decide (m ∈ ls)) := by
  induction ls generalizing b with
  | nil => simp
  | cons l ls ih =>
    rw [List.foldl_cons, ih, BitVec.getLsbD_or, getLsbD_laneBit, Bool.or_assoc]
    simp

theorem getLsbD_laneMask (ls : List LaneId) (m : LaneId) :
    (laneMask ls).getLsbD m.val = decide (m ∈ ls) := by
  rw [laneMask, getLsbD_foldl_laneMask]
  simp

theorem State.mem_heldLanes {s : State} {l : LaneId} : l ∈ s.heldLanes ↔ (s.lane l).state = .held := by
  simp [State.heldLanes, State.isHeld]

end Sys2Proof.Machine

open Sys2Proof Sys2Proof.Machine

/-- Settles O45: a rise offers a notice and nothing else. -/
theorem riseRestoresTheSupply : Obligations.RiseRestoresTheSupply := by
  intro s h hdown
  rw [exec_psupOkRise_of_ready h, State.psupRiseTaken]
  have hstate : (s.setPsupOk true).supply.state = .down := hdown
  rw [hstate]
  rfl

/-- Settles O46: the pulse ends, and its units go to the head of the queue. -/
theorem pulseTimerEnds : Obligations.PulseTimerEnds := by
  intro s l h
  rw [exec_pulseTimerExpiry_of_ready h]
  refine ⟨fun hne => by rw [if_neg hne], fun htiming => ?_⟩
  rw [if_pos htiming]
  exact ⟨_, State.grants_grantTest _, rfl⟩

/-- Settles O43: the HELD lanes resume in lane order, and then the Arbiter grants. -/
theorem supplyResumeResumesHeldLanes : Obligations.SupplyResumeResumesHeldLanes := by
  intro s t f go h
  refine ⟨fun hdown => h.exec_unchanged rfl (by simp) rfl fun d => ?_,
    fun hup => h.exec_unchanged rfl (by simp) rfl fun d => ?_, fun hrestored hjobs => ?_⟩
  · have hstate : (s.heard.setTagEntry t (.inFlight d)).supply.state = .down := hdown
    rw [carryOut, takeSupplyResume, hstate]; rfl
  · have hstate : (s.heard.setTagEntry t (.inFlight d)).supply.state = .up := hup
    rw [carryOut, takeSupplyResume, hstate]; rfl
  · let u := (s.heard.setTagEntry t (.inFlight f.digest)).setSupplyState .up
    obtain ⟨hlanes, hmarked, hqueue⟩ := State.resumeLanes_resumedOn (ls := s.heldLanes)
      ((List.nodup_finRange 8).filter _) u rfl fun l hl => hjobs l (State.mem_heldLanes.1 hl)
    have hframe := (State.setSupply_onlyChanges (s.heard.setTagEntry t (.inFlight f.digest))
      { s.supply with state := .up }).mono (gs := [.supply, .lanes, .jobs, .grantQueue]) (by decide)
    have hresumed := hframe.trans ((State.resumeLanes_onlyChanges u s.heldLanes).mono (by decide))
    have hgrants := State.grants_grantTest (u.resumeLanes s.heldLanes)
    have hfinal := hresumed.mono (gs := [.supply, .lanes, .jobs, .grantQueue, .freeUnits]) (by decide) |>.trans
      ((State.grantTest_onlyChanges (u.resumeLanes s.heldLanes)).mono (by decide))
    have hv := State.retag (hfinal .tags (by decide))
    refine ⟨(u.resumeLanes s.heldLanes).setTags s.tags, (u.resumeLanes s.heldLanes).grantTest.setTags s.tags,
      laneMask s.heldLanes, h.exec_eq rfl (by simp) rfl ?_ (hfinal .tx (by decide))
        (hfinal .replyQueue (by decide)) (hfinal .outbox (by decide)), fun l => ?_,
      State.resumeLanes_onlyChanges u s.heldLanes .supply (by decide), hmarked.trans ?_, hqueue.trans ?_,
      fun l hl => ?_, fun l hl => ?_, hresumed.untag, hgrants.setTags s.tags⟩
    · have hstate : (s.heard.setTagEntry t (.inFlight f.digest)).supply.state = .restored := hrestored
      rw [carryOut, takeSupplyResume, hstate]
      exact congrArg (Taken.replied _ _) hv
    · rw [getLsbD_laneMask]
      exact decide_eq_decide.2 State.mem_heldLanes
    · refine List.map_congr_left fun q _ => Job.activeIf_congr (j := q) (exists_congr fun l => ?_)
      rw [State.mem_heldLanes]; rfl
    · refine congrArg (fun ls => s.grantQueue ++ List.filterMap s.eraseEntry? ls) ?_
      rw [State.heldLanes, List.filter_filter]
      refine List.filter_congr fun l _ => ?_
      rw [State.isHeld, beq_eq_decide, ← Bool.decide_and]
      exact decide_eq_decide.2 and_comm
    · refine (hlanes l).trans (if_neg fun hm => hl (State.mem_heldLanes.1 hm))
    · exact (hlanes l).trans (if_pos (State.mem_heldLanes.2 hl))
end

section
/-! PROOF. The Lane Cycle Unit: hand-over, gap, answer slots, silence, and the start of a pulse (R42, R63, R80,
R98 to R109). -/

-- One proof after another: a thread for each of them would take too much memory.
set_option Elab.async false

namespace Sys2Proof.Machine

/-! ### Hand-over, gap and sent moment -/

theorem CycleUnit.handOver_eq (u : CycleUnit) (c : Cycle) : u.handOver c =
    if u.gapPassed then { state := .sending, cycle := some c, gapPassed := false }
    else { state := u.state, cycle := some c, gapPassed := false } := by
  unfold CycleUnit.handOver
  by_cases h : u.gapPassed = true
  · rw [if_pos h, if_pos h]
  · have hfalse : u.gapPassed = false := by simpa using h
    rw [if_neg h, if_neg h, ← hfalse]

theorem CycleUnit.gapEnded_idle {u : CycleUnit} (h : u.state = .idle) : u.gapEnded =
    if u.cycle.isSome then { u with state := .sending, gapPassed := false }
    else { u with gapPassed := true } := by
  unfold CycleUnit.gapEnded
  rw [h]
  cases u.cycle <;> rfl

theorem CycleUnit.gapEnded_busy {u : CycleUnit} (h : u.state ≠ .idle) : u.gapEnded = u := by
  unfold CycleUnit.gapEnded
  split <;> simp_all

theorem CycleUnit.sent_sending {u : CycleUnit} {c : Cycle} (h : u.state = .sending)
    (hc : u.cycle = some c) (moment : Nat) : u.sent moment =
      { u with state := .answering, cycle := some { c with sentMoment := moment, windowEnd := moment + 50 } } := by
  unfold CycleUnit.sent
  rw [h, hc]

theorem CycleUnit.sent_of_ne {u : CycleUnit} (h : u.state ≠ .sending) (moment : Nat) :
    u.sent moment = u := by
  unfold CycleUnit.sent
  split <;> simp_all

theorem State.updLane_self {s : State} {l : LaneId} {f : Lane → Lane} (h : f (s.lane l) = s.lane l) :
    s.updLane l f = s := by
  unfold State.updLane
  rw [h]
  show s.setLanes (s.lanes.set l (s.lanes[l])) = s
  rw [Fin.getElem_fin, Vector.set_getElem_self]
  rfl

theorem Lane.ldaBytes_sending {x : Lane} {c : Cycle} (h : x.unit.state = .sending)
    (hc : x.unit.cycle = some c) : x.ldaBytes = c.bytes := by
  unfold Lane.ldaBytes
  rw [h, hc]

theorem Lane.ldaBytes_of_ne {x : Lane} (h : x.unit.state ≠ .sending) : x.ldaBytes = [] := by
  unfold Lane.ldaBytes
  split <;> simp_all

theorem State.lane_answered (s : State) (t : Fin 16) (f : Frame) (code : Result) (fields : List Byte)
    (l : LaneId) : (s.answered t f code fields).lane l = s.lane l := by
  unfold State.answered State.sends State.placeReply
  split
  · rfl
  all_goals split <;> rfl

/-! ### Answer slots -/

section
variable {c : Cycle} {b : Byte}

/-- The last data byte ends the cycle (R106). -/
theorem Cycle.slot_lastData (hr : c.ready = true) (hn : c.dataBytes.length + 1 = c.kind.dataSlots) :
    c.slot b = .ends .ready (c.dataBytes ++ [b]) := by
  unfold Cycle.slot
  rw [if_pos hr]
  refine if_neg ?_
  rw [List.length_append, List.length_singleton]
  omega

/-- A data byte before the last (R106). -/
theorem Cycle.slot_data (hr : c.ready = true) (hn : c.dataBytes.length + 1 < c.kind.dataSlots) :
    c.slot b = .goesOn { c with dataBytes := c.dataBytes ++ [b] } := by
  unfold Cycle.slot
  rw [if_pos hr]
  refine if_pos ?_
  rwa [List.length_append, List.length_singleton]

/-- The end of the next answer slot (R102). -/
def Cycle.now (c : Cycle) : Nat := c.sentMoment + 2 * (c.slots + 1)

/-- An answer slot that the engine begins is judged by its byte. -/
theorem Cycle.slot_open (h : c.SlotOpen) : c.slot b =
    if b = 0xFF then
      if c.now < c.windowEnd then .goesOn { c with slots := c.slots + 1 } else .ends c.silentOutcome []
    else if b = 0x3C then
      if c.kind.dataSlots = 0 then .ends .ready []
      else .goesOn { c with slots := c.slots + 1, heard := true, ready := true }
    else if b = 0x71 then .goesOn { c with
      slots := c.slots + 1, heard := true, windowEnd := max c.windowEnd (c.now + 50) }
    else if b = 0x72 then .goesOn { c with
      slots := c.slots + 1, heard := true, windowEnd := max c.windowEnd (c.now + 2000) }
    else if b = 0xE7 then .ends .fault []
    else .ends .badAnswer [] := by
  obtain ⟨hr, hin⟩ := h
  unfold Cycle.slot
  simp only [hr, Bool.false_eq_true, if_false, Nat.not_lt.2 hin]
  rfl

theorem Cycle.slot_ready (h : c.SlotOpen) (hk : c.kind.dataSlots = 0) : c.slot 0x3C = .ends .ready [] := by
  rw [Cycle.slot_open h, if_neg (by decide), if_pos rfl, if_pos hk]

/-- A byte that is no answer, and FAULT (R107). -/
theorem Cycle.slot_bad (h : c.SlotOpen) (hb : b ∉ [0xFF, 0x3C, 0x71, 0x72]) :
    c.slot b = .ends (if b = 0xE7 then .fault else .badAnswer) [] := by
  simp only [List.mem_cons, List.not_mem_nil, or_false, not_or] at hb
  obtain ⟨hidle, hready, hshort, hlong⟩ := hb
  rw [Cycle.slot_open h, if_neg hidle, if_neg hready, if_neg hshort, if_neg hlong]
  by_cases he : b = 0xE7
  · rw [if_pos he, if_pos he]
  · rw [if_neg he, if_neg he]

/-- An idle slot that ends at the window end or past it (R108). -/
theorem Cycle.slot_silent (h : c.SlotOpen) (hw : c.windowEnd ≤ c.now) :
    c.slot 0xFF = .ends c.silentOutcome [] := by
  rw [Cycle.slot_open h, if_pos rfl, if_neg (Nat.not_lt.2 hw)]

theorem Cycle.lastSlotEnd_eq (c : Cycle) : c.lastSlotEnd = c.sentMoment + (match c.kind with
    | .ident => 19996
    | .read | .marginP | .marginE => 19998
    | .load | .pulseP | .pulseE | .pulseEnd => 20000) := by
  unfold Cycle.lastSlotEnd
  cases c.kind <;> rfl

theorem Cycle.silentOutcome_reason (c : Cycle) : c.silentOutcome.reason =
    some (if c.probe = true ∧ c.heard = false then .targetAbsent else .laneTimeout) := by
  unfold Cycle.silentOutcome
  cases c.probe <;> cases c.heard <;> rfl

end

/-! ### The end of a cycle -/

/-- The lane's unit after the end of its cycle (R111). -/
def State.quiet (s : State) (l : LaneId) : State := s.updLane l fun x => { x with unit := .afterReset }

section
variable {s : State} {l : LaneId} {c : Cycle} {j : Job} {b : Byte}

theorem exec_answerSlot_goesOn (h : s.Ready) (ha : s.Answering l c) {c' : Cycle}
    (hs : c.slot b = .goesOn c') : exec (.answerSlot l b) s =
      .next (s.updLane l fun x => { x with unit := { x.unit with cycle := some c' } }) := by
  rw [exec_answerSlot_of_ready h ha, hs]

theorem exec_answerSlot_ends (h : s.Ready) (ha : s.Answering l c) {o : CycleOutcome} {data : List Byte}
    (hs : c.slot b = .ends o data) : exec (.answerSlot l b) s =
      .next (s.cycleEnds l c.kind o data).transmit := by
  rw [exec_answerSlot_of_ready h ha, hs]
  rfl

theorem State.quiet_currentJob? (h : s.currentJob? l = some j) : (s.quiet l).currentJob? l = some j :=
  State.currentJob?_of_updLane h

theorem State.quiet_lane : (s.quiet l).lane l = { s.lane l with unit := .afterReset } :=
  State.lane_updLane_self _ _ _

theorem State.cycleEnds_pulse (hm : (s.lane l).context.mark = none) (hk : c.kind.isPulse = true)
    (o : CycleOutcome) (data : List Byte) :
    s.cycleEnds l c.kind o data = (s.quiet l).pulseCycleEnds l c.kind o := by
  unfold State.cycleEnds
  simp only [hm, hk, if_true]
  rfl

theorem State.cycleEnds_ready (hm : (s.lane l).context.mark = none) (hk : c.kind.isPulse = false)
    (data : List Byte) : s.cycleEnds l c.kind .ready data = (s.quiet l).cycleReady l c.kind data := by
  unfold State.cycleEnds
  simp only [hm, hk, Bool.false_eq_true, if_false]
  rfl

/-- What leaves the Transmitter, the reply queue and the outbox as they are makes no frame available. -/
theorem State.transmit_of_sameLink {v : State} (hs : s.Settled) (htx : v.tx = s.tx)
    (hq : v.replyQueue = s.replyQueue) (ho : v.outbox = s.outbox) : v.transmit = v := by
  refine State.transmit_settled ?_
  unfold State.Settled
  rw [htx, hq, ho]
  exact hs

/-- A pulse starts and is counted as the pulse of its kind (R42, R63, R80). -/
theorem State.pulseStarts_eq (h : s.currentJob? l = some j) {kind : CycleKind} {count : Context → Context}
    {counted : Job → Job}
    (hcount : count = if kind = .pulseE then fun x => { x with eraseCount := x.eraseCount + 1 }
      else fun x => { x with pulseCount := x.pulseCount + 1 })
    (hcounted : counted = if kind = .pulseE then fun q => { q with erasePulses := q.erasePulses + 1 }
      else fun q => { q with programPulses := q.programPulses + 1 }) :
    s.pulseStarts l kind = (s.updLane l fun x => { x with
      slot := .timing
      timer := some x.width
      context := count x.context }).setJobs (j.changedIn s.jobs counted) := by
  have hupd : ∀ (f : Context → Context) (g : Job → Job),
      ((s.updLane l fun x => { x with slot := .timing, timer := some x.width }).updContext l f).updCurrentJob
        l g = (s.updLane l fun x => { x with
          slot := .timing
          timer := some x.width
          context := f x.context }).setJobs (j.changedIn s.jobs g) := fun f g => by
    unfold State.updContext
    rw [State.updLane_updLane]
    exact State.updCurrentJob_eq (State.currentJob?_of_updLane h) g
  subst hcount hcounted
  unfold State.pulseStarts
  by_cases hk : kind = .pulseE
  · simp only [hk, if_true]; exact hupd _ _
  · simp only [hk, if_false]; exact hupd _ _

/-- A READY on a GRANTED slot (R80). -/
theorem exec_answerSlot_pulseStarts (h : s.Ready) (ha : s.Answering l c) (hopen : c.SlotOpen)
    (hgranted : (s.lane l).slot = .granted) (hm : (s.lane l).context.mark = none)
    (hj : s.currentJob? l = some j) (hk : c.kind.isPulse = true) {count : Context → Context}
    {counted : Job → Job}
    (hcount : count = if c.kind = .pulseE then fun x => { x with eraseCount := x.eraseCount + 1 }
      else fun x => { x with pulseCount := x.pulseCount + 1 })
    (hcounted : counted = if c.kind = .pulseE then fun q => { q with erasePulses := q.erasePulses + 1 }
      else fun q => { q with programPulses := q.programPulses + 1 }) :
    exec (.answerSlot l 0x3C) s = .next ((s.updLane l fun x => { x with
      slot := .timing
      timer := some x.width
      unit := .afterReset
      context := count x.context }).setJobs (j.changedIn s.jobs counted)) := by
  have hslot : ((s.quiet l).lane l).slot = .granted := by rw [State.quiet_lane]; exact hgranted
  have hdata : c.kind.dataSlots = 0 := by revert hk; cases c.kind <;> simp [CycleKind.isPulse, CycleKind.dataSlots]
  rw [exec_answerSlot_ends h ha (Cycle.slot_ready hopen hdata), State.cycleEnds_pulse hm hk,
    State.pulseCycleEnds, hslot]
  show Host.Outcome.next ((s.quiet l).pulseStarts l c.kind).transmit = _
  rw [State.pulseStarts_eq (State.quiet_currentJob? hj) hcount hcounted, State.quiet, State.updLane_updLane]
  obtain ⟨-, hsettled⟩ := h
  exact congrArg Host.Outcome.next (State.transmit_of_sameLink hsettled rfl rfl rfl)

end

end Sys2Proof.Machine

open Sys2Proof Sys2Proof.Machine

/-- Settles O47, command by command. -/
theorem cyclesGoOut : Obligations.CyclesGoOut := by
  refine ⟨CycleUnit.handOver_eq, fun s t l id rest j h hstop hq hj => ?_, fun s l moment h =>
    ⟨fun hidle => ?_, fun hbusy => ?_, fun c hsending hc => ?_, fun hn => ⟨?_, Lane.ldaBytes_of_ne hn⟩,
      fun c hsending hc => ?_⟩⟩
  · obtain ⟨-, hlane⟩ := laneRestartStartsTheHead s t (byte l.val) h
    obtain ⟨-, -, hstarts⟩ := hlane l rfl
    refine ⟨_, hstarts id rest j hstop hq hj, ?_⟩
    rw [State.lane_answered, State.lane_setJobs, State.lane_updLane_self]
    exact CycleUnit.handOver_eq _ _
  · rw [exec_laneGapEnd_of_ready h]
    exact congrArg Host.Outcome.next (State.updLane_congr (by rw [CycleUnit.gapEnded_idle hidle]))
  · rw [exec_laneGapEnd_of_ready h, State.updLane_self (by rw [CycleUnit.gapEnded_busy hbusy])]
  · rw [exec_sentMoment_of_ready h]
    exact congrArg Host.Outcome.next (State.updLane_congr (by rw [CycleUnit.sent_sending hsending hc]))
  · rw [exec_sentMoment_of_ready h, State.updLane_self (by rw [CycleUnit.sent_of_ne hn])]
  · rw [Lane.ldaBytes_sending hsending hc, Cycle.bytes]
    cases c.kind <;> rfl

/-- Settles O48, by the byte of the slot. -/
theorem waitsExtendTheWindow : Obligations.WaitsExtendTheWindow := by
  refine ⟨fun s l c b h ha hk hr hd => ?_, ?_⟩
  · refine exec_answerSlot_goesOn h ha ?_
    rw [Cycle.slot_data hr (by rw [hd, hk]; decide), hd]
    rfl
  · intro s l c h ha hopen now goesOn
    refine ⟨exec_answerSlot_goesOn h ha (Cycle.slot_open hopen), exec_answerSlot_goesOn h ha
      (Cycle.slot_open hopen), fun hin => exec_answerSlot_goesOn h ha ?_,
      fun hk => exec_answerSlot_goesOn h ha ?_⟩
    · rw [Cycle.slot_open hopen, if_pos rfl, if_pos (show c.now < c.windowEnd from hin)]
    · have hslots : c.kind.dataSlots ≠ 0 := by
        cases hc : c.kind <;> simp [hc, CycleKind.dataSlots] at hk ⊢
      rw [Cycle.slot_open hopen, if_neg (by decide), if_pos rfl, if_neg hslots]

/-- Settles O49: the outcome of the slot is a failure with its reason. -/
theorem faultAndBadAnswersStopTheLane : Obligations.FaultAndBadAnswersStopTheLane := by
  intro s l c j b h ha hopen hm hslot hj hl hb
  have hreason : (if b = 0xE7 then CycleOutcome.fault else .badAnswer).reason =
      some (if b = 0xE7 then .targetFault else .badAnswer) := by
    split <;> rfl
  exact ⟨_, State.cycleEnds_fails hreason hj hl hm hslot [],
    exec_answerSlot_ends h ha (Cycle.slot_bad hopen hb)⟩

/-- Settles O50: silence ends the cycle at the window's close or at the ceiling. -/
theorem silenceStopsTheLane : Obligations.SilenceStopsTheLane := by
  intro s l c j h ha hr hm hslot hj hl lastSlotEnd silent
  have hlast : c.lastSlotEnd = lastSlotEnd := c.lastSlotEnd_eq
  have hsilent := State.cycleEnds_fails c.silentOutcome_reason hj hl hm hslot []
  refine ⟨fun hopen hw => ⟨_, hsilent, exec_answerSlot_ends h ha (Cycle.slot_silent hopen hw)⟩,
    fun hclose => ⟨_, hsilent, ?_, ?_⟩, fun hpast =>
      ⟨_, State.cycleEnds_fails (o := .timeout) rfl hj hl hm hslot [], ?_, ?_⟩⟩
  · have hcan : c.windowCanClose = true := by
      rw [Cycle.windowCanClose, hr, hlast, decide_eq_true hclose]; rfl
    rw [exec_answerWindowClose_of_ready h ha, if_pos hcan]
    rfl
  · have hcan : ¬ c.ceilingCanCome = true := by
      rw [Cycle.ceilingCanCome, hlast, decide_eq_false (Nat.not_lt.2 hclose), Bool.and_false]; simp
    rw [exec_cycleCeiling_of_ready h ha, if_neg hcan]
  · have hcan : c.ceilingCanCome = true := by
      rw [Cycle.ceilingCanCome, hr, hlast, decide_eq_true hpast]; rfl
    rw [exec_cycleCeiling_of_ready h ha, if_pos hcan]
    rfl
  · have hcan : ¬ c.windowCanClose = true := by
      rw [Cycle.windowCanClose, hlast, decide_eq_false (Nat.not_le.2 hpast), Bool.and_false]; simp
    rw [exec_answerWindowClose_of_ready h ha, if_neg hcan]

/-- Settles O53: the timer starts with the carried width, and the pulse is counted. -/
theorem readyStartsThePulse : Obligations.ReadyStartsThePulse := by
  intro s l c j h ha hopen hgranted hm hj
  refine ⟨fun hk => ?_, fun hk => ?_⟩
  · exact exec_answerSlot_pulseStarts h ha hopen hgranted hm hj (by rw [hk]; rfl) (by rw [hk]) (by rw [hk])
  · exact exec_answerSlot_pulseStarts h ha hopen hgranted hm hj (by rw [hk]; rfl) (by rw [hk]) (by rw [hk])
end

section
/-! PROOF. The byte loops of PROGRAM, VERIFY, BLANK-CHECK and precondition, and the probe (R35 to R53, R57 to
R61). -/

-- One proof after another: a thread for each of them would take too much memory.
set_option Elab.async false

namespace Sys2Proof.Machine

/-! ### The data stream -/

theorem State.streamByte?_of_blocks {s t : State} (h : t.blocks = s.blocks) (hs : List Handle) (k : Nat) :
    t.streamByte? hs k = s.streamByte? hs k := by
  induction hs generalizing k with
  | nil => rfl
  | cons g hs ih => rw [State.streamByte?, State.streamByte?, State.block_of_blocks h, ih]

theorem State.expectedByte_quiet {s : State} {l : LaneId} {w : Work} {a : Nat} {e : Byte}
    (h : s.streamByte? w.blocks (a - w.start) = some e) : (s.quiet l).expectedByte w a = e := by
  rw [State.expectedByte, State.streamByte?_of_blocks (s := s) (t := s.quiet l) rfl, h, Option.getD_some]

/-! ### What may be programmed (R39) -/

theorem and_not_eq_zero_iff (e v : Byte) :
    e &&& ~~~v = 0 ↔ ∀ i, i < 8 → v.getLsbD i = false → e.getLsbD i = false := by
  constructor
  · intro h i hi hv
    have hbit : (e &&& ~~~v).getLsbD i = false := by rw [h]; simp
    rw [BitVec.getLsbD_and, BitVec.getLsbD_not, hv] at hbit
    simpa [hi] using hbit
  · intro h
    refine BitVec.eq_of_getLsbD_eq fun i hi => ?_
    cases hv : v.getLsbD i with
    | true => rw [BitVec.getLsbD_and, BitVec.getLsbD_not, hv]; simp
    | false => rw [BitVec.getLsbD_and, h i hi hv]; simp

/-! ### The steps after a READY -/

section
variable {s : State} {l : LaneId} {c : Cycle} {j : Job} {b : Byte}

theorem State.quiet_unit : ((s.quiet l).lane l).unit = .afterReset := by rw [State.quiet_lane]

theorem State.quiet_context : ((s.quiet l).lane l).context = (s.lane l).context := by rw [State.quiet_lane]

/-- The lane's algorithm goes on from the quiet lane. -/
theorem exec_answerSlot_step (h : s.Ready) (ha : s.Answering l c) {data : List Byte}
    (hs : c.slot b = .ends .ready data) (hm : (s.lane l).context.mark = none) (hk : c.kind.isPulse = false) :
    exec (.answerSlot l b) s = .next ((s.quiet l).cycleReady l c.kind data).transmit := by
  rw [exec_answerSlot_ends h ha hs, State.cycleEnds_ready hm hk]

theorem State.cycleReady_ident (h : s.currentJob? l = some j) (maker device : Byte) :
    s.cycleReady l .ident [maker, device] = s.probeReady l j maker device := by
  unfold State.cycleReady
  simp only [h]
  rfl

theorem State.cycleReady_read (h : s.currentJob? l = some j) (v : Byte) :
    s.cycleReady l .read [v] = s.readReady l j v := by
  unfold State.cycleReady
  simp only [h]
  rfl

theorem State.cycleReady_marginP (h : s.currentJob? l = some j) (v : Byte) :
    s.cycleReady l .marginP [v] = s.marginReady l j v := by
  unfold State.cycleReady
  simp only [h]
  rfl

theorem State.cycleReady_marginE (h : s.currentJob? l = some j) (v : Byte) :
    s.cycleReady l .marginE [v] = s.judgeSweep l j v := by
  unfold State.cycleReady
  simp only [h]
  rfl

theorem State.cycleReady_load (h : s.currentJob? l = some j) (data : List Byte) :
    s.cycleReady l .load data = s.loadReady l := by
  unfold State.cycleReady
  simp only [h]

theorem State.cycleReady_pulseEnd (h : s.currentJob? l = some j) (data : List Byte) :
    s.cycleReady l .pulseEnd data = s.pulseEndReady l := by
  unfold State.cycleReady
  simp only [h]

/-- A data byte that a cycle returns ends it (R106). -/
theorem exec_answerSlot_data (h : s.Ready) (ha : s.Answering l c) (hr : c.ready = true)
    (hd : c.dataBytes = []) (hm : (s.lane l).context.mark = none) (hk : c.kind.dataSlots = 1) :
    exec (.answerSlot l b) s = .next ((s.quiet l).cycleReady l c.kind [b]).transmit := by
  refine exec_answerSlot_step h ha ?_ hm (by revert hk; cases c.kind <;> simp [CycleKind.isPulse, CycleKind.dataSlots])
  rw [Cycle.slot_lastData hr (by rw [hd, hk]; rfl), hd]
  rfl

theorem exec_answerSlot_read (h : s.Ready) (ha : s.Answering l c) (hk : c.kind = .read)
    (hr : c.ready = true) (hd : c.dataBytes = []) (hm : (s.lane l).context.mark = none)
    (hj : s.currentJob? l = some j) :
    exec (.answerSlot l b) s = .next ((s.quiet l).readReady l j b).transmit := by
  rw [exec_answerSlot_data h ha hr hd hm (by rw [hk]; rfl), hk,
    State.cycleReady_read (State.quiet_currentJob? hj)]

theorem exec_answerSlot_marginP (h : s.Ready) (ha : s.Answering l c) (hk : c.kind = .marginP)
    (hr : c.ready = true) (hd : c.dataBytes = []) (hm : (s.lane l).context.mark = none)
    (hj : s.currentJob? l = some j) :
    exec (.answerSlot l b) s = .next ((s.quiet l).marginReady l j b).transmit := by
  rw [exec_answerSlot_data h ha hr hd hm (by rw [hk]; rfl), hk,
    State.cycleReady_marginP (State.quiet_currentJob? hj)]

theorem exec_answerSlot_marginE (h : s.Ready) (ha : s.Answering l c) (hk : c.kind = .marginE)
    (hr : c.ready = true) (hd : c.dataBytes = []) (hm : (s.lane l).context.mark = none)
    (hj : s.currentJob? l = some j) :
    exec (.answerSlot l b) s = .next ((s.quiet l).judgeSweep l j b).transmit := by
  rw [exec_answerSlot_data h ha hr hd hm (by rw [hk]; rfl), hk,
    State.cycleReady_marginE (State.quiet_currentJob? hj)]

theorem exec_answerSlot_load (h : s.Ready) (ha : s.Answering l c) (hopen : c.SlotOpen)
    (hk : c.kind = .load) (hm : (s.lane l).context.mark = none) (hj : s.currentJob? l = some j) :
    exec (.answerSlot l 0x3C) s = .next ((s.quiet l).loadReady l).transmit := by
  rw [exec_answerSlot_step h ha (Cycle.slot_ready hopen (by rw [hk]; rfl)) hm (by rw [hk]; rfl), hk,
    State.cycleReady_load (State.quiet_currentJob? hj)]

theorem exec_answerSlot_pulseEnd (h : s.Ready) (ha : s.Answering l c) (hopen : c.SlotOpen)
    (hk : c.kind = .pulseEnd) (hm : (s.lane l).context.mark = none) (hj : s.currentJob? l = some j) :
    exec (.answerSlot l 0x3C) s = .next ((s.quiet l).pulseEndReady l).transmit := by
  rw [exec_answerSlot_step h ha (Cycle.slot_ready hopen (by rw [hk]; rfl)) hm (by rw [hk]; rfl), hk,
    State.cycleReady_pulseEnd (State.quiet_currentJob? hj)]

/-- A cycle handed over by a lane that has just ended one (R98). -/
theorem State.quiet_sendCycle (kind : CycleKind) (a : Nat) (d : Byte) : (s.quiet l).sendCycle l kind a d =
    s.updLane l fun x => { x with unit := .holding kind a d } := by
  rw [State.sendCycle_afterReset State.quiet_unit, State.quiet, State.updLane_updLane]
  rfl

theorem State.quiet_sendAtAddress (kind : CycleKind) : (s.quiet l).sendAtAddress l kind =
    s.updLane l fun x => { x with unit := .holding kind x.context.address 0 } := by
  unfold State.sendAtAddress
  rw [State.quiet_sendCycle, State.quiet_context]
  exact State.updLane_congr rfl

/-- The probe's READY: the identity is stored, then compared if the profile asks for it (R35). -/
theorem State.probeReady_eq (maker device : Byte) : s.probeReady l j maker device =
    if (s.profileOf j).checkIdentity = true ∧
        (maker ≠ (s.profileOf j).maker ∨ device ≠ (s.profileOf j).device) then
      (s.updJob j.id fun q => { q with identity := some { maker := maker, device := device } }).finishCurrent
        l .failed .identMismatch false
    else
      (s.updJob j.id fun q => { q with identity := some { maker := maker, device := device } }).probePassed
        l j := by
  unfold State.probeReady
  simp only [Bool.and_eq_true, Bool.or_eq_true, bne_iff_ne]

/-! ### Faults -/

/-- A fault after which the byte is done if the job goes on (R49 to R51). -/
theorem State.offerFault_byteDone (hj : s.currentJob? l = some j) (hl : j.lane = l)
    (hu : (s.lane l).unit = .afterReset) {r : FaultRecord} (hr : r.job = j.id) :
    s.FaultIsJudged (s.offerFault l j r fun v => v.byteDone l) l j r fun noted j' =>
      noted.ByteIsDone (s.offerFault l j r fun v => v.byteDone l) l j' :=
  State.offerFault_isJudged (Follows := fun v u j' => v.ByteIsDone u l j') hj hl hr
    fun _ _ hj' hl' _ hlane => State.byteDone_isDone hj' hl' (by rw [hlane]; exact hu)

theorem State.offerFault_preconditionByteDone (hj : s.currentJob? l = some j) (hl : j.lane = l)
    (hu : (s.lane l).unit = .afterReset) {r : FaultRecord} (hr : r.job = j.id) :
    s.FaultIsJudged (s.offerFault l j r fun v => v.preconditionByteDone l) l j r fun noted j' =>
      noted.PreconditionByteIsDone (s.offerFault l j r fun v => v.preconditionByteDone l) l j' :=
  State.offerFault_isJudged (Follows := fun v u j' => v.PreconditionByteIsDone u l j') hj hl hr
    fun _ _ hj' _ _ hlane => State.preconditionByteDone_isDone hj' (by rw [hlane]; exact hu)

theorem State.offerFault_sectorDone (hj : s.currentJob? l = some j) (hl : j.lane = l)
    (hu : (s.lane l).unit = .afterReset) {r : FaultRecord} (hr : r.job = j.id) :
    s.FaultIsJudged (s.offerFault l j r fun v => v.sectorDone l) l j r fun noted j' =>
      noted.SectorIsDone (s.offerFault l j r fun v => v.sectorDone l) l j' :=
  State.offerFault_isJudged (Follows := fun v u j' => v.SectorIsDone u l j') hj hl hr
    fun _ _ hj' hl' _ hlane => State.sectorDone_isDone hj' hl' (by rw [hlane]; exact hu)

/-! ### Requests that leave the link alone -/

theorem State.AsksForGrant.onlyChanges {t : State} {cost width : Nat} (h : s.AsksForGrant t l j cost width) :
    s.OnlyChanges t [.lanes, .jobs, .grantQueue, .freeUnits] := by
  obtain ⟨hheld, hjoins⟩ := h
  by_cases hup : s.supply.state = .up
  · obtain ⟨-, -, -, -, -, -, hframe⟩ := hjoins hup
    exact (((State.setGrantQueue_onlyChanges _ _).mono (by decide)).trans
      ((State.updLane_onlyChanges _ _ _).mono (by decide))).trans (hframe.mono (by decide))
  · rw [hheld hup]
    intro g hg; cases g <;> first | exact absurd (by decide) hg | rfl

theorem State.PreconditionByteIsDone.onlyChanges {t : State} (h : s.PreconditionByteIsDone t l j) :
    s.OnlyChanges t [.lanes, .jobs, .grantQueue, .freeUnits] := by
  obtain ⟨hnext, hend⟩ := h
  rcases Nat.lt_or_ge (s.lane l).context.address ((s.lane l).context.address /
      s.profiles[j.profile].sectorSize * s.profiles[j.profile].sectorSize +
        s.profiles[j.profile].sectorSize - 1) with hlt | hge
  · rw [hnext hlt]
    exact (State.updLane_onlyChanges _ _ _).mono (by decide)
  · exact ((State.updLane_onlyChanges s l _).mono (by decide)).trans (hend hge).onlyChanges

theorem State.updLane_transmit (h : s.Ready) {f : Lane → Lane} :
    (s.updLane l f).transmit = s.updLane l f := by
  obtain ⟨-, hsettled⟩ := h
  exact State.transmit_of_sameLink hsettled rfl rfl rfl

/-- A change of the lanes, the jobs and the Arbiter makes no frame available. -/
theorem State.quiet_transmit {t : State} (h : s.Ready) {f : Lane → Lane}
    (ht : (s.updLane l f).OnlyChanges t [.lanes, .jobs, .grantQueue, .freeUnits]) : t.transmit = t := by
  obtain ⟨-, hsettled⟩ := h
  exact State.transmit_of_sameLink hsettled (ht .tx (by decide)) (ht .replyQueue (by decide))
    (ht .outbox (by decide))

end

end Sys2Proof.Machine

open Sys2Proof Sys2Proof.Machine

/-- Settles O56. -/
theorem blankFaultIsRecordedOrEndsTheJob : Obligations.BlankFaultIsRecordedOrEndsTheJob := by
  intro s l c j b start length h ha hk hr hd hm hj hl hw quiet
  have hq : (s.quiet l).currentJob? l = some j := State.quiet_currentJob? hj
  have hexec := exec_answerSlot_read (b := b) h ha hk hr hd hm hj
  rw [State.readReady, hw] at hexec
  refine ⟨fun hb => ⟨_, State.byteDone_isDone hq hl State.quiet_unit, ?_⟩,
    fun hb => ⟨_, State.offerFault_byteDone hq hl State.quiet_unit rfl, ?_⟩⟩
  · rw [hexec, State.judgeBlankRead, if_pos hb]; rfl
  · rw [hexec, State.judgeBlankRead, if_neg hb, State.quiet_context]; rfl

/-- Settles O51: a byte that equals its expected byte, a VERIFY byte that differs, and the probe. -/
theorem equalByteIsDone : Obligations.EqualByteIsDone := by
  refine ⟨fun s l c j b e h ha hk hr hd hm hj hl hblocks => ?_, fun s l c j maker device h ha hk hr hd hm hj hl => ?_⟩
  · intro a quiet hstream
    have hq : (s.quiet l).currentJob? l = some j := State.quiet_currentJob? hj
    have he : (s.quiet l).expectedByte j.work a = e := State.expectedByte_quiet hstream
    have hexec := exec_answerSlot_read (b := b) h ha hk hr hd hm hj
    refine ⟨fun hb => ⟨_, State.byteDone_isDone hq hl State.quiet_unit, ?_⟩, fun start length hs hb hw =>
      ⟨_, State.offerFault_byteDone hq hl State.quiet_unit rfl, ?_⟩⟩
    · have hequal : (s.quiet l).readReady l j b = (s.quiet l).byteDone l := by
        unfold State.readReady
        cases hw : j.work with
        | program start length hs =>
          rw [State.judgeProgramRead, State.quiet_context]; exact if_pos (hb.trans he.symm)
        | verify start length hs =>
          rw [State.judgeVerifyRead, State.quiet_context]; exact if_pos (hb.trans he.symm)
        | identify => rw [hw] at hblocks; exact absurd rfl hblocks
        | blankCheck start length => rw [hw] at hblocks; exact absurd rfl hblocks
        | erase first last => rw [hw] at hblocks; exact absurd rfl hblocks
      rw [hexec, hequal]; rfl
    · rw [hexec, State.readReady, hw]
      show Host.Outcome.next ((s.quiet l).judgeVerifyRead l j b).transmit = _
      rw [State.judgeVerifyRead, State.quiet_context, he]
      simp only [if_neg hb]
      rfl
  · intro p j' known differs
    have hq : known.currentJob? l = some j' :=
      State.currentJob?_changed (State.quiet_currentJob? hj) (fun q => { q with identity := _ }) fun _ => rfl
    have hu : (known.lane l).unit = .afterReset := State.quiet_unit
    have hexec := exec_answerSlot_step (b := device) h ha (data := [maker, device])
      ((Cycle.slot_lastData hr (by rw [hd, hk]; rfl)).trans (by rw [hd]; rfl)) hm (by rw [hk]; rfl)
    rw [hk, State.cycleReady_ident (State.quiet_currentJob? hj), State.probeReady_eq] at hexec
    by_cases hdiffers : differs
    · rw [if_pos (show ((s.quiet l).profileOf j).checkIdentity = true ∧
        (maker ≠ ((s.quiet l).profileOf j).maker ∨ device ≠ ((s.quiet l).profileOf j).device) from
        hdiffers)] at hexec
      exact ⟨_, hexec, fun _ => State.finishCurrent_eq hq hl _ _ _, fun hn => absurd hdiffers hn⟩
    · rw [if_neg (show ¬(((s.quiet l).profileOf j).checkIdentity = true ∧
        (maker ≠ ((s.quiet l).profileOf j).maker ∨ device ≠ ((s.quiet l).profileOf j).device)) from
        hdiffers)] at hexec
      have hread : known.sendAtAddress l .read =
          known.updLane l fun x => { x with unit := .holding .read x.context.address 0 } := by
        unfold State.sendAtAddress
        rw [State.sendCycle_afterReset hu]
        exact State.updLane_congr rfl
      refine ⟨_, hexec, fun hd' => absurd hd' hdiffers, fun _ => ?_⟩
      cases hw : j.work with
      | identify =>
        show known.RangeEnds (known.probePassed l j) l j'
        rw [State.probePassed, hw]
        exact State.rangeDone_rangeEnds hq hl
      | program start length hs =>
        show known.probePassed l j = _
        rw [State.probePassed, hw]
        exact hread
      | verify start length hs =>
        show known.probePassed l j = _
        rw [State.probePassed, hw]
        exact hread
      | blankCheck start length =>
        show known.probePassed l j = _
        rw [State.probePassed, hw]
        exact hread
      | erase first last =>
        show known.SectorBegins (known.probePassed l j) l j' _
        rw [State.probePassed, hw]
        exact State.beginSector_begins hq hu _

/-- Settles O52: the READ, LOAD, PULSE-END and MARGIN-P of a byte that is programmed. -/
theorem programmableByteIsLoaded : Obligations.ProgrammableByteIsLoaded := by
  refine ⟨?_, ?_, ?_⟩
  · intro s l c j b e start length hs h ha hr hd hm hj hl hw hstream a count max quiet fault go
    have hq : (s.quiet l).currentJob? l = some j := State.quiet_currentJob? hj
    have he : (s.quiet l).expectedByte j.work a = e := by
      refine State.expectedByte_quiet ?_
      rw [hw]; exact hstream
    have hbits := and_not_eq_zero_iff e b
    refine ⟨fun hk hne => ?_, fun hk => ?_⟩
    · have hgo : go = .next ((s.quiet l).judgeProgramRead l j b).transmit := by
        show exec (.answerSlot l b) s = _
        rw [exec_answerSlot_read h ha hk hr hd hm hj, State.readReady, hw]
      rw [State.judgeProgramRead, State.quiet_context, he, if_neg hne] at hgo
      refine ⟨fun hclear => ?_, fun ⟨i, hi, hb, hset⟩ => ?_⟩
      · rw [if_neg (not_not.2 (hbits.2 hclear)), State.quiet_sendCycle] at hgo
        exact hgo.trans (congrArg Host.Outcome.next (State.updLane_transmit h))
      · have hzero : e &&& ~~~b ≠ 0 := fun hz => by
          have hbit := hbits.1 hz i hi hb
          rw [hset] at hbit; cases hbit
        rw [if_pos hzero] at hgo
        exact ⟨_, State.offerFault_byteDone hq hl State.quiet_unit rfl, hgo⟩
    · have hgo : go = .next ((s.quiet l).judgeProgramMargin l j b).transmit := by
        show exec (.answerSlot l b) s = _
        rw [exec_answerSlot_marginP h ha hk hr hd hm hj, State.marginReady, hw]
      rw [State.judgeProgramMargin, State.quiet_context, he] at hgo
      refine ⟨fun hb => ?_, fun hb hlt hphase => ?_, fun hb hmax => ?_⟩
      · rw [if_pos hb] at hgo
        exact ⟨_, State.byteDone_isDone hq hl State.quiet_unit, hgo⟩
      · rw [if_neg hb, 
          if_neg (show ¬ ((s.quiet l).profileOf j).maxProgram ≤ (s.lane l).context.pulseCount from
            Nat.not_le.2 hlt)] at hgo
        have hasks := State.asksForProgramPulse hq (by rw [State.quiet_context]; exact hphase)
        refine ⟨_, hasks, hgo.trans (congrArg Host.Outcome.next (State.quiet_transmit h hasks.onlyChanges))⟩
      · rw [if_neg hb, 
          if_pos (show ((s.quiet l).profileOf j).maxProgram ≤ (s.lane l).context.pulseCount from hmax)] at hgo
        exact ⟨_, State.offerFault_byteDone hq hl State.quiet_unit rfl, hgo⟩
  · intro s l c j h ha hopen hm hj hphase
    have hq : (s.quiet l).currentJob? l = some j := State.quiet_currentJob? hj
    refine ⟨fun hk => ?_, fun hk => ?_⟩
    · have hexec := exec_answerSlot_load h ha hopen hk hm hj
      rw [State.loadReady, State.updContext, State.quiet, State.updLane_updLane] at hexec
      have hasks := State.asksForProgramPulse (s := s.updLane l fun x => { x with
        unit := .afterReset, context := { x.context with pulseCount := 0 } })
        (State.currentJob?_of_updLane hj) (by rw [State.lane_updLane_self]; exact hphase)
      exact ⟨_, hasks, hexec.trans (congrArg Host.Outcome.next (State.quiet_transmit h hasks.onlyChanges))⟩
    · have hsort : ((s.quiet l).lane l).context.pulseSort = .program := by
        rw [State.quiet_context]
        unfold Context.pulseSort
        split <;> simp_all
      rw [exec_answerSlot_pulseEnd h ha hopen hk hm hj, State.pulseEndReady, hsort]
      show Host.Outcome.next ((s.quiet l).sendAtAddress l .marginP).transmit = _
      rw [State.quiet_sendAtAddress, State.updLane_transmit h]
  · intro s l c j b first last h ha hr hd hm hj hl hw hphase count max quiet go
    have hq : (s.quiet l).currentJob? l = some j := State.quiet_currentJob? hj
    have hread : c.kind = .read → go = .next ((s.quiet l).judgePreconditionRead l b).transmit := fun hk => by
      show exec (.answerSlot l b) s = _
      rw [exec_answerSlot_read h ha hk hr hd hm hj, State.readReady, hw]
    have hmargin : c.kind = .marginP → go = .next ((s.quiet l).judgePreconditionMargin l j b).transmit :=
      fun hk => by
        show exec (.answerSlot l b) s = _
        rw [exec_answerSlot_marginP h ha hk hr hd hm hj, State.marginReady, hw]
    have hdone := State.preconditionByteDone_isDone hq State.quiet_unit
    refine ⟨fun hk hb => ⟨_, hdone, ?_⟩, fun hk hb => ?_, fun hk hb hlt => ?_, fun hk hb hmax => ?_⟩
    · have hfinished : go = .next ((s.quiet l).preconditionByteDone l).transmit := by
        rcases hk with hk | hk
        · rw [hread hk, State.judgePreconditionRead, if_pos hb]
        · rw [hmargin hk, State.judgePreconditionMargin, if_pos hb]
      exact hfinished.trans (congrArg Host.Outcome.next (State.quiet_transmit h hdone.onlyChanges))
    · rw [hread hk, State.judgePreconditionRead, if_neg hb, State.quiet_context, State.quiet_sendCycle,
        State.updLane_transmit h]
      exact congrArg Host.Outcome.next (State.updLane_congr rfl)
    · have hasks := State.asksForProgramPulse hq (by rw [State.quiet_context, hphase]; simp)
      refine ⟨_, hasks, ?_⟩
      rw [hmargin hk, State.judgePreconditionMargin, State.quiet_context, if_neg hb,
        if_neg (show ¬ ((s.quiet l).profileOf j).maxProgram ≤ (s.lane l).context.pulseCount from
          Nat.not_le.2 hlt)]
      exact congrArg Host.Outcome.next (State.quiet_transmit h hasks.onlyChanges)
    · refine ⟨_, State.offerFault_preconditionByteDone hq hl State.quiet_unit rfl, ?_⟩
      rw [hmargin hk, State.judgePreconditionMargin, State.quiet_context, if_neg hb,
        if_pos (show ((s.quiet l).profileOf j).maxProgram ≤ (s.lane l).context.pulseCount from hmax)]
      rfl
end

section
/-! PROOF. The answer of a cut pulse, and the sweep (R44, R64 to R72, R88, R93). -/

-- One proof after another: a thread for each of them would take too much memory.
set_option Elab.async false

namespace Sys2Proof.Machine

/-! ### Holding and asking, as equations -/

section
variable {s : State} {l : LaneId} {j : Job}

theorem State.holdLane_current (h : s.currentJob? l = some j) : s.holdLane l =
    (s.updLane l fun x => { x with state := .held }).setJobs
      (j.changedIn s.jobs fun q => { q with state := .held }) :=
  State.updCurrentJob_eq (s := s.setLaneState l .held) (State.currentJob?_of_updLane h) _

/-- An erase request with the supply UP joins the tail of the grant queue (R62, R76). -/
theorem State.requestGrant_erase (h : s.currentJob? l = some j)
    (hp : (s.lane l).context.phase = some .erase) (hup : s.supply.state = .up) :
    s.requestGrant l = ((s.updLane l fun x => { x with state := .pulseWait }).setGrantQueue
      (s.grantQueue ++ [{ lane := l, cost := s.profiles[j.profile].eraseCost
                          width := s.profiles[j.profile].eraseWidth * 1000 }])).grantTest := by
  have hsort : (s.lane l).context.pulseSort = .erase := (Context.pulseSort_eq_erase _).2 hp
  unfold State.requestGrant State.joinGrantQueue
  simp only [h, hup, if_true, grantEntry, hsort]
  rfl

/-- With the supply not UP a request holds the lane (R40, R62). -/
theorem State.requestGrant_held (h : s.currentJob? l = some j) (hup : s.supply.state ≠ .up) :
    s.requestGrant l = (s.updLane l fun x => { x with state := .held }).setJobs
      (j.changedIn s.jobs fun q => { q with state := .held }) := by
  obtain ⟨hheld, -⟩ := State.asksForGrant h
  exact hheld hup

/-- A grant queue whose only entry fits is granted whole (R77). -/
theorem State.grantTest_single {e : GrantEntry} (hq : s.grantQueue = [e]) (hup : s.supply.state = .up)
    (hfit : e.cost ≤ s.freeUnits) : s.grantTest =
      ((s.updLane e.lane fun x => x.grantedBy e).setFreeUnits (s.freeUnits - e.cost)).setGrantQueue [] := by
  rw [State.grantTest, hq, grantFrom, if_pos ⟨hup, hfit⟩, grantFrom, State.grant_eq]

theorem State.HeadWaits.of_same {t : State} (h : s.HeadWaits) (hs : t.supply = s.supply)
    (hq : t.grantQueue = s.grantQueue) (hf : t.freeUnits = s.freeUnits) : t.HeadWaits := by
  unfold State.HeadWaits
  rw [hs, hq, hf]
  exact h

theorem State.quiet_updContext_sendAtAddress (f : Context → Context) (kind : CycleKind) :
    ((s.quiet l).updContext l f).sendAtAddress l kind = s.updLane l fun x => { x with
      context := f x.context
      unit := .holding kind (f x.context).address 0 } := by
  unfold State.sendAtAddress State.updContext
  rw [State.sendCycle_afterReset (by rw [State.lane_updLane_self]; exact State.quiet_unit),
    State.lane_updLane_self, State.quiet_lane, State.quiet, State.updLane_updLane, State.updLane_updLane]
  exact State.updLane_congr rfl

theorem Job.changedIn_changedIn (jobs : List Job) {f g : Job → Job} (hf : ∀ q, (f q).id = q.id) :
    j.changedIn (j.changedIn jobs f) g = j.changedIn jobs fun q => g (f q) := by
  unfold Job.changedIn
  rw [List.map_map]
  refine List.map_congr_left fun q _ => ?_
  rw [Function.comp]
  by_cases hq : q.id = j.id
  · rw [if_pos hq, if_pos hq, hf, if_pos hq]
  · rw [if_neg hq, if_neg hq, if_neg hq]

end

end Sys2Proof.Machine

open Sys2Proof Sys2Proof.Machine

/-- Settles O55. -/
theorem sweepStopAsksForARepulse : Obligations.SweepStopAsksForARepulse := by
  refine ⟨fun s l c j h ha hopen hk hm hj hphase => ?_, ?_, ?_⟩
  · have hsort : ((s.quiet l).lane l).context.pulseSort = .erase := by
      rw [State.quiet_context]; exact (Context.pulseSort_eq_erase _).2 hphase
    rw [exec_answerSlot_pulseEnd h ha hopen hk hm hj, State.pulseEndReady, hsort]
    show Host.Outcome.next (((s.quiet l).updContext l _).sendAtAddress l .marginE).transmit = _
    rw [State.quiet_updContext_sendAtAddress, State.updLane_transmit h]
  · intro s l c j b h ha hk hr hd hm hj hl p a sectorEnd quiet
    have hq : (s.quiet l).currentJob? l = some j := State.quiet_currentJob? hj
    have hexec := exec_answerSlot_marginE (b := b) h ha hk hr hd hm hj
    rw [State.judgeSweep, State.quiet_context] at hexec
    refine ⟨fun hb hlt => ?_, fun hb hge => ?_, fun hb hmax => ?_⟩
    · rw [if_pos hb, if_neg (show ¬ ((s.quiet l).profileOf j).sectorEnd a ≤ a from Nat.not_le.2 hlt),
        State.quiet_updContext_sendAtAddress, State.updLane_transmit h] at hexec
      exact hexec
    · rw [if_pos hb, if_pos (show ((s.quiet l).profileOf j).sectorEnd a ≤ a from hge)] at hexec
      exact ⟨_, State.sectorDone_isDone hq hl State.quiet_unit, hexec⟩
    · rw [if_neg hb, if_neg (show ¬ (s.lane l).context.eraseCount < ((s.quiet l).profileOf j).maxErase from
        Nat.not_lt.2 hmax)] at hexec
      refine ⟨_, State.offerFault_sectorDone (s := (s.quiet l).updContext l fun c => { c with watermark := a })
        (State.currentJob?_of_updLane hq) hl ?_ rfl, hexec⟩
      rw [State.updContext, State.lane_updLane_self]
      exact State.quiet_unit
  · intro s l c j b h ha hk hr hd hm hj hphase hb p a start entry asked hlt
    have hexec := exec_answerSlot_marginE (b := b) h ha hk hr hd hm hj
    rw [State.judgeSweep, State.quiet_context, if_neg hb,
      if_pos (show (s.lane l).context.eraseCount < ((s.quiet l).profileOf j).maxErase from hlt)] at hexec
    have hstate : ((s.quiet l).updContext l fun c => { c with watermark := a }).updContext l
        (fun c => { c with address := start }) = asked := by
      unfold State.updContext State.quiet
      rw [State.updLane_updLane, State.updLane_updLane]
      rfl
    rw [show (((s.quiet l).updContext l fun c => { c with watermark := (s.lane l).context.address }).updContext l
      fun c => { c with address := ((s.quiet l).profileOf j).sectorStart (s.lane l).context.address }) = asked
      from hstate] at hexec
    have hq : asked.currentJob? l = some j := State.currentJob?_of_updLane hj
    have hp : (asked.lane l).context.phase = some .erase := by rw [State.lane_updLane_self]; exact hphase
    let waiting := (asked.updLane l fun x => { x with state := .pulseWait }).setGrantQueue
      (s.grantQueue ++ [entry])
    have hrequest : s.supply.state = .up → asked.requestGrant l = waiting.grantTest :=
      State.requestGrant_erase hq hp
    refine ⟨fun hdown hnil => ?_, fun hup hwaits hlate => ?_, fun hup hnil hfit => ?_⟩
    · rw [hexec, State.requestGrant_held hq hdown]
      exact congrArg Host.Outcome.next (State.transmit_of_sameLink h.2 rfl rfl rfl)
    · have hwaits' : waiting.HeadWaits := by
        intro hup' e he
        show s.freeUnits < e.cost
        have he' : e ∈ (s.grantQueue ++ [entry]).head? := he
        cases hgq : s.grantQueue with
        | nil =>
          rw [hgq] at he'
          obtain rfl : entry = e := by simpa using he'
          exact hlate.resolve_left fun hne => hne hgq
        | cons d rest =>
          refine hwaits hup e ?_
          rw [hgq] at he' ⊢
          exact he'
      rw [hexec, hrequest hup, State.grantTest_of_headWaits hwaits']
      refine congrArg Host.Outcome.next ?_
      exact State.transmit_of_sameLink h.2 rfl rfl rfl
    · have hqueue : waiting.grantQueue = [entry] := congrArg (· ++ [entry]) hnil
      rw [hexec, hrequest hup, State.grantTest_single hqueue hup hfit]
      have hlane : asked.lane l = { s.lane l with
          unit := .afterReset
          context := { (s.lane l).context with watermark := a, address := start } } :=
        State.lane_updLane_self _ _ _
      have hgranted : (asked.updLane l fun x => { x with state := .pulseWait }).updLane l (fun x =>
          x.grantedBy entry) = asked.updLane l fun x => { x with
            state := .pulsing
            lvpClosed := true
            unitsHeld := x.unitsHeld + p.eraseCost
            slot := .granted
            timer := none
            width := p.eraseWidth * 1000
            unit := .holding .pulseE start 0 } := by
        rw [State.updLane_updLane]
        refine State.updLane_congr ?_
        rw [Function.comp, Lane.grantedBy, hlane]
        simp only [hphase, if_true]
        rfl
      rw [← hnil]
      exact congrArg Host.Outcome.next ((congrArg State.transmit (congrArg (State.setFreeUnits · _)
        hgranted)).trans (State.transmit_of_sameLink h.2 rfl rfl rfl))

/-- Settles O54: the lane is HELD, and resumes in the same step if the supply is UP. -/
theorem cutPulseIsHeldOrResumed : Obligations.CutPulseIsHeldOrResumed := by
  intro s l c j h ha hopen hk hcut hm hj hwaits go
  let cleared := s.updLane l fun x => { x with unit := .afterReset, slot := .none }
  let held := (s.updLane l fun x => { x with state := .held, slot := .none, unit := .afterReset }).setJobs
    (j.changedIn s.jobs fun q => { q with state := .held })
  have hcleared : (s.quiet l).updLane l (fun x => { x with slot := .none }) = cleared :=
    State.updLane_updLane _ _ _ _
  have hheld : cleared.holdLane l = held := by
    rw [State.holdLane_current (s := cleared) (State.currentJob?_of_updLane hj)]
    exact congrArg (State.setJobs · _) (State.updLane_updLane _ _ _ _)
  have hslot : ((s.quiet l).lane l).slot = .cut := by rw [State.quiet_lane]; exact hcut
  have hgo : go = .next (if s.supply.state = .up then (held.resumeLane l).grantTest else held).transmit := by
    have hdata : c.kind.dataSlots = 0 := by rcases hk with hk | hk <;> rw [hk] <;> rfl
    have hpulse : c.kind.isPulse = true := by rcases hk with hk | hk <;> rw [hk] <;> rfl
    show exec (.answerSlot l 0x3C) s = _
    rw [exec_answerSlot_ends h ha (Cycle.slot_ready hopen hdata), State.cycleEnds_pulse hm hpulse,
      State.pulseCycleEnds, hslot]
    show Host.Outcome.next ((s.quiet l).cutPulseEnds l .ready).transmit = _
    rw [State.cutPulseEnds]
    simp only [hcleared, hheld]
    rfl
  have hjob : held.currentJob? l = some { j with state := .held } :=
    State.currentJob?_changed (State.currentJob?_of_updLane hj) (fun q => { q with state := .held }) fun _ => rfl
  have hlane : held.lane l = { s.lane l with state := .held, slot := .none, unit := .afterReset } := by
    rw [State.lane_setJobs, State.lane_updLane_self]
  have hjobs : Job.changedIn { j with state := .held } held.jobs (fun q => { q with state := .active }) =
      j.changedIn s.jobs fun q => { q with state := .active } :=
    Job.changedIn_changedIn (j := j) s.jobs fun _ => rfl
  let resumed := fun g : Lane → Lane => (s.updLane l g).setJobs
    (j.changedIn s.jobs fun q => { q with state := .active })
  have hlanes : ∀ g : Lane → Lane, (held.lane l).resumed = g (s.lane l) →
      (held.updLane l Lane.resumed).setJobs
        (Job.changedIn { j with state := .held } held.jobs fun q => { q with state := .active }) = resumed g :=
    fun g hg => by
      rw [hjobs]
      show ((s.updLane l fun x => { x with state := .held, slot := .none, unit := .afterReset }).updLane l
        Lane.resumed).setJobs _ = _
      rw [State.updLane_updLane]
      rw [hlane] at hg
      exact congrArg (State.setJobs · _) (State.updLane_congr hg)
  have hgoes : s.supply.state = .up → ¬ (held.lane l).Asks → ∀ g : Lane → Lane,
      (held.lane l).resumed = g (s.lane l) → go = .next (resumed g) := fun hup hasks g hg => by
    rw [hgo, if_pos hup, State.resumeLane_eq hjob hup, if_neg hasks, List.append_nil, hlanes g hg,
      State.grantTest_of_headWaits (s := (resumed g).setGrantQueue held.grantQueue)
        (hwaits.of_same rfl rfl rfl)]
    exact congrArg Host.Outcome.next (State.transmit_of_sameLink h.2 rfl rfl rfl)
  refine ⟨fun hdown => ?_, fun hup hphase => ?_, fun hup hphase => ⟨fun hcount => ?_, fun hcount => ?_⟩⟩
  · rw [hgo, if_neg hdown]
    exact congrArg Host.Outcome.next (State.transmit_of_sameLink h.2 rfl rfl rfl)
  · refine hgoes hup (fun hasks => hphase (by rw [hlane] at hasks; exact hasks.1)) _ ?_
    rw [hlane]
    exact if_pos hphase
  · refine hgoes hup (fun hasks => hcount (by rw [hlane] at hasks; exact hasks.2)) _ ?_
    rw [hlane]
    exact (if_neg (not_not.2 hphase)).trans (if_neg hcount)
  · let entry : GrantEntry := { lane := l, cost := s.profiles[j.profile].eraseCost
                                width := s.profiles[j.profile].eraseWidth * 1000 }
    let waiting := (resumed fun x => { x with state := .pulseWait, slot := .none, unit := .afterReset }).setGrantQueue
      (s.grantQueue ++ [entry])
    have hasks : (held.lane l).Asks := by rw [hlane]; exact ⟨hphase, hcount⟩
    have hentry : (held.eraseEntry? l).toList = [entry] := by rw [State.eraseEntry?, hjob]; rfl
    have hwaiting : held.resumeLane l = waiting := by
      rw [State.resumeLane_eq hjob hup, if_pos hasks, hentry, hlanes]
      · rfl
      · rw [hlane]
        exact (if_neg (not_not.2 hphase)).trans (if_pos hcount)
    have hgrants := State.grants_grantTest waiting
    refine ⟨waiting.grantTest, ⟨fun hdown => absurd hup hdown, fun _ => ?_⟩, ?_⟩
    · have hsame : (s.updLane l fun x => { x with state := .running, slot := .none, unit := .afterReset }).updLane
          l (fun x => { x with state := .pulseWait }) = s.updLane l fun x =>
            { x with state := .pulseWait, slot := .none, unit := .afterReset } := State.updLane_updLane _ _ _ _
      have hstate : waiting = ((((s.updLane l fun x => { x with
          state := .running, slot := .none, unit := .afterReset }).updLane l fun x =>
            { x with state := .pulseWait }).setJobs
          (j.changedIn s.jobs fun q => { q with state := .active })).setGrantQueue
            (s.grantQueue ++ [entry])) := by rw [hsame]
      rw [hstate] at hgrants
      exact hstate ▸ hgrants
    · rw [hgo, if_pos hup, hwaiting]
      have hframe := State.grantTest_onlyChanges waiting
      exact congrArg Host.Outcome.next (State.transmit_of_sameLink h.2 (hframe .tx (by decide))
        (hframe .replyQueue (by decide)) (hframe .outbox (by decide)))
end

section
/-! PROOF. The end of a cycle under a pending-cancel mark (R25, R32, R172, R174). -/

-- One proof after another: a thread for each of them would take too much memory.
set_option Elab.async false

namespace Sys2Proof.Machine

/-! ### The replies of the deferred cancels -/

/-- An entry whose cancel is replied; a FREE entry has none (R172). -/
def TagEntry.completedBy (e : TagEntry) (reply : Frame) : TagEntry :=
  match e with
  | .free => .free
  | .inFlight d | .replied d _ => .replied d reply

/-- The reply of a deferred cancel of job `id` on a tag (R25). -/
def cancelReply (id : Nat) (tag : Byte) : Frame := replyFrame 0x42 tag .ok [byte id]

theorem TagEntry.completedBy_completedBy (e : TagEntry) (f : Frame) :
    (e.completedBy f).completedBy f = e.completedBy f := by
  cases e <;> rfl

theorem TagEntry.completedBy_ne_free {e : TagEntry} {f : Frame} (h : e ≠ .free) : e.completedBy f ≠ .free := by
  cases e with
  | free => exact absurd rfl h
  | inFlight d => exact TagEntry.noConfusion
  | replied d g => exact TagEntry.noConfusion

theorem tagIndex?_some {tag : Byte} {t : Fin 16} (h : tagIndex? tag = some t) : tag = byte t.val := by
  unfold tagIndex? at h
  split at h
  · obtain rfl := Option.some.inj h
    exact (byte_toNat tag).symm
  · cases h

theorem byte_tag_inj {t u : Fin 16} (h : byte t.val = byte u.val) : t = u := by
  revert t u; decide

theorem State.tagEntry_completeTag (s : State) (t u : Fin 16) (d : Digest) (f : Frame) :
    (s.completeTag t d f).tagEntry u = if t = u then .replied d f else s.tagEntry u := by
  have hplace : ∀ v : State, (v.placeReply f).tagEntry u = v.tagEntry u := fun v => by
    unfold State.placeReply; split <;> rfl
  rw [State.completeTag, hplace]
  by_cases h : t = u
  · subst h
    rw [if_pos rfl]
    exact Vector.getElem_set_self ..
  · rw [if_neg h]
    exact Vector.getElem_set_ne t.isLt u.isLt fun hv => h (Fin.ext hv)

theorem State.completeDeferred_eq {s : State} {tag : Byte} {id : Nat} {t : Fin 16} {d : Digest}
    (ht : tag = byte t.val) (hd : (s.tagEntry t).digest? = some d) :
    s.completeDeferred tag id = s.completeTag t d (cancelReply id tag) := by
  subst ht
  unfold State.completeDeferred
  simp only [tagIndex?_byte, hd]
  rfl

theorem State.completeDeferred_of_free {s : State} {t : Fin 16} (id : Nat) (h : s.tagEntry t = .free) :
    s.completeDeferred (byte t.val) id = s := by
  unfold State.completeDeferred
  simp only [tagIndex?_byte, h, TagEntry.digest?]

/-- What one reply does to the tag table. -/
theorem State.tagEntry_completeDeferred (s : State) (tag : Byte) (id : Nat) (u : Fin 16) :
    (s.completeDeferred tag id).tagEntry u =
      if tag = byte u.val then (s.tagEntry u).completedBy (cancelReply id tag) else s.tagEntry u := by
  cases ht : tagIndex? tag with
  | none =>
    have hne : tag ≠ byte u.val := fun h => by rw [h, tagIndex?_byte] at ht; cases ht
    rw [if_neg hne, State.completeDeferred, ht]
  | some t =>
    obtain rfl := tagIndex?_some ht
    have hiff : byte t.val = byte u.val ↔ t = u := ⟨byte_tag_inj, fun h => by rw [h]⟩
    cases he : s.tagEntry t with
    | free =>
      rw [State.completeDeferred_of_free id he]
      split
      · next h => obtain rfl := hiff.1 h; rw [he]; rfl
      · rfl
    | inFlight d =>
      rw [State.completeDeferred_eq rfl (by rw [he]; rfl), State.tagEntry_completeTag]
      by_cases h : t = u
      · subst h; rw [if_pos rfl, if_pos rfl, he]; rfl
      · rw [if_neg h, if_neg fun hb => h (hiff.1 hb)]
    | replied d f =>
      rw [State.completeDeferred_eq rfl (by rw [he]; rfl), State.tagEntry_completeTag]
      by_cases h : t = u
      · subst h; rw [if_pos rfl, if_pos rfl, he]; rfl
      · rw [if_neg h, if_neg fun hb => h (hiff.1 hb)]

/-- The replies of the tags of a mark, in its order (R25, R172). -/
def State.completeAll (s : State) (tags : List Byte) (id : Nat) : State :=
  tags.foldl (fun v tag => v.completeDeferred tag id) s

theorem State.tagEntry_completeAll (s : State) (tags : List Byte) (id : Nat) (u : Fin 16) :
    (s.completeAll tags id).tagEntry u =
      if byte u.val ∈ tags then (s.tagEntry u).completedBy (cancelReply id (byte u.val))
      else s.tagEntry u := by
  induction tags generalizing s with
  | nil => rfl
  | cons tag tags ih =>
    have hcons : s.completeAll (tag :: tags) id = (s.completeDeferred tag id).completeAll tags id := rfl
    rw [hcons, ih, State.tagEntry_completeDeferred]
    by_cases h : tag = byte u.val
    · subst h
      rw [if_pos rfl, if_pos List.mem_cons_self, TagEntry.completedBy_completedBy, ite_self]
    · simp only [if_neg h, List.mem_cons, Ne.symm h, false_or]

theorem State.replyQueue_placeReply (s : State) (f : Frame) (q : List Frame) :
    s.replyQueue ++ (f :: q).take (8 - s.replyQueue.length) =
      (s.placeReply f).replyQueue ++ q.take (8 - (s.placeReply f).replyQueue.length) := by
  unfold State.placeReply
  by_cases h : s.replyQueue.length < 8
  · rw [if_pos h]
    obtain ⟨n, hn⟩ : ∃ n, 8 - s.replyQueue.length = n + 1 := ⟨7 - s.replyQueue.length, by omega⟩
    have hrest : 8 - (s.replyQueue ++ [f]).length = n := by
      rw [List.length_append, List.length_singleton]; omega
    show _ = (s.replyQueue ++ [f]) ++ q.take (8 - (s.replyQueue ++ [f]).length)
    rw [hn, hrest, List.take_succ_cons, List.append_assoc]
    rfl
  · rw [if_neg h, show 8 - s.replyQueue.length = 0 by omega, List.take_zero, List.take_zero]

theorem State.completeAll_replyQueue {tags : List Byte} {id : Nat} (s : State)
    (h : ∀ tag ∈ tags, ∃ t : Fin 16, tag = byte t.val ∧ s.tagEntry t ≠ .free) :
    (s.completeAll tags id).replyQueue =
      s.replyQueue ++ (tags.map (cancelReply id)).take (8 - s.replyQueue.length) := by
  induction tags generalizing s with
  | nil => simp [State.completeAll]
  | cons tag tags ih =>
    obtain ⟨t, ht, hfree⟩ := h tag List.mem_cons_self
    have hcons : s.completeAll (tag :: tags) id = (s.completeDeferred tag id).completeAll tags id := rfl
    have hplaced : (s.completeDeferred tag id).replyQueue = (s.placeReply (cancelReply id tag)).replyQueue := by
      obtain ⟨d, hd⟩ : ∃ d, (s.tagEntry t).digest? = some d := by
        cases he : s.tagEntry t with
        | free => exact absurd he hfree
        | inFlight d => exact ⟨d, rfl⟩
        | replied d f => exact ⟨d, rfl⟩
      rw [State.completeDeferred_eq ht hd, State.completeTag]
      unfold State.placeReply
      show (if s.replyQueue.length < 8 then _ else _ : State).replyQueue = _
      split <;> rfl
    rw [hcons, ih, hplaced, List.map_cons, State.replyQueue_placeReply]
    intro tag' htag'
    obtain ⟨u, hu, hfree'⟩ := h tag' (List.mem_cons_of_mem _ htag')
    refine ⟨u, hu, ?_⟩
    rw [State.tagEntry_completeDeferred]
    split
    · exact TagEntry.completedBy_ne_free hfree'
    · exact hfree'

theorem State.completeAll_onlyChanges (s : State) (tags : List Byte) (id : Nat) :
    s.OnlyChanges (s.completeAll tags id) [.tags, .replyQueue] :=
  State.OnlyChanges.foldl (fun v tag => v.completeDeferred_onlyChanges tag id) tags s

/-! ### The end of the cycle -/

section
variable {s : State} {l : LaneId} {c : Cycle} {j : Job} {marked : List Byte}

theorem State.cycleEnds_marked (hm : (s.lane l).context.mark = some marked) (kind : CycleKind)
    (o : CycleOutcome) (data : List Byte) :
    s.cycleEnds l kind o data = (s.quiet l).endDeferred l marked o := by
  unfold State.cycleEnds
  simp only [hm]
  rfl

/-- The switch of the lane is open, and the Arbiter has granted (R25, R88). -/
def State.released? (s : State) (l : LaneId) : State :=
  if (s.lane l).lvpClosed then (s.openSwitch l .none).grantTest else s.updLane l fun x => { x with slot := .none }

theorem State.endDeferred_eq (hj : (s.lane l).current = some j.id) (o : CycleOutcome) :
    s.endDeferred l marked o =
      let ended := (s.released? l).finishJob j.id .cancelled .cancelled (o != .ready) true
      (ended.setDeferred (ended.deferred.filter fun d => decide (d.job ≠ j.id))).completeAll marked j.id := by
  have hfilter : (fun d : DeferredCancel => d.job != j.id) = fun d => decide (d.job ≠ j.id) := by
    funext d; simp [bne, beq_eq_decide]
  unfold State.endDeferred
  simp only [hj, hfilter]
  rfl

/-- What the release of the switch leaves alone. -/
theorem State.released?_onlyChanges (s : State) (l : LaneId) :
    s.OnlyChanges (s.released? l) [.lanes, .freeUnits, .grantQueue] := by
  unfold State.released?
  split
  · exact ((s.openSwitch_onlyChanges l .none).mono (by decide)).trans (State.grantTest_onlyChanges _)
  · exact (s.updLane_onlyChanges l _).mono (by decide)

/-- The ways in which a marked cycle ends: `failed` unless it ended READY. -/
theorem exec_marked (h : s.Ready) (ha : s.Answering l c) {b : Byte} {failed : Bool} {command : Instr}
    (hend : failed = false ∧ command = .answerSlot l b ∧
        ((c.ready = true ∧ ((c.kind ∈ [.read, .marginP, .marginE] ∧ c.dataBytes = []) ∨
            (c.kind = .ident ∧ c.dataBytes.length = 1))) ∨
          (c.SlotOpen ∧ c.kind ∈ [.load, .pulseP, .pulseE, .pulseEnd] ∧ b = 0x3C)) ∨
      failed = true ∧ command = .answerSlot l b ∧ c.SlotOpen ∧
        (b ∉ [0xFF, 0x3C, 0x71, 0x72] ∨ (b = 0xFF ∧ c.windowEnd ≤ c.now)) ∨
      failed = true ∧ c.ready = false ∧
        command = (if c.windowEnd ≤ c.lastSlotEnd then .answerWindowClose l else .cycleCeiling l)) :
    ∃ (o : CycleOutcome) (data : List Byte), (o != .ready) = failed ∧
      exec command s = .next (s.cycleEnds l c.kind o data).transmit := by
  have hsilent : (c.silentOutcome != .ready) = true := by
    have hreason := c.silentOutcome_reason
    cases ho : c.silentOutcome <;> first | rfl | (rw [ho] at hreason; cases hreason)
  obtain ⟨rfl, rfl, ⟨hr, hdata⟩ | ⟨hopen, hk, rfl⟩⟩ | ⟨rfl, rfl, hopen, hb | ⟨rfl, hw⟩⟩ |
    ⟨rfl, hr, rfl⟩ := hend
  · refine ⟨.ready, _, rfl, exec_answerSlot_ends h ha (Cycle.slot_lastData hr ?_)⟩
    obtain ⟨hk, hd⟩ | ⟨hk, hd⟩ := hdata
    · rw [hd]
      simp only [List.mem_cons, List.not_mem_nil, or_false] at hk
      obtain hk | hk | hk := hk <;> rw [hk] <;> rfl
    · rw [hk, hd]; rfl
  · refine ⟨.ready, _, rfl, exec_answerSlot_ends h ha (Cycle.slot_ready hopen ?_)⟩
    simp only [List.mem_cons, List.not_mem_nil, or_false] at hk
    obtain hk | hk | hk | hk := hk <;> rw [hk] <;> rfl
  · exact ⟨_, _, by split <;> rfl, exec_answerSlot_ends h ha (Cycle.slot_bad hopen hb)⟩
  · exact ⟨_, _, hsilent, exec_answerSlot_ends h ha (Cycle.slot_silent hopen hw)⟩
  · by_cases hclose : c.windowEnd ≤ c.lastSlotEnd
    · have hcan : c.windowCanClose = true := by
        rw [Cycle.windowCanClose, hr, decide_eq_true hclose]; rfl
      exact ⟨_, _, hsilent, by rw [if_pos hclose, exec_answerWindowClose_of_ready h ha, if_pos hcan]; rfl⟩
    · have hcan : c.ceilingCanCome = true := by
        rw [Cycle.ceilingCanCome, hr, decide_eq_true (Nat.not_le.1 hclose)]; rfl
      exact ⟨.timeout, [], rfl, by
        rw [if_neg hclose, exec_cycleCeiling_of_ready h ha, if_pos hcan]; rfl⟩

end

end Sys2Proof.Machine

open Sys2Proof Sys2Proof.Machine

/-- Settles O57: the switch is released, the job ends, and the tags of the mark are replied. -/
theorem deferredCancelEnds : Obligations.DeferredCancelEnds := by
  intro s l c j b marked failed command h ha hm hj hl hend quiet reply
  obtain ⟨o, data, hfailed, hexec⟩ := exec_marked h ha hend
  have hquiet : (s.quiet l).lane l = { s.lane l with unit := .afterReset } := State.quiet_lane
  have hswitch : ((s.quiet l).lane l).lvpClosed = (s.lane l).lvpClosed := by rw [hquiet]
  obtain ⟨hcurrent, -⟩ := State.currentJob?_some (State.quiet_currentJob? (l := l) hj)
  obtain ⟨-, hjob⟩ := State.currentJob?_some hj
  have hframe : s.OnlyChanges ((s.quiet l).released? l) [.lanes, .freeUnits, .grantQueue] :=
    ((s.updLane_onlyChanges l _).mono (by decide)).trans ((s.quiet l).released?_onlyChanges l)
  have hjobs : ((s.quiet l).released? l).jobs = s.jobs := hframe .jobs (by decide)
  obtain ⟨w, hw, hfinish⟩ := State.finishJob_current
    ((State.job?_of_jobs hjobs j.id).trans hjob) hl .cancelled .cancelled failed
  have hended : s.OnlyChanges (w.startHead l) [.lanes, .freeUnits, .grantQueue, .jobs, .blocks, .outbox] :=
    ((hframe.mono (by decide)).trans (hw.onlyChanges.mono (by decide))).trans
      ((w.startHead_onlyChanges l).mono (by decide))
  have htags : (w.startHead l).tags = s.tags := hended .tags (by decide)
  have hqueue : (w.startHead l).replyQueue = s.replyQueue := hended .replyQueue (by decide)
  have hdeferred : (w.startHead l).deferred = s.deferred := hended .deferred (by decide)
  obtain ⟨p, hp⟩ : ∃ p, p = (w.startHead l).setDeferred (s.deferred.filter fun d => decide (d.job ≠ j.id)) :=
    ⟨_, rfl⟩
  have hentry : ∀ t, p.tagEntry t = s.tagEntry t := fun t => by
    rw [hp]; exact congrArg (fun q : Vector TagEntry 16 => q.get t) htags
  refine ⟨_, w, p.completeAll marked j.id, fun hopen => ?_, fun hclosed => ?_, hw, ?_, ?_, ?_, ?_, ?_, ?_⟩
  · rw [State.released?, hswitch, hopen]; rfl
  · rw [State.released?, hswitch, hclosed]; exact State.grants_grantTest _
  · have hset : (w.startHead l).OnlyChanges p [.tags, .replyQueue, .deferred] :=
      hp ▸ (State.setDeferred_onlyChanges _ _).mono (by decide)
    exact hset.trans ((State.completeAll_onlyChanges p marked j.id).mono (by decide))
  · have hkept := State.completeAll_onlyChanges p marked j.id .deferred (by decide)
    exact Eq.trans hkept (by rw [hp]; rfl)
  · intro t d hmem hflight
    rw [State.tagEntry_completeAll, if_pos hmem, hentry, hflight]
    rfl
  · intro t hmem
    rw [State.tagEntry_completeAll, if_neg hmem, hentry]
  · intro hall
    have hq : p.replyQueue = s.replyQueue := by rw [hp]; exact hqueue
    rw [State.completeAll_replyQueue p fun tag hmem => ?_, hq]
    · rfl
    · obtain ⟨t, d, htag, hflight⟩ := hall tag hmem
      exact ⟨t, htag, by rw [hentry, hflight]; exact TagEntry.noConfusion⟩
  · rw [hexec, State.cycleEnds_marked hm, State.endDeferred_eq hcurrent]
    simp only [hfailed, hfinish, hdeferred, hp]
end

section
/-! PROOF. Acknowledgements and the entries that they free (R19, R198, R207), and the offers of SUPPLY and
PROGRESS (R199, R200). -/

-- One proof after another: a thread for each of them would take too much memory.
set_option Elab.async false

namespace Sys2Proof.Machine

/-! ### Serving the waiting lanes does not look at the tag of the request in hand -/

section
variable {s w : State} {t : Fin 16} {e : TagEntry}

theorem State.sentWaiting_setTagEntry (l : LaneId) (others : List LaneId) (j : Job) (more : List Nat) :
    (s.setTagEntry t e).sentWaiting l others j more = (s.sentWaiting l others j more).setTagEntry t e := rfl

theorem State.updLane_setTagEntry (l : LaneId) (f : Lane → Lane) :
    (s.setTagEntry t e).updLane l f = (s.updLane l f).setTagEntry t e := rfl

theorem State.served_setTagEntry (l : LaneId) (others : List LaneId) (j : Job) (more : List Nat) :
    (s.setTagEntry t e).served l others j more = (s.served l others j more).setTagEntry t e := by
  rw [State.served_eq, State.served_eq, State.sentWaiting_setTagEntry, State.updLane_setTagEntry,
    State.startHead_setTagEntry]
  exact (apply_ite (fun v : State => v.setTagEntry t e) _ _ _).symm

theorem State.ServesWaiting.untag (h : (s.setTagEntry t e).ServesWaiting w) :
    ∃ v : State, s.ServesWaiting v ∧ w = v.setTagEntry t e := by
  generalize hx : s.setTagEntry t e = x at h
  induction h generalizing s with
  | ended x done => subst hx; exact ⟨s, .ended s done, rfl⟩
  | turn x w l others id more j head free first named rest ih =>
    subst hx
    obtain ⟨v, hv, hw⟩ := ih (State.served_setTagEntry l others j more).symm
    exact ⟨v, .turn s v l others id more j head free first named hv, hw⟩

end

/-! ### What an acknowledgement does (R207) -/

/-- The outbox once a number is acknowledged, with the records `behind` left. -/
def Outbox.ackedTo (o : Outbox) (behind : List Report) : Outbox := { o with
  records := behind
  round := 0
  timer := if behind.any (fun q => q.transmitted) then some 250 else none }

theorem Report.acked_eq_false {r : Report} {n : Byte} : r.acked n = false ↔ (r.transmitted = true → r.seq ≠ n) := by
  unfold Report.acked
  cases r.transmitted <;> simp

theorem Report.acked_eq_true {r : Report} {n : Byte} : r.acked n = true ↔ r.transmitted = true ∧ r.seq = n := by
  unfold Report.acked
  simp

theorem takeReportAck_stale {s : State} {n : Byte}
    (h : ∀ r ∈ s.outbox.records, r.transmitted = true → r.seq ≠ n) :
    takeReportAck s [n] = s.refuse .stale := by
  have hnone : s.outbox.acknowledge n = none := by
    refine if_neg ?_
    rw [List.any_eq_true]
    rintro ⟨r, hr, hacked⟩
    obtain ⟨hsent, hseq⟩ := Report.acked_eq_true.1 hacked
    exact h r hr hsent hseq
  unfold takeReportAck
  simp only [show at? [n] 0 = n from rfl, hnone]

theorem takeReportAck_acked {s : State} {n : Byte} {ahead behind : List Report} {r : Report}
    (hrec : s.outbox.records = ahead ++ r :: behind) (hahead : ∀ q ∈ ahead, q.acked n = false)
    (hr : r.acked n = true) :
    takeReportAck s [n] = .replied .ok [n] (s.setOutbox (s.outbox.ackedTo behind)).serveFreed := by
  unfold takeReportAck
  simp only [show at? [n] 0 = n from rfl, Outbox.acknowledge_append hrec hahead hr]
  rfl

/-- The owed notice takes a free entry, if one is free (R198 step 1). -/
theorem Outbox.serveOwed_eq (o : Outbox) : o.serveOwed = match o.owed with
    | none => o
    | some notice =>
      if o.records.length < 16 then { o with
        records := o.records ++
          [{ body := .supply notice, seq := o.nextSeq, transmitted := false, mark := false }]
        nextSeq := o.nextSeq + 1
        owed := none }
      else o := by
  unfold Outbox.serveOwed Outbox.hasFreeEntry
  cases o.owed with
  | none => rfl
  | some notice =>
    by_cases h : o.records.length < 16
    · simp only [h, decide_true, if_true]; rfl
    · simp only [h, decide_false, Bool.false_eq_true, if_false]

theorem Outbox.endStall_of_not_stalled {o : Outbox} (h : o.stalled = false) : o.endStall = o := by
  unfold Outbox.endStall; rw [h]; rfl

section
variable {s : State} {t : Fin 16} {n : Byte} {ahead behind : List Report} {r : Report}

/-- REPORT-ACK of a transmitted number: the owed notice takes a freed entry, then the waiting lanes do. -/
theorem State.Takes.exec_reportAck (h : s.Takes t (requestFrame .reportAck t [n])) (hk : s.WaitingKnown)
    (hrec : s.heard.outbox.records = ahead ++ r :: behind)
    (hahead : ∀ q ∈ ahead, q.transmitted = true → q.seq ≠ n) (hsent : r.transmitted = true)
    (hseq : r.seq = n) :
    ∃ (w : State) (reportFirst : Bool),
      (s.heard.setOutbox (s.heard.outbox.ackedTo behind).serveOwed).ServesWaiting w ∧
      exec (.reportAck (byte t.val) [n]) s = .next (w.answeredBeside s.outbox.stalled reportFirst t
        (requestFrame .reportAck t [n]) .ok [n]) := by
  let e : TagEntry := .inFlight (requestFrame .reportAck t [n]).digest
  let x := s.heard.setOutbox (s.heard.outbox.ackedTo behind).serveOwed
  have hlanes : (x.setTagEntry t e).outbox.waitingLanes = s.outbox.waitingLanes :=
    (Outbox.serveOwed_waitingLanes _).trans (Outbox.endStall_waitingLanes _)
  have hknown : (x.setTagEntry t e).WaitingKnown := by
    obtain ⟨hnodup, hends⟩ := hk
    refine ⟨by rw [hlanes]; exact hnodup, fun l hl => hends l (by rw [← hlanes]; exact hl)⟩
  obtain ⟨w, hw, heq⟩ := (State.serveWaiting_serveFuel _ hknown).untag
  have hframe : (x.setTagEntry t e).OnlyChanges (w.setTagEntry t e) [.lanes, .jobs, .outbox] := by
    rw [← heq]; exact serveWaiting_onlyChanges _ _
  refine ⟨w, _, hw, h.exec_beside rfl (by simp) rfl (by decide) ?_ (hframe .tx (by decide))
    (hframe .replyQueue (by decide))⟩
  rw [carryOut, takeReportAck_acked (s := s.heard.setTagEntry t _) hrec
    (fun q hq => Report.acked_eq_false.2 (hahead q hq)) (Report.acked_eq_true.2 ⟨hsent, hseq⟩)]
  exact congrArg (Taken.replied _ _) heq

end

/-- An acknowledged general record leaves a free general entry. -/
theorem Outbox.Lawful.freeGeneral_ackedTo {o : Outbox} (h : o.Lawful) {gone behind : List Report}
    (hrec : o.records = gone ++ behind) (hgeneral : ∃ q ∈ gone, q.isSupply = false) :
    0 < (o.ackedTo behind).freeGeneral := by
  have hsize : o.records.length ≤ 16 := h.size
  have hmost : o.general ≤ 15 := h.general
  obtain ⟨q, hq, hsupply⟩ := hgeneral
  have hlength : 0 < gone.length := List.length_pos_of_mem hq
  have hcount : 0 < gone.countP fun r => !r.isSupply :=
    List.countP_pos_iff.2 ⟨q, hq, by rw [hsupply]; rfl⟩
  rw [Outbox.general, hrec, List.countP_append] at hmost
  rw [hrec, List.length_append] at hsize
  rw [Outbox.freeGeneral_pos, Outbox.general]
  show behind.length < 16 ∧ behind.countP _ < 15
  omega

/-- One waiting lane with one WAITING job is served in one turn. -/
theorem State.ServesWaiting.eq_served {s w : State} (h : s.ServesWaiting w) {l : LaneId} {j : Job}
    (hlanes : s.outbox.waitingLanes = [l]) (hfree : 0 < s.outbox.freeGeneral)
    (hends : (s.lane l).waitingEnds = [j.id]) (hj : s.job? j.id = some j) : w = s.served l [] j [] := by
  cases h with
  | ended _ finished =>
    rcases finished with hnil | hzero
    · rw [hlanes] at hnil; cases hnil
    · omega
  | turn _ _ l' others id more j' head free first named rest =>
    rw [hlanes] at head
    cases head
    rw [hends] at first
    cases first
    rw [hj] at named
    cases named
    refine rest.eq_of_nil ?_
    rw [State.outbox_served, if_pos rfl]

/-! ### Offers -/

/-- An untransmitted SUPPLY record (R200). -/
def Report.unsentSupply (r : Report) : Bool := !r.transmitted && r.isSupply

/-- An untransmitted PROGRESS of job `id` (R199). -/
def Report.unsentProgress (id : Nat) (r : Report) : Bool := !r.transmitted && r.isProgressOf id

theorem Report.unsentSupply_eq_false {r : Report} :
    r.unsentSupply = false ↔ (r.isSupply = true → r.transmitted = true) := by
  unfold Report.unsentSupply
  cases r.transmitted <;> cases r.isSupply <;> simp

section
variable {o : Outbox} {ahead behind : List Report} {r : Report}

theorem any_of_append {p : Report → Bool} (hrec : o.records = ahead ++ r :: behind) (hr : p r = true) :
    o.records.any p = true :=
  List.any_eq_true.2 ⟨r, hrec ▸ List.mem_append_right _ List.mem_cons_self, hr⟩

theorem not_any_of_forall {p : Report → Bool} (h : ∀ q ∈ o.records, p q = false) : ¬ o.records.any p = true := by
  rw [List.any_eq_true]
  rintro ⟨q, hq, hp⟩
  rw [h q hq] at hp
  cases hp

theorem Outbox.offerSupply_merges (hrec : o.records = ahead ++ r :: behind)
    (hahead : ∀ q ∈ ahead, q.unsentSupply = false) (hr : r.unsentSupply = true) (n : Notice) :
    o.offerSupply n = { o with records := ahead ++ { r with body := .supply n } :: behind } := by
  refine (if_pos (any_of_append (p := Report.unsentSupply) hrec hr)).trans ?_
  rw [hrec]
  exact congrArg (fun rs => { o with records := rs }) (updateFirst_append hahead hr)

theorem Outbox.offerSupply_joins (h : ∀ q ∈ o.records, q.unsentSupply = false) (n : Notice) :
    o.offerSupply n =
      if o.owed.isSome = true ∨ 16 ≤ o.records.length then { o with owed := some n }
      else o.enqueue (.supply n) := by
  refine (if_neg (not_any_of_forall h)).trans ?_
  by_cases howed : o.owed.isSome = true
  · rw [if_pos howed, if_pos (.inl howed)]
  · by_cases hfull : 16 ≤ o.records.length
    · rw [if_pos (Or.inr hfull), if_neg howed]
      refine if_neg ?_
      rw [Outbox.hasFreeEntry, decide_eq_true_eq]
      exact Nat.not_lt.2 hfull
    · rw [if_neg (not_or.2 ⟨howed, hfull⟩), if_neg howed]
      refine if_pos ?_
      rw [Outbox.hasFreeEntry, decide_eq_true_eq]
      exact Nat.not_le.1 hfull

theorem Outbox.offerProgress_merges {id : Nat} (hrec : o.records = ahead ++ r :: behind)
    (hr : r.unsentProgress id = true) (hbehind : ∀ q ∈ behind, q.unsentProgress id = false) (l : LaneId)
    (done : Nat) : o.offerProgress id l done =
      { o with records := ahead ++ { r with body := .progress id l done } :: behind } := by
  refine (if_pos (any_of_append (p := Report.unsentProgress id) hrec hr)).trans ?_
  rw [hrec]
  exact congrArg (fun rs => { o with records := rs }) (updateLast_append hr hbehind)

theorem Outbox.offerProgress_joins {id : Nat} (h : ∀ q ∈ o.records, q.unsentProgress id = false)
    (l : LaneId) (done : Nat) : o.offerProgress id l done =
      if 4 ≤ o.freeGeneral then o.enqueue (.progress id l done) else o :=
  if_neg (not_any_of_forall h)

end

end Sys2Proof.Machine

open Sys2Proof Sys2Proof.Machine

/-- Settles O58: the number is looked up among the transmitted records. -/
theorem ackRemovesReports : Obligations.AckRemovesReports := by
  intro s t n f o h
  refine ⟨fun hstale => h.exec_unchanged rfl (by simp) rfl fun d =>
    takeReportAck_stale (s := s.heard.setTagEntry t _) hstale, ?_⟩
  intro ahead r behind hrec hahead hsent hseq hnone left given
  have hlanes : s.outbox.waitingLanes = [] := (Outbox.endStall_waitingLanes s.outbox).symm.trans hnone
  have hknown : s.WaitingKnown := by
    unfold State.WaitingKnown
    rw [hlanes]
    exact ⟨List.nodup_nil, fun l hl => absurd hl List.not_mem_nil⟩
  obtain ⟨w, reportFirst, hserves, hexec⟩ := h.exec_reportAck hknown hrec hahead hsent hseq
  have hgiven : (o.ackedTo behind).serveOwed = given := Outbox.serveOwed_eq _
  rw [hserves.eq_of_nil ((Outbox.serveOwed_waitingLanes _).trans hnone)] at hexec
  exact ⟨reportFirst, by rw [← hgiven]; exact hexec⟩

/-- Settles O59: the turns of the waiting lanes follow the owed notice. -/
theorem ackServesTheWaitingLane : Obligations.AckServesTheWaitingLane := by
  refine ⟨?_, ?_⟩
  · intro s t n ahead behind r f o h hk hrec hahead hsent hseq left given
    have hgiven : (o.ackedTo behind).serveOwed = given := Outbox.serveOwed_eq _
    obtain ⟨w, reportFirst, hserves, hexec⟩ := h.exec_reportAck hk hrec hahead hsent hseq
    exact ⟨w, reportFirst, by rw [← hgiven]; exact hserves, hexec⟩
  · intro s t n l id j ahead behind r f h hstalled hlawful hrec hsent hseq hahead howed hlanes hends hj
      hstate hfor hlane hgeneral
    obtain ⟨rfl, -⟩ := State.job?_some hj
    have hknown : s.WaitingKnown := by
      unfold State.WaitingKnown
      rw [hlanes]
      refine ⟨List.nodup_singleton l, fun m hm => ?_⟩
      obtain rfl := List.mem_singleton.1 hm
      rw [hends]
      refine ⟨List.cons_ne_nil _ _, fun i hi => ?_⟩
      rw [List.mem_singleton.1 hi, hj]
      rfl
    have houtbox : s.heard.outbox = s.outbox := Outbox.endStall_of_not_stalled hstalled
    have hleft : (s.heard.outbox.ackedTo behind).serveOwed = s.outbox.ackedTo behind := by
      rw [houtbox, Outbox.serveOwed_eq, show (s.outbox.ackedTo behind).owed = none from howed]
    obtain ⟨w, reportFirst, hserves, hexec⟩ := h.exec_reportAck hknown (houtbox ▸ hrec)
      (fun q hq _ => hahead q hq) hsent hseq
    rw [hleft] at hserves
    let x := s.heard.setOutbox (s.outbox.ackedTo behind)
    have hw : w = x.served l [] j [] := hserves.eq_served hlanes
      (hlawful.freeGeneral_ackedTo (gone := ahead ++ [r]) (by rw [hrec]; simp) hgeneral) hends hj
    rw [State.served_eq, if_pos (show (x.lane l).state = .reportWait ∧ (x.lane l).waitFor = some j.id from
      ⟨hstate, hfor⟩)] at hw
    refine ⟨(x.sentWaiting l [] j []).updLane l fun y => { y with
      state := if j.laneStopped then .stopped else .idle
      waitFor := none }, reportFirst, rfl, rfl, ?_, fun m hm => ?_, ?_, ?_⟩
    · rw [State.sentWaiting, State.updLane_updLane, State.lane_updLane_self]
      rfl
    · rw [State.sentWaiting, State.updLane_updLane, State.lane_updLane_ne _ _ (Ne.symm hm)]
      rfl
    · intro g hg
      cases g <;> first | exact absurd (by decide) hg | rfl
    · rw [← hw, ← hstalled]
      exact hexec

/-- Settles O60: an offer finds its record, or joins the tail. -/
theorem offersMergeOrJoinTheOutbox : Obligations.OffersMergeOrJoinTheOutbox := by
  refine ⟨fun o n => ⟨fun ahead r behind hrec hahead hr hsent => ?_, fun hnone => ?_⟩, ?_⟩
  · refine Outbox.offerSupply_merges hrec (fun q hq => Report.unsentSupply_eq_false.2 (hahead q hq)) ?_ n
    rw [Report.unsentSupply, hsent, hr]
    rfl
  · have hjoins := Outbox.offerSupply_joins (fun q hq => Report.unsentSupply_eq_false.2 (hnone q hq)) n
    refine ⟨fun hfull => by rw [hjoins, if_pos hfull], fun howed hroom => ?_⟩
    rw [hjoins, if_neg (not_or.2 ⟨by rw [howed]; simp, Nat.not_le.2 hroom⟩)]
    rfl
  · intro o id l done mine
    refine ⟨fun ahead r behind hrec hr hbehind => Outbox.offerProgress_merges hrec hr hbehind l done,
      fun hnone => ⟨fun hroom => ?_, fun hfull => ?_⟩⟩
    · rw [Outbox.offerProgress_joins hnone, if_pos (show 4 ≤ o.freeGeneral from hroom)]
      rfl
    · rw [Outbox.offerProgress_joins hnone, if_neg (show ¬ 4 ≤ o.freeGeneral from Nat.not_le.2 hfull)]
end

section
/-! PROOF. The bytes of a frame, received one by one (R159 to R165, R185). -/

-- One proof after another: a thread for each of them would take too much memory.
set_option Elab.async false

namespace Sys2Proof.Machine

/-! ### One byte through the receiver -/

/-- The frame that the byte completes with a good CRC (R161, R165). -/
def Receiver.completes? (r : Receiver) (b : RxByte) : Option Frame :=
  let kept := r.kept ++ [b]
  if r.phase = .check ∧ kept.length = 7 + keptLength kept ∧ (keptFrame kept).crc.toNat = keptCrc kept then
    some (keptFrame kept)
  else none

/-- The receiver after a byte that completes no good frame (R161 to R163, R165). -/
def Receiver.next (r : Receiver) (b : RxByte) : Receiver :=
  let kept := r.kept ++ [b]
  match r.phase with
  | .hunt => if b.byte = 0xA5 then { r with phase := .header, kept := [b], timer := some b.moment } else r
  | .header =>
    if kept.length = 3 ∧ 260 < keptLength kept then { r with kept := kept }.discard
    else if kept.length = 5 then
      { r with kept := kept, phase := if keptLength kept = 0 then .check else .payload }
    else { r with kept := kept }
  | .payload =>
    { r with kept := kept, phase := if kept.length = 5 + keptLength kept then .check else .payload }
  | .check =>
    if kept.length = 7 + keptLength kept then { r with kept := kept }.discard else { r with kept := kept }

section
variable {s : State} {r : Receiver} {b : RxByte}

theorem Receiver.completes?_of_ne (h : r.phase ≠ .check) : r.completes? b = none :=
  if_neg fun hc => h hc.1

theorem Receiver.completes?_of_short (h : (r.kept ++ [b]).length ≠ 7 + keptLength (r.kept ++ [b])) :
    r.completes? b = none :=
  if_neg fun hc => h hc.2.1

theorem Receiver.completes?_of_good (hp : r.phase = .check)
    (hlen : (r.kept ++ [b]).length = 7 + keptLength (r.kept ++ [b]))
    (hcrc : (keptFrame (r.kept ++ [b])).crc.toNat = keptCrc (r.kept ++ [b])) :
    r.completes? b = some (keptFrame (r.kept ++ [b])) :=
  if_pos ⟨hp, hlen, hcrc⟩

theorem Receiver.completes?_of_bad (hcrc : (keptFrame (r.kept ++ [b])).crc.toNat ≠ keptCrc (r.kept ++ [b])) :
    r.completes? b = none :=
  if_neg fun hc => hcrc hc.2.2

theorem Receiver.completes?_some {f : Frame} (h : r.completes? b = some f) :
    r.phase = .check ∧ (r.kept ++ [b]).length = 7 + keptLength (r.kept ++ [b]) ∧
      (keptFrame (r.kept ++ [b])).crc.toNat = keptCrc (r.kept ++ [b]) ∧ f = keptFrame (r.kept ++ [b]) := by
  by_cases hc : r.phase = .check ∧ (r.kept ++ [b]).length = 7 + keptLength (r.kept ++ [b]) ∧
      (keptFrame (r.kept ++ [b])).crc.toNat = keptCrc (r.kept ++ [b])
  · obtain ⟨hp, hlen, hcrc⟩ := hc
    rw [Receiver.completes?_of_good hp hlen hcrc] at h
    exact ⟨hp, hlen, hcrc, (Option.some.inj h).symm⟩
  · rw [show r.completes? b = none from if_neg hc] at h
    cases h

theorem Receiver.next_hunt (hp : r.phase = .hunt) : r.next b =
    if b.byte = 0xA5 then { r with phase := .header, kept := [b], timer := some b.moment } else r := by
  simp only [Receiver.next, hp]

theorem Receiver.next_header (hp : r.phase = .header) : r.next b =
    if (r.kept ++ [b]).length = 3 ∧ 260 < keptLength (r.kept ++ [b]) then
      { r with kept := r.kept ++ [b] }.discard
    else if (r.kept ++ [b]).length = 5 then { r with
      kept := r.kept ++ [b]
      phase := if keptLength (r.kept ++ [b]) = 0 then .check else .payload }
    else { r with kept := r.kept ++ [b] } := by
  simp only [Receiver.next, hp]

theorem Receiver.next_payload (hp : r.phase = .payload) : r.next b = { r with
    kept := r.kept ++ [b]
    phase := if (r.kept ++ [b]).length = 5 + keptLength (r.kept ++ [b]) then .check else .payload } := by
  simp only [Receiver.next, hp]

theorem Receiver.next_check (hp : r.phase = .check) : r.next b =
    if (r.kept ++ [b]).length = 7 + keptLength (r.kept ++ [b]) then { r with kept := r.kept ++ [b] }.discard
    else { r with kept := r.kept ++ [b] } := by
  simp only [Receiver.next, hp]

/-- A byte that completes no frame acts on the receiver alone. -/
theorem State.rxByte_of_none (h : s.rx.completes? b = none) : s.rxByte b = s.setRx (s.rx.next b) := by
  cases hp : s.rx.phase with
  | hunt =>
    rw [Receiver.next_hunt hp]
    by_cases hb : b.byte = 0xA5
    · rw [State.rxByte_hunt_start hp hb, if_pos hb]
    · rw [State.rxByte_hunt_other hp hb, if_neg hb]; rfl
  | header =>
    rw [Receiver.next_header hp, apply_ite s.setRx, apply_ite s.setRx]
    simp only [State.rxByte, hp]
  | payload => simp only [State.rxByte, Receiver.next_payload hp, hp]
  | check =>
    rw [Receiver.next_check hp, apply_ite s.setRx]
    simp only [State.rxByte, hp]
    by_cases hlen : (s.rx.kept ++ [b]).length = 7 + keptLength (s.rx.kept ++ [b])
    · rw [if_pos hlen, if_pos hlen]
      refine if_neg fun hcrc => ?_
      rw [Receiver.completes?_of_good hp hlen hcrc] at h
      cases h
    · rw [if_neg hlen, if_neg hlen]

/-- A byte that completes a frame hands it to Dispatch from HUNT. -/
theorem State.rxByte_of_some {f : Frame} (h : s.rx.completes? b = some f) :
    s.rxByte b = (s.setRx s.rx.hunting).frameArrives f := by
  obtain ⟨hp, hlen, hcrc, rfl⟩ := Receiver.completes?_some h
  unfold State.rxByte
  simp only [hp, hlen, hcrc, if_true]

end

/-! ### The bytes of one frame -/

section
variable {f : Frame} {ks rest : List RxByte} {b : RxByte}

theorem Frame.bytes_eq (f : Frame) : f.bytes =
    [0xA5, byte (f.payload.length / 256), byte f.payload.length, f.kind, f.tag] ++ (f.payload ++ be16 f.crc.toNat) := by
  simp [Frame.bytes, Frame.covered, be16]

theorem Frame.bytes_length (f : Frame) : f.bytes.length = 7 + f.payload.length := by
  rw [Frame.bytes_eq]
  simp [be16]
  omega

/-- The length bytes of a frame, once they are kept. -/
theorem keptLength_of_bytes (h : rxBytes ks ++ rxBytes rest = f.bytes) (hk : 3 ≤ ks.length)
    (hp : f.payload.length ≤ 260) : keptLength ks = f.payload.length := by
  have hlen : 3 ≤ (rxBytes ks).length := by rw [rxBytes, List.length_map]; exact hk
  have hfirst : (rxBytes ks).take 3 = [0xA5, byte (f.payload.length / 256), byte f.payload.length] := by
    rw [← List.take_append_of_le_length (l₂ := rxBytes rest) hlen, h, Frame.bytes_eq]
    rfl
  have hfield : ((rxBytes ks).drop 1).take 2 = ((rxBytes ks).take 3).drop 1 := by
    rw [List.drop_take]
  rw [keptLength, field, hfield, hfirst]
  exact ofBe_be16 (by omega)

theorem keptFrame_of_bytes (h : rxBytes ks = f.bytes) (hp : f.payload.length ≤ 260) : keptFrame ks = f := by
  have hk : ks.length = 7 + f.payload.length := by
    rw [← f.bytes_length, ← h, rxBytes, List.length_map]
  have hlen := keptLength_of_bytes (rest := []) (by rw [h]; exact List.append_nil _) (by omega) hp
  rw [keptFrame, hlen, h, Frame.bytes_eq]
  simp [at?]

theorem keptCrc_of_bytes (h : rxBytes ks = f.bytes) (hp : f.payload.length ≤ 260) :
    keptCrc ks = f.crc.toNat := by
  have hk : ks.length = 7 + f.payload.length := by
    rw [← f.bytes_length, ← h, rxBytes, List.length_map]
  have hlen := keptLength_of_bytes (rest := []) (by rw [h]; exact List.append_nil _) (by omega) hp
  rw [keptCrc, hlen, field, h, f.drop_bytes]
  exact ofBe_be16 (BitVec.isLt _)

/-- The phase once `k` bytes of a frame with `n` payload bytes are kept (R161). -/
def phaseAt (n k : Nat) : RxPhase := if k < 5 then .header else if k < 5 + n then .payload else .check

/-- The receiver that has kept `ks` of a frame with `n` payload bytes. -/
def Receiver.assembling (n moment : Nat) (ks : List RxByte) : Receiver where
  phase := phaseAt n ks.length
  kept := ks
  timer := some moment
  rescan := []
  breakDetector := .clear

/-- A byte of a frame before its last is kept. -/
theorem Receiver.assembling_next (moment : Nat) (h : rxBytes (ks ++ [b]) ++ rxBytes rest = f.bytes)
    (hp : f.payload.length ≤ 260) (hk : ks ≠ []) (hr : rest ≠ []) :
    (Receiver.assembling f.payload.length moment ks).completes? b = none ∧
      (Receiver.assembling f.payload.length moment ks).next b =
        Receiver.assembling f.payload.length moment (ks ++ [b]) := by
  have hfirst : 0 < ks.length := List.length_pos_of_ne_nil hk
  have hlast : 0 < rest.length := List.length_pos_of_ne_nil hr
  have hkept : (ks ++ [b]).length = ks.length + 1 := by simp
  have htotal : ks.length + 1 + rest.length = 7 + f.payload.length := by
    rw [← f.bytes_length, ← h, List.length_append, rxBytes, rxBytes, List.length_map, List.length_map, hkept]
  have hlength : 3 ≤ ks.length + 1 → keptLength (ks ++ [b]) = f.payload.length := fun h3 =>
    keptLength_of_bytes h (by omega) hp
  have hnth : ∀ k, k = ks.length + 1 → Receiver.assembling f.payload.length moment (ks ++ [b]) =
      { Receiver.assembling f.payload.length moment ks with
        kept := ks ++ [b], phase := phaseAt f.payload.length k } := fun k hk => by
    rw [Receiver.assembling, hkept, hk]; rfl
  by_cases hheader : ks.length < 5
  · have hat : (Receiver.assembling f.payload.length moment ks).phase = .header := if_pos hheader
    refine ⟨Receiver.completes?_of_ne (by rw [hat]; exact RxPhase.noConfusion), ?_⟩
    rw [Receiver.next_header hat]
    show (if (ks ++ [b]).length = 3 ∧ 260 < keptLength (ks ++ [b]) then _ else
      if (ks ++ [b]).length = 5 then _ else _) = _
    rw [hkept, if_neg fun hc => by have := hlength hc.1.ge; omega]
    by_cases hfive : ks.length + 1 = 5
    · rw [if_pos hfive, hnth 5 hfive.symm]
      show ({ Receiver.assembling f.payload.length moment ks with
        kept := ks ++ [b], phase := if keptLength (ks ++ [b]) = 0 then .check else .payload } : Receiver) = _
      rw [hlength (by omega), phaseAt, if_neg (Nat.lt_irrefl 5)]
      by_cases hempty : f.payload.length = 0
      · rw [if_pos hempty, if_neg (show ¬ 5 < 5 + f.payload.length by omega)]
      · rw [if_neg hempty, if_pos (show 5 < 5 + f.payload.length by omega)]
    · rw [if_neg hfive, hnth _ rfl, phaseAt, if_pos (show ks.length + 1 < 5 by omega), ← hat]
      rfl
  · have hlen := hlength (by omega)
    by_cases hpayload : ks.length < 5 + f.payload.length
    · have hat : (Receiver.assembling f.payload.length moment ks).phase = .payload :=
        (if_neg hheader).trans (if_pos hpayload)
      refine ⟨Receiver.completes?_of_ne (by rw [hat]; exact RxPhase.noConfusion), ?_⟩
      rw [Receiver.next_payload hat, hnth _ rfl]
      show ({ Receiver.assembling f.payload.length moment ks with
        kept := ks ++ [b]
        phase := if (ks ++ [b]).length = 5 + keptLength (ks ++ [b]) then .check else .payload } : Receiver) = _
      rw [hkept, hlen, phaseAt, if_neg (show ¬ ks.length + 1 < 5 by omega)]
      by_cases hfull : ks.length + 1 = 5 + f.payload.length
      · rw [if_pos hfull, if_neg (show ¬ ks.length + 1 < 5 + f.payload.length by omega)]
      · rw [if_neg hfull, if_pos (show ks.length + 1 < 5 + f.payload.length by omega)]
    · have hat : (Receiver.assembling f.payload.length moment ks).phase = .check :=
        (if_neg hheader).trans (if_neg hpayload)
      have hshort : (ks ++ [b]).length ≠ 7 + keptLength (ks ++ [b]) := by rw [hlen, hkept]; omega
      refine ⟨Receiver.completes?_of_short hshort, ?_⟩
      rw [Receiver.next_check hat]
      refine (if_neg hshort).trans ?_
      rw [hnth _ rfl, phaseAt, if_neg (show ¬ ks.length + 1 < 5 by omega),
        if_neg (show ¬ ks.length + 1 < 5 + f.payload.length by omega), ← hat]
      rfl

/-- The last byte completes the frame. -/
theorem Receiver.assembling_completes (moment : Nat) (h : rxBytes (ks ++ [b]) = f.bytes)
    (hp : f.payload.length ≤ 260) :
    (Receiver.assembling f.payload.length moment ks).completes? b = some f := by
  have hkept : (ks ++ [b]).length = 7 + f.payload.length := by
    rw [← f.bytes_length, ← h, rxBytes, List.length_map]
  have hlen := keptLength_of_bytes (rest := []) (by rw [h]; exact List.append_nil _) (by omega) hp
  have hat : (Receiver.assembling f.payload.length moment ks).phase = .check := by
    rw [List.length_append, List.length_singleton] at hkept
    exact (if_neg (by omega)).trans (if_neg (by omega))
  have hframe := keptFrame_of_bytes h hp
  refine (Receiver.completes?_of_good hat (hkept.trans (congrArg (7 + ·) hlen.symm)) ?_).trans (congrArg some hframe)
  exact (by rw [hframe, keptCrc_of_bytes h hp] : (keptFrame (ks ++ [b])).crc.toNat = keptCrc (ks ++ [b]))

end

/-! ### The characters of one frame as commands -/

/-- Bytes as characters with good stop bits, each at its own moment. -/
def asCharacters (bs : List RxByte) : List Instr := bs.map fun b => .rxCharacter b.moment b.byte .good

theorem State.Ready.setRx {s : State} (h : s.Ready) (v : Receiver) : (s.setRx v).Ready := h

theorem carryOut_rescan (r : Request) (t : Fin 16) (tag : Byte) (d : Digest) (p : List Byte) (s : State)
    (h : s.rx.rescan = []) : (carryOut r t tag d p s).after.rx.rescan = [] := by
  by_cases h1 : r = .engineReset
  · subst h1
    show (s.engineReset t tag d).rx.rescan = _
    rw [State.engineReset_eq]; rfl
  by_cases h2 : r = .profileLoad
  · subst h2; exact (congrArg _ (takeProfileLoad_onlyChanges s p .rx (by decide))).trans h
  by_cases h3 : r = .supplyResume
  · subst h3; exact (congrArg _ (takeSupplyResume_onlyChanges s .rx (by decide))).trans h
  exact (congrArg _ (carryOut_onlyChanges h1 h2 h3 t tag d p s .rx (by decide))).trans h

/-- A frame leaves nothing to be rescanned. -/
theorem State.frameArrives_rescan {s : State} (h : s.rx.rescan = []) (f : Frame) :
    (s.frameArrives f).rx.rescan = [] := by
  have hdispatched : (s.told.dispatch f).rx.rescan = [] :=
    State.dispatch_keeps (P := fun u => u.rx.rescan = [])
      (fun u g hu => (congrArg _ (u.placeReply_onlyChanges g .rx (by decide))).trans hu)
      (fun _ _ _ hu => hu) (fun r t d p u hu => carryOut_rescan r t f.tag d p u hu) h
  unfold State.frameArrives
  show (if _ then (s.told.dispatch f).transmit else (s.told.dispatch f).transmitEither).rx.rescan = _
  split
  · exact (congrArg _ (State.transmit_onlyChanges _ .rx (by decide))).trans hdispatched
  · exact (congrArg _ (State.transmitEither_onlyChanges _ .rx (by decide))).trans hdispatched

section
variable {s : State} {f : Frame}

theorem exec_character (h : s.Ready) (b : RxByte) :
    exec (.rxCharacter b.moment b.byte .good) s = .next (s.lineHigh.rxByte b).rescanned :=
  exec_rxCharacter_of_ready h b.moment b.byte .good

theorem runCommands_cons {c : Instr} {cs : List Instr} {t : State} (h : exec c s = .next t) :
    runCommands (c :: cs) s = runCommands cs t := by
  rw [runCommands, h]

/-- The rest of a frame, of which `ks` is kept, received as characters. -/
theorem runCommands_assembling (hs : s.Ready) (hp : f.payload.length ≤ 260) (moment : Nat)
    (rest : List RxByte) : ∀ ks : List RxByte, ks ≠ [] → rest ≠ [] → rxBytes ks ++ rxBytes rest = f.bytes →
      runCommands (asCharacters rest) (s.setRx (.assembling f.payload.length moment ks)) =
        .next ((s.setRx .afterReset).frameArrives f) := by
  induction rest with
  | nil => exact fun ks _ hr => absurd rfl hr
  | cons b rest ih =>
    intro ks hk _ h
    have hready : (s.setRx (.assembling f.payload.length moment ks)).Ready := hs.setRx _
    have hbytes : rxBytes (ks ++ [b]) ++ rxBytes rest = f.bytes := by
      rw [← h]; simp [rxBytes]
    have hexec := exec_character hready b
    by_cases hr : rest = []
    · subst hr
      rw [show rxBytes [] = [] from rfl, List.append_nil] at hbytes
      rw [State.rxByte_of_some (s := (s.setRx (.assembling f.payload.length moment ks)).lineHigh)
        (Receiver.assembling_completes moment hbytes hp), State.rescanned_of_nil
          (State.frameArrives_rescan rfl f)] at hexec
      exact runCommands_cons hexec
    · obtain ⟨hnone, hnext⟩ := Receiver.assembling_next moment hbytes hp hk hr
      rw [State.rxByte_of_none (s := (s.setRx (.assembling f.payload.length moment ks)).lineHigh) hnone,
        State.rescanned_of_nil (congrArg Receiver.rescan hnext)] at hexec
      refine (runCommands_cons hexec).trans ?_
      rw [← ih (ks ++ [b]) (by simp) hr hbytes, ← hnext]
      rfl

end

end Sys2Proof.Machine

open Sys2Proof Sys2Proof.Machine

/-- Settles O20: byte after byte is kept, and the last one completes the frame. -/
theorem frameBytesActAsTheRequest : Obligations.FrameBytesActAsTheRequest := by
  intro s c f moments hc hp hrun hrx hmoments
  have hready : s.transmit.Ready := ⟨s.transmit_inReset.trans hrun, s.settled_transmit⟩
  have hidle : s.transmit.lineHigh = s.transmit.setRx .afterReset := by
    have hkept : s.transmit.rx = s.rx := State.transmit_onlyChanges s .rx (by decide)
    rw [State.lineHigh, hkept, hrx]
    rfl
  obtain ⟨first, rest, hbytes⟩ : ∃ first rest, (moments.zip f.bytes).map (fun x => (⟨x.2, x.1⟩ : RxByte)) =
      first :: rest := by
    refine List.exists_cons_of_ne_nil fun hnil => ?_
    have hzero := congrArg List.length hnil
    rw [List.length_map, List.length_zip, hmoments, f.bytes_length] at hzero
    simp at hzero
  have hframe : rxBytes [first] ++ rxBytes rest = f.bytes := by
    rw [rxBytes, rxBytes, ← List.map_append, List.singleton_append, ← hbytes, List.map_map]
    exact List.map_snd_zip hmoments.ge
  have hcommands : (moments.zip f.bytes).map (fun x => Instr.rxCharacter x.1 x.2 .good) =
      asCharacters (first :: rest) := by
    rw [← hbytes, asCharacters, List.map_map]
    rfl
  have hstart : first.byte = 0xA5 := by
    have hhead := congrArg List.head? hframe
    exact Option.some.inj hhead
  have hrest : rest ≠ [] := fun hnil => by
    have hlen := congrArg List.length hframe
    rw [hnil, f.bytes_length] at hlen
    simp [rxBytes] at hlen
    omega
  have hfirst : exec (.rxCharacter first.moment first.byte .good) s =
      .next (s.transmit.setRx (.assembling f.payload.length first.moment [first])) := by
    rw [exec_transmit hrun (by simp), exec_character hready, hidle,
      State.rxByte_hunt_start (s := s.transmit.setRx .afterReset) rfl hstart]
    exact congrArg Host.Outcome.next (State.rescanned_of_nil rfl)
  rw [hcommands, exec_transmit hrun (by rintro a b p r rfl; cases hc), exec_frame_of_ready hc hready hp, hidle]
  exact (runCommands_cons hfirst).trans
    (runCommands_assembling hready hp first.moment rest [first] (by simp) hrest hframe)
end

section
/-! PROOF. A request does not look at the receiver: what it does commutes with a change of the receiver. Only
ENGINE-RESET, taken, touches it (R180, R181). -/

-- One proof after another: a thread for each of them would take too much memory.
set_option Elab.async false

namespace Sys2Proof.Machine

section
variable (s : State) (v : Receiver)

/-! ### Reading and writing the state -/

@[simp] theorem State.tagEntry_setRx (t : Fin 16) : (s.setRx v).tagEntry t = s.tagEntry t := rfl
@[simp] theorem State.profileOf_setRx (j : Job) : (s.setRx v).profileOf j = s.profileOf j := rfl
@[simp] theorem State.currentJob?_setRx (l : LaneId) : (s.setRx v).currentJob? l = s.currentJob? l := rfl
@[simp] theorem State.updLane_setRx (l : LaneId) (f : Lane → Lane) :
    (s.setRx v).updLane l f = (s.updLane l f).setRx v := rfl
@[simp] theorem State.setLaneState_setRx (l : LaneId) (x : LaneState) :
    (s.setRx v).setLaneState l x = (s.setLaneState l x).setRx v := rfl
@[simp] theorem State.updJob_setRx (id : Nat) (f : Job → Job) :
    (s.setRx v).updJob id f = (s.updJob id f).setRx v := rfl
@[simp] theorem State.setOutbox_setRx (o : Outbox) : (s.setRx v).setOutbox o = (s.setOutbox o).setRx v := rfl
@[simp] theorem State.setJobs_setRx (js : List Job) : (s.setRx v).setJobs js = (s.setJobs js).setRx v := rfl
@[simp] theorem State.setLastId_setRx (n : Nat) : (s.setRx v).setLastId n = (s.setLastId n).setRx v := rfl
@[simp] theorem State.setProfiles_setRx (ps : Vector Profile 4) :
    (s.setRx v).setProfiles ps = (s.setProfiles ps).setRx v := rfl
@[simp] theorem State.setGrantQueue_setRx (q : List GrantEntry) :
    (s.setRx v).setGrantQueue q = (s.setGrantQueue q).setRx v := rfl
@[simp] theorem State.setSupplyState_setRx (x : SupplyState) :
    (s.setRx v).setSupplyState x = (s.setSupplyState x).setRx v := rfl
@[simp] theorem State.setReplyQueue_setRx (q : List Frame) :
    (s.setRx v).setReplyQueue q = (s.setReplyQueue q).setRx v := rfl
@[simp] theorem State.setTagEntry_setRx (t : Fin 16) (e : TagEntry) :
    (s.setRx v).setTagEntry t e = (s.setTagEntry t e).setRx v := rfl

theorem ite_setRx (c : Prop) [Decidable c] (x y : State) :
    (if c then x.setRx v else y.setRx v) = (if c then x else y).setRx v :=
  (apply_ite (State.setRx · v) c x y).symm

theorem foldl_setRx {α : Type} {op : State → α → State}
    (h : ∀ s a, op (s.setRx v) a = (op s a).setRx v) (xs : List α) (s : State) :
    xs.foldl op (s.setRx v) = (xs.foldl op s).setRx v :=
  List.foldl_hom (State.setRx · v) h

/-! ### Lanes and grants -/

@[simp] theorem State.sendAtAddress_setRx (l : LaneId) (k : CycleKind) :
    (s.setRx v).sendAtAddress l k = (s.sendAtAddress l k).setRx v := rfl
@[simp] theorem State.openSwitch_setRx (l : LaneId) (x : PulseSlot) :
    (s.setRx v).openSwitch l x = (s.openSwitch l x).setRx v := rfl
@[simp] theorem State.grant_setRx (e : GrantEntry) : (s.setRx v).grant e = (s.grant e).setRx v := rfl
@[simp] theorem State.sweep_setRx (l : LaneId) : (s.setRx v).sweep l = (s.sweep l).setRx v := rfl

@[simp] theorem State.updCurrentJob_setRx (l : LaneId) (f : Job → Job) :
    (s.setRx v).updCurrentJob l f = (s.updCurrentJob l f).setRx v := by
  unfold State.updCurrentJob
  simp only [State.lane_setRx]
  split <;> rfl

@[simp] theorem State.startHead_setRx (l : LaneId) : (s.setRx v).startHead l = (s.startHead l).setRx v := by
  unfold State.startHead
  simp only [State.lane_setRx, State.job?_setRx]
  split
  · split <;> rfl
  all_goals rfl

theorem grantFrom_setRx (q : List GrantEntry) : ∀ s : State, grantFrom q (s.setRx v) = (grantFrom q s).setRx v := by
  induction q with
  | nil => exact fun s => rfl
  | cons e rest ih =>
    intro s
    unfold grantFrom
    simp only [State.setRx_supply, State.setRx_freeUnits, State.grant_setRx, State.setGrantQueue_setRx, ih]
    exact ite_setRx v _ _ _

@[simp] theorem State.grantTest_setRx : (s.setRx v).grantTest = s.grantTest.setRx v := grantFrom_setRx v _ s

@[simp] theorem State.holdLane_setRx (l : LaneId) : (s.setRx v).holdLane l = (s.holdLane l).setRx v := by
  unfold State.holdLane
  rw [State.setLaneState_setRx, State.updCurrentJob_setRx]

@[simp] theorem State.joinGrantQueue_setRx (l : LaneId) :
    (s.setRx v).joinGrantQueue l = (s.joinGrantQueue l).setRx v := by
  unfold State.joinGrantQueue
  simp only [State.currentJob?_setRx, State.setRx_supply, State.setRx_grantQueue, State.profileOf_setRx,
    State.lane_setRx, State.setGrantQueue_setRx, State.setLaneState_setRx, State.holdLane_setRx]
  split
  · rfl
  · exact ite_setRx v _ _ _

@[simp] theorem State.resumeLane_setRx (l : LaneId) : (s.setRx v).resumeLane l = (s.resumeLane l).setRx v := by
  unfold State.resumeLane
  simp only [State.lane_setRx, State.setLaneState_setRx, State.updCurrentJob_setRx, State.sendAtAddress_setRx,
    State.joinGrantQueue_setRx, State.sweep_setRx]
  split
  · rfl
  · exact ite_setRx v _ _ _

@[simp] theorem State.resumeLanes_setRx (ls : List LaneId) :
    (s.setRx v).resumeLanes ls = (s.resumeLanes ls).setRx v :=
  foldl_setRx v (fun s l => s.resumeLane_setRx v l) ls s

@[simp] theorem State.startLanes_setRx (ls : List LaneId) :
    (s.setRx v).startLanes ls = (s.startLanes ls).setRx v :=
  foldl_setRx v (fun s l => s.startHead_setRx v l) ls s

/-! ### The end of a job, and the waiting lanes -/

@[simp] theorem State.dropRefs_setRx (hs : List Handle) : (s.setRx v).dropRefs hs = (s.dropRefs hs).setRx v :=
  foldl_setRx v (fun _ _ => rfl) hs s

@[simp] theorem State.addRefs_setRx (hs : List Handle) : (s.setRx v).addRefs hs = (s.addRefs hs).setRx v :=
  foldl_setRx v (fun _ _ => rfl) hs s

@[simp] theorem State.laneGoesOn_setRx (l : LaneId) (stopped : Bool) :
    (s.setRx v).laneGoesOn l stopped = (s.laneGoesOn l stopped).setRx v := by
  unfold State.laneGoesOn
  rw [State.updLane_setRx, State.updLane_setRx, State.startHead_setRx]
  exact ite_setRx v _ _ _

@[simp] theorem State.offerJobEnd_setRx (id : Nat) (current : Bool) :
    (s.setRx v).offerJobEnd id current = (s.offerJobEnd id current).setRx v := by
  unfold State.offerJobEnd
  simp only [State.job?_setRx, State.setRx_outbox, State.setOutbox_setRx, State.updJob_setRx,
    State.laneGoesOn_setRx, State.updLane_setRx]
  split
  · rfl
  · split
    · exact ite_setRx v _ _ _
    · exact ite_setRx v _ _ _

@[simp] theorem State.finishJob_setRx (id : Nat) (st : JobState) (reason : EndReason) (stopped current : Bool) :
    (s.setRx v).finishJob id st reason stopped current = (s.finishJob id st reason stopped current).setRx v := by
  unfold State.finishJob
  simp only [State.job?_setRx, State.updJob_setRx, State.updLane_setRx]
  split
  · rfl
  · cases current
    · exact (congrArg (State.offerJobEnd · id false) (State.dropRefs_setRx _ v _)).trans
        (State.offerJobEnd_setRx _ v id false)
    · exact (congrArg (State.offerJobEnd · id true) (State.dropRefs_setRx _ v _)).trans
        (State.offerJobEnd_setRx _ v id true)

@[simp] theorem State.serveLane_setRx (l : LaneId) (others : List LaneId) :
    (s.setRx v).serveLane l others = (s.serveLane l others).setRx v := by
  unfold State.serveLane
  simp only [State.lane_setRx, State.job?_setRx, State.setRx_outbox, State.setOutbox_setRx, State.updJob_setRx,
    State.laneGoesOn_setRx, State.updLane_setRx]
  split
  · rfl
  · split
    · rfl
    · exact ite_setRx v _ _ _

theorem serveWaiting_setRx (fuel : Nat) :
    ∀ s : State, serveWaiting fuel (s.setRx v) = (serveWaiting fuel s).setRx v := by
  induction fuel with
  | zero => exact fun s => rfl
  | succ n ih =>
    intro s
    unfold serveWaiting
    simp only [State.setRx_outbox, State.serveLane_setRx, ih]
    split
    · rfl
    · exact ite_setRx v _ _ _

@[simp] theorem State.serveFreed_setRx : (s.setRx v).serveFreed = s.serveFreed.setRx v :=
  serveWaiting_setRx v _ (s.setOutbox s.outbox.serveOwed)

/-! ### Cancelling and submitting -/

@[simp] theorem State.faultRoom_setRx : (s.setRx v).faultRoom = s.faultRoom := rfl

@[simp] theorem State.recordFault_setRx (r : FaultRecord) :
    (s.setRx v).recordFault r = (s.recordFault r).setRx v := rfl

@[simp] theorem State.recordInterrupted_setRx (l : LaneId) (id : Nat) :
    (s.setRx v).recordInterrupted l id = (s.recordInterrupted l id).setRx v := by
  unfold State.recordInterrupted
  simp only [State.faultRoom_setRx, State.recordFault_setRx, State.lane_setRx]
  exact ite_setRx v _ _ _

@[simp] theorem State.cancelQueued_setRx (j : Job) : (s.setRx v).cancelQueued j = (s.cancelQueued j).setRx v := by
  unfold State.cancelQueued
  rw [State.updLane_setRx, State.finishJob_setRx]

@[simp] theorem State.cancelWaiting_setRx (j : Job) :
    (s.setRx v).cancelWaiting j = (s.cancelWaiting j).setRx v := by
  unfold State.cancelWaiting
  simp only [State.lane_setRx, State.setRx_grantQueue, State.setGrantQueue_setRx, State.grantTest_setRx]
  split <;> exact State.finishJob_setRx _ v _ _ _ _ _

@[simp] theorem State.cancelPulsing_setRx (j : Job) :
    (s.setRx v).cancelPulsing j = (s.cancelPulsing j).setRx v := by
  unfold State.cancelPulsing
  rw [State.openSwitch_setRx, State.grantTest_setRx, State.recordInterrupted_setRx, State.finishJob_setRx]

@[simp] theorem State.deferCancel_setRx (j : Job) (tag : Byte) :
    (s.setRx v).deferCancel j tag = (s.deferCancel j tag).setRx v := by
  unfold State.deferCancel
  simp only [State.lane_setRx, State.openSwitch_setRx, State.grantTest_setRx, State.recordInterrupted_setRx]
  split <;> rfl

@[simp] theorem State.createJob_setRx (f : Submit) (p : ProfileId) (w : Work) (l : LaneId) :
    (s.setRx v).createJob f p w l = (s.createJob f p w l).setRx v := by
  unfold State.createJob
  simp only [State.setRx_jobs, State.setRx_lastId, State.setJobs_setRx, State.setLastId_setRx,
    State.addRefs_setRx, State.updLane_setRx]

theorem State.createJobs_setRx (f : Submit) (p : ProfileId) (w : Work) (ls : List LaneId) :
    ∀ s : State, (s.setRx v).createJobs f p w ls =
      ((s.createJobs f p w ls).1.setRx v, (s.createJobs f p w ls).2) := by
  induction ls with
  | nil => exact fun s => rfl
  | cons l ls ih =>
    intro s
    simp only [State.createJobs, State.createJob_setRx, ih, State.setRx_lastId]

/-! ### The link -/

@[simp] theorem State.placeReply_setRx (f : Frame) : (s.setRx v).placeReply f = (s.placeReply f).setRx v := by
  unfold State.placeReply
  simp only [State.setRx_replyQueue, State.setReplyQueue_setRx]
  exact ite_setRx v _ _ _

@[simp] theorem State.completeTag_setRx (t : Fin 16) (d : Digest) (f : Frame) :
    (s.setRx v).completeTag t d f = (s.completeTag t d f).setRx v := by
  unfold State.completeTag
  rw [State.setTagEntry_setRx, State.placeReply_setRx]

theorem State.takeReply?_setRx : (s.setRx v).takeReply? = s.takeReply?.map (State.setRx · v) := by
  unfold State.takeReply?
  simp only [State.setRx_replyQueue]
  split <;> rfl

theorem State.takeReport?_setRx : (s.setRx v).takeReport? = s.takeReport?.map (State.setRx · v) := by
  unfold State.takeReport?
  simp only [State.setRx_outbox]
  split <;> rfl

@[simp] theorem State.transmit_setRx : (s.setRx v).transmit = s.transmit.setRx v := by
  unfold State.transmit
  simp only [State.setRx_tx, State.takeReply?_setRx, State.takeReport?_setRx]
  cases s.tx with
  | idle => cases s.takeReply? <;> cases s.takeReport? <;> rfl
  | reply f => rfl
  | report f => rfl

@[simp] theorem State.transmitEither_setRx : (s.setRx v).transmitEither = s.transmitEither.setRx v := by
  unfold State.transmitEither
  simp only [State.setRx_tx, State.takeReply?_setRx, State.takeReport?_setRx]
  cases s.tx with
  | idle =>
    cases s.takeReply? with
    | none => cases s.takeReport? <;> rfl
    | some withReply =>
      cases s.takeReport? with
      | none => rfl
      | some withReport =>
        show State.setChoices (if Config.reportTakenFirst s.choices then withReport.setRx v
          else withReply.setRx v) _ = _
        rw [← apply_ite (State.setRx · v)]
        rfl
  | reply f => rfl
  | report f => rfl

/-! ### The requests -/

/-- What a request makes of the state, with another receiver in it. -/
def Taken.setRx (v : Receiver) : Taken → Taken
  | .replied code fields s => .replied code fields (s.setRx v)
  | .deferred s => .deferred (s.setRx v)
  | .selfReplied s => .selfReplied (s.setRx v)

@[simp] theorem State.refuse_setRx (code : Result) : (s.setRx v).refuse code = (s.refuse code).setRx v := rfl
@[simp] theorem State.inUse_setRx (i : ProfileId) : (s.setRx v).inUse i = s.inUse i := rfl
@[simp] theorem State.freeEntries_setRx : (s.setRx v).freeEntries = s.freeEntries := rfl
@[simp] theorem State.lowestFree?_setRx : (s.setRx v).lowestFree? = s.lowestFree? := rfl
@[simp] theorem State.heldBlock?_setRx (b : Byte) : (s.setRx v).heldBlock? b = s.heldBlock? b := rfl
@[simp] theorem State.namedJob?_setRx (p : List Byte) : (s.setRx v).namedJob? p = s.namedJob? p := rfl
@[simp] theorem State.heldLanes_setRx : (s.setRx v).heldLanes = s.heldLanes := rfl

theorem takeProfileLoad_setRx (p : List Byte) :
    takeProfileLoad (s.setRx v) p = (takeProfileLoad s p).setRx v := by
  unfold takeProfileLoad
  simp only [State.inUse_setRx, State.setRx_profiles, State.setProfiles_setRx, State.refuse_setRx]
  split
  · rfl
  · simp only [apply_ite (Taken.setRx v)]; rfl

theorem takeProfileRead_setRx (p : List Byte) :
    takeProfileRead (s.setRx v) p = (takeProfileRead s p).setRx v := by
  unfold takeProfileRead
  split <;> rfl

theorem takeBlockOpen_setRx : takeBlockOpen (s.setRx v) = (takeBlockOpen s).setRx v := by
  unfold takeBlockOpen
  simp only [State.lowestFree?_setRx]
  split <;> rfl

theorem takeBlockWrite_setRx (p : List Byte) :
    takeBlockWrite (s.setRx v) p = (takeBlockWrite s p).setRx v := by
  unfold takeBlockWrite
  simp only [State.heldBlock?_setRx, State.block_setRx]
  split
  · rfl
  · simp only [apply_ite (Taken.setRx v)]; rfl

theorem takeBlockSeal_setRx (p : List Byte) : takeBlockSeal (s.setRx v) p = (takeBlockSeal s p).setRx v := by
  unfold takeBlockSeal
  simp only [State.heldBlock?_setRx, State.block_setRx]
  split
  · rfl
  · simp only [apply_ite (Taken.setRx v)]; rfl

theorem takeBlockRelease_setRx (p : List Byte) :
    takeBlockRelease (s.setRx v) p = (takeBlockRelease s p).setRx v := by
  unfold takeBlockRelease
  simp only [State.heldBlock?_setRx]
  split <;> rfl

theorem takeBlockQuery_setRx (p : List Byte) :
    takeBlockQuery (s.setRx v) p = (takeBlockQuery s p).setRx v := by
  unfold takeBlockQuery
  simp only [State.heldBlock?_setRx]
  split <;> rfl

theorem State.usableBlocks_setRx (bs : List Byte) : (s.setRx v).usableBlocks bs = s.usableBlocks bs := by
  induction bs with
  | nil => rfl
  | cons b bs ih => simp only [State.usableBlocks, State.heldBlock?_setRx, State.block_setRx, ih]

theorem State.blockCheck_setRx (f : Submit) (k : JobKind) : (s.setRx v).blockCheck f k = s.blockCheck f k := by
  unfold State.blockCheck
  simp only [State.usableBlocks_setRx]
  rfl

theorem takeJobSubmit_setRx (p : List Byte) : takeJobSubmit (s.setRx v) p = (takeJobSubmit s p).setRx v := by
  unfold takeJobSubmit
  cases hkind : JobKind.ofCode? (Submit.ofPayload p).kind with
  | none => simp only [hkind]; rfl
  | some k =>
    cases hentry : (profileId? (Submit.ofPayload p).profile).filter fun i => s.profiles[i].valid with
    | none =>
      have hentry' : (profileId? (Submit.ofPayload p).profile).filter
          (fun i => (s.setRx v).profiles[i].valid) = none := hentry
      simp only [hkind, hentry, hentry', apply_ite (Taken.setRx v)]
      rfl
    | some i =>
      have hentry' : (profileId? (Submit.ofPayload p).profile).filter
          (fun i => (s.setRx v).profiles[i].valid) = some i := hentry
      simp only [hkind, hentry, hentry', State.blockCheck_setRx, State.createJobs_setRx,
        State.startLanes_setRx, apply_ite (Taken.setRx v)]
      refine if_congr Iff.rfl rfl (if_congr Iff.rfl rfl ?_)
      cases s.blockCheck (Submit.ofPayload p) k with
      | error e => rfl
      | ok hs => simp only [apply_ite (Taken.setRx v)]; rfl

theorem takeJobQuery_setRx (p : List Byte) : takeJobQuery (s.setRx v) p = (takeJobQuery s p).setRx v := by
  unfold takeJobQuery
  simp only [State.namedJob?_setRx]
  split <;> rfl

theorem takeJobCancel_setRx (tag : Byte) (p : List Byte) :
    takeJobCancel (s.setRx v) tag p = (takeJobCancel s tag p).setRx v := by
  unfold takeJobCancel
  simp only [State.namedJob?_setRx, State.lane_setRx, State.cancelQueued_setRx, State.cancelWaiting_setRx,
    State.cancelPulsing_setRx, State.deferCancel_setRx]
  cases s.namedJob? p with
  | none => rfl
  | some j =>
    cases hstate : j.state with
    | active => simp only [hstate, apply_ite (Taken.setRx v)]; rfl
    | done | failed | cancelled | queued | held => simp only [hstate]; rfl

theorem takeJobRetire_setRx (p : List Byte) : takeJobRetire (s.setRx v) p = (takeJobRetire s p).setRx v := by
  unfold takeJobRetire
  simp only [State.namedJob?_setRx]
  split
  · rfl
  · split <;> rfl

theorem takeFaultsRead_setRx (p : List Byte) :
    takeFaultsRead (s.setRx v) p = (takeFaultsRead s p).setRx v := by
  unfold takeFaultsRead
  simp only [State.namedJob?_setRx]
  split
  · rfl
  · split <;> rfl

theorem takeLaneRestart_setRx (p : List Byte) :
    takeLaneRestart (s.setRx v) p = (takeLaneRestart s p).setRx v := by
  unfold takeLaneRestart
  simp only [State.lane_setRx, State.setLaneState_setRx, State.startHead_setRx]
  split
  · rfl
  · split <;> rfl

theorem takeSupplyResume_setRx : takeSupplyResume (s.setRx v) = (takeSupplyResume s).setRx v := by
  unfold takeSupplyResume
  simp only [State.setRx_supply, State.setSupplyState_setRx, State.heldLanes_setRx, State.resumeLanes_setRx,
    State.grantTest_setRx]
  split <;> rfl

theorem takeReportAck_setRx (p : List Byte) : takeReportAck (s.setRx v) p = (takeReportAck s p).setRx v := by
  unfold takeReportAck
  simp only [State.setRx_outbox, State.setOutbox_setRx, State.serveFreed_setRx]
  split <;> rfl

/-- No request but ENGINE-RESET looks at the receiver. -/
theorem carryOut_setRx {r : Request} (hr : r ≠ .engineReset) (t : Fin 16) (tag : Byte) (d : Digest)
    (p : List Byte) : carryOut r t tag d p (s.setRx v) = (carryOut r t tag d p s).setRx v := by
  cases r with
  | signOn => rfl
  | status => rfl
  | engineReset => exact absurd rfl hr
  | profileLoad => exact takeProfileLoad_setRx s v p
  | profileRead => exact takeProfileRead_setRx s v p
  | blockOpen => exact takeBlockOpen_setRx s v
  | blockWrite => exact takeBlockWrite_setRx s v p
  | blockSeal => exact takeBlockSeal_setRx s v p
  | blockRelease => exact takeBlockRelease_setRx s v p
  | blockQuery => exact takeBlockQuery_setRx s v p
  | jobSubmit => exact takeJobSubmit_setRx s v p
  | jobQuery => exact takeJobQuery_setRx s v p
  | jobCancel => exact takeJobCancel_setRx s v tag p
  | jobRetire => exact takeJobRetire_setRx s v p
  | faultsRead => exact takeFaultsRead_setRx s v p
  | laneRestart => exact takeLaneRestart_setRx s v p
  | supplyResume => exact takeSupplyResume_setRx s v
  | reportAck => exact takeReportAck_setRx s v p

end

/-! ### The arrival of a frame -/

/-- The operation does not look at the receiver, and leaves the epoch (every frame but an ENGINE-RESET that is
taken). -/
def State.Passes (s : State) (op : State → State) : Prop :=
  (∀ v, op (s.setRx v) = (op s).setRx v) ∧ (op s).epoch = s.epoch

/-- The operation begins a new epoch with nothing kept and nothing to be rescanned (R180, R181). -/
def State.BeginsEpoch (s : State) (op : State → State) : Prop :=
  ∀ v, (op (s.setRx v)).epoch = s.epoch + 1 ∧
    (op (s.setRx v)).rx = { Receiver.afterReset with breakDetector := v.breakDetector }

theorem carryOut_epoch {r : Request} (hr : r ≠ .engineReset) (t : Fin 16) (tag : Byte) (d : Digest)
    (p : List Byte) (s : State) : (carryOut r t tag d p s).after.epoch = s.epoch := by
  by_cases h2 : r = .profileLoad
  · subst h2; exact takeProfileLoad_onlyChanges s p .epoch (by decide)
  by_cases h3 : r = .supplyResume
  · subst h3; exact takeSupplyResume_onlyChanges s .epoch (by decide)
  exact carryOut_onlyChanges hr h2 h3 t tag d p s .epoch (by decide)

/-- A judgement that does not look at the receiver makes a request that does not. -/
theorem State.takeRequest_passes {s : State} {t : Fin 16} {f : Frame}
    (hj : ∀ v, judgeRequest t f ((s.setTagEntry t (.inFlight f.digest)).setRx v) =
      (judgeRequest t f (s.setTagEntry t (.inFlight f.digest))).setRx v)
    (he : (judgeRequest t f (s.setTagEntry t (.inFlight f.digest))).after.epoch = s.epoch) :
    s.Passes fun x => x.takeRequest t f := by
  refine ⟨fun v => ?_, ?_⟩
  · show (s.setRx v).takeRequest t f = (s.takeRequest t f).setRx v
    unfold State.takeRequest
    rw [State.setTagEntry_setRx, hj]
    cases judgeRequest t f (s.setTagEntry t (.inFlight f.digest)) with
    | replied code fields w => exact State.completeTag_setRx w v _ _ _
    | deferred w => rfl
    | selfReplied w => rfl
  · show (s.takeRequest t f).epoch = s.epoch
    unfold State.takeRequest
    cases hx : judgeRequest t f (s.setTagEntry t (.inFlight f.digest)) with
    | replied code fields w =>
      rw [hx] at he
      exact Eq.trans (State.completeTag_onlyChanges w t _ _ .epoch (by decide)) he
    | deferred w => rw [hx] at he; exact he
    | selfReplied w => rw [hx] at he; exact he

theorem State.takeRequest_cases (s : State) (t : Fin 16) (f : Frame) :
    (s.Passes fun x => x.takeRequest t f) ∨ s.BeginsEpoch fun x => x.takeRequest t f := by
  cases hr : Request.ofKind f.kind with
  | none =>
    have hj : ∀ x, judgeRequest t f x = x.refuse .badKind := fun x => by simp only [judgeRequest, hr]
    exact .inl (State.takeRequest_passes (fun v => by rw [hj, hj]; rfl) (by rw [hj]; rfl))
  | some r =>
    by_cases hl : r.lengthOk f.payload = true
    · have hj : ∀ x, judgeRequest t f x = carryOut r t f.tag f.digest f.payload x := fun x => by
        simp only [judgeRequest, hr, hl, if_true]
      by_cases hreset : r = .engineReset
      · subst hreset
        refine .inr fun v => ?_
        have htake : (s.setRx v).takeRequest t f =
            (((s.setRx v).setTagEntry t (.inFlight f.digest)).engineReset t f.tag f.digest) :=
          State.takeRequest_selfReplied (hj _)
        show ((s.setRx v).takeRequest t f).epoch = _ ∧ ((s.setRx v).takeRequest t f).rx = _
        rw [htake, State.engineReset_eq]
        exact ⟨rfl, rfl⟩
      · exact .inl (State.takeRequest_passes (fun v => by rw [hj, hj, carryOut_setRx _ v hreset])
          (by rw [hj]; exact carryOut_epoch hreset _ _ _ _ _))
    · have hj : ∀ x, judgeRequest t f x = x.refuse .badLength := fun x => by
        simp only [judgeRequest, hr, hl, Bool.false_eq_true, if_false]
      exact .inl (State.takeRequest_passes (fun v => by rw [hj, hj]; rfl) (by rw [hj]; rfl))

theorem State.passes_placeReply (s : State) (g : Frame) : s.Passes fun x => x.placeReply g :=
  ⟨fun v => s.placeReply_setRx v g, s.placeReply_onlyChanges g .epoch (by decide)⟩

theorem State.dispatch_cases (s : State) (f : Frame) :
    (s.Passes fun x => x.dispatch f) ∨ s.BeginsEpoch fun x => x.dispatch f := by
  have hof : ∀ op : State → State, (∀ v, (s.setRx v).dispatch f = op (s.setRx v)) →
      s.Passes op ∨ s.BeginsEpoch op → (s.Passes fun x => x.dispatch f) ∨ s.BeginsEpoch fun x => x.dispatch f := by
    intro op heq hop
    have hself : s.dispatch f = op s := heq s.rx
    refine hop.imp (fun hp => ⟨fun v => ?_, ?_⟩) fun hb v => ?_
    · exact (heq v).trans ((hp.1 v).trans (congrArg (State.setRx · v) hself.symm))
    · exact (congrArg State.epoch hself).trans hp.2
    · show ((s.setRx v).dispatch f).epoch = _ ∧ ((s.setRx v).dispatch f).rx = _
      rw [heq]
      exact hb v
  cases ht : tagIndex? f.tag with
  | none =>
    exact hof (fun x => x.placeReply (replyFrame f.kind f.tag .badField []))
      (fun v => by simp only [State.dispatch, ht]) (.inl (s.passes_placeReply _))
  | some t =>
    cases he : s.tagEntry t with
    | free =>
      exact hof _ (fun v => by simp only [State.dispatch, ht, State.tagEntry_setRx, he])
        (s.takeRequest_cases t f)
    | replied d reply =>
      by_cases hd : d = f.digest
      · exact hof _ (fun v => by simp only [State.dispatch, ht, State.tagEntry_setRx, he, if_pos hd])
          (.inl (s.passes_placeReply reply))
      · exact hof _ (fun v => by simp only [State.dispatch, ht, State.tagEntry_setRx, he, if_neg hd])
          (s.takeRequest_cases t f)
    | inFlight d =>
      by_cases hd : d = f.digest
      · exact hof id (fun v => by simp only [State.dispatch, ht, State.tagEntry_setRx, he, if_pos hd, id])
          (.inl ⟨fun v => rfl, rfl⟩)
      · exact hof (fun x => x.placeReply (replyFrame f.kind f.tag .tagBusy []))
          (fun v => by simp only [State.dispatch, ht, State.tagEntry_setRx, he, if_neg hd])
          (.inl (s.passes_placeReply _))

/-- What a frame does to the receiver: nothing, unless it begins a new epoch. -/
theorem State.frameArrives_cases (s : State) (f : Frame) :
    (s.Passes fun x => x.frameArrives f) ∨ s.BeginsEpoch fun x => x.frameArrives f := by
  have hof : ∀ last : State → State, (∀ x v, last (x.setRx v) = (last x).setRx v) →
      (∀ x, (last x).epoch = x.epoch) → (∀ x, (last x).rx = x.rx) →
      (∀ v, (s.setRx v).frameArrives f = last ((s.told.setRx v).dispatch f)) →
      (s.Passes fun x => x.frameArrives f) ∨ s.BeginsEpoch fun x => x.frameArrives f := by
    intro last hcomm hepoch hrx heq
    have hself : s.frameArrives f = last (s.told.dispatch f) := heq s.rx
    refine (s.told.dispatch_cases f).imp (fun hp => ⟨fun v => ?_, ?_⟩) fun hb v => ?_
    · exact (heq v).trans ((congrArg last (hp.1 v)).trans ((hcomm _ v).trans
        (congrArg (State.setRx · v) hself.symm)))
    · exact (congrArg State.epoch hself).trans ((hepoch _).trans hp.2)
    · show ((s.setRx v).frameArrives f).epoch = _ ∧ ((s.setRx v).frameArrives f).rx = _
      rw [heq, hepoch, hrx]
      exact hb v
  by_cases hstall : (s.outbox.stalled || f.kind == Request.engineReset.kind) = true
  · exact hof State.transmit State.transmit_setRx (fun x => x.transmit_onlyChanges .epoch (by decide))
      (fun x => x.transmit_onlyChanges .rx (by decide)) fun v => if_pos hstall
  · exact hof State.transmitEither State.transmitEither_setRx
      (fun x => x.transmitEither_onlyChanges .epoch (by decide))
      (fun x => x.transmitEither_onlyChanges .rx (by decide)) fun v => if_neg hstall

end Sys2Proof.Machine
end

section
/-! PROOF. A discarded frame: its kept bytes go through HUNT again as though received anew (R162 to R165). -/

-- One proof after another: a thread for each of them would take too much memory.
set_option Elab.async false

namespace Sys2Proof.Machine

/-! ### A calm line: the engine runs, its Transmitter is settled, and no low is counted -/

theorem State.takeReply?_busy {s t : State} (h : s.takeReply? = some t) : t.tx ≠ .idle := by
  unfold State.takeReply? at h
  split at h
  · cases h
  · obtain rfl := Option.some.inj h
    exact Tx.noConfusion

theorem State.takeReport?_busy {s t : State} (h : s.takeReport? = some t) : t.tx ≠ .idle := by
  unfold State.takeReport? at h
  split at h
  · cases h
  · obtain rfl := Option.some.inj h
    exact Tx.noConfusion

theorem State.settled_of_none {s : State} (hreply : s.takeReply? = none) (hreport : s.takeReport? = none) :
    s.Settled := by
  refine .inr ⟨?_, ?_⟩
  · unfold State.takeReply? at hreply
    split at hreply
    · assumption
    · cases hreply
  · unfold State.takeReport? at hreport
    split at hreport
    · assumption
    · cases hreport

theorem State.settled_transmitEither (s : State) : s.transmitEither.Settled := by
  by_cases hidle : s.tx = .idle
  · unfold State.transmitEither
    simp only [hidle]
    cases hreply : s.takeReply? with
    | none =>
      cases hreport : s.takeReport? with
      | none => exact State.settled_of_none hreply hreport
      | some withReport => exact .inl (State.takeReport?_busy hreport)
    | some withReply =>
      cases hreport : s.takeReport? with
      | none => exact .inl (State.takeReply?_busy hreply)
      | some withReport =>
        refine .inl ?_
        show (if Config.reportTakenFirst s.choices then withReport else withReply).tx ≠ _
        split
        · exact State.takeReport?_busy hreport
        · exact State.takeReply?_busy hreply
  · rw [State.transmitEither_settled (.inl hidle)]
    exact .inl hidle

/-- The engine runs with a settled Transmitter, and no low of RX is counted. -/
def State.Calm (s : State) : Prop := s.Ready ∧ s.rx.breakDetector = .clear

theorem State.frameArrives_settled (s : State) (f : Frame) : (s.frameArrives f).Settled := by
  unfold State.frameArrives
  dsimp only
  split
  · exact State.settled_transmit _
  · exact State.settled_transmitEither _

section
variable {s t u : State} {b : RxByte} {rest more : List RxByte}

/-! ### Bytes that stand behind the ones in hand -/

/-- The receiver with more bytes behind those that are to be rescanned. -/
def Receiver.behind (r : Receiver) (more : List RxByte) : Receiver := { r with rescan := r.rescan ++ more }

/-- The state with more bytes behind those that are to be rescanned. -/
def State.behind (s : State) (more : List RxByte) : State := s.setRx (s.rx.behind more)

theorem Receiver.next_behind (r : Receiver) (more : List RxByte) (b : RxByte) :
    (r.behind more).next b = (r.next b).behind more := by
  have hdiscard : ∀ kept : List RxByte, ({ r.behind more with kept := kept } : Receiver).discard =
      ({ r with kept := kept } : Receiver).discard.behind more := fun kept => by
    simp only [Receiver.discard, Receiver.behind, Receiver.hunting, List.append_assoc]
  cases hp : r.phase with
  | hunt =>
    rw [Receiver.next_hunt hp, Receiver.next_hunt (r := r.behind more) hp, apply_ite (Receiver.behind · more)]
    rfl
  | header =>
    rw [Receiver.next_header hp, Receiver.next_header (r := r.behind more) hp,
      apply_ite (Receiver.behind · more), apply_ite (Receiver.behind · more)]
    exact if_congr Iff.rfl (hdiscard _) rfl
  | payload => rw [Receiver.next_payload hp, Receiver.next_payload (r := r.behind more) hp]; rfl
  | check =>
    rw [Receiver.next_check hp, Receiver.next_check (r := r.behind more) hp,
      apply_ite (Receiver.behind · more)]
    exact if_congr Iff.rfl (hdiscard _) rfl

theorem Receiver.next_breakDetector (r : Receiver) (b : RxByte) :
    (r.next b).breakDetector = r.breakDetector := by
  cases hp : r.phase with
  | hunt => rw [Receiver.next_hunt hp]; split <;> rfl
  | header => rw [Receiver.next_header hp]; split_ifs <;> rfl
  | payload => rw [Receiver.next_payload hp]
  | check => rw [Receiver.next_check hp]; split <;> rfl

/-- A byte keeps at most itself, or the frame in hand is discarded to be rescanned. -/
theorem Receiver.next_shape (r : Receiver) (b : RxByte) :
    ((r.next b).kept.length ≤ r.kept.length + 1 ∧ (r.next b).rescan = r.rescan) ∨
      ((r.next b).kept = [] ∧ (r.next b).rescan.length = r.kept.length + r.rescan.length) := by
  have hdiscard : (({ r with kept := r.kept ++ [b] } : Receiver).discard.kept = [] ∧
      ({ r with kept := r.kept ++ [b] } : Receiver).discard.rescan.length =
        r.kept.length + r.rescan.length) := by
    refine ⟨rfl, ?_⟩
    simp [Receiver.discard]
  have hkept : (r.kept ++ [b]).length ≤ r.kept.length + 1 := (List.length_append ..).le
  cases hp : r.phase with
  | hunt =>
    rw [Receiver.next_hunt hp]
    split
    · exact .inl ⟨Nat.le_add_left _ _, rfl⟩
    · exact .inl ⟨Nat.le_succ _, rfl⟩
  | header =>
    rw [Receiver.next_header hp]
    split_ifs
    · exact .inr hdiscard
    all_goals exact .inl ⟨hkept, rfl⟩
  | payload => rw [Receiver.next_payload hp]; exact .inl ⟨hkept, rfl⟩
  | check =>
    rw [Receiver.next_check hp]
    split
    · exact .inr hdiscard
    · exact .inl ⟨hkept, rfl⟩

/-- What one byte does, unless it completes an ENGINE-RESET, does not depend on what stands behind it. -/
theorem State.rxByte_cases (s : State) (b : RxByte) :
    ((s.rxByte b).epoch = s.epoch ∧ ∀ more, (s.behind more).rxByte b = (s.rxByte b).behind more) ∨
      ((s.rxByte b).epoch = s.epoch + 1 ∧ (s.rxByte b).rx.kept = [] ∧ (s.rxByte b).rx.rescan = []) := by
  cases hc : s.rx.completes? b with
  | none =>
    refine .inl ⟨by rw [State.rxByte_of_none hc]; rfl, fun more => ?_⟩
    rw [State.rxByte_of_none hc, State.rxByte_of_none (s := s.behind more) hc]
    show s.setRx ((s.rx.behind more).next b) = s.setRx ((s.rx.next b).behind more)
    rw [Receiver.next_behind]
  | some f =>
    rw [State.rxByte_of_some hc]
    refine (s.frameArrives_cases f).imp (fun hp => ?_) fun hb => ?_
    · obtain ⟨hcomm, hepoch⟩ := hp
      have hpass : ∀ v, (s.setRx v).frameArrives f = (s.frameArrives f).setRx v := hcomm
      refine ⟨(congrArg State.epoch (hpass _)).trans hepoch, fun more => ?_⟩
      rw [State.rxByte_of_some (s := s.behind more) hc, hpass]
      exact hpass (s.rx.behind more).hunting
    · obtain ⟨hepoch, hrx⟩ := hb s.rx.hunting
      exact ⟨hepoch, by rw [hrx]; exact ⟨rfl, rfl⟩⟩

theorem State.Calm.rxByte (h : s.Calm) (b : RxByte) : (s.rxByte b).Calm := by
  obtain ⟨⟨hrun, hsettled⟩, hclear⟩ := h
  have hruns : (s.rxByte b).inReset = false := Eq.trans (s.rxByte_onlyChanges b .inReset (by decide)) hrun
  cases hc : s.rx.completes? b with
  | none =>
    rw [State.rxByte_of_none hc] at hruns ⊢
    exact ⟨⟨hruns, hsettled⟩, (Receiver.next_breakDetector _ _).trans hclear⟩
  | some f =>
    rw [State.rxByte_of_some hc] at hruns ⊢
    exact ⟨⟨hruns, State.frameArrives_settled _ f⟩, (State.frameArrives_breakDetector _ f).trans hclear⟩

/-! ### Rescanning, without a bound on its turns -/

/-- The bytes to be rescanned go through HUNT one after another, until none is left (R162). -/
inductive State.Rescans : State → State → Prop where
  | ended (s : State) (done : s.rx.rescan = []) : Rescans s s
  | turn (s t : State) (b : RxByte) (rest : List RxByte) (head : s.rx.rescan = b :: rest)
      (next : Rescans ((s.setRx { s.rx with rescan := rest }).rxByte b) t) : Rescans s t

theorem State.Rescans.unique (h : s.Rescans t) (g : s.Rescans u) : t = u := by
  induction h with
  | ended s hnil =>
    cases g with
    | ended => rfl
    | turn _ _ b rest head => rw [hnil] at head; cases head
  | turn s t b rest head _ ih =>
    cases g with
    | ended _ hnil => rw [hnil] at head; cases head
    | turn _ _ b' rest' head' next' =>
      rw [head] at head'
      cases head'
      exact ih next'

theorem State.Rescans.calm (h : s.Rescans t) (hs : s.Calm) : t.Calm ∧ t.rx.rescan = [] := by
  induction h with
  | ended s hnil => exact ⟨hs, hnil⟩
  | turn s t b rest _ _ ih =>
    have hset : (s.setRx { s.rx with rescan := rest }).Calm := hs
    exact ih (hset.rxByte b)

/-- Bytes behind those that are rescanned wait their turn, as long as no ENGINE-RESET is taken. -/
theorem State.Rescans.behind (h : s.Rescans t) (he : t.epoch = s.epoch)
    (hu : (t.behind more).Rescans u) : (s.behind more).Rescans u := by
  induction h with
  | ended => exact hu
  | turn s t b rest head next ih =>
    have hhead : (s.behind more).rx.rescan = b :: (rest ++ more) := congrArg (· ++ more) head
    refine .turn _ _ b (rest ++ more) hhead ?_
    rcases (s.setRx { s.rx with rescan := rest }).rxByte_cases b with ⟨hepoch, hbehind⟩ | ⟨hepoch, -, hnil⟩
    · have hturn : ((s.behind more).setRx { (s.behind more).rx with rescan := rest ++ more }).rxByte b =
          ((s.setRx { s.rx with rescan := rest }).rxByte b).behind more := hbehind more
      rw [hturn]
      exact ih (he.trans hepoch.symm) hu
    · have hend : t = (s.setRx { s.rx with rescan := rest }).rxByte b := next.unique (.ended _ hnil)
      have hwrong : s.epoch + 1 = s.epoch :=
        (hepoch.symm.trans (congrArg State.epoch hend.symm)).trans he
      exact absurd hwrong (by bv_omega)

/-! ### The turns that a rescan needs -/

/-- A bound on the turns: each discard drops a byte, and no byte is put through twice between two. -/
def Receiver.work (r : Receiver) : Nat := r.rescan.length + (r.kept.length + r.rescan.length) ^ 2

theorem work_decreases {r r' : Receiver} {rest : List RxByte} (hr : r.rescan = b :: rest)
    (h : (r'.kept.length ≤ r.kept.length + 1 ∧ r'.rescan = rest) ∨
      (r'.kept = [] ∧ r'.rescan.length ≤ r.kept.length + rest.length)) : r'.work < r.work := by
  have hlength : r.rescan.length = rest.length + 1 := congrArg List.length hr
  unfold Receiver.work
  rw [hlength]
  rcases h with ⟨hkept, hrest⟩ | ⟨hkept, hrest⟩
  · rw [hrest]
    have hpow := Nat.pow_le_pow_left
      (show r'.kept.length + rest.length ≤ r.kept.length + (rest.length + 1) by omega) 2
    omega
  · rw [hkept, List.length_nil, Nat.zero_add]
    have hpow := Nat.pow_le_pow_left hrest 2
    have hsquare : (r.kept.length + (rest.length + 1)) ^ 2 =
        (r.kept.length + rest.length) ^ 2 + 2 * (r.kept.length + rest.length) + 1 := by ring
    omega

theorem State.rxByte_work (hr : s.rx.rescan = b :: rest) :
    ((s.setRx { s.rx with rescan := rest }).rxByte b).rx.work < s.rx.work := by
  refine work_decreases hr ?_
  cases hc : s.rx.completes? b with
  | none =>
    rw [State.rxByte_of_none (s := s.setRx { s.rx with rescan := rest }) hc]
    exact (Receiver.next_shape { s.rx with rescan := rest } b).imp id fun h => ⟨h.1, h.2.le⟩
  | some f =>
    rw [State.rxByte_of_some (s := s.setRx { s.rx with rescan := rest }) hc]
    refine .inr ?_
    rcases s.frameArrives_cases f with ⟨hcomm, -⟩ | hb
    · have hrx : ((s.setRx ({ s.rx with rescan := rest } : Receiver).hunting).frameArrives f).rx =
          ({ s.rx with rescan := rest } : Receiver).hunting := congrArg State.rx (hcomm _)
      exact ⟨congrArg Receiver.kept hrx,
        (congrArg (fun r => r.rescan.length) hrx).le.trans (Nat.le_add_left _ _)⟩
    · obtain ⟨-, hrx⟩ := hb ({ s.rx with rescan := rest } : Receiver).hunting
      exact ⟨congrArg Receiver.kept hrx,
        (congrArg (fun r => r.rescan.length) hrx).le.trans (Nat.zero_le _)⟩

theorem rescanAll_rescans (fuel : Nat) : ∀ s : State, s.rx.work ≤ fuel → s.Rescans (rescanAll fuel s) := by
  induction fuel with
  | zero =>
    intro s hw
    refine .ended s (List.eq_nil_of_length_eq_zero ?_)
    unfold Receiver.work at hw
    omega
  | succ n ih =>
    intro s hw
    unfold rescanAll
    cases hr : s.rx.rescan with
    | nil => exact .ended s hr
    | cons b rest =>
      have hless := State.rxByte_work hr
      exact .turn s _ b rest hr (ih _ (by omega))

/-- The turns that the receiver allows itself suffice where nothing is kept. -/
theorem State.rescans_rescanned (h : s.rx.kept = [] ∨ s.rx.rescan = []) : s.Rescans s.rescanned := by
  rcases h with hkept | hnil
  · refine rescanAll_rescans _ s ?_
    unfold Receiver.work rescanFuel
    rw [hkept, List.length_nil, Nat.zero_add]
    have hsquare : (s.rx.rescan.length + 1) * (s.rx.rescan.length + 1) =
        s.rx.rescan.length ^ 2 + 2 * s.rx.rescan.length + 1 := by ring
    omega
  · rw [State.rescanned_of_nil hnil]
    exact .ended s hnil

theorem State.rescanned_eq (h : s.rx.kept = []) (hu : s.Rescans u) : s.rescanned = u :=
  (State.rescans_rescanned (.inl h)).unique hu

/-- A byte leaves nothing kept, or nothing to be rescanned. -/
theorem State.rxByte_kept_or_rescan (h : s.rx.rescan = []) (b : RxByte) :
    (s.rxByte b).rx.kept = [] ∨ (s.rxByte b).rx.rescan = [] := by
  cases hc : s.rx.completes? b with
  | none =>
    rw [State.rxByte_of_none hc]
    exact (Receiver.next_shape s.rx b).symm.imp And.left fun hk => hk.2.trans h
  | some f =>
    rw [State.rxByte_of_some hc]
    exact .inr (State.frameArrives_rescan (s := s.setRx s.rx.hunting) h f)

/-! ### Characters anew -/

/-- Characters received one by one do what a rescan of their bytes does, as long as no ENGINE-RESET is taken
from among them. -/
theorem runCommands_rescans (bs : List RxByte) : ∀ s : State, s.Calm → s.rx.rescan = [] →
    ∃ u, runCommands (asCharacters bs) s = .next u ∧
      ((∀ n v, runCommands ((asCharacters bs).take n) s = .next v → v.epoch = s.epoch) →
        (s.behind bs).Rescans u) := by
  induction bs with
  | nil =>
    intro s _ hnil
    exact ⟨s, rfl, fun _ => by
      have hsame : s.behind [] = s := congrArg (fun q => s.setRx { s.rx with rescan := q }) (List.append_nil _)
      rw [hsame]
      exact .ended s hnil⟩
  | cons b bs ih =>
    intro s hs hnil
    have hhigh : s.lineHigh = s := by
      show s.setRx { s.rx with breakDetector := .clear } = s
      rw [← hs.2]; rfl
    have hexec := exec_character hs.1 b
    rw [hhigh] at hexec
    have hrescans := State.rescans_rescanned (s.rxByte_kept_or_rescan hnil b)
    obtain ⟨hcalm, hdone⟩ := hrescans.calm (hs.rxByte b)
    obtain ⟨u, hrun, hu⟩ := ih _ hcalm hdone
    refine ⟨u, (runCommands_cons hexec).trans hrun, fun hepochs => ?_⟩
    have hfirst : (s.rxByte b).rescanned.epoch = s.epoch := hepochs 1 _ (runCommands_cons hexec)
    have hrest := hu fun n v hv => (hepochs (n + 1) v ((runCommands_cons hexec).trans hv)).trans hfirst.symm
    have hhead : (s.behind (b :: bs)).rx.rescan = b :: bs := congrArg (· ++ b :: bs) hnil
    refine .turn _ _ b bs hhead ?_
    have hsame : (s.behind (b :: bs)).setRx { (s.behind (b :: bs)).rx with rescan := bs } = s.behind bs := by
      show s.setRx { s.rx with rescan := bs } = s.setRx { s.rx with rescan := s.rx.rescan ++ bs }
      rw [hnil]; rfl
    rw [hsame]
    rcases s.rxByte_cases b with ⟨hepoch, hbehind⟩ | ⟨hepoch, -, hempty⟩
    · rw [hbehind]
      exact hrescans.behind (hfirst.trans hepoch.symm) hrest
    · rw [State.rescanned_of_nil hempty, hepoch] at hfirst
      exact absurd hfirst (by bv_omega)

end

/-! ### The bytes of a discarded frame in HUNT -/

/-- The receiver in HUNT with bytes to be rescanned. -/
def Receiver.inHunt (d : BreakDetector) (bs : List RxByte) : Receiver where
  phase := .hunt
  kept := []
  timer := none
  rescan := bs
  breakDetector := d

section
variable {s u : State} {d : BreakDetector} {skipped rest : List RxByte} {b : RxByte}

theorem Receiver.discard_eq (r : Receiver) : r.discard = .inHunt r.breakDetector (r.kept.tail ++ r.rescan) := rfl

/-- Bytes that begin no frame are dropped (R161). -/
theorem State.Rescans.skip (hs : ∀ b ∈ skipped, b.byte ≠ 0xA5)
    (h : (s.setRx (.inHunt d rest)).Rescans u) : (s.setRx (.inHunt d (skipped ++ rest))).Rescans u := by
  induction skipped with
  | nil => exact h
  | cons b skipped ih =>
    refine .turn _ _ b (skipped ++ rest) rfl ?_
    show ((s.setRx (.inHunt d (skipped ++ rest))).rxByte b).Rescans u
    rw [State.rxByte_hunt_other (s := s.setRx (.inHunt d (skipped ++ rest))) rfl (hs b List.mem_cons_self)]
    exact ih fun q hq => hs q (List.mem_cons_of_mem _ hq)

theorem State.rescanned_skipped (hs : ∀ b ∈ skipped, b.byte ≠ 0xA5) :
    (s.setRx (.inHunt d skipped)).rescanned = s.setRx (.inHunt d []) := by
  refine State.rescanned_eq rfl ?_
  have hend : (s.setRx (.inHunt d [])).Rescans (s.setRx (.inHunt d [])) := .ended _ rfl
  have hskip := State.Rescans.skip hs hend
  rwa [List.append_nil] at hskip

/-- The first A5h starts a new frame, which at most one more byte does not end (R162). -/
theorem State.rescanned_started (hs : ∀ b ∈ skipped, b.byte ≠ 0xA5) (hb : b.byte = 0xA5)
    (hrest : rest.length < 2) :
    (s.setRx (.inHunt d (skipped ++ b :: rest))).rescanned = s.setRx
      { Receiver.inHunt d [] with phase := .header, kept := b :: rest, timer := some b.moment } := by
  refine State.rescanned_eq rfl (State.Rescans.skip hs (.turn _ _ b rest rfl ?_))
  show ((s.setRx (.inHunt d rest)).rxByte b).Rescans _
  rw [State.rxByte_hunt_start (s := s.setRx (.inHunt d rest)) rfl hb]
  match rest, hrest with
  | [], _ => exact .ended _ rfl
  | [c], _ =>
    refine .turn _ _ c [] rfl ?_
    let r : Receiver := { Receiver.inHunt d [] with phase := .header, kept := [b], timer := some b.moment }
    have hnext : r.next c = { r with kept := [b, c] } := Receiver.next_header (r := r) rfl
    show ((s.setRx r).rxByte c).Rescans _
    rw [State.rxByte_of_none (s := s.setRx r) (Receiver.completes?_of_ne (r := r) RxPhase.noConfusion)]
    show (s.setRx (r.next c)).Rescans _
    rw [hnext]
    exact .ended _ rfl

/-- A discarded frame does what its bytes behind the start byte do when they are received anew. -/
theorem State.rescanned_anew (hs : s.Ready) (bs : List RxByte) :
    ∃ u, runCommands (asCharacters bs) (s.setRx .afterReset) = .next u ∧
      ((∀ n v, runCommands ((asCharacters bs).take n) (s.setRx .afterReset) = .next v →
        v.epoch = s.epoch) → (s.setRx (.inHunt .clear bs)).rescanned = u) := by
  obtain ⟨u, hrun, hu⟩ := runCommands_rescans bs (s.setRx .afterReset) ⟨hs, rfl⟩ rfl
  exact ⟨u, hrun, fun hepochs => State.rescanned_eq rfl (hu hepochs)⟩

end

/-! ### A frame with a bad CRC -/

/-- The last byte of a frame whose CRC bytes are `high` and `low`. -/
theorem Receiver.next_badCrc {r : Receiver} {f : Frame} {high : Byte} {last : RxByte} (hphase : r.phase = .check)
    (hbytes : rxBytes r.kept = 0xA5 :: f.covered ++ [high]) (hp : f.payload.length ≤ 260)
    (hcrc : f.crc ≠ high ++ last.byte) :
    r.completes? last = none ∧ r.next last = ({ r with kept := r.kept ++ [last] } : Receiver).discard := by
  have hall : rxBytes (r.kept ++ [last]) = [0xA5, byte (f.payload.length / 256), byte f.payload.length, f.kind,
      f.tag] ++ (f.payload ++ [high, last.byte]) := by
    rw [rxBytes, List.map_append]
    show rxBytes r.kept ++ [last.byte] = _
    rw [hbytes]
    simp [Frame.covered, be16]
  have hlen : keptLength (r.kept ++ [last]) = f.payload.length := by
    rw [keptLength, field, hall]
    exact ofBe_be16 (by omega)
  have hframe : keptFrame (r.kept ++ [last]) = f := by
    rw [keptFrame, hlen, hall]
    simp [at?]
  have hsent : keptCrc (r.kept ++ [last]) = 256 * high.toNat + last.byte.toNat := by
    have hdrop : ([0xA5, byte (f.payload.length / 256), byte f.payload.length, f.kind, f.tag] ++
        (f.payload ++ [high, last.byte])).drop (5 + f.payload.length) = [high, last.byte] := by
      rw [← List.append_assoc]
      exact List.drop_left' (by simp; omega)
    rw [keptCrc, hlen, field, hall, hdrop]
    exact ofBe_two high last.byte
  have hkept : (r.kept ++ [last]).length = 7 + keptLength (r.kept ++ [last]) := by
    have hcount := congrArg List.length hall
    rw [rxBytes, List.length_map] at hcount
    rw [hcount, hlen]
    simp
    omega
  refine ⟨Receiver.completes?_of_bad ?_, (Receiver.next_check hphase).trans (if_pos hkept)⟩
  rw [hframe, hsent, ← append_toNat]
  exact fun heq => hcrc (BitVec.eq_of_toNat_eq heq)

end Sys2Proof.Machine

open Sys2Proof Sys2Proof.Machine

/-- Settles O22: a discarded frame goes back to HUNT, and its bytes through it. -/
theorem discardedFramesAreRescanned : Obligations.DiscardedFramesAreRescanned := by
  refine ⟨?_, ?_, ?_, ?_⟩
  · intro s start high low moment hs hr hphase hkept hlong last hunting
    let r : Receiver := { s.rx with breakDetector := .clear }
    have hlength : keptLength (r.kept ++ [last]) = 256 * high.byte.toNat + low.toNat := by
      rw [show r.kept = [start, high] from hkept]
      exact ofBe_two high.byte low
    have hthree : (r.kept ++ [last]).length = 3 := by rw [show r.kept = [start, high] from hkept]; rfl
    have hnext : r.next last = .inHunt .clear [high, last] := by
      rw [Receiver.next_header (r := r) hphase, if_pos ⟨hthree, by rw [hlength]; exact hlong⟩, Receiver.discard_eq,
        show r.kept = [start, high] from hkept, show r.rescan = [] from hr]
      rfl
    have hexec := exec_character hs last
    rw [State.rxByte_of_none (s := s.lineHigh)
      (Receiver.completes?_of_ne (r := r) (by rw [show r.phase = _ from hphase]; decide))] at hexec
    rw [show exec (.rxCharacter moment low .good) s = .next ((s.lineHigh).setRx (r.next last)).rescanned
      from hexec, hnext]
    refine congrArg Host.Outcome.next ?_
    by_cases hhigh : high.byte = 0xA5
    · rw [if_pos hhigh]
      exact State.rescanned_started (s := s) (skipped := []) (fun _ h => absurd h List.not_mem_nil) hhigh
        Nat.one_lt_two
    · rw [if_neg hhigh]
      have hskipped : ∀ b ∈ [high], b.byte ≠ 0xA5 := fun b hb => by
        rw [List.mem_singleton.1 hb]; exact hhigh
      by_cases hlow : low = 0xA5
      · rw [if_pos hlow]
        exact State.rescanned_started (s := s) (b := last) (rest := []) hskipped hlow (by decide)
      · rw [if_neg hlow]
        refine State.rescanned_skipped (s := s) fun b hb => ?_
        rcases List.mem_cons.1 hb with rfl | hb
        · exact hhigh
        · rw [List.mem_singleton.1 hb]; exact hlow
  · intro s start skipped rest hs hr
    refine ⟨fun hstopped => ?_, fun hruns hskipped => ?_⟩
    · rw [exec_frameTimerExpiry_of_ready hs, State.frameTimerExpires, hstopped]
      rfl
    · have hexec : exec .frameTimerExpiry s =
          .next (s.setRx (.inHunt s.rx.breakDetector (s.rx.kept.tail ++ s.rx.rescan))).rescanned := by
        rw [exec_frameTimerExpiry_of_ready hs, State.frameTimerExpires, if_pos hruns, Receiver.discard_eq]
      rw [hexec, hr, List.append_nil]
      refine ⟨fun hkept => ?_, fun next hstart hrest hkept => ?_⟩
      · rw [hkept, List.tail_cons, State.rescanned_skipped hskipped]
        exact congrArg (fun q => Host.Outcome.next (s.setRx { s.rx with
          phase := .hunt, kept := [], timer := none, rescan := q })) hr.symm
      · rw [hkept, List.cons_append, List.tail_cons, State.rescanned_started hskipped hstart hrest]
        exact congrArg (fun q => Host.Outcome.next (s.setRx { s.rx with
          phase := .header, kept := next :: rest, timer := some next.moment, rescan := q })) hr.symm
  · intro s start behind hs hr hruns hkept hclear anew
    obtain ⟨u, hrun, hu⟩ := State.rescanned_anew hs behind
    refine ⟨u, hrun, fun hepochs => ?_⟩
    rw [exec_frameTimerExpiry_of_ready hs, State.frameTimerExpires, if_pos hruns, Receiver.discard_eq, hr,
      hkept, hclear, List.append_nil, List.tail_cons, hu hepochs]
  · intro s start behind f high low moment hs hr hphase hkept hp hbytes hcrc last anew
    obtain ⟨u, hrun, hu⟩ := State.rescanned_anew hs (behind ++ [last])
    refine ⟨u, hrun, fun hepochs => ?_⟩
    let r : Receiver := { s.rx with breakDetector := .clear }
    obtain ⟨hnone, hnext⟩ := Receiver.next_badCrc (r := r) (last := last) hphase
      (by rw [show r.kept = start :: behind from hkept]; exact hbytes) hp hcrc
    have hdiscard : r.next last = .inHunt .clear (behind ++ [last]) := by
      rw [hnext, Receiver.discard_eq, show r.kept = start :: behind from hkept, show r.rescan = [] from hr]
      exact congrArg (Receiver.inHunt .clear) (List.append_nil _)
    have hexec := exec_character hs last
    rw [State.rxByte_of_none (s := s.lineHigh) hnone] at hexec
    rw [show exec (.rxCharacter moment low .good) s = .next ((s.lineHigh).setRx (r.next last)).rescanned
      from hexec, hdiscard]
    exact congrArg Host.Outcome.next (hu hepochs)
end
